-- ==== Sys2Proof/Word.lean ====
section
/-! DEFINITION. The widths of HUFF-CORE (spec/00_scope.md R12 to R19): the 32-bit command word and register
value, the 8-bit input word, the 9-bit symbol range, the 10-bit node index, and a bit as it travels on a port. -/

namespace Sys2Proof

/-- A 32-bit register value or command word (10_state.md R32, 30_encoding.md R110). -/
abbrev Word := BitVec 32

/-- One input word of W = 8 bits (00_scope.md R12). -/
abbrev InWord := BitVec 8

/-- A symbol, a value in [0, N] = [0, 256] (00_scope.md R14); it needs 9 bits on the stream. -/
abbrev Sym := Fin 257

/-- A node index of NODE_IDX_BITS = 10 bits (10_state.md R44). -/
abbrev NodeIdx := BitVec 10

/-- A bit string, first bit in time first (00_scope.md R23). -/
abbrev Bits := List Bool

end Sys2Proof
end

