-- ==== Sys2Proof/Config.lean ====
section
/-! DEFINITION. What an implementation fixes (00_scope.md R12 to R22) and the free values: opaque constants
without a body, so that no proof can learn a value of one. -/

namespace Sys2Proof

/-- W, the bits of one input word (R12). -/
def Config.wordBits : Nat := 8

/-- W + 1, the bits of a leaf symbol in the serialized tree (R12, 42_serdes.md R190). -/
def Config.symBits : Nat := 9

/-- N = 2^W, the number of ordinary symbols (R13). -/
def Config.alphabet : Nat := 256

/-- EOF = N, the end-of-stream sentinel (R14). -/
def Config.eof : Sym := 256

/-- PQ_CAP, the capacity of the priority queue (R16). -/
def Config.pqCap : Nat := 257

/-- MAX_NODES, the capacity of the node memory (R17). -/
def Config.maxNodes : Nat := 513

/-- NIL, the index that names no record (10_state.md R44). -/
def Config.nil : NodeIdx := 0x3FF

/-- MAGIC_NUMBER: 32 bits, OPEN (R20; D3; log entry 1). -/
opaque Config.magicNumber : BitVec 32

/-- TAG_SCF: 32 bits, OPEN (R21; D4; log entry 1). -/
opaque Config.tagScf : BitVec 32

/-- How far TAG_STF lies beyond TAG_SCF + 1; it makes every pair of DISTINCT tags possible and no other (R21; log entry 1). -/
opaque Config.tagGap : Fin 4294967295

/-- TAG_STF: 32 bits, OPEN but distinct from TAG_SCF (R21; D4; log entry 1). -/
def Config.tagStf : BitVec 32 := Config.tagScf + 1 + BitVec.ofNat 32 Config.tagGap.val

/-- The constants a compressed stream depends on (44_pipeline.md R248), as one argument of the pipeline's procedures. -/
structure StreamParams where
  magic  : BitVec 32
  tagScf : BitVec 32
  tagStf : BitVec 32
  deriving DecidableEq, Repr

/-- The constants this hardware was built with (R20, R21). -/
def Config.params : StreamParams :=
  { magic := Config.magicNumber, tagScf := Config.tagScf, tagStf := Config.tagStf }

/-- What the `n`-th draw reads where the spec says a register read returns any value (10_state.md R57; I9; log entry 5). -/
opaque Config.anyWord : Nat → BitVec 32

/-- How long the prefix of the `n`-th prefix draw is, before it is reduced to the length there is
(20_memory.md R94, 70_reset_and_hazards.md R291; I10, I11; log entry 5). -/
opaque Config.anyLength : Nat → Nat

/-- What a 64-bit register holds when the exact value its rule gives does not fit it: the spec states no value
(00_scope.md R24; log entry 10). -/
opaque Config.wideValue : Int → BitVec 64

end Sys2Proof
end

