-- ==== Sys2Proof/Syntax.lean ====
section
/-! DEFINITION. The commands of HUFF-CORE, one constructor per row of spec/opcode_table.json (30_encoding.md R112),
and the host's actions (70_reset_and_hazards.md R309). -/

namespace Sys2Proof

/-- The header format F selects (30_encoding.md R110): 0 = SCF (stored counts), 1 = STF (serialized tree). -/
inductive Fmt where
  | scf
  | stf
  deriving DecidableEq, Repr

/-- The 14 commands (30_encoding.md R112). -/
inductive Instr where
  | clear
  | pqClear
  | pqEnq
  | pqDeq
  | count
  | build
  | codegen
  | serialize
  | deserialize
  | encode
  | decode
  /-- F, bit 8 of the word. -/
  | prepass (f : Fmt)
  /-- FORCE, bit 9 of the word. -/
  | commit (force : Bool)
  | decompress
  deriving DecidableEq, Repr

/-- One action of the host agent (20_memory.md R81, R86; 70_reset_and_hazards.md R290, R309). A register access
carries its width in bytes and its byte offset in the window, so that the accesses R81 gives no meaning can be written
down and refused. -/
inductive HostAct where
  | regWrite (bytes : Nat) (off : BitVec 12) (v : Word)
  | regRead (bytes : Nat) (off : BitVec 12)
  | inLoad (b : Bits)
  | inPush (b : Bits)
  | inClose
  | outTake (k : Nat)
  /-- The reset input driven to a level: asserted, or released (70_reset_and_hazards.md R290; log entry 12). -/
  | rst (asserted : Bool)
  deriving DecidableEq, Repr

/-- Who moves: the sequencer, or the host with one action (00_scope.md R29). -/
inductive Move where
  | sequencer
  | host (a : HostAct)
  deriving DecidableEq, Repr

end Sys2Proof
end

