-- ==== Sys2Proof/WellFormed.lean ====
section
/-! DEFINITION. Well-formedness. An `Instr` carries only operands every value of which is legal (F and FORCE, one bit
each: 30_encoding.md R110), so the checks stand on what CAN be ill-formed: a command word (R110, R114) and a host
register access (20_memory.md R81). -/

namespace Sys2Proof

/-- The OP values of 30_encoding.md R112. -/
def opValues : List (BitVec 8) :=
  [0x01, 0x10, 0x11, 0x12, 0x20, 0x21, 0x22, 0x23, 0x24, 0x25, 0x26, 0x30, 0x31, 0x32]

/-- OP, bits 7:0 of a command word (R110). -/
def opOf (c : Word) : BitVec 8 := c.extractLsb' 0 8

/-- F, bit 8 of a command word (R110). -/
def fBit (c : Word) : Bool := c.getLsbD 8

/-- FORCE, bit 9 of a command word (R110). -/
def forceBit (c : Word) : Bool := c.getLsbD 9

/-- OP is one of the 14 values of R112. -/
def wordOpKnown (c : Word) : Bool := opValues.contains (opOf c)

/-- F is 0 in every command but PREPASS (R110). -/
def wordFAllowed (c : Word) : Bool := !fBit c || opOf c == 0x30

/-- FORCE is 0 in every command but COMMIT (R110). -/
def wordForceAllowed (c : Word) : Bool := !forceBit c || opOf c == 0x31

/-- Bits 31:10 are 0 (R110). -/
def wordReservedZero (c : Word) : Bool := c.extractLsb' 10 22 == 0

/-- The command words that are legal (R110, R114). -/
def wordWellFormed (c : Word) : Bool :=
  wordOpKnown c && wordFAllowed c && wordForceAllowed c && wordReservedZero c

/-- A register access is 32 bits wide (20_memory.md R81). -/
def accessWide (bytes : Nat) : Bool := bytes == 4

/-- A register access is at a multiple of 4 (20_memory.md R81). -/
def accessAligned (off : BitVec 12) : Bool := off.toNat % 4 == 0

/-- The register accesses that are part of the interface (20_memory.md R81). -/
def accessWellFormed (bytes : Nat) (off : BitVec 12) : Bool := accessWide bytes && accessAligned off

/-- A command is well formed: its only operands are F and FORCE, one typed bit each, and each value of either is legal
(30_encoding.md R110, R111), so every term of `Instr` is. -/
def Instr.wellFormed (i : Instr) : Bool :=
  match i with
  | .clear | .pqClear | .pqEnq | .pqDeq | .count | .build | .codegen => true
  | .serialize | .deserialize | .encode | .decode | .decompress => true
  | .prepass _ | .commit _ => true

end Sys2Proof
end

