-- ==== Sys2Proof/Decode.lean ====
section
/-! DEFINITION. Decoding a command word by the rows of the opcode map (30_encoding.md R112, R113), total on every
32-bit value and rejecting by name (R114), and the encoder written from the same map. -/

namespace Sys2Proof

/-- Why a command word selects no row (30_encoding.md R114). Every one of them completes with ILLEGAL_CMD. -/
inductive DecodeError where
  /-- OP is none of the 14 values, including 0x00. -/
  | unknownOp
  /-- F = 1 in a command other than PREPASS. -/
  | fNotAllowed
  /-- FORCE = 1 in a command other than COMMIT. -/
  | forceNotAllowed
  /-- A 1 in bits 31:10. -/
  | reservedBits
  deriving DecidableEq, Repr

/-- F as the header format it selects (30_encoding.md R110). -/
def fmtOf (f : Bool) : Fmt := if f then .stf else .scf

/-- The bit that selects a header format (30_encoding.md R110). -/
def fmtBit (f : Fmt) : Bool := f == .stf

/-- One row of the opcode map: its word with the fields 0, its mask, and its command given F and FORCE (30_encoding.md R112). -/
structure OpRow where
  word  : Word
  mask  : Word
  instr : Bool → Bool → Instr

/-- The opcode map (30_encoding.md R112). -/
def opRows : List OpRow :=
  [ ⟨0x00000001, 0xFFFFFFFF, fun _ _ => .clear⟩,
    ⟨0x00000010, 0xFFFFFFFF, fun _ _ => .pqClear⟩,
    ⟨0x00000011, 0xFFFFFFFF, fun _ _ => .pqEnq⟩,
    ⟨0x00000012, 0xFFFFFFFF, fun _ _ => .pqDeq⟩,
    ⟨0x00000020, 0xFFFFFFFF, fun _ _ => .count⟩,
    ⟨0x00000021, 0xFFFFFFFF, fun _ _ => .build⟩,
    ⟨0x00000022, 0xFFFFFFFF, fun _ _ => .codegen⟩,
    ⟨0x00000023, 0xFFFFFFFF, fun _ _ => .serialize⟩,
    ⟨0x00000024, 0xFFFFFFFF, fun _ _ => .deserialize⟩,
    ⟨0x00000025, 0xFFFFFFFF, fun _ _ => .encode⟩,
    ⟨0x00000026, 0xFFFFFFFF, fun _ _ => .decode⟩,
    ⟨0x00000030, 0xFFFFFEFF, fun f _ => .prepass (fmtOf f)⟩,
    ⟨0x00000031, 0xFFFFFDFF, fun _ force => .commit force⟩,
    ⟨0x00000032, 0xFFFFFFFF, fun _ _ => .decompress⟩ ]

/-- A row selects the words that agree with it under its mask (30_encoding.md R112). -/
def OpRow.selects (r : OpRow) (c : Word) : Bool := c &&& r.mask == r.word

/-- The name of what is wrong with a word that selects no row (30_encoding.md R114). -/
def rejectReason (c : Word) : DecodeError :=
  if !wordOpKnown c then .unknownOp
  else if !wordReservedZero c then .reservedBits
  else if !wordFAllowed c then .fNotAllowed
  else .forceNotAllowed

/-- Decode(c) of 30_encoding.md R113. -/
def decode (c : Word) : Except DecodeError Instr :=
  match opRows.find? (·.selects c) with
  | some r => .ok (r.instr (fBit c) (forceBit c))
  | none   => .error (rejectReason c)

/-- A 1-bit field at position `k` of a command word. -/
def fieldBit (b : Bool) (k : Nat) : Word := if b then 1#32 <<< k else 0

/-- The command word of an instruction (30_encoding.md R110, R112). -/
def encode (i : Instr) : Word :=
  match i with
  | .clear         => 0x00000001
  | .pqClear       => 0x00000010
  | .pqEnq         => 0x00000011
  | .pqDeq         => 0x00000012
  | .count         => 0x00000020
  | .build         => 0x00000021
  | .codegen       => 0x00000022
  | .serialize     => 0x00000023
  | .deserialize   => 0x00000024
  | .encode        => 0x00000025
  | .decode        => 0x00000026
  | .prepass f     => 0x00000030 ||| fieldBit (fmtBit f) 8
  | .commit force  => 0x00000031 ||| fieldBit force 9
  | .decompress    => 0x00000032

/-- The instruction the decoder reads from the low `nbits` bits of `w`. Every row of spec/opcode_table.json is one
32-bit command word, taken whole from the CMD write (20_memory.md R81, R100), so no byte order enters. -/
def decodeTableWord (nbits w : Nat) : Option Instr :=
  match decode (BitVec.ofNat 32 (w % 2 ^ nbits)) with
  | .ok i    => some i
  | .error _ => none

end Sys2Proof
end

