-- ==== Sys2Proof/Machine/State.lean ====
section
/-! DEFINITION. The state of HUFF-CORE as plain data (spec/10_state.md), the two ports (20_memory.md R85), what the
host agent has pending and has received, the reasons a step can stop, and the state after reset (10_state.md R55). -/

namespace Sys2Proof.Machine

/-- The error codes a command can complete with (60_exceptions.md R261). -/
inductive ErrCode where
  | illegalCmd
  | invalidArg
  | sequence
  | pqEmpty
  | pqFull
  | countOverflow
  | badMagic
  | badTag
  | truncated
  | endOfInput
  | badSymbol
  | treeOverflow
  | badTree
  | noCode
  deriving DecidableEq, Repr

/-- The sequencer state SEQ (10_state.md R31). -/
inductive Seq where
  | idle
  | busy (c : Word)
  deriving DecidableEq, Repr

/-- CONFIG's three fields (10_state.md R36); its other bits are reserved and read 0. -/
structure PortConfig where
  inAttached  : Bool
  outAttached : Bool
  irqEn       : Bool
  deriving DecidableEq, Repr

/-- A node record (10_state.md R44). -/
inductive Node where
  | leaf (sym : Sym) (weight : BitVec 32)
  | int (left right : NodeIdx) (weight : BitVec 32)
  deriving DecidableEq, Repr

/-- An entry of the priority queue (10_state.md R46). -/
structure Entry where
  key : BitVec 32
  tag : BitVec 16
  deriving DecidableEq, Repr

/-- SOME(len, val) of the code table (10_state.md R47). -/
structure Code where
  len : BitVec 9
  val : BitVec 256
  deriving DecidableEq, Repr

/-- A table of exactly `n` entries, entry 0 first. -/
structure Table (α : Type) (n : Nat) where
  rows : List α
  size : rows.length = n
  deriving DecidableEq, Repr

/-- The table whose `n` entries are all `a`. -/
def Table.fill (α : Type) (n : Nat) (a : α) : Table α n :=
  { rows := List.replicate n a, size := List.length_replicate }

/-- Every piece of state (INVENTORY.md, State). -/
structure State where
  /-- SEQ, seen as STATUS.BUSY (10_state.md R31, R35). -/
  seq           : Seq
  /-- STATUS.DONE (R35). -/
  done          : Bool
  /-- STATUS.ERR and STATUS.ERRCODE in one home: ERRCODE is 0 when ERR = 0 (R35). -/
  error         : Option ErrCode
  /-- STATUS.OVERRUN (R35). -/
  overrun       : Bool
  /-- STATUS.PREPASS_VALID (R35, R52). -/
  prepassValid  : Bool
  /-- STATUS.TREE_VALID (R35). -/
  treeValid     : Bool
  /-- STATUS.CODES_VALID (R35). -/
  codesValid    : Bool
  /-- STATUS.FMT (R35). -/
  fmt           : Fmt
  /-- STATUS.REFUSED (R35). -/
  refused       : Bool
  /-- STATUS.LEN_MISMATCH (R35). -/
  lenMismatch   : Bool
  /-- CONFIG (R36). -/
  config        : PortConfig
  /-- RESULT (R37). -/
  result        : BitVec 64
  /-- SAVED, signed (R38). -/
  saved         : BitVec 64
  /-- EST (R39). -/
  est           : BitVec 64
  /-- INWORDS (R40). -/
  inwords       : BitVec 64
  /-- IN_BITS (R50). -/
  inBits        : BitVec 64
  /-- OUT_BITS (R50). -/
  outBits       : BitVec 64
  /-- TREE_BITS (R42). -/
  treeBits      : BitVec 32
  /-- TREE_BITS_DECL (R42). -/
  treeBitsDecl  : BitVec 32
  /-- ROOT (R43). -/
  root          : NodeIdx
  /-- The allocated records of NODE in index order; NODE_COUNT is the length (R43, R44). -/
  nodes         : List Node
  /-- PQ, the head first (R46). -/
  pq            : List Entry
  /-- PQ_KEY_IN (R49). -/
  pqKeyIn       : BitVec 32
  /-- PQ_TAG_IN, bits 15:0 (R49). -/
  pqTagIn       : BitVec 16
  /-- PQ_KEY_OUT (R49). -/
  pqKeyOut      : BitVec 32
  /-- PQ_TAG_OUT, bits 15:0 (R49). -/
  pqTagOut      : BitVec 16
  /-- FREQ (R41). -/
  freq          : Table (BitVec 32) 256
  /-- FREQ_IDX, bits 7:0 (R41, R59). -/
  freqIdx       : BitVec 8
  /-- NODE_IDX, bits 9:0 (R45, R59). -/
  nodeIdx       : BitVec 10
  /-- CODE (R47). -/
  code          : Table (Option Code) 257
  /-- CODE_IDX, bits 8:0 (R48, R59). -/
  codeIdx       : BitVec 9
  /-- IN.bits, the bits not yet taken (20_memory.md R85). -/
  inp           : Bits
  /-- IN.closed (R85). -/
  inClosed      : Bool
  /-- OUT.bits, the bits not yet drained (R85). -/
  out           : Bits
  /-- The reset input `rst`: 1 while the host holds it asserted (70_reset_and_hazards.md R290; log entry 12). -/
  rstHeld       : Bool
  /-- The model's own: how many bits of the running command's output OUT received before the completion step
  (20_memory.md R94; log entry 4). -/
  outEarly      : Nat
  /-- The model's own: how many draws the run has made (10_state.md R57; log entry 5). -/
  draws         : Nat
  /-- The model's own: the moves to come, the host's pending actions among them (00_scope.md R29; log entry 2). -/
  agenda        : List Move
  /-- The host's: the values its register reads returned, oldest first (log entry 6). -/
  reads         : List Word
  /-- The host's: the bits it took from OUT, oldest first (20_memory.md R86, 70_reset_and_hazards.md R311; log entry 6). -/
  taken         : Bits
  deriving DecidableEq, Repr

/-- The reasons the machine stops with a fault. An error of a command is no fault: it is a completion
(60_exceptions.md R266, R280). -/
inductive Fault where
  /-- Raised by CODEGEN, SERIALIZE, DECODE and COMMIT when TREE_VALID says there is a tree but the node memory is none
  from ROOT: an index without a record, or a cycle. 10_state.md R44 says this does not exist. Safe: the model stops
  (log entry 7). -/
  | brokenTree
  deriving DecidableEq, Repr

/-- The reasons the model gives a step no meaning. -/
inductive Refusal where
  /-- Raised by `exec` for an instruction without a meaning, which this model does not have. Safe. -/
  | notModelled (mnemonic : String)
  /-- Raised by a host register access that is not 32 bits wide or not 4-byte aligned (20_memory.md R81, I13). Safe. -/
  | badAccess (bytes : Nat) (off : BitVec 12)
  /-- Raised by an InLoad while SEQ is BUSY, which "has no meaning in the model" (20_memory.md R86, I14). Safe. -/
  | inLoadWhileBusy
  /-- Raised by an InPush when IN is closed, which R86 does not allow (I14). Safe. -/
  | inPushWhenClosed
  deriving DecidableEq, Repr

/-- The machine right after reset (10_state.md R55), with the ports as 95_test_vectors.md section 4 starts them
(log entry 3) and no host action pending. -/
def State.reset : State :=
  { seq           := .idle
    done          := false
    error         := none
    overrun       := false
    prepassValid  := false
    treeValid     := false
    codesValid    := false
    fmt           := .scf
    refused       := false
    lenMismatch   := false
    config        := { inAttached := false, outAttached := false, irqEn := false }
    result        := 0
    saved         := 0
    est           := 0
    inwords       := 0
    inBits        := 0
    outBits       := 0
    treeBits      := 0
    treeBitsDecl  := 0
    root          := 0
    nodes         := []
    pq            := []
    pqKeyIn       := 0
    pqTagIn       := 0
    pqKeyOut      := 0
    pqTagOut      := 0
    freq          := Table.fill (BitVec 32) 256 0
    freqIdx       := 0
    nodeIdx       := 0
    code          := Table.fill (Option Code) 257 none
    codeIdx       := 0
    inp           := []
    inClosed      := true
    out           := []
    rstHeld       := false
    outEarly      := 0
    draws         := 0
    agenda        := []
    reads         := []
    taken         := [] }

end Sys2Proof.Machine
end

