-- ==== Sys2Proof/Machine/Flags.lean ====
section
/-! DEFINITION. The STATUS and CONFIG words, the host's write to STATUS, the validity flags commands clear
(10_state.md R35, R36, R53), the error codes' numbers (60_exceptions.md R261) and the irq output (R270). -/

namespace Sys2Proof.Machine

/-- ERRCODE's number of an error (60_exceptions.md R261). -/
def errNumber (e : ErrCode) : BitVec 8 :=
  match e with
  | .illegalCmd    => 0x01
  | .invalidArg    => 0x02
  | .sequence      => 0x03
  | .pqEmpty       => 0x04
  | .pqFull        => 0x05
  | .countOverflow => 0x06
  | .badMagic      => 0x07
  | .badTag        => 0x08
  | .truncated     => 0x09
  | .endOfInput    => 0x0A
  | .badSymbol     => 0x0B
  | .treeOverflow  => 0x0C
  | .badTree       => 0x0D
  | .noCode        => 0x0E

/-- A 1-bit field of a register, at bit `k`. -/
def flagBit (b : Bool) (k : Nat) : Word := if b then 1#32 <<< k else 0

/-- STATUS.BUSY (10_state.md R35). -/
def State.busy (s : State) : Bool :=
  match s.seq with
  | .idle   => false
  | .busy _ => true

/-- STATUS.ERRCODE, 0 when ERR = 0 (10_state.md R35). -/
def State.errcode (s : State) : BitVec 8 :=
  match s.error with
  | none   => 0
  | some e => errNumber e

/-- STATUS as the host reads it while IDLE (10_state.md R35). -/
def State.statusWord (s : State) : Word :=
  flagBit s.busy 0 ||| flagBit s.done 1 ||| flagBit s.error.isSome 2 ||| flagBit s.overrun 3
    ||| (s.errcode.setWidth 32 <<< 8)
    ||| flagBit s.prepassValid 16 ||| flagBit s.treeValid 17 ||| flagBit s.codesValid 18
    ||| flagBit (s.fmt == .stf) 19 ||| flagBit s.refused 20 ||| flagBit s.lenMismatch 21

/-- A host write of `v` to STATUS while IDLE: a 1 in bit 1 clears DONE, in bit 2 ERR and ERRCODE, in bit 3 OVERRUN
(10_state.md R35). -/
def State.writeStatus (s : State) (v : Word) : State :=
  { s with
    done    := s.done && !v.getLsbD 1
    error   := if v.getLsbD 2 then none else s.error
    overrun := s.overrun && !v.getLsbD 3 }

/-- CONFIG as the host reads it (10_state.md R36). -/
def State.configWord (s : State) : Word :=
  flagBit s.config.inAttached 0 ||| flagBit s.config.outAttached 1 ||| flagBit s.config.irqEn 2

/-- A host write of `v` to CONFIG while IDLE (10_state.md R36). -/
def State.writeConfig (s : State) (v : Word) : State :=
  { s with config :=
      { inAttached := v.getLsbD 0, outAttached := v.getLsbD 1, irqEn := v.getLsbD 2 } }

/-- The irq output, a level (60_exceptions.md R270). -/
def State.irq (s : State) : Bool := s.config.irqEn && (s.done || s.error.isSome)

/-- "Clears" of COUNT and COMMIT (10_state.md R53). -/
def State.clearPrepass (s : State) : State := { s with prepassValid := false }

/-- "Clears" of CODEGEN (10_state.md R53). -/
def State.clearCodes (s : State) : State := { s with codesValid := false }

/-- "Clears" of BUILD, DESERIALIZE, PREPASS and DECOMPRESS (10_state.md R53). -/
def State.clearAllValid (s : State) : State :=
  { s with prepassValid := false, treeValid := false, codesValid := false }

/-- "Clears" of the commands that clear no flag (10_state.md R53). -/
def State.clearNone (s : State) : State := s

end Sys2Proof.Machine
end

