-- ==== Sys2Proof/Machine/Ops.lean ====
section
/-! DEFINITION. The shared operations: how a command's pseudocode runs (00_scope.md R25 to R27), its admission and
completion (60_exceptions.md R262 to R266), command acceptance (20_memory.md R82), node allocation (41_tree.md R165)
and the queue primitives (40_pqueue.md R143). An error of a command is this hardware's exception: it is taken in ONE
place, `State.completeError`. -/

namespace Sys2Proof.Machine

/-- Why a command's pseudocode stops before its end. -/
inductive Stop where
  /-- `raise E` (00_scope.md R27). -/
  | raise (e : ErrCode)
  /-- A ReadBits found too few bits on an open IN (20_memory.md R87). -/
  | wait
  /-- The node memory is no tree (10_state.md R44; log entry 7). -/
  | broken
  deriving DecidableEq, Repr

/-- A piece of a command's pseudocode: it runs on the state to a value, or to its first stop, and the state it has
reached stands either way (00_scope.md R27). -/
abbrev Cmd (α : Type) := EStateM Stop State α

/-- `raise E` (00_scope.md R27). -/
def raise {α : Type} (e : ErrCode) : Cmd α := fun s => .error (.raise e) s

/-- The walk has met an index without a record, or more records than there are. -/
def broken {α : Type} : Cmd α := fun s => .error .broken s

/-- The state the pseudocode has reached. -/
def now : Cmd State := fun s => .ok s s

/-- An assignment to registers or tables. -/
def assign (f : State → State) : Cmd Unit := fun s => .ok () (f s)

/-- A count in a 64-bit register; a count that does not fit leaves a free value (00_scope.md R24; log entry 10). -/
def count64 (n : Nat) : BitVec 64 :=
  if n < 2 ^ 64 then BitVec.ofNat 64 n else Config.wideValue n

/-- An integer in a 64-bit register, two's complement if negative (60_exceptions.md R265); one that does not fit
leaves a free value (log entry 10). -/
def int64 (r : Int) : BitVec 64 :=
  if -(2 ^ 63) ≤ r ∧ r < 2 ^ 64 then BitVec.ofInt 64 r else Config.wideValue r

/-- `complete(r)`: successful completion (60_exceptions.md R265). The output is whole on OUT, so none of it is early
any more (log entry 4). -/
def State.complete (s : State) (r : Int) : State :=
  { s with result := int64 r, done := true, seq := .idle, outEarly := 0 }

/-- Completion with error `e` (60_exceptions.md R266). -/
def State.completeError (s : State) (e : ErrCode) : State :=
  { s with result := BitVec.allOnes 64, error := some e, seq := .idle, outEarly := 0 }

/-- Command acceptance (20_memory.md R82). -/
def State.accept (s : State) (c : Word) : State :=
  { s with
    seq := .busy c, done := false, error := none, refused := false, lenMismatch := false
    inBits := 0, outBits := 0, outEarly := 0 }

/-- The flag a command needs before its pseudocode runs (60_exceptions.md R264). -/
inductive Needs where
  | nothing
  | tree
  | codes
  | prepass
  deriving DecidableEq, Repr

/-- Is the needed flag 1 (60_exceptions.md R264)? -/
def Needs.met (n : Needs) (s : State) : Bool :=
  match n with
  | .nothing => true
  | .tree    => s.treeValid
  | .codes   => s.codesValid
  | .prepass => s.prepassValid

/-- A command: the ports and the flag it needs (60_exceptions.md R263, R264), the flags it clears at admission
(10_state.md R53) and its pseudocode, whose value is its RESULT. -/
structure Command where
  needsIn  : Bool
  needsOut : Bool
  needs    : Needs
  clears   : State → State
  body     : Cmd Int

/-- Admission after decoding: ports first, then sequence; `some e` is the first check that fails (60_exceptions.md R262). -/
def Command.admission (c : Command) (s : State) : Option ErrCode :=
  if (c.needsIn && !s.config.inAttached) || (c.needsOut && !s.config.outAttached) then some .invalidArg
  else if !c.needs.met s then some .sequence
  else none

/-- How far a command has come on the bits present: its pseudocode run from its admission, which has passed. -/
def Command.run (c : Command) (s : State) : EStateM.Result Stop State Int := c.body (c.clears s)

/-- Exec(c) and its completion, one atomic transition (20_memory.md R84): a failed admission and a raise complete with
their error, an end completes with its result, and a command that must wait leaves the whole state as it is
(log entry 8). -/
def Command.exec (c : Command) (s : State) : Host.Outcome State Fault Refusal :=
  match c.admission s with
  | some e => .next (s.completeError e)
  | none =>
    match c.run s with
    | .ok r t             => .next (t.complete r)
    | .error (.raise e) t => .next (t.completeError e)
    | .error .wait _      => .next s
    | .error .broken _    => .fault .brokenTree

/-- NODE[i] of a record that exists (10_state.md R44). -/
def nodeAt (i : NodeIdx) : Cmd Node := fun s =>
  match s.nodes[i.toNat]? with
  | some n => .ok n s
  | none   => .error .broken s

/-- Alloc(rec) (41_tree.md R165). -/
def alloc (n : Node) : Cmd NodeIdx := fun s =>
  if Config.maxNodes ≤ s.nodes.length then .error (.raise .treeOverflow) s
  else .ok (BitVec.ofNat 10 s.nodes.length) { s with nodes := s.nodes ++ [n] }

/-- NODE[i] <- rec, of a record that exists (42_serdes.md R194). -/
def setNode (i : NodeIdx) (n : Node) : Cmd Unit :=
  assign fun s => { s with nodes := s.nodes.set i.toNat n }

/-- InsPos(PQ, k): the least position whose key is greater than `k`, or the length (40_pqueue.md R143). -/
def insPos (pq : List Entry) (k : BitVec 32) : Nat :=
  match pq with
  | []      => 0
  | e :: es => if k < e.key then 0 else insPos es k + 1

/-- PQ with an entry placed at its insertion position (40_pqueue.md R143). -/
def inserted (pq : List Entry) (e : Entry) : List Entry :=
  pq.take (insPos pq e.key) ++ [e] ++ pq.drop (insPos pq e.key)

/-- Enqueue(k, t) (40_pqueue.md R143). -/
def enqueue (k : BitVec 32) (t : BitVec 16) : Cmd Unit := fun s =>
  if Config.pqCap ≤ s.pq.length then .error (.raise .pqFull) s
  else .ok () { s with pq := inserted s.pq ⟨k, t⟩ }

/-- Dequeue() (40_pqueue.md R143). -/
def dequeue : Cmd Entry := fun s =>
  match s.pq with
  | []      => .error (.raise .pqEmpty) s
  | e :: es => .ok e { s with pq := es }

/-- Entry `i` of a table. -/
def Table.get {α : Type} {n : Nat} (t : Table α n) (i : Fin n) : α := t.rows[i.val]'(t.size.symm ▸ i.isLt)

/-- A table with entry `i` replaced. -/
def Table.put {α : Type} {n : Nat} (t : Table α n) (i : Fin n) (a : α) : Table α n :=
  { rows := t.rows.set i.val a, size := List.length_set.trans t.size }

/-- The block's state at its reset values; the ports, the reset input, the host's agenda and what the host has received
are no block state (10_state.md R55, 70_reset_and_hazards.md R290). -/
def State.blockReset (s : State) : State :=
  { State.reset with
    inp := s.inp, inClosed := s.inClosed, out := s.out, rstHeld := s.rstHeld
    draws := s.draws, agenda := s.agenda, reads := s.reads, taken := s.taken }

end Sys2Proof.Machine
end

