-- ==== Sys2Proof/Machine/Operands.lean ====
section
/-! DEFINITION. Where a command's operands come from and where its results go: the stream primitives ReadBits and
WriteBits (20_memory.md R87 to R89) and the entries of FREQ and CODE (10_state.md R41, R47). -/

namespace Sys2Proof.Machine

/-- The unsigned number a bit string stands for, first bit most significant (20_memory.md R87). -/
def natOfBits (b : Bits) : Nat := b.foldl (fun a x => 2 * a + x.toNat) 0

/-- The low `n` bits of `v`, bit n-1 first (20_memory.md R88). -/
def bitsOfNat (n v : Nat) : Bits :=
  match n with
  | 0     => []
  | k + 1 => v.testBit k :: bitsOfNat k v

/-- ReadBits(n): `none` is EOI, which takes nothing (20_memory.md R87). -/
def readBits (n : Nat) : Cmd (Option Nat) := fun s =>
  if n ≤ s.inp.length then
    .ok (some (natOfBits (s.inp.take n)))
      { s with inp := s.inp.drop n, inBits := count64 (s.inBits.toNat + n) }
  else if s.inClosed then .ok none s
  else .error .wait s

/-- Append a bit string to OUT, less what OUT already received of it (20_memory.md R88, R94; log entry 4). -/
def State.emit (s : State) (b : Bits) : State :=
  { s with
    out      := s.out ++ b.drop s.outEarly
    outEarly := s.outEarly - b.length
    outBits  := count64 (s.outBits.toNat + b.length) }

/-- WriteBits(n, v) (20_memory.md R88). -/
def writeBits (n v : Nat) : Cmd Unit := assign fun s => s.emit (bitsOfNat n v)

/-- FREQ[w] (10_state.md R41). -/
def State.freqAt (s : State) (w : InWord) : BitVec 32 := s.freq.get w.toFin

/-- FREQ[w] <- v (10_state.md R41). -/
def State.setFreq (s : State) (w : InWord) (v : BitVec 32) : State :=
  { s with freq := s.freq.put w.toFin v }

/-- An input word as a symbol (00_scope.md R13, R14). -/
def symOfWord (w : InWord) : Sym := ⟨w.toNat, Nat.lt_succ_of_lt w.isLt⟩

/-- CODE[s] (10_state.md R47). -/
def State.codeAt (s : State) (y : Sym) : Option Code := s.code.get y

/-- CODE[s] <- c (10_state.md R47). -/
def State.setCode (s : State) (y : Sym) (c : Code) : State :=
  { s with code := s.code.put y (some c) }

/-- The ordinary symbols 0, 1, ..., N - 1 in ascending order (41_tree.md R164). -/
def ordinarySymbols : List InWord := (List.range Config.alphabet).map (BitVec.ofNat 8)

/-- len(CODE[s]), taken as 0 when CODE[s] = NONE (44_pipeline.md R232). -/
def codeLen (c : Option Code) : Nat :=
  match c with
  | none   => 0
  | some c => c.len.toNat

end Sys2Proof.Machine
end

