-- ==== Sys2Proof/Machine/Control.lean ====
section
/-! DEFINITION. CLEAR (44_pipeline.md R250). -/

namespace Sys2Proof.Machine

/-- CLEAR: every register and table to its reset value except SEQ, CONFIG and the ports (44_pipeline.md R250). -/
def clearCommand : Command :=
  { needsIn := false, needsOut := false, needs := .nothing
    clears := State.clearAllValid
    body := do
      assign fun s => { s.blockReset with seq := s.seq, config := s.config }
      return 0 }

/-- The meaning of CLEAR (44_pipeline.md R250). -/
def execClear (s : State) : Host.Outcome State Fault Refusal := clearCommand.exec s

end Sys2Proof.Machine
end

