-- ==== Sys2Proof/Machine/PQueue.lean ====
section
/-! DEFINITION. The priority queue commands PQ_CLEAR, PQ_ENQ and PQ_DEQ (40_pqueue.md R144, R145, R148). -/

namespace Sys2Proof.Machine

/-- PQ_CLEAR (40_pqueue.md R144). -/
def pqClearCommand : Command :=
  { needsIn := false, needsOut := false, needs := .nothing
    clears := State.clearNone
    body := do
      assign fun s => { s with pq := [] }
      return 0 }

/-- PQ_ENQ: insert (PQ_KEY_IN, PQ_TAG_IN) (40_pqueue.md R145). -/
def pqEnqCommand : Command :=
  { needsIn := false, needsOut := false, needs := .nothing
    clears := State.clearNone
    body := do
      let s ← now
      enqueue s.pqKeyIn s.pqTagIn
      return 0 }

/-- PQ_DEQ: remove the head entry and return it (40_pqueue.md R148). -/
def pqDeqCommand : Command :=
  { needsIn := false, needsOut := false, needs := .nothing
    clears := State.clearNone
    body := do
      let e ← dequeue
      assign fun s => { s with pqKeyOut := e.key, pqTagOut := e.tag }
      return (e.key.toNat : Int) }

/-- The meaning of PQ_CLEAR (40_pqueue.md R144). -/
def execPqClear (s : State) : Host.Outcome State Fault Refusal := pqClearCommand.exec s

/-- The meaning of PQ_ENQ (40_pqueue.md R145). -/
def execPqEnq (s : State) : Host.Outcome State Fault Refusal := pqEnqCommand.exec s

/-- The meaning of PQ_DEQ (40_pqueue.md R148). -/
def execPqDeq (s : State) : Host.Outcome State Fault Refusal := pqDeqCommand.exec s

end Sys2Proof.Machine
end

