-- ==== Sys2Proof/Machine/Bitstream.lean ====
section
/-! DEFINITION. The bit-stream encoder and decoder: ENCODE and DECODE (43_bitstream.md R210 to R224). -/

namespace Sys2Proof.Machine

/-- Write the code of a symbol and answer its length; NO_CODE when it has none (43_bitstream.md R211, R213). -/
def writeCode (y : Sym) : Cmd Nat := do
  let s ← now
  match s.codeAt y with
  | none   => raise .noCode
  | some c =>
    writeBits c.len.toNat c.val.toNat
    return c.len.toNat

/-- The loop of EncodeBody (43_bitstream.md R211); `n` is the number of bits written so far. `fuel` bounds the words;
it never runs out when it is above the number of bits on IN. -/
def encodeLoop (fuel n : Nat) : Cmd Nat :=
  match fuel with
  | 0     => broken
  | k + 1 => do
    match ← readBits Config.wordBits with
    | none   => return n
    | some w =>
      let len ← writeCode (symOfWord (BitVec.ofNat 8 w))
      encodeLoop k (n + len)

/-- EncodeBody() (43_bitstream.md R211). -/
def encodeBody : Cmd Nat := do
  let s ← now
  let n ← encodeLoop (s.inp.length + 1) 0
  let len ← writeCode Config.eof
  return n + len

/-- ENCODE (43_bitstream.md R212). -/
def encodeCommand : Command :=
  { needsIn := true, needsOut := true, needs := .codes
    clears := State.clearNone
    body := do
      let n ← encodeBody
      return (n : Int) }

/-- The child of a record the bit selects (43_bitstream.md R216); the record under the cursor is internal (R218). -/
def childOf (n : Node) (b : Nat) : Cmd NodeIdx :=
  match n with
  | .leaf _ _  => broken
  | .int l r _ => return if b = 0 then l else r

/-- The loop of DecodeBody (43_bitstream.md R218): `cur` is the cursor, `n` the number of words written so far. `fuel`
bounds the bits; it never runs out when it is above the number of bits on IN. -/
def decodeLoop (fuel : Nat) (cur : NodeIdx) (n : Nat) : Cmd Nat :=
  match fuel with
  | 0     => broken
  | k + 1 => do
    match ← readBits 1 with
    | none   => raise .endOfInput
    | some b =>
      let here ← nodeAt cur
      let next ← childOf here b
      match ← nodeAt next with
      | .leaf y _ =>
        if y = Config.eof then return n
        else
          writeBits Config.wordBits y.val
          let s ← now
          decodeLoop k s.root (n + 1)
      | .int _ _ _ => decodeLoop k next n

/-- DecodeBody() (43_bitstream.md R218), with the single-leaf root of R220. -/
def decodeBody : Cmd Nat := do
  let s ← now
  match ← nodeAt s.root with
  | .leaf y _  => if y = Config.eof then return 0 else raise .badTree
  | .int _ _ _ => decodeLoop (s.inp.length + 1) s.root 0

/-- DECODE (43_bitstream.md R219). -/
def decodeCommand : Command :=
  { needsIn := true, needsOut := true, needs := .tree
    clears := State.clearNone
    body := do
      let n ← decodeBody
      return ((n * Config.wordBits : Nat) : Int) }

/-- The meaning of ENCODE (43_bitstream.md R212). -/
def execEncode (s : State) : Host.Outcome State Fault Refusal := encodeCommand.exec s

/-- The meaning of DECODE (43_bitstream.md R219). -/
def execDecode (s : State) : Host.Outcome State Fault Refusal := decodeCommand.exec s

end Sys2Proof.Machine
end

