-- ==== Sys2Proof/Machine/Serdes.lean ====
section
/-! DEFINITION. The tree serializer and deserializer: SERIALIZE and DESERIALIZE (42_serdes.md R190 to R201). -/

namespace Sys2Proof.Machine

/-- Ser(i): write the subtree at record `i` and answer the bits written (42_serdes.md R191). `fuel` bounds the depth. -/
def ser (fuel : Nat) (i : NodeIdx) : Cmd Nat :=
  match fuel with
  | 0     => broken
  | k + 1 => do
    match ← nodeAt i with
    | .leaf y _ =>
      writeBits 1 1
      writeBits Config.symBits y.val
      return Config.wordBits + 2
    | .int l r _ =>
      writeBits 1 0
      let a ← ser k l
      let b ← ser k r
      return 1 + a + b

/-- Ser(ROOT) (42_serdes.md R192). -/
def serRoot : Cmd Nat := do
  let s ← now
  ser s.nodes.length s.root

/-- SERIALIZE (42_serdes.md R192). -/
def serializeCommand : Command :=
  { needsIn := false, needsOut := true, needs := .tree
    clears := State.clearNone
    body := do
      let n ← serRoot
      return (n : Int) }

/-- Parse(): read one tree and answer its root record (42_serdes.md R194). `fuel` bounds the depth; every level above
has a record of its own, so MAX_NODES + 1 is enough. -/
def parse (fuel : Nat) : Cmd NodeIdx :=
  match fuel with
  | 0     => broken
  | k + 1 => do
    match ← readBits 1 with
    | none => raise .truncated
    | some b =>
      if b = 0 then
        let n ← alloc (.int Config.nil Config.nil 0)
        let l ← parse k
        let r ← parse k
        setNode n (.int l r 0)
        return n
      else
        match ← readBits Config.symBits with
        | none => raise .truncated
        | some v => if h : v < 257 then alloc (.leaf ⟨v, h⟩ 0) else raise .badSymbol

/-- The tree part of DESERIALIZE and of DECOMPRESS in STF: NODE_COUNT, ROOT and TREE_BITS (42_serdes.md R197,
44_pipeline.md R240). -/
def parseTree : Cmd Unit := do
  assign fun s => { s with nodes := [] }
  let before ← now
  let r ← parse (Config.maxNodes + 1)
  assign fun s =>
    { s with root := r, treeBits := BitVec.ofNat 32 (s.inBits.toNat - before.inBits.toNat) }

/-- DESERIALIZE (42_serdes.md R197). -/
def deserializeCommand : Command :=
  { needsIn := true, needsOut := false, needs := .nothing
    clears := State.clearAllValid
    body := do
      parseTree
      assign fun s => { s with treeValid := true }
      let s ← now
      return (s.treeBits.toNat : Int) }

/-- The meaning of SERIALIZE (42_serdes.md R192). -/
def execSerialize (s : State) : Host.Outcome State Fault Refusal := serializeCommand.exec s

/-- The meaning of DESERIALIZE (42_serdes.md R197). -/
def execDeserialize (s : State) : Host.Outcome State Fault Refusal := deserializeCommand.exec s

end Sys2Proof.Machine
end

