-- ==== Sys2Proof/Machine/Tree.lean ====
section
/-! DEFINITION. Frequency counting, the tree builder and the code generator: COUNT, BUILD and CODEGEN
(41_tree.md R160 to R174). -/

namespace Sys2Proof.Machine

/-- FreqInc(w) (41_tree.md R162). -/
def freqInc (w : InWord) : Cmd Unit := fun s =>
  if s.freqAt w = BitVec.allOnes 32 then .error (.raise .countOverflow) s
  else .ok () (s.setFreq w (s.freqAt w + 1))

/-- The loop of COUNT (41_tree.md R161). `fuel` bounds the words there can be; it never runs out when it is above the
number of bits on IN. -/
def countLoop (fuel : Nat) : Cmd Unit :=
  match fuel with
  | 0     => broken
  | k + 1 => do
    match ← readBits Config.wordBits with
    | none   => return ()
    | some w =>
      freqInc (BitVec.ofNat 8 w)
      assign fun s => { s with inwords := count64 (s.inwords.toNat + 1) }
      countLoop k

/-- The body of COUNT without its complete (41_tree.md R161). -/
def countBody : Cmd Unit := do
  assign fun s => { s with freq := Table.fill (BitVec 32) 256 0, inwords := 0 }
  let s ← now
  countLoop (s.inp.length + 1)

/-- COUNT (41_tree.md R161). -/
def countCommand : Command :=
  { needsIn := true, needsOut := false, needs := .nothing
    clears := State.clearPrepass
    body := do
      countBody
      let s ← now
      return (s.inwords.toNat : Int) }

/-- An entry's tag for a node index (41_tree.md R166). -/
def tagOfIdx (i : NodeIdx) : BitVec 16 := i.setWidth 16

/-- The node index an entry's tag names (41_tree.md R166). -/
def idxOfTag (t : BitVec 16) : NodeIdx := t.setWidth 10

/-- Create one leaf and enqueue it under its weight (41_tree.md R163, R166). -/
def addLeaf (y : Sym) (weight : BitVec 32) : Cmd Unit := do
  let i ← alloc (.leaf y weight)
  enqueue weight (tagOfIdx i)

/-- The leaves of the symbols listed with their frequencies, in that order, where the frequency is positive
(41_tree.md R163, R164). -/
def addLeaves (fs : List (InWord × BitVec 32)) : Cmd Unit :=
  match fs with
  | []           => return ()
  | (w, f) :: fs => do
    if f ≠ 0 then addLeaf (symOfWord w) f
    addLeaves fs

/-- Every ordinary symbol with its frequency, in ascending order (41_tree.md R164). -/
def State.frequencies (s : State) : List (InWord × BitVec 32) := ordinarySymbols.zip s.freq.rows

/-- c(x): 1 for a leaf, its own weight for an internal node (41_tree.md R167). -/
def childWeight (n : Node) : Nat :=
  match n with
  | .leaf _ _       => 1
  | .int _ _ weight => weight.toNat

/-- Weight(a, b) (41_tree.md R167). -/
def mergeWeight (a b : Node) : BitVec 32 := BitVec.ofNat 32 (childWeight a + childWeight b + 1)

/-- One pass of the merge loop (41_tree.md R166): the first dequeued is the left child. -/
def mergeOnce : Cmd Unit := do
  let a ← dequeue
  let b ← dequeue
  let na ← nodeAt (idxOfTag a.tag)
  let nb ← nodeAt (idxOfTag b.tag)
  let n ← alloc (.int (idxOfTag a.tag) (idxOfTag b.tag) (mergeWeight na nb))
  enqueue (mergeWeight na nb) (tagOfIdx n)

/-- The merge loop (41_tree.md R166); each pass leaves one entry fewer, so it ends within PQ_CAP passes. -/
def mergeLoop (fuel : Nat) : Cmd Unit :=
  match fuel with
  | 0     => broken
  | k + 1 => do
    let s ← now
    if s.pq.length ≠ 1 then
      mergeOnce
      mergeLoop k

/-- The weight a record holds (10_state.md R44). -/
def weightOf (n : Node) : BitVec 32 :=
  match n with
  | .leaf _ weight  => weight
  | .int _ _ weight => weight

/-- P, the number of ordinary symbols with a positive frequency (41_tree.md R169). -/
def State.positives (s : State) : Nat := s.freq.rows.countP (· ≠ 0)

/-- Size accounting, bitsOfTreeRepresentation (41_tree.md R169). -/
def sizeAccounting : Cmd Unit := do
  let s ← now
  let root ← nodeAt s.root
  assign fun s => { s with treeBits := BitVec.ofNat 32 ((weightOf root).toNat + Config.symBits * (s.positives + 1)) }

/-- The body of BUILD without its complete (41_tree.md R170). -/
def buildBody : Cmd Unit := do
  assign fun s => { s with pq := [], nodes := [] }
  let s ← now
  addLeaves s.frequencies
  addLeaf Config.eof 1
  mergeLoop Config.pqCap
  let r ← dequeue
  assign fun s => { s with root := idxOfTag r.tag }
  sizeAccounting
  assign fun s => { s with treeValid := true }

/-- BUILD (41_tree.md R170). -/
def buildCommand : Command :=
  { needsIn := false, needsOut := false, needs := .nothing
    clears := State.clearAllValid
    body := do
      buildBody
      let s ← now
      return (s.nodes.length : Int) }

/-- Walk(i, d, v) (41_tree.md R172): `d` the depth, `v` the path's bits. `fuel` bounds the depth of the tree; it never
runs out on a tree when it is at least the number of records. -/
def walk (fuel : Nat) (i : NodeIdx) (d v : Nat) : Cmd Unit :=
  match fuel with
  | 0     => broken
  | k + 1 => do
    match ← nodeAt i with
    | .leaf y _  => assign fun s => s.setCode y ⟨BitVec.ofNat 9 d, BitVec.ofNat 256 v⟩
    | .int l r _ =>
      walk k l (d + 1) (2 * v)
      walk k r (d + 1) (2 * v + 1)

/-- The body of CODEGEN without its complete (41_tree.md R172). -/
def codegenBody : Cmd Unit := do
  assign fun s => { s with code := Table.fill (Option Code) 257 none }
  let s ← now
  walk s.nodes.length s.root 0 0
  assign fun s => { s with codesValid := true }

/-- The number of symbols with a code (41_tree.md R172). -/
def State.codeCount (s : State) : Nat := s.code.rows.countP (·.isSome)

/-- CODEGEN (41_tree.md R172). -/
def codegenCommand : Command :=
  { needsIn := false, needsOut := false, needs := .tree
    clears := State.clearCodes
    body := do
      codegenBody
      let s ← now
      return (s.codeCount : Int) }

/-- The meaning of COUNT (41_tree.md R161). -/
def execCount (s : State) : Host.Outcome State Fault Refusal := countCommand.exec s

/-- The meaning of BUILD (41_tree.md R170). -/
def execBuild (s : State) : Host.Outcome State Fault Refusal := buildCommand.exec s

/-- The meaning of CODEGEN (41_tree.md R172). -/
def execCodegen (s : State) : Host.Outcome State Fault Refusal := codegenCommand.exec s

end Sys2Proof.Machine
end

