-- ==== Sys2Proof/Machine/Pipeline.lean ====
section
/-! DEFINITION. The compression pipeline: PREPASS, COMMIT and DECOMPRESS (44_pipeline.md R230 to R248). Each procedure
takes the stream's constants as an argument; the meanings pass the ones the hardware was built with. -/

namespace Sys2Proof.Machine

/-- The body's length in bits for the counted words, the sentinel's code included (44_pipeline.md R232). -/
def State.bodyEstimate (s : State) : Nat :=
  (List.zipWith (fun f c => f.toNat * codeLen c) s.freq.rows s.code.rows).sum
    + codeLen (s.codeAt Config.eof)

/-- Estimate(F) (44_pipeline.md R232). -/
def State.estimate (s : State) (f : Fmt) : Nat :=
  32 + 32
    + (match f with
       | .scf => Config.alphabet * 32
       | .stf => 32 + s.treeBits.toNat)
    + s.bodyEstimate

/-- The body of PREPASS after its admission (44_pipeline.md R231, R233). -/
def prepassBody (f : Fmt) : Cmd Int := do
  countBody
  buildBody
  codegenBody
  let s ← now
  let est := s.estimate f
  let saved : Int := (s.inwords.toNat * Config.wordBits : Nat) - (est : Int)
  assign fun s =>
    { s with
      fmt := f, est := count64 est, saved := int64 saved
      prepassValid := true, treeValid := true, codesValid := true }
  return saved

/-- PREPASS (44_pipeline.md R231). -/
def prepassCommand (f : Fmt) : Command :=
  { needsIn := true, needsOut := false, needs := .nothing
    clears := State.clearAllValid
    body := prepassBody f }

/-- The counts of an SCF header, in the order listed (44_pipeline.md R235, R238). -/
def writeCounts (fs : List (BitVec 32)) : Cmd Unit :=
  match fs with
  | []      => return ()
  | f :: fs => do
    writeBits 32 f.toNat
    writeCounts fs

/-- The tag and header of the retained format (44_pipeline.md R238). -/
def writeHeader (p : StreamParams) : Cmd Unit := do
  let s ← now
  match s.fmt with
  | .scf =>
    writeBits 32 p.tagScf.toNat
    writeCounts s.freq.rows
  | .stf =>
    writeBits 32 p.tagStf.toNat
    writeBits 32 s.treeBits.toNat
    let _ ← serRoot

/-- The body of COMMIT after its admission (44_pipeline.md R235 to R238). -/
def commitBody (p : StreamParams) (force : Bool) : Cmd Int := do
  let s ← now
  if !force && s.saved.toInt ≤ 0 then
    assign fun s => { s with refused := true }
    return 0
  else
    writeBits 32 p.magic.toNat
    writeHeader p
    let _ ← encodeBody
    let s ← now
    return (s.outBits.toNat : Int)

/-- COMMIT (44_pipeline.md R235). -/
def commitCommand (p : StreamParams) (force : Bool) : Command :=
  { needsIn := true, needsOut := true, needs := .prepass
    clears := State.clearPrepass
    body := commitBody p force }

/-- ReadBits(32) of a header field: TRUNCATED at the end of input (44_pipeline.md R240, R241). -/
def readField : Cmd (BitVec 32) := do
  match ← readBits 32 with
  | none   => raise .truncated
  | some v => return BitVec.ofNat 32 v

/-- The counts of an SCF header, each written into FREQ as it is read (44_pipeline.md R243). -/
def readCounts (ws : List InWord) : Cmd Unit :=
  match ws with
  | []      => return ()
  | w :: ws => do
    let c ← readField
    assign fun s => s.setFreq w c
    readCounts ws

/-- The STF header: the declared length, then the tree (44_pipeline.md R244). -/
def readStf : Cmd Unit := do
  let d ← readField
  assign fun s => { s with treeBitsDecl := d }
  parseTree
  assign fun s => { s with lenMismatch := s.lenMismatch || s.treeBits != d }

/-- The magic number, the tag and the header, up to the complete tree (44_pipeline.md R240 to R245). -/
def readHeader (p : StreamParams) : Cmd Unit := do
  let m ← readField
  if m ≠ p.magic then raise .badMagic
  else
    let t ← readField
    if t = p.tagScf then
      readCounts ordinarySymbols
      buildBody
    else if t = p.tagStf then readStf
    else raise .badTag
    assign fun s => { s with treeValid := true }

/-- The body of DECOMPRESS after its admission (44_pipeline.md R240). -/
def decompressBody (p : StreamParams) : Cmd Int := do
  readHeader p
  let n ← decodeBody
  return ((n * Config.wordBits : Nat) : Int)

/-- DECOMPRESS (44_pipeline.md R240). -/
def decompressCommand (p : StreamParams) : Command :=
  { needsIn := true, needsOut := true, needs := .nothing
    clears := State.clearAllValid
    body := decompressBody p }

/-- The meaning of PREPASS (44_pipeline.md R231). -/
def execPrepass (f : Fmt) (s : State) : Host.Outcome State Fault Refusal := (prepassCommand f).exec s

/-- The meaning of COMMIT (44_pipeline.md R235). -/
def execCommit (force : Bool) (s : State) : Host.Outcome State Fault Refusal :=
  (commitCommand Config.params force).exec s

/-- The meaning of DECOMPRESS (44_pipeline.md R240). -/
def execDecompress (s : State) : Host.Outcome State Fault Refusal := (decompressCommand Config.params).exec s

end Sys2Proof.Machine
end

