-- ==== Sys2Proof/Machine/Dispatch.lean ====
section
/-! DEFINITION. The meaning of each command, one arm per row of spec/opcode_table.json (30_encoding.md R112). -/

namespace Sys2Proof.Machine

def exec (i : Instr) (s : State) : Host.Outcome State Fault Refusal :=
  match i with
  | .clear => Sys2Proof.Machine.execClear s
  | .pqClear => Sys2Proof.Machine.execPqClear s
  | .pqEnq => Sys2Proof.Machine.execPqEnq s
  | .pqDeq => Sys2Proof.Machine.execPqDeq s
  | .count => Sys2Proof.Machine.execCount s
  | .build => Sys2Proof.Machine.execBuild s
  | .codegen => Sys2Proof.Machine.execCodegen s
  | .serialize => Sys2Proof.Machine.execSerialize s
  | .deserialize => Sys2Proof.Machine.execDeserialize s
  | .encode => Sys2Proof.Machine.execEncode s
  | .decode => Sys2Proof.Machine.execDecode s
  | .prepass f => Sys2Proof.Machine.execPrepass f s
  | .commit force => Sys2Proof.Machine.execCommit force s
  | .decompress => Sys2Proof.Machine.execDecompress s

end Sys2Proof.Machine
end

