-- ==== Sys2Proof/Machine/Registers.lean ====
section
/-! DEFINITION. The register window as the host sees it (10_state.md R32 to R50, R56 to R59): the register at each
offset, its value and the effect of a write while SEQ = IDLE, and an access in either state of the sequencer
(20_memory.md R81 to R83, 10_state.md R57). -/

namespace Sys2Proof.Machine

/-- The host-visible registers (10_state.md R32). -/
inductive Reg where
  | id
  | cmd
  | status
  | config
  | resultLo
  | resultHi
  | savedLo
  | savedHi
  | estLo
  | estHi
  | inwordsLo
  | inwordsHi
  | treeBits
  | treeBitsDecl
  | treeInfo
  | pqSize
  | pqKeyIn
  | pqTagIn
  | pqKeyOut
  | pqTagOut
  | freqIdx
  | freqData
  | nodeIdx
  | nodeW0
  | nodeW1
  | nodeW2
  | codeIdx
  | codeInfo
  | codeVal (k : Fin 8)
  | inBitsLo
  | inBitsHi
  | outBitsLo
  | outBitsHi
  /-- Offsets 0x0A0 to 0xFFC (10_state.md R56). -/
  | reserved
  deriving DecidableEq, Repr

/-- The registers at offsets 0x000, 0x004, 0x008, ... in order (10_state.md R32). -/
def regMap : List Reg :=
  [ .id, .cmd, .status, .config, .resultLo, .resultHi, .savedLo, .savedHi, .estLo, .estHi, .inwordsLo, .inwordsHi,
    .treeBits, .treeBitsDecl, .treeInfo, .pqSize, .pqKeyIn, .pqTagIn, .pqKeyOut, .pqTagOut ]
  ++ [ .freqIdx, .freqData, .nodeIdx, .nodeW0, .nodeW1, .nodeW2, .codeIdx, .codeInfo,
    .codeVal 0, .codeVal 1, .codeVal 2, .codeVal 3, .codeVal 4, .codeVal 5, .codeVal 6, .codeVal 7,
    .inBitsLo, .inBitsHi, .outBitsLo, .outBitsHi ]

/-- The register at a byte offset that is a multiple of 4 (10_state.md R32, R56). -/
def regAt (off : BitVec 12) : Reg := (regMap[off.toNat / 4]?).getD .reserved

/-- ID (10_state.md R33). -/
def idValue : Word := 0x48430108

/-- The low half of a 64-bit register (10_state.md R32). -/
def loHalf (x : BitVec 64) : Word := x.extractLsb' 0 32

/-- The high half of a 64-bit register (10_state.md R32). -/
def hiHalf (x : BitVec 64) : Word := x.extractLsb' 32 32

/-- TREEINFO (10_state.md R43). -/
def State.treeInfo (s : State) : Word :=
  (BitVec.ofNat 10 s.nodes.length).setWidth 32 <<< 16 ||| s.root.setWidth 32

/-- NODE_W0, NODE_W1 and NODE_W2 of a record (10_state.md R45). -/
def nodeWords (n : Option Node) : Word × Word × Word :=
  match n with
  | none                => (0, 0, 0)
  | some (.leaf y w)    => (0x80000000 ||| BitVec.ofNat 32 y.val, w, 0x03FF03FF)
  | some (.int l r w)   => (0, w, r.setWidth 32 <<< 16 ||| l.setWidth 32)

/-- The record the NODE window shows: none at or beyond NODE_COUNT (10_state.md R45). -/
def State.nodeWindow (s : State) : Word × Word × Word := nodeWords s.nodes[s.nodeIdx.toNat]?

/-- The code the CODE window shows (10_state.md R48). -/
def State.codeWindow (s : State) : Option Code :=
  if s.codesValid then (s.code.rows[s.codeIdx.toNat]?).join else none

/-- CODE_INFO (10_state.md R48). -/
def codeInfo (c : Option Code) : Word :=
  match c with
  | none   => 0
  | some c => 0x80000000 ||| c.len.setWidth 32

/-- CODE_VALk (10_state.md R48). -/
def codeVal (c : Option Code) (k : Fin 8) : Word :=
  match c with
  | none   => 0
  | some c => c.val.extractLsb' (32 * k.val) 32

/-- The value a read of a register returns while SEQ = IDLE (10_state.md R33 to R50, R56). -/
def State.readReg (s : State) (r : Reg) : Word :=
  match r with
  | .id           => idValue
  | .cmd          => 0
  | .status       => s.statusWord
  | .config       => s.configWord
  | .resultLo     => loHalf s.result
  | .resultHi     => hiHalf s.result
  | .savedLo      => loHalf s.saved
  | .savedHi      => hiHalf s.saved
  | .estLo        => loHalf s.est
  | .estHi        => hiHalf s.est
  | .inwordsLo    => loHalf s.inwords
  | .inwordsHi    => hiHalf s.inwords
  | .treeBits     => s.treeBits
  | .treeBitsDecl => s.treeBitsDecl
  | .treeInfo     => s.treeInfo
  | .pqSize       => (BitVec.ofNat 9 s.pq.length).setWidth 32
  | .pqKeyIn      => s.pqKeyIn
  | .pqTagIn      => s.pqTagIn.setWidth 32
  | .pqKeyOut     => s.pqKeyOut
  | .pqTagOut     => s.pqTagOut.setWidth 32
  | .freqIdx      => s.freqIdx.setWidth 32
  | .freqData     => s.freqAt s.freqIdx
  | .nodeIdx      => s.nodeIdx.setWidth 32
  | .nodeW0       => s.nodeWindow.1
  | .nodeW1       => s.nodeWindow.2.1
  | .nodeW2       => s.nodeWindow.2.2
  | .codeIdx      => s.codeIdx.setWidth 32
  | .codeInfo     => codeInfo s.codeWindow
  | .codeVal k    => codeVal s.codeWindow k
  | .inBitsLo     => loHalf s.inBits
  | .inBitsHi     => hiHalf s.inBits
  | .outBitsLo    => loHalf s.outBits
  | .outBitsHi    => hiHalf s.outBits
  | .reserved     => 0

/-- The effect of a host write of `v` to a register while SEQ = IDLE; a write to a read-only register or a reserved
offset is ignored (10_state.md R34 to R36, R41, R45, R48, R49, R56, R58, R59). -/
def State.writeReg (s : State) (r : Reg) (v : Word) : State :=
  match r with
  | .cmd      => s.accept v
  | .status   => s.writeStatus v
  | .config   => s.writeConfig v
  | .pqKeyIn  => { s with pqKeyIn := v }
  | .pqTagIn  => { s with pqTagIn := v.setWidth 16 }
  | .freqIdx  => { s with freqIdx := v.setWidth 8 }
  | .freqData => { s.setFreq s.freqIdx v with prepassValid := false }
  | .nodeIdx  => { s with nodeIdx := v.setWidth 10 }
  | .codeIdx  => { s with codeIdx := v.setWidth 9 }
  | .id | .resultLo | .resultHi | .savedLo | .savedHi | .estLo | .estHi => s
  | .inwordsLo | .inwordsHi | .treeBits | .treeBitsDecl | .treeInfo | .pqSize => s
  | .pqKeyOut | .pqTagOut | .nodeW0 | .nodeW1 | .nodeW2 | .codeInfo | .codeVal _ => s
  | .inBitsLo | .inBitsHi | .outBitsLo | .outBitsHi | .reserved => s

/-- What a read of a register returns while SEQ = BUSY, given a drawn word: STATUS has BUSY = 1 and any other bits,
every other register is any value (10_state.md R57; log entry 5). -/
def busyRead (r : Reg) (draw : Word) : Word :=
  if r = .status then draw ||| 1 else draw

/-- A host write: lost while `rst` holds the block at its reset values (70_reset_and_hazards.md R290; log entry 12);
otherwise, in either state of the sequencer: while BUSY a CMD write sets OVERRUN and any other is ignored
(20_memory.md R83, 10_state.md R57). -/
def State.hostWrite (s : State) (r : Reg) (v : Word) : State :=
  if s.rstHeld then s
  else
    match s.seq with
    | .idle   => s.writeReg r v
    | .busy _ => if r = .cmd then { s with overrun := true } else s

/-- A host read in either state of the sequencer; what it returns is put at the end of `reads` (10_state.md R57, R59;
log entry 6). -/
def State.hostRead (s : State) (r : Reg) : State :=
  match s.seq with
  | .idle   => { s with reads := s.reads ++ [s.readReg r] }
  | .busy _ => { s with reads := s.reads ++ [busyRead r (Config.anyWord s.draws)], draws := s.draws + 1 }

end Sys2Proof.Machine
end

