-- ==== Sys2Proof/Machine/HostPort.lean ====
section
/-! DEFINITION. The host's actions (20_memory.md R86, 70_reset_and_hazards.md R290, R291, R309): the ports, `rst`, and
the register accesses of Registers.lean, each as one step of the host agent. -/

namespace Sys2Proof.Machine

/-- The command a decoded instruction stands for. -/
def commandOf (i : Instr) : Command :=
  match i with
  | .clear        => clearCommand
  | .pqClear      => pqClearCommand
  | .pqEnq        => pqEnqCommand
  | .pqDeq        => pqDeqCommand
  | .count        => countCommand
  | .build        => buildCommand
  | .codegen      => codegenCommand
  | .serialize    => serializeCommand
  | .deserialize  => deserializeCommand
  | .encode       => encodeCommand
  | .decode       => decodeCommand
  | .prepass f    => prepassCommand f
  | .commit force => commitCommand Config.params force
  | .decompress   => decompressCommand Config.params

/-- The state a run of a command has reached on the bits present, whether it ended, raised or waits. -/
def Command.reached (c : Command) (s : State) : State :=
  match c.admission s with
  | some _ => s
  | none =>
    match c.run s with
    | .ok _ t    => t
    | .error _ t => t

/-- What the running command has come to on the bits present: the state itself while IDLE or when the word is illegal. -/
def State.progress (s : State) : State :=
  match s.seq with
  | .idle => s
  | .busy c =>
    match decode c with
    | .ok i    => (commandOf i).reached s
    | .error _ => s

/-- Has the run on the bits present stopped at a ReadBits that finds too few bits on an open IN (20_memory.md R87)? -/
def Command.waits (c : Command) (s : State) : Bool :=
  match c.admission s with
  | some _ => false
  | none =>
    match c.run s with
    | .ok _ _               => false
    | .error .wait _        => true
    | .error (.raise _) _   => false
    | .error .broken _      => false

/-- Is the running command waiting for bits (20_memory.md R84)? -/
def State.waiting (s : State) : Bool :=
  match s.seq with
  | .idle => false
  | .busy c =>
    match decode c with
    | .ok i    => (commandOf i).waits s
    | .error _ => false

/-- How many of the bits present the running command would have read (70_reset_and_hazards.md R291). The spec does not
say whether the bits before which a ReadBits waits, fewer than it needs, are among them: DESIGN CHOICE, they may be, so
that a reset can take any number of them or none (log entry 16). -/
def State.pendingIn (s : State) : Nat := if s.waiting then s.inp.length else s.inp.length - s.progress.inp.length

/-- The bits the running command would have written so far and OUT does not have yet (20_memory.md R94). -/
def State.pendingOut (s : State) : Bits := s.progress.out.drop s.out.length

/-- A prefix draw: a length from 0 up to and including `n` (20_memory.md R94, 70_reset_and_hazards.md R291; log entry 5). -/
def drawUpTo (k n : Nat) : Nat := Config.anyLength k % (n + 1)

/-- The hardware puts a drawn prefix of the running command's output on OUT before the completion step
(20_memory.md R94); while IDLE there is none. -/
def State.emitEarly (s : State) : State :=
  match s.seq with
  | .idle => s
  | .busy _ =>
    let early := s.pendingOut.take (drawUpTo s.draws s.pendingOut.length)
    { s with out := s.out ++ early, outEarly := s.outEarly + early.length, draws := s.draws + 1 }

/-- OutTake(k): the first `k` bits of OUT, or all of them if there are fewer, go to the host (20_memory.md R86;
log entry 9). -/
def State.takeOut (s : State) (k : Nat) : State :=
  { s with out := s.out.drop k, taken := s.taken ++ s.out.take k }

/-- IN after a reset while BUSY: it loses a drawn prefix of the bits the command would have read
(70_reset_and_hazards.md R291); while IDLE nothing. -/
def State.loseInput (s : State) : State :=
  match s.seq with
  | .idle   => s
  | .busy _ => { s with inp := s.inp.drop (drawUpTo s.draws s.pendingIn), draws := s.draws + 1 }

/-- The block's state to its reset values, a running command abandoned without completion with a drawn prefix of
its output written and a drawn prefix of its input taken (70_reset_and_hazards.md R290, R291). -/
def State.hardReset (s : State) : State := s.emitEarly.loseInput.blockReset

/-- The reset input driven to a level: the block's state is at its reset values from the assertion on and when it is
released; releasing what is not asserted does nothing (70_reset_and_hazards.md R290; log entry 12). -/
def State.driveRst (s : State) (asserted : Bool) : State :=
  if asserted || s.rstHeld then { s.hardReset with rstHeld := asserted } else s

/-- One action of the host (70_reset_and_hazards.md R309). -/
def hostStep (a : HostAct) (s : State) : Host.Outcome State Fault Refusal :=
  match a with
  | .regWrite bytes off v =>
    if accessWellFormed bytes off then .next (s.hostWrite (regAt off) v) else .refused (.badAccess bytes off)
  | .regRead bytes off =>
    if accessWellFormed bytes off then .next (s.hostRead (regAt off)) else .refused (.badAccess bytes off)
  | .inLoad b =>
    if s.busy then .refused .inLoadWhileBusy else .next { s with inp := b, inClosed := true }
  | .inPush b =>
    if s.inClosed then .refused .inPushWhenClosed else .next { s with inp := s.inp ++ b }
  | .inClose   => .next { s with inClosed := true }
  | .outTake k => .next (s.emitEarly.takeOut k)
  | .rst asserted => .next (s.driveRst asserted)

end Sys2Proof.Machine
end

