-- ==== Sys2Proof/Machine/Step.lean ====
section
/-! DEFINITION. One step of the machine: the next move of the agenda, or the sequencer when the agenda is used up
(00_scope.md R29, 20_memory.md R84; log entry 2). -/

namespace Sys2Proof.Machine

/-- The sequencer's step: nothing while `rst` holds the block (70_reset_and_hazards.md R290) and nothing while IDLE;
while BUSY(c) it decodes c and runs it, and an illegal word completes with ILLEGAL_CMD (10_state.md R31,
20_memory.md R84, 30_encoding.md R113, 60_exceptions.md R262). -/
def sequencerStep (s : State) : Host.Outcome State Fault Refusal :=
  if s.rstHeld then .next s
  else
    match s.seq with
    | .idle => .next s
    | .busy c =>
      match Sys2Proof.decode c with
      | .ok i    => Sys2Proof.Machine.exec i s
      | .error _ => .next (s.completeError .illegalCmd)

/-- One step (00_scope.md R29). -/
def step (s : State) : Host.Outcome State Fault Refusal :=
  match s.agenda with
  | []                => sequencerStep s
  | .sequencer :: ms  => sequencerStep { s with agenda := ms }
  | .host a :: ms     => hostStep a { s with agenda := ms }

/-- The command word where the sequencer finds its next command: accepted as by a host write to CMD while IDLE
(20_memory.md R82), with `rst` released and no host move before it (log entry 11). -/
def State.withFetchWord (s : State) (nbits w : Nat) : State :=
  { s.accept (BitVec.ofNat 32 (w % 2 ^ nbits)) with rstHeld := false, agenda := [] }

end Sys2Proof.Machine
end

