-- ==== Sys2Proof/Safety.lean ====
section
/-! DEFINITION. What counts as a safe run, and the words the statements use: the tree a node memory holds
(10_state.md R44), its serialized form (42_serdes.md R190), its codes (41_tree.md R173), and the invariant every step
keeps. -/

namespace Sys2Proof.Machine

/-- A code tree without its node memory: shape and leaf symbols. -/
inductive Tree where
  | leaf (y : Sym)
  | node (l r : Tree)
  deriving DecidableEq, Repr

/-- The number of nodes, leaves and internal ones (41_tree.md R168). -/
def Tree.size (t : Tree) : Nat :=
  match t with
  | .leaf _   => 1
  | .node l r => l.size + r.size + 1

/-- The leaf symbols from left to right. -/
def Tree.leaves (t : Tree) : List Sym :=
  match t with
  | .leaf y   => [y]
  | .node l r => l.leaves ++ r.leaves

/-- The serialized tree (42_serdes.md R190). -/
def Tree.bits (t : Tree) : Bits :=
  match t with
  | .leaf y   => true :: bitsOfNat 9 y.val
  | .node l r => false :: (l.bits ++ r.bits)

/-- The leaves with their paths from the root, left to right; a step to the left child is `false` (41_tree.md R173). -/
def Tree.paths (t : Tree) : List (Sym × Bits) :=
  match t with
  | .leaf y   => [(y, [])]
  | .node l r =>
    l.paths.map (fun p => (p.1, false :: p.2)) ++ r.paths.map (fun p => (p.1, true :: p.2))

/-- The path of the last leaf of a symbol in left-to-right order (41_tree.md R172). -/
def Tree.pathOf (t : Tree) (y : Sym) : Option Bits :=
  ((t.paths.filter (fun p => p.1 = y)).getLast?).map Prod.snd

/-- The subtree a bit string leads to from the root (43_bitstream.md R216). -/
def Tree.follow (t : Tree) (b : Bits) : Option Tree :=
  match b, t with
  | [],      t          => some t
  | _ :: _,  .leaf _    => none
  | x :: xs, .node l r  => if x then r.follow xs else l.follow xs

/-- The code of a path: its length and its binary value (41_tree.md R173). -/
def codeOfPath (p : Bits) : Code := ⟨BitVec.ofNat 9 p.length, BitVec.ofNat 256 (natOfBits p)⟩

/-- The bit pattern of a code as it goes on the wire, most significant bit first (20_memory.md R89). -/
def Code.bits (c : Code) : Bits := bitsOfNat c.len.toNat c.val.toNat

/-- The tree a node memory holds from record `i`, if it is one of depth less than `fuel`. -/
def treeAt (nodes : List Node) (fuel : Nat) (i : NodeIdx) : Option Tree :=
  match fuel with
  | 0     => none
  | k + 1 =>
    match nodes[i.toNat]? with
    | none              => none
    | some (.leaf y _)  => some (.leaf y)
    | some (.int l r _) =>
      match treeAt nodes k l, treeAt nodes k r with
      | some tl, some tr => some (.node tl tr)
      | _, _             => none

/-- The current tree, from ROOT (10_state.md R43, R44). -/
def State.tree (s : State) : Option Tree := treeAt s.nodes s.nodes.length s.root

/-- The records of a tree in preorder from index `k`, as DESERIALIZE allocates them (42_serdes.md R194, R195, R199). -/
def Tree.records (t : Tree) (k : Nat) : List Node :=
  match t with
  | .leaf y   => [.leaf y 0]
  | .node l r =>
    .int (BitVec.ofNat 10 (k + 1)) (BitVec.ofNat 10 (k + 1 + l.size)) 0
      :: (l.records (k + 1) ++ r.records (k + 1 + l.size))

/-- A place inside a serialized tree, in preorder: where a parse stands with the trees to the left of its path read and
nothing below the place yet (42_serdes.md R194). -/
inductive Cut where
  /-- At the node's own tag. -/
  | here
  /-- Inside the left subtree of an internal node. -/
  | left (c : Cut)
  /-- Inside the right subtree of an internal node whose left subtree is read. -/
  | right (l : Tree) (c : Cut)
  deriving DecidableEq, Repr

/-- The serialized bits before the place (42_serdes.md R190). -/
def Cut.bits (c : Cut) : Bits :=
  match c with
  | .here      => []
  | .left c    => false :: c.bits
  | .right l c => false :: (l.bits ++ c.bits)

/-- How many records a parse has allocated at the place (42_serdes.md R195). -/
def Cut.size (c : Cut) : Nat :=
  match c with
  | .here      => 0
  | .left c    => c.size + 1
  | .right l c => l.size + c.size + 1

/-- Those records, in preorder from index `k`: a finished subtree's as they stay, and an internal node on the path with
both children NIL, which it has until both are read (42_serdes.md R194, R197). -/
def Cut.records (c : Cut) (k : Nat) : List Node :=
  match c with
  | .here      => []
  | .left c    => .int Config.nil Config.nil 0 :: c.records (k + 1)
  | .right l c => .int Config.nil Config.nil 0 :: (l.records (k + 1) ++ c.records (k + 1 + l.size))

/-- How DESERIALIZE can end at a place inside a tree, with the bits `b` standing there on IN: the error, how many of
these bits are taken, and what is left of them (42_serdes.md R194, R196, R198). -/
inductive CutEnd (closed : Bool) (c : Cut) : Bits → ErrCode → Nat → Bits → Prop where
  /-- No tag. -/
  | noTag (h : closed = true) : CutEnd closed c [] .truncated 0 []
  /-- A leaf's tag and fewer than nine symbol bits, which stay. -/
  | noSymbol (h : closed = true) (rest : Bits) (hr : rest.length < 9) : CutEnd closed c (true :: rest) .truncated 1 rest
  /-- A leaf's symbol above 256. -/
  | badSymbol (v : Nat) (h1 : 256 < v) (h2 : v < 512) (rest : Bits) :
      CutEnd closed c (true :: (bitsOfNat 9 v ++ rest)) .badSymbol 10 rest
  /-- An internal node for which there is no 514th record. -/
  | noInt (h : c.size = 513) (rest : Bits) : CutEnd closed c (false :: rest) .treeOverflow 1 rest
  /-- A leaf for which there is no 514th record. -/
  | noLeaf (h : c.size = 513) (v : Nat) (hv : v ≤ 256) (rest : Bits) :
      CutEnd closed c (true :: (bitsOfNat 9 v ++ rest)) .treeOverflow 10 rest

/-- The leaves of the tree BUILD makes, with their weights, in the order they are created: the symbols with a positive
frequency in ascending order, the sentinel last (41_tree.md R163, R164). -/
def State.leafList (s : State) : List (Sym × BitVec 32) :=
  ((s.frequencies.filter fun p => p.2 ≠ 0).map fun p => (symOfWord p.1, p.2)) ++ [(Config.eof, 1)]

/-- Where a tree of weight `k` goes among weighted trees: behind those that are not heavier, before the first heavier
one (40_pqueue.md R140). -/
def placeTree (q : List (BitVec 32 × Tree)) (k : BitVec 32) (t : Tree) : List (BitVec 32 × Tree) :=
  q.takeWhile (fun p => p.1 ≤ k) ++ (k, t) :: q.dropWhile (fun p => p.1 ≤ k)

/-- The merge loop without records: join the two first trees under the weight c(a) + c(b) + 1, which is the number of
nodes of the joined tree, until one is left (41_tree.md R166 to R168). -/
def joinTrees (fuel : Nat) (q : List (BitVec 32 × Tree)) : Option Tree :=
  match fuel, q with
  | _,     []               => none
  | _,     [(_, t)]         => some t
  | 0,     _ :: _ :: _      => none
  | k + 1, a :: b :: q      =>
    joinTrees k (placeTree q (BitVec.ofNat 32 (a.2.size + b.2.size + 1)) (.node a.2 b.2))

/-- The tree of the weighted leaves of FREQ (41_tree.md R163 to R167). -/
def State.huffman (s : State) : Option Tree :=
  joinTrees 257 (s.leafList.foldl (fun q l => placeTree q l.2 (.leaf l.1)) [])

/-- The current tree is one that BUILD makes from FREQ (41_tree.md R163 to R169). -/
structure State.Built (s : State) (t : Tree) : Prop where
  /-- ROOT is its root. -/
  tree     : s.tree = some t
  /-- It is the tree of FREQ's weighted leaves (R163 to R167). -/
  shape    : s.huffman = some t
  /-- Every record is in it. -/
  size     : t.size = s.nodes.length
  /-- One leaf for every symbol with a positive frequency, and the sentinel's (R163). -/
  leaves   : t.leaves.Perm (s.leafList.map Prod.fst)
  /-- The leaves are the first records, in symbol order, the sentinel's last; then one internal record a merge (R165). -/
  records  : ∃ more, s.nodes = s.leafList.map (fun l => .leaf l.1 l.2) ++ more ∧
    more.length + 1 = s.leafList.length ∧ ∀ n ∈ more, ∃ l r w, n = .int l r w
  /-- An internal record's weight is the number of nodes in its subtree (R168). -/
  weights  : ∀ j l r w, s.nodes[j]? = some (.int l r w) →
    ∃ u, treeAt s.nodes s.nodes.length (BitVec.ofNat 10 j) = some u ∧ w.toNat = u.size
  /-- TREE_BITS is the serialized length (R169). -/
  treeBits : s.treeBits.toNat = t.bits.length

/-- The bits of a word sequence as they stand on a port (20_memory.md R89, R93). -/
def wordBits (xs : List InWord) : Bits := xs.flatMap fun w => bitsOfNat 8 w.toNat

/-- The bits CODE[y] puts on the wire, none when there is no code (43_bitstream.md R211). -/
def State.codeBits (s : State) (y : Sym) : Bits :=
  match s.codeAt y with
  | none   => []
  | some c => c.bits

/-- The codes of a word sequence back to back (43_bitstream.md R210). -/
def State.codedWords (s : State) (xs : List InWord) : Bits := xs.flatMap fun w => s.codeBits (symOfWord w)

/-- The counts as they stand in an SCF header (44_pipeline.md R238). -/
def countBits (cs : List (BitVec 32)) : Bits := cs.flatMap fun c => bitsOfNat 32 c.toNat

/-- The magic number, the tag and the header of a stream: FREQ in SCF, the tree's length and the tree in STF
(20_memory.md R90, 44_pipeline.md R238). -/
def headerBits (p : StreamParams) (f : Fmt) (freq : Table (BitVec 32) 256) (t : Tree) : Bits :=
  bitsOfNat 32 p.magic.toNat ++
    match f with
    | .scf => bitsOfNat 32 p.tagScf.toNat ++ countBits freq.rows
    | .stf => bitsOfNat 32 p.tagStf.toNat ++ (bitsOfNat 32 t.bits.length ++ t.bits)

/-- The bits a header takes besides the magic number and the tag (20_memory.md R90, 44_pipeline.md R232). -/
def headerLength (f : Fmt) (treeBits : Nat) : Nat :=
  match f with
  | .scf => 8192
  | .stf => 32 + treeBits

/-- Words with the paths of their leaves: their coded bits, back to back (43_bitstream.md R210). -/
def pathBits (ps : List (InWord × Bits)) : Bits := ps.flatMap Prod.snd

/-- The state after successful completion with RESULT `r`; nothing else changes (60_exceptions.md R265; `outEarly` is the
model's own, log entry 4). -/
def State.doneWith (s : State) (r : BitVec 64) : State :=
  { s with result := r, done := true, seq := .idle, outEarly := 0 }

/-- The state after completion with error `e`; nothing else changes (60_exceptions.md R266; log entry 4). -/
def State.failedWith (s : State) (e : ErrCode) : State :=
  { s with result := BitVec.allOnes 64, error := some e, seq := .idle, outEarly := 0 }

/-- A 64-bit register holds a count, whenever the count fits it (00_scope.md R24; log entry 10). -/
def Holds64 (r : BitVec 64) (n : Nat) : Prop := n < 2 ^ 64 → r = BitVec.ofNat 64 n

/-- `t` is `s` after `n` bits were taken from IN, leaving `rest`, and the bits `b` were written; nothing else differs
(20_memory.md R87, R88; 10_state.md R50). What OUT received early of `b` is not appended again (log entry 4). -/
def Streamed (s t : State) (n : Nat) (rest b : Bits) : Prop :=
  ∃ ib ob,
    t = { s with
          inp := rest, inBits := ib
          out := s.out ++ b.drop s.outEarly, outEarly := s.outEarly - b.length, outBits := ob } ∧
    Holds64 ib (s.inBits.toNat + n) ∧ Holds64 ob (s.outBits.toNat + b.length)

/-- A code value has its length's bits and no more (10_state.md R47). -/
def Code.fits (c : Code) : Prop := c.len.toNat ≤ 256 ∧ c.val.toNat < 2 ^ c.len.toNat

/-- The invariant of the machine. -/
structure State.Inv (s : State) : Prop where
  /-- PQ holds at most PQ_CAP entries (10_state.md R46). -/
  pqSize    : s.pq.length ≤ 257
  /-- PQ is in ascending order of keys (40_pqueue.md R141). -/
  pqSorted  : s.pq.Pairwise fun a b => a.key ≤ b.key
  /-- At most MAX_NODES records are allocated (10_state.md R44). -/
  nodeCount : s.nodes.length ≤ 513
  /-- TREE_VALID: node memory holds a complete tree rooted at ROOT, of all its records, and TREE_BITS is its serialized
  length (10_state.md R35, R42, R44). -/
  tree      : s.treeValid = true →
    ∃ t, s.tree = some t ∧ t.size = s.nodes.length ∧ s.treeBits.toNat = t.bits.length
  /-- CODES_VALID: the code table was derived from the current tree (10_state.md R35). -/
  codes     : s.codesValid = true →
    s.treeValid = true ∧ ∃ t, s.tree = some t ∧ ∀ y, s.codeAt y = (t.pathOf y).map codeOfPath
  /-- PREPASS_VALID goes with TREE_VALID and CODES_VALID, the tree is the one built from FREQ, and EST and SAVED are those
  of the retained state (44_pipeline.md R232, R233, R236). -/
  prepass   : s.prepassValid = true →
    s.treeValid = true ∧ s.codesValid = true ∧ (∃ t, s.Built t) ∧ s.est.toNat = s.estimate s.fmt ∧
      s.saved.toInt = (s.inwords.toNat : Int) * 8 - s.est.toNat
  /-- Every code of the table fits its length (10_state.md R47). -/
  codeFits  : ∀ y c, s.codeAt y = some c → c.fits
  /-- DONE and ERR are never 1 together (60_exceptions.md R265, R266). -/
  doneErr   : s.done = true → s.error = none
  /-- While BUSY the fields that acceptance cleared are clear (20_memory.md R82). -/
  busy      : s.busy = true →
    s.done = false ∧ s.error = none ∧ s.refused = false ∧ s.lenMismatch = false ∧ s.inBits = 0 ∧ s.outBits = 0
  /-- While `rst` is asserted the block holds its reset values (70_reset_and_hazards.md R290). -/
  held      : s.rstHeld = true → s = s.blockReset
  /-- While IDLE no output is early (20_memory.md R94; log entry 4). -/
  idle      : s.busy = false → s.outEarly = 0

/-- The commands that need a stream on IN (60_exceptions.md R263). -/
def needsIn (i : Instr) : Bool :=
  match i with
  | .clear | .pqClear | .pqEnq | .pqDeq | .build | .codegen | .serialize => false
  | .count | .deserialize | .encode | .decode | .prepass _ | .commit _ | .decompress => true

/-- The commands that need a stream on OUT (60_exceptions.md R263). -/
def needsOut (i : Instr) : Bool :=
  match i with
  | .clear | .pqClear | .pqEnq | .pqDeq | .build | .codegen | .count | .deserialize | .prepass _ => false
  | .serialize | .encode | .decode | .commit _ | .decompress => true

/-- The validity flag a command needs, 1 if it needs none (60_exceptions.md R264). -/
def neededFlag (i : Instr) (s : State) : Bool :=
  match i with
  | .codegen | .serialize | .decode => s.treeValid
  | .encode                         => s.codesValid
  | .commit _                       => s.prepassValid
  | .clear | .pqClear | .pqEnq | .pqDeq | .count | .build | .deserialize | .prepass _ | .decompress => true

/-- The three validity flags: PREPASS_VALID, TREE_VALID, CODES_VALID (10_state.md R35). -/
structure ValidFlags where
  prepass : Bool
  tree    : Bool
  codes   : Bool
  deriving DecidableEq, Repr

/-- The validity flags of a state. -/
def State.flags (s : State) : ValidFlags := ⟨s.prepassValid, s.treeValid, s.codesValid⟩

/-- The column "clears" of 10_state.md R53. -/
def clearsFlags (i : Instr) : ValidFlags :=
  match i with
  | .clear | .build | .deserialize | .prepass _ | .decompress      => ⟨true, true, true⟩
  | .count | .commit _                                             => ⟨true, false, false⟩
  | .codegen                                                       => ⟨false, false, true⟩
  | .pqClear | .pqEnq | .pqDeq | .serialize | .encode | .decode    => ⟨false, false, false⟩

/-- The column "sets on success" of 10_state.md R53. -/
def setsFlags (i : Instr) : ValidFlags :=
  match i with
  | .build | .deserialize | .decompress => ⟨false, true, false⟩
  | .codegen                            => ⟨false, false, true⟩
  | .prepass _                          => ⟨true, true, true⟩
  | .clear | .pqClear | .pqEnq | .pqDeq | .count | .serialize | .encode | .decode | .commit _ => ⟨false, false, false⟩

/-- The flags after a command has cleared and then set what its row of R53 says. -/
def ValidFlags.after (f clears sets : ValidFlags) : ValidFlags :=
  ⟨(f.prepass && !clears.prepass) || sets.prepass, (f.tree && !clears.tree) || sets.tree,
    (f.codes && !clears.codes) || sets.codes⟩

/-- The errors a legal command can raise (60_exceptions.md R261, column "raised by"). -/
def raisedBy (i : Instr) : List ErrCode :=
  match i with
  | .clear | .pqClear | .build => []
  | .pqEnq       => [.pqFull]
  | .pqDeq       => [.pqEmpty]
  | .count       => [.invalidArg, .countOverflow]
  | .codegen     => [.sequence]
  | .serialize   => [.invalidArg, .sequence]
  | .deserialize => [.invalidArg, .truncated, .badSymbol, .treeOverflow]
  | .encode      => [.invalidArg, .sequence, .noCode]
  | .decode      => [.invalidArg, .sequence, .endOfInput, .badTree]
  | .prepass _   => [.invalidArg, .countOverflow]
  | .commit _    => [.invalidArg, .sequence, .noCode]
  | .decompress  =>
    [.invalidArg, .badMagic, .badTag, .truncated, .endOfInput, .badSymbol, .treeOverflow, .badTree]

/-- A 32-bit host read at a byte offset completes, hands the host `w`, and changes nothing (20_memory.md R81; what the
host was handed goes to `reads`, log entry 6). -/
def ReadsAs (s : State) (off : BitVec 12) (w : Word) : Prop :=
  hostStep (.regRead 4 off) s = .next { s with reads := s.reads ++ [w] }

/-- A 32-bit host write of `v` at a byte offset completes and leaves the state `t` (20_memory.md R81). -/
def Writes (s : State) (off : BitVec 12) (v : Word) (t : State) : Prop := hostStep (.regWrite 4 off v) s = .next t

/-- What PQ_ENQ leaves for each entry in turn, its key and tag placed in PQ_KEY_IN and PQ_TAG_IN first: the ENQ
operations of 30_encoding.md R116. -/
def enqueueAll (es : List Entry) (s : State) : Host.Outcome State Fault Refusal :=
  match es with
  | []      => .next s
  | e :: es =>
    match exec .pqEnq { s with pqKeyIn := e.key, pqTagIn := e.tag } with
    | .next t    => enqueueAll es t
    | .fault f   => .fault f
    | .refused r => .refused r

/-- `n` PQ_DEQ commands in turn give these entries, read from PQ_KEY_OUT and PQ_TAG_OUT, and leave the state `u`: the
DEQ operations of 30_encoding.md R116. -/
def Dequeues (s : State) (ds : List Entry) (u : State) : Prop :=
  match ds with
  | []      => u = s
  | d :: ds => ∃ t, exec .pqDeq s = .next t ∧ t.error = none ∧ d = ⟨t.pqKeyOut, t.pqTagOut⟩ ∧ Dequeues t ds u

/-- A safe outcome: a next state, never a fault. -/
def SafeOutcome (o : Host.Outcome State Fault Refusal) : Prop := ∃ t, o = .next t

end Sys2Proof.Machine
end

