-- ==== Sys2Proof/Certificates/Slice0/Obligations.lean ====
section
/-! DEFINITION. The statements about the machine, each from the rules of spec/ that its docstring names. -/

open Sys2Proof Sys2Proof.Machine

/-! Encoding. -/

/-- The decoder reads exactly the words the encoder writes: F and FORCE are read where they are written, and no other
word stands for a command (30_encoding.md R112, R113). -/
def Obligations.DecodeExact : Prop :=
  ∀ (c : Word) (i : Instr), decode c = .ok i ↔ c = encode i

/-- The words of 30_encoding.md R112, written out from its table, decode to their commands. -/
def Obligations.WordsDecode : Prop :=
  decode 0x00000001 = .ok .clear ∧ decode 0x00000010 = .ok .pqClear ∧ decode 0x00000011 = .ok .pqEnq ∧
  decode 0x00000012 = .ok .pqDeq ∧ decode 0x00000020 = .ok .count ∧ decode 0x00000021 = .ok .build ∧
  decode 0x00000022 = .ok .codegen ∧ decode 0x00000023 = .ok .serialize ∧ decode 0x00000024 = .ok .deserialize ∧
  decode 0x00000025 = .ok .encode ∧ decode 0x00000026 = .ok .decode ∧ decode 0x00000030 = .ok (.prepass .scf) ∧
  decode 0x00000130 = .ok (.prepass .stf) ∧ decode 0x00000031 = .ok (.commit false) ∧
  decode 0x00000231 = .ok (.commit true) ∧ decode 0x00000032 = .ok .decompress

/-- Which words are illegal, and that an illegal word completes with ILLEGAL_CMD and has no other effect (30_encoding.md
R114; `outEarly` is the model's own, log entry 4); with `rst` released, as in every statement below about a write or a
step (HardReset says what happens while it is asserted). -/
def Obligations.IllegalWords : Prop :=
  ∀ c : Word,
    ((∃ e, decode c = .error e) ↔
      c.extractLsb' 0 8 ∉
          [0x01#8, 0x10#8, 0x11#8, 0x12#8, 0x20#8, 0x21#8, 0x22#8, 0x23#8, 0x24#8, 0x25#8, 0x26#8, 0x30#8, 0x31#8, 0x32#8] ∨
        (c.getLsbD 8 = true ∧ c.extractLsb' 0 8 ≠ 0x30#8) ∨ (c.getLsbD 9 = true ∧ c.extractLsb' 0 8 ≠ 0x31#8) ∨
        c.extractLsb' 10 22 ≠ 0#22) ∧
    ∀ s : State, s.seq = .busy c → s.rstHeld = false → s.agenda = [] → (∃ e, decode c = .error e) →
      step s = .next
        { s with result := 0xFFFFFFFFFFFFFFFF#64, error := some .illegalCmd, seq := .idle, outEarly := 0 }

/-! The step. -/

/-- While BUSY(c), the sequencer's step is the command c decodes to; a host move is the host's; while IDLE, and while
`rst` is asserted (log entry 12), the sequencer does nothing (00_scope.md R29, 10_state.md R31, 20_memory.md R84,
30_encoding.md R113; the agenda is the model's own, log entry 2). A word placed by `withFetchWord` runs at the next step
(log entry 11). -/
def Obligations.StepRuns : Prop :=
  (∀ (s : State) (c : Word) (i : Instr) (ms : List Move), s.seq = .busy c → s.rstHeld = false → decode c = .ok i →
    (s.agenda = [] → step s = exec i s) ∧
    (s.agenda = .sequencer :: ms → step s = exec i { s with agenda := ms })) ∧
  (∀ (s : State) (ms : List Move), s.seq = .idle ∨ s.rstHeld = true →
    (s.agenda = [] → step s = .next s) ∧ (s.agenda = .sequencer :: ms → step s = .next { s with agenda := ms })) ∧
  (∀ (s : State) (a : HostAct) (ms : List Move), s.agenda = .host a :: ms →
    step s = hostStep a { s with agenda := ms }) ∧
  ∀ (s : State) (w : Nat) (i : Instr), decodeTableWord 32 w = some i →
    step (s.withFetchWord 32 w) = exec i (s.withFetchWord 32 w)

/-! The register window. A write takes effect with `rst` released (`rstHeld = false`); HardReset says what happens while
it is asserted (70_reset_and_hazards.md R290). -/

/-- An access of another width or at another alignment is refused and changes nothing; any other completes, and a read
changes nothing but what the host was handed, and the draw of a read while BUSY (20_memory.md R81, 10_state.md R57; log
entries 5, 6). -/
def Obligations.AccessRefused : Prop :=
  ∀ (s : State) (bytes : Nat) (off : BitVec 12) (v : Word),
    (¬(bytes = 4 ∧ off.toNat % 4 = 0) →
      hostStep (.regWrite bytes off v) s = .refused (.badAccess bytes off) ∧
      hostStep (.regRead bytes off) s = .refused (.badAccess bytes off)) ∧
    (bytes = 4 ∧ off.toNat % 4 = 0 →
      (∃ t, hostStep (.regWrite bytes off v) s = .next t) ∧
      ∃ w d, hostStep (.regRead bytes off) s = .next { s with reads := s.reads ++ [w], draws := d })

/-- Command acceptance: a write of any c to CMD while IDLE, `rst` released, is accepted, and an illegal word then
completes with ILLEGAL_CMD (20_memory.md R82; `outEarly` is the model's own, log entry 4). -/
def Obligations.CmdAcceptance : Prop :=
  ∀ (s : State) (c : Word), s.seq = .idle → s.rstHeld = false →
    Writes s 0x004 c
      { s with
        seq := .busy c, done := false, error := none, refused := false, lenMismatch := false, inBits := 0, outBits := 0
        outEarly := 0 } ∧
    ∀ t : State, t.seq = .busy c → t.rstHeld = false → (∃ e, decode c = .error e) → sequencerStep t = .next (t.failedWith .illegalCmd)

/-- A write to CMD while BUSY, `rst` released, is not accepted: it sets OVERRUN and changes nothing else, the running
command included (20_memory.md R83). -/
def Obligations.CmdOverrun : Prop :=
  ∀ (s : State) (c v : Word), s.seq = .busy c → s.rstHeld = false → Writes s 0x004 v { s with overrun := true }

/-- While BUSY: a write to any register but CMD is ignored, a read of STATUS has BUSY = 1 and any other bits, and a read
of any other register is any value (10_state.md R57). The value is a free one, `Config.anyWord` of the draw's number
(log entry 5). -/
def Obligations.BusyAccess : Prop :=
  ∀ (s : State) (c v : Word) (off : BitVec 12), s.seq = .busy c → off.toNat % 4 = 0 →
    (off ≠ 0x004 → Writes s off v s) ∧
    (off = 0x008 →
      (Config.anyWord s.draws ||| 1).getLsbD 0 = true ∧
      hostStep (.regRead 4 off) s =
        .next { s with reads := s.reads ++ [Config.anyWord s.draws ||| 1], draws := s.draws + 1 }) ∧
    (off ≠ 0x008 →
      hostStep (.regRead 4 off) s = .next { s with reads := s.reads ++ [Config.anyWord s.draws], draws := s.draws + 1 })

/-- STATUS as read while IDLE, bit by bit, and the numbers of the error codes (10_state.md R35, 60_exceptions.md
R261). -/
def Obligations.StatusRead : Prop :=
  (∀ s : State, s.seq = .idle → ∃ w, ReadsAs s 0x008 w ∧
    w.getLsbD 0 = false ∧ w.getLsbD 1 = s.done ∧ w.getLsbD 2 = s.error.isSome ∧ w.getLsbD 3 = s.overrun ∧
    w.extractLsb' 4 4 = 0 ∧
    (s.error = none → w.extractLsb' 8 8 = 0) ∧ (∀ e, s.error = some e → w.extractLsb' 8 8 = errNumber e) ∧
    w.getLsbD 16 = s.prepassValid ∧ w.getLsbD 17 = s.treeValid ∧ w.getLsbD 18 = s.codesValid ∧
    w.getLsbD 19 = (s.fmt == .stf) ∧ w.getLsbD 20 = s.refused ∧ w.getLsbD 21 = s.lenMismatch ∧
    w.extractLsb' 22 10 = 0) ∧
  [ErrCode.illegalCmd, .invalidArg, .sequence, .pqEmpty, .pqFull, .countOverflow, .badMagic, .badTag, .truncated,
      .endOfInput, .badSymbol, .treeOverflow, .badTree, .noCode].map errNumber =
    [0x01, 0x02, 0x03, 0x04, 0x05, 0x06, 0x07, 0x08, 0x09, 0x0A, 0x0B, 0x0C, 0x0D, 0x0E]

/-- A write to STATUS while IDLE, `rst` released, clears what its bits 1, 2 and 3 name and nothing else (10_state.md
R35); CONFIG's bits 0, 1 and 2 are written and read back, its others read 0 (R36). -/
def Obligations.StatusConfigWrites : Prop :=
  ∀ (s : State) (v : Word), s.seq = .idle → s.rstHeld = false →
    Writes s 0x008 v
      { s with
        done := s.done && !v.getLsbD 1, error := if v.getLsbD 2 then none else s.error
        overrun := s.overrun && !v.getLsbD 3 } ∧
    Writes s 0x00C v
      { s with config := { inAttached := v.getLsbD 0, outAttached := v.getLsbD 1, irqEn := v.getLsbD 2 } } ∧
    ∃ w, ReadsAs s 0x00C w ∧ w.getLsbD 0 = s.config.inAttached ∧ w.getLsbD 1 = s.config.outAttached ∧
      w.getLsbD 2 = s.config.irqEn ∧ w.extractLsb' 3 29 = 0

/-- A write to FREQ_DATA while IDLE, `rst` released, sets FREQ[FREQ_IDX], clears PREPASS_VALID and changes nothing else
(10_state.md R58). -/
def Obligations.FreqWrite : Prop :=
  ∀ (s : State) (v : Word), s.seq = .idle → s.rstHeld = false →
    ∃ f : Table (BitVec 32) 256, Writes s 0x054 v { s with freq := f, prepassValid := false } ∧
      ∀ w : InWord, f.get w.toFin = if w = s.freqIdx then v else s.freqAt w

/-- The index registers keep the bits that count and read back exactly those; beyond the populated range the NODE and
CODE windows read zeros; every FREQ_IDX names an entry; a read of any register, a window's too, changes nothing but what
the host was handed (10_state.md R59; `rst` released). -/
def Obligations.IndexRegisters : Prop :=
  ∀ (s : State) (v : Word), s.seq = .idle → s.rstHeld = false →
    Writes s 0x050 v { s with freqIdx := v.extractLsb' 0 8 } ∧ ReadsAs s 0x050 (s.freqIdx.setWidth 32) ∧
    Writes s 0x058 v { s with nodeIdx := v.extractLsb' 0 10 } ∧ ReadsAs s 0x058 (s.nodeIdx.setWidth 32) ∧
    Writes s 0x068 v { s with codeIdx := v.extractLsb' 0 9 } ∧ ReadsAs s 0x068 (s.codeIdx.setWidth 32) ∧
    ReadsAs s 0x054 (s.freqAt s.freqIdx) ∧
    (s.nodes.length ≤ s.nodeIdx.toNat → ReadsAs s 0x05C 0 ∧ ReadsAs s 0x060 0 ∧ ReadsAs s 0x064 0) ∧
    (256 < s.codeIdx.toNat →
      ReadsAs s 0x06C 0 ∧ ∀ k : Fin 8, ReadsAs s (BitVec.ofNat 12 (0x070 + 4 * k.val)) 0) ∧
    ∀ off : BitVec 12, off.toNat % 4 = 0 → ∃ w, ReadsAs s off w

/-- The NODE window, with `rst` released (10_state.md R45). -/
def Obligations.NodeWindow : Prop :=
  ∀ s : State, s.seq = .idle → s.rstHeld = false →
    (∀ v : Word, Writes s 0x058 v { s with nodeIdx := v.extractLsb' 0 10 }) ∧
    ReadsAs s 0x058 (s.nodeIdx.setWidth 32) ∧
    (∀ y w, s.nodes[s.nodeIdx.toNat]? = some (.leaf y w) →
      ReadsAs s 0x05C (0x80000000#32 ||| BitVec.ofNat 32 y.val) ∧ ReadsAs s 0x060 w ∧ ReadsAs s 0x064 0x03FF03FF#32) ∧
    (∀ l r w, s.nodes[s.nodeIdx.toNat]? = some (.int l r w) →
      ReadsAs s 0x05C 0 ∧ ReadsAs s 0x060 w ∧ ReadsAs s 0x064 ((r.setWidth 32 <<< 16) ||| l.setWidth 32)) ∧
    (s.nodes.length ≤ s.nodeIdx.toNat → ReadsAs s 0x05C 0 ∧ ReadsAs s 0x060 0 ∧ ReadsAs s 0x064 0) ∧
    ∀ v : Word, Writes s 0x05C v s ∧ Writes s 0x060 v s ∧ Writes s 0x064 v s

/-- The CODE window, with `rst` released, and that a pattern's first bit on the wire is val[len - 1] (10_state.md R48,
20_memory.md R88). -/
def Obligations.CodeWindow : Prop :=
  (∀ s : State, s.seq = .idle → s.rstHeld = false →
    (∀ v : Word, Writes s 0x068 v { s with codeIdx := v.extractLsb' 0 9 }) ∧
    ReadsAs s 0x068 (s.codeIdx.setWidth 32) ∧
    (∀ (y : Sym) (c : Code), s.codesValid = true → s.codeIdx.toNat = y.val → s.codeAt y = some c →
      ReadsAs s 0x06C (0x80000000#32 ||| c.len.setWidth 32) ∧
      ∀ k : Fin 8, ReadsAs s (BitVec.ofNat 12 (0x070 + 4 * k.val)) (c.val.extractLsb' (32 * k.val) 32)) ∧
    (s.codesValid = false ∨ 256 < s.codeIdx.toNat ∨ (∃ y : Sym, s.codeIdx.toNat = y.val ∧ s.codeAt y = none) →
      ReadsAs s 0x06C 0 ∧ ∀ k : Fin 8, ReadsAs s (BitVec.ofNat 12 (0x070 + 4 * k.val)) 0) ∧
    ∀ v : Word, Writes s 0x06C v s ∧ ∀ k : Fin 8, Writes s (BitVec.ofNat 12 (0x070 + 4 * k.val)) v s) ∧
  ∀ c : Code, 0 < c.len.toNat → c.bits.head? = some (c.val.getLsbD (c.len.toNat - 1))

/-- Reserved offsets read 0 and ignore writes, reserved fields read 0 and ignore writes, and read-only registers ignore
writes (10_state.md R56). -/
def Obligations.ReadOnlyReserved : Prop :=
  ∀ (s : State) (v : Word), s.seq = .idle →
    (∀ off : BitVec 12, off.toNat % 4 = 0 → 0x0A0 ≤ off.toNat → ReadsAs s off 0 ∧ Writes s off v s) ∧
    (∀ p ∈ [(0x008#12, 0xFFC000F0#32), (0x00C#12, 0xFFFFFFF8#32), (0x038#12, 0xFC00FC00#32), (0x03C#12, 0xFFFFFE00#32),
        (0x044#12, 0xFFFF0000#32), (0x04C#12, 0xFFFF0000#32), (0x050#12, 0xFFFFFF00#32), (0x058#12, 0xFFFFFC00#32),
        (0x05C#12, 0x7FFFFE00#32), (0x064#12, 0xFC00FC00#32), (0x068#12, 0xFFFFFE00#32), (0x06C#12, 0x7FFFFE00#32)],
      (∃ w, ReadsAs s p.1 w ∧ w &&& p.2 = 0) ∧
      hostStep (.regWrite 4 p.1 v) s = hostStep (.regWrite 4 p.1 (v &&& ~~~p.2)) s) ∧
    ∀ off ∈ [0x000#12, 0x010#12, 0x014#12, 0x018#12, 0x01C#12, 0x020#12, 0x024#12, 0x028#12, 0x02C#12, 0x030#12,
        0x034#12, 0x038#12, 0x03C#12, 0x048#12, 0x04C#12, 0x05C#12, 0x060#12, 0x064#12, 0x06C#12, 0x070#12, 0x074#12,
        0x078#12, 0x07C#12, 0x080#12, 0x084#12, 0x088#12, 0x08C#12, 0x090#12, 0x094#12, 0x098#12, 0x09C#12],
      Writes s off v s

/-- What the remaining registers read while IDLE: ID, CMD, the 64-bit registers in halves, TREE_BITS, TREE_BITS_DECL,
TREEINFO, PQ_SIZE and the queue's operand and result registers, of which the host writes the two operands (10_state.md
R32 to R34, R37 to R40, R42, R43, R46, R49, R50; `rst` released). -/
def Obligations.Readback : Prop :=
  ∀ (s : State) (v : Word), s.seq = .idle → s.rstHeld = false →
    ReadsAs s 0x000 0x48430108 ∧ ReadsAs s 0x004 0 ∧
    (∀ p ∈ [(0x010#12, s.result), (0x018#12, s.saved), (0x020#12, s.est), (0x028#12, s.inwords), (0x090#12, s.inBits),
        (0x098#12, s.outBits)],
      ReadsAs s p.1 (p.2.extractLsb' 0 32) ∧ ReadsAs s (p.1 + 4) (p.2.extractLsb' 32 32)) ∧
    ReadsAs s 0x030 s.treeBits ∧ ReadsAs s 0x034 s.treeBitsDecl ∧
    (s.nodes.length ≤ 513 → ∃ w, ReadsAs s 0x038 w ∧ w.extractLsb' 0 10 = s.root ∧
      (w.extractLsb' 16 10).toNat = s.nodes.length) ∧
    (s.pq.length ≤ 257 → ∃ w, ReadsAs s 0x03C w ∧ w.toNat = s.pq.length) ∧
    Writes s 0x040 v { s with pqKeyIn := v } ∧ ReadsAs s 0x040 s.pqKeyIn ∧
    Writes s 0x044 v { s with pqTagIn := v.extractLsb' 0 16 } ∧ ReadsAs s 0x044 (s.pqTagIn.setWidth 32) ∧
    ReadsAs s 0x048 s.pqKeyOut ∧ ReadsAs s 0x04C (s.pqTagOut.setWidth 32)

/-! Reset, the ports and the interrupt. -/

/-- What reset leaves (10_state.md R55). The ports are not block state; what the model starts them with is its own (log
entry 3). -/
def Obligations.ResetState : Prop :=
  State.reset.seq = .idle ∧ State.reset.statusWord = 0 ∧ State.reset.configWord = 0 ∧ State.reset.result = 0 ∧
  State.reset.saved = 0 ∧ State.reset.est = 0 ∧ State.reset.inwords = 0 ∧ State.reset.inBits = 0 ∧
  State.reset.outBits = 0 ∧ State.reset.treeBits = 0 ∧ State.reset.treeBitsDecl = 0 ∧ State.reset.root = 0 ∧
  State.reset.nodes = [] ∧ State.reset.nodeWindow = (0, 0, 0) ∧ State.reset.pq = [] ∧ State.reset.pqKeyIn = 0 ∧
  State.reset.pqTagIn = 0 ∧ State.reset.pqKeyOut = 0 ∧ State.reset.pqTagOut = 0 ∧
  (∀ w, State.reset.freqAt w = 0) ∧ State.reset.freqIdx = 0 ∧ State.reset.nodeIdx = 0 ∧ State.reset.codeIdx = 0 ∧
  (∀ y, State.reset.codeAt y = none) ∧ State.reset.irq = false

/-- Asserting `rst` puts the block's state to its reset values and abandons a running command without completion. IN
loses a prefix of the bits the command would have read and OUT gains a prefix of the bits it would have written; while
IDLE the ports are unchanged. While `rst` stays asserted the block stays at its reset values: a write is lost, a read
gives the reset value, no command runs, and only a release ends it; releasing what is not asserted does nothing
(70_reset_and_hazards.md R290, R291). Which prefixes is a free draw (log entry 5); whether bits short of what a waiting
ReadBits needs are among those read is the model's choice (log entry 16); that an access made while `rst` is asserted
completes is the model's choice too (log entry 12). -/
def Obligations.HardReset : Prop :=
  (∀ s : State, ∃ n m d,
    n ≤ s.pendingIn ∧ m ≤ s.pendingOut.length ∧ (s.seq = .idle → n = 0 ∧ m = 0) ∧
    hostStep (.rst true) s = .next
      { State.reset with
        inp := s.inp.drop n, inClosed := s.inClosed, out := s.out ++ s.pendingOut.take m, rstHeld := true
        draws := d, agenda := s.agenda, reads := s.reads, taken := s.taken }) ∧
  (∀ s : State, s.rstHeld = false → hostStep (.rst false) s = .next s) ∧
  ∀ s : State, s.rstHeld = true →
    (∀ (off : BitVec 12) (v : Word), off.toNat % 4 = 0 → Writes s off v s) ∧ sequencerStep s = .next s ∧
    (s = s.blockReset →
      (∀ off : BitVec 12, off.toNat % 4 = 0 → ReadsAs s off (State.reset.readReg (regAt off))) ∧
      hostStep (.rst false) s = .next { s with rstHeld := false } ∧
      ∀ t : State, step s = .next t →
        t = t.blockReset ∧ (t.rstHeld = true ∨ ∃ ms, s.agenda = .host (.rst false) :: ms))

/-- The host's actions on the ports (20_memory.md R86): what each does, and the two that R86 does not allow. Taking more
bits than OUT holds takes all of them (log entry 9). -/
def Obligations.PortActions : Prop :=
  ∀ (s : State) (b : Bits) (k : Nat),
    (s.inClosed = false → hostStep (.inPush b) s = .next { s with inp := s.inp ++ b }) ∧
    (s.inClosed = true → hostStep (.inPush b) s = .refused .inPushWhenClosed) ∧
    hostStep .inClose s = .next { s with inClosed := true } ∧
    (s.seq = .idle → hostStep (.inLoad b) s = .next { s with inp := b, inClosed := true }) ∧
    (∀ c, s.seq = .busy c → hostStep (.inLoad b) s = .refused .inLoadWhileBusy) ∧
    (s.seq = .idle → hostStep (.outTake k) s = .next { s with out := s.out.drop k, taken := s.taken ++ s.out.take k })

/-- irq is a level: with IRQ_EN it is 1 from a command's completion on, until DONE and ERR are cleared by a write to
STATUS or by the acceptance of the next command, `rst` released; without IRQ_EN it is 0 (60_exceptions.md R270). -/
def Obligations.IrqLevel : Prop :=
  (∀ s : State, s.irq = (s.config.irqEn && (s.done || s.error.isSome))) ∧
  (∀ (s t : State) (i : Instr), s.busy = true → exec i s = .next t → t.busy = false → t.irq = s.config.irqEn) ∧
  (∀ s t : State, s.seq = .idle → s.rstHeld = false → Writes s 0x008 0x00000006 t → t.irq = false) ∧
  ∀ (s t : State) (c : Word), s.seq = .idle → s.rstHeld = false → Writes s 0x004 c t → t.irq = false

/-- When the host drains OUT makes no difference: if a command completes, then after an OutTake while it runs it also
completes, and the bits the host took followed by the bits still on OUT are the same, and so is all else (20_memory.md
R94, 70_reset_and_hazards.md R311). How much OUT has before the completion step is a free draw (log entry 5), kept track
of by the model's own `outEarly` (log entry 4). An OutTake of more bits than OUT holds, on which R86 is silent, takes
all of them: that case is the model's choice (log entry 9). -/
def Obligations.DrainDuringBusy : Prop :=
  ∀ (s t : State) (c : Word) (i : Instr) (k : Nat),
    s.seq = .busy c → decode c = .ok i → exec i s = .next t → t.busy = false →
    ∃ u v, hostStep (.outTake k) s = .next u ∧ exec i u = .next v ∧ v.taken ++ v.out = t.taken ++ t.out ∧
      v = { t with taken := v.taken, out := v.out, draws := t.draws + 1 }

/-- Bits that arrive later only extend IN: a command that completes on an open IN completes in the same way when more
bits stand on IN, closed or not, and leaves those bits there (20_memory.md R84). -/
def Obligations.LaterBits : Prop :=
  ∀ (s t : State) (i : Instr) (more : Bits) (closed : Bool),
    s.busy = true → s.inClosed = false → exec i s = .next t → t.busy = false →
    exec i { s with inp := s.inp ++ more, inClosed := closed } =
      .next { t with inp := t.inp ++ more, inClosed := closed }

/-- COUNT, ENCODE, PREPASS and a COMMIT that does not refuse read IN until EOI, which only a closed IN gives: on an open
IN they never complete without an error (70_reset_and_hazards.md R303). -/
def Obligations.OpenInputWaits : Prop :=
  ∀ (s t : State) (i : Instr), s.inClosed = false → s.done = false → exec i s = .next t →
    (i = .count ∨ i = .encode ∨ (∃ f, i = .prepass f) ∨ i = .commit true ∨ (i = .commit false ∧ 0 < s.saved.toInt)) →
    t.done = false

/-! Admission, completion and the validity flags. -/

/-- A command whose port is not attached completes with INVALID_ARG and changes nothing else; no command ever does when
the ports it needs are attached (60_exceptions.md R263). -/
def Obligations.PortAdmission : Prop :=
  ∀ (s : State) (f : Fmt) (b : Bool),
    (s.config.inAttached = false →
      ∀ i ∈ [Instr.count, .deserialize, .encode, .decode, .prepass f, .commit b, .decompress],
        exec i s = .next (s.failedWith .invalidArg)) ∧
    (s.config.outAttached = false →
      ∀ i ∈ [Instr.serialize, .encode, .decode, .commit b, .decompress], exec i s = .next (s.failedWith .invalidArg)) ∧
    ∀ (i : Instr) (t : State), s.error ≠ some .invalidArg → exec i s = .next t → t.error = some .invalidArg →
      (s.config.inAttached = false ∧
        i ∈ [Instr.count, .deserialize, .encode, .decode, .prepass .scf, .prepass .stf, .commit false, .commit true,
          .decompress]) ∨
      (s.config.outAttached = false ∧
        i ∈ [Instr.serialize, .encode, .decode, .commit false, .commit true, .decompress])

/-- A command whose ports are attached but whose flag is 0 completes with SEQUENCE and changes nothing else; no other
command ever does (60_exceptions.md R264). -/
def Obligations.SequenceAdmission : Prop :=
  ∀ (s : State) (b : Bool),
    (s.treeValid = false → exec .codegen s = .next (s.failedWith .sequence)) ∧
    (s.treeValid = false → s.config.outAttached = true → exec .serialize s = .next (s.failedWith .sequence)) ∧
    (s.config.inAttached = true → s.config.outAttached = true →
      (s.treeValid = false → exec .decode s = .next (s.failedWith .sequence)) ∧
      (s.codesValid = false → exec .encode s = .next (s.failedWith .sequence)) ∧
      (s.prepassValid = false → exec (.commit b) s = .next (s.failedWith .sequence))) ∧
    ∀ (i : Instr) (t : State), s.error ≠ some .sequence → exec i s = .next t → t.error = some .sequence →
      (i = .codegen ∧ s.treeValid = false) ∨ (i = .serialize ∧ s.treeValid = false) ∨
      (i = .decode ∧ s.treeValid = false) ∨ (i = .encode ∧ s.codesValid = false) ∨
      ((∃ b, i = .commit b) ∧ s.prepassValid = false)

/-- A command that completes has DONE without an error, or ERR with one of the errors its row of 60_exceptions.md R261
names, RESULT then all ones (R265, R266). -/
def Obligations.Completion : Prop :=
  ∀ (s t : State) (i : Instr), s.Inv → s.busy = true → exec i s = .next t → t.busy = false →
    (t.done = true ∧ t.error = none) ∨
    (t.done = false ∧ t.result = 0xFFFFFFFFFFFFFFFF#64 ∧ ∃ e ∈ raisedBy i, t.error = some e)

/-- The machine never stops: from a state of the invariant every command completes or, if IN is open, waits with nothing
changed, so on a closed IN every command completes (20_memory.md R84, 60_exceptions.md R280). -/
def Obligations.CommandsEnd : Prop :=
  ∀ (s : State) (i : Instr), s.Inv → s.busy = true →
    ∃ t : State, exec i s = .next t ∧ (t.busy = false ∨ (t = s ∧ s.inClosed = false))

/-- The validity flags: a success clears and sets what its row of 10_state.md R53 says, a failed admission changes none,
and any other error clears what the row says and sets none, except that the tree of a DECOMPRESS that fails in the walk
stays valid (44_pipeline.md R245). -/
def Obligations.FlagTable : Prop :=
  ∀ (s t : State) (i : Instr), s.Inv → s.busy = true → exec i s = .next t → t.busy = false →
    (t.error = none → t.flags = s.flags.after (clearsFlags i) (setsFlags i)) ∧
    (t.error = some .invalidArg ∨ t.error = some .sequence → t.flags = s.flags) ∧
    ∀ e, t.error = some e → e ≠ .invalidArg → e ≠ .sequence →
      t.flags = s.flags.after (clearsFlags i)
        ⟨false, i = .decompress ∧ (e = .badTree ∨ e = .endOfInput), false⟩

/-- What a command may change, on every path, the paths that end with an error or wait among them. Every register, table
and port is named with the commands that may write it (10_state.md R41 to R54, 40_pqueue.md R149, 43_bitstream.md R224,
20_memory.md R92). -/
def Obligations.CommandFrame : Prop :=
  ∀ (s t : State) (i : Instr), exec i s = .next t →
    (t.config = s.config ∧ t.rstHeld = s.rstHeld ∧ t.inClosed = s.inClosed ∧ t.agenda = s.agenda ∧ t.reads = s.reads ∧ t.taken = s.taken ∧
      t.draws = s.draws) ∧
    (i ≠ .clear →
      t.pqKeyIn = s.pqKeyIn ∧ t.pqTagIn = s.pqTagIn ∧ t.freqIdx = s.freqIdx ∧ t.nodeIdx = s.nodeIdx ∧
      t.codeIdx = s.codeIdx ∧ t.overrun = s.overrun) ∧
    (needsIn i = false → t.inp = s.inp ∧ (i ≠ .clear → t.inBits = s.inBits)) ∧
    (needsOut i = false → t.out = s.out ∧ (i ≠ .clear → t.outBits = s.outBits)) ∧
    (i ∉ [.clear, .pqClear, .pqEnq, .pqDeq, .build, .prepass .scf, .prepass .stf, .decompress] → t.pq = s.pq) ∧
    (i ∉ [.clear, .pqDeq] → t.pqKeyOut = s.pqKeyOut ∧ t.pqTagOut = s.pqTagOut) ∧
    (i ∉ [.clear, .count, .prepass .scf, .prepass .stf, .decompress] → t.freq = s.freq) ∧
    (i ∉ [.clear, .count, .prepass .scf, .prepass .stf] → t.inwords = s.inwords) ∧
    (i ∉ [.clear, .build, .deserialize, .prepass .scf, .prepass .stf, .decompress] →
      t.nodes = s.nodes ∧ t.root = s.root ∧ t.treeBits = s.treeBits) ∧
    (i ∉ [.clear, .codegen, .prepass .scf, .prepass .stf] → t.code = s.code) ∧
    (i ∉ [.clear, .prepass .scf, .prepass .stf] → t.fmt = s.fmt ∧ t.est = s.est ∧ t.saved = s.saved) ∧
    (i ∉ [.clear, .decompress] → t.treeBitsDecl = s.treeBitsDecl ∧ t.lenMismatch = s.lenMismatch) ∧
    (i ∉ [.clear, .commit false] → t.refused = s.refused)

/-! CLEAR and the priority queue. -/

/-- CLEAR: every register and table to its reset value except SEQ, CONFIG and the ports; then DONE (44_pipeline.md
R250). -/
def Obligations.ClearRuns : Prop :=
  decode 0x00000001 = .ok .clear ∧
  ∀ s : State, ∃ t : State, exec .clear s = .next t ∧
    t = { State.reset with
          config := s.config, done := true, inp := s.inp, inClosed := s.inClosed, out := s.out, rstHeld := s.rstHeld
          draws := s.draws, agenda := s.agenda, reads := s.reads, taken := s.taken } ∧
    t.statusWord = 0x00000002 ∧ t.irq = s.config.irqEn

/-- PQ_CLEAR empties the queue (40_pqueue.md R144). -/
def Obligations.PqClearRuns : Prop :=
  decode 0x00000010 = .ok .pqClear ∧
  ∀ s : State, exec .pqClear s = .next ({ s with pq := [] }.doneWith 0)

/-- PQ_ENQ puts its entry behind every entry whose key is not greater and before the first whose key is greater, and
leaves the others in their order; a full queue is PQ_FULL and unchanged (40_pqueue.md R140, R143, R145). -/
def Obligations.PqEnqRuns : Prop :=
  decode 0x00000011 = .ok .pqEnq ∧
  ∀ s : State, ∃ a b, s.pq = a ++ b ∧ (∀ e ∈ a, e.key ≤ s.pqKeyIn) ∧ (∀ e, b.head? = some e → s.pqKeyIn < e.key) ∧
    (s.pq.length < 257 →
      exec .pqEnq s = .next ({ s with pq := a ++ (⟨s.pqKeyIn, s.pqTagIn⟩ : Entry) :: b }.doneWith 0)) ∧
    (257 ≤ s.pq.length → exec .pqEnq s = .next (s.failedWith .pqFull))

/-- PQ_DEQ removes the head entry and returns it; an empty queue is PQ_EMPTY and changes nothing (40_pqueue.md R143,
R148). -/
def Obligations.PqDeqRuns : Prop :=
  decode 0x00000012 = .ok .pqDeq ∧
  ∀ s : State,
    (∀ e q, s.pq = e :: q →
      exec .pqDeq s = .next ({ s with pq := q, pqKeyOut := e.key, pqTagOut := e.tag }.doneWith (e.key.setWidth 64))) ∧
    (s.pq = [] → exec .pqDeq s = .next (s.failedWith .pqEmpty))

/-- The queue is a stable priority queue: whatever is enqueued comes out in ascending order of keys, and entries of
equal keys come out in the order they were enqueued (40_pqueue.md R141, R146). -/
def Obligations.QueueStable : Prop :=
  ∀ (s : State) (es : List Entry), s.pq = [] → s.error = none → es.length ≤ 257 →
    ∃ t u ds, enqueueAll es s = .next t ∧ t.pq.length = es.length ∧ Dequeues t ds u ∧ u.pq = [] ∧ ds.Perm es ∧
      (ds.Pairwise fun a b => a.key ≤ b.key) ∧
      ∀ k : BitVec 32, ds.filter (fun e => e.key = k) = es.filter (fun e => e.key = k)

/-! COUNT, BUILD and CODEGEN. -/

/-- COUNT on a closed IN counts the words, leaves a rest shorter than a word, and returns INWORDS (41_tree.md R161,
R162, 20_memory.md R93). -/
def Obligations.CountRuns : Prop :=
  ∀ (s : State) (xs : List InWord) (rest : Bits),
    s.config.inAttached = true → s.inClosed = true → s.inp = wordBits xs ++ rest → rest.length < 8 →
    (∀ w, xs.count w < 2 ^ 32) →
    ∃ ib fq, exec .count s = .next
        ({ s with
            inp := rest, inBits := ib, freq := fq, inwords := BitVec.ofNat 64 xs.length, prepassValid := false }.doneWith
          (BitVec.ofNat 64 xs.length)) ∧
      Holds64 ib (s.inBits.toNat + 8 * xs.length) ∧ ∀ w : InWord, (fq.get w.toFin).toNat = xs.count w

/-- COUNT and PREPASS end with COUNT_OVERFLOW at the word whose count would pass 2^32 - 1: it is taken, and FREQ and
INWORDS keep what was reached before it (41_tree.md R162, 44_pipeline.md R231). -/
def Obligations.CountOverflow : Prop :=
  ∀ (s : State) (f : Fmt) (xs : List InWord) (w : InWord) (rest : Bits),
    s.config.inAttached = true → s.inp = wordBits xs ++ (bitsOfNat 8 w.toNat ++ rest) → (∀ v, xs.count v < 2 ^ 32) →
    xs.count w = 2 ^ 32 - 1 →
    (∃ ib fq,
      exec .count s = .next
        ({ s with
            inp := rest, inBits := ib, freq := fq, inwords := BitVec.ofNat 64 xs.length, prepassValid := false }.failedWith
          .countOverflow) ∧
      Holds64 ib (s.inBits.toNat + (8 * xs.length + 8)) ∧ ∀ v : InWord, (fq.get v.toFin).toNat = xs.count v) ∧
    ∃ ib fq,
      exec (.prepass f) s = .next
        ({ s with
            inp := rest, inBits := ib, freq := fq, inwords := BitVec.ofNat 64 xs.length, prepassValid := false
            treeValid := false, codesValid := false }.failedWith .countOverflow) ∧
      Holds64 ib (s.inBits.toNat + (8 * xs.length + 8)) ∧ ∀ v : InWord, (fq.get v.toFin).toNat = xs.count v

/-- BUILD always completes, with a tree that is the one of FREQ's weighted leaves: leaves first in symbol order, the
sentinel's last, merged two lightest first under the source's weight rule, TREE_BITS its serialized length, RESULT
NODE_COUNT (41_tree.md R163 to R170). -/
def Obligations.BuildRuns : Prop :=
  ∀ s : State, ∃ u t,
    (∃ ns root tb,
      u = { s with
            pq := [], nodes := ns, root := root, treeBits := tb
            prepassValid := false, treeValid := true, codesValid := false }) ∧
    u.Built t ∧ exec .build s = .next (u.doneWith (BitVec.ofNat 64 u.nodes.length))

/-- The smallest trees: of an all-zero FREQ, of one symbol counted once, and of one symbol counted more than once
(41_tree.md R171, cases 1 to 3). -/
def Obligations.BuildCorners : Prop :=
  ∀ s : State,
    ((∀ w, s.freqAt w = 0) →
      exec .build s = .next
        ({ s with
            pq := [], nodes := [.leaf 256 1], root := 0, treeBits := 10
            prepassValid := false, treeValid := true, codesValid := false }.doneWith 1)) ∧
    ∀ w : InWord, (∀ x, x ≠ w → s.freqAt x = 0) →
      (s.freqAt w = 1 →
        exec .build s = .next
          ({ s with
              pq := [], nodes := [.leaf (symOfWord w) 1, .leaf 256 1, .int 0 1 3], root := 2, treeBits := 21
              prepassValid := false, treeValid := true, codesValid := false }.doneWith 3)) ∧
      (2 ≤ (s.freqAt w).toNat →
        exec .build s = .next
          ({ s with
              pq := [], nodes := [.leaf (symOfWord w) (s.freqAt w), .leaf 256 1, .int 1 0 3], root := 2, treeBits := 21
              prepassValid := false, treeValid := true, codesValid := false }.doneWith 3))

/-- BUILD is a function of FREQ alone: two states that agree in FREQ get the same records, ROOT, TREE_BITS and RESULT
(44_pipeline.md R243, 40_pqueue.md R149). -/
def Obligations.BuildOfFreqAlone : Prop :=
  ∀ s u : State, s.freq = u.freq →
    ∃ x y, exec .build s = .next x ∧ exec .build u = .next y ∧ x.nodes = y.nodes ∧ x.root = y.root ∧
      x.treeBits = y.treeBits ∧ x.result = y.result

/-- CODEGEN gives every symbol of the tree the code of its path, the last one where a symbol has several leaves, gives
every other symbol NONE, and returns the number of symbols with a code (41_tree.md R172, R173). -/
def Obligations.CodegenRuns : Prop :=
  ∀ (s : State) (t : Machine.Tree), s.treeValid = true → s.tree = some t →
    ∃ cd : Table (Option Code) 257,
      exec .codegen s = .next
        ({ s with code := cd, codesValid := true }.doneWith (BitVec.ofNat 64 t.leaves.dedup.length)) ∧
      ∀ y, cd.get y = (t.pathOf y).map codeOfPath

/-- The code table after BUILD and CODEGEN: exactly the counted symbols and the sentinel have codes, no code is a prefix
of another, every code has at least one bit unless FREQ is all zero, the code lengths fill the tree exactly, and no code
is longer than 256 bits (41_tree.md R174, which the spec marks as its own inference from R163, R166 and R173). -/
def Obligations.BuiltCodes : Prop :=
  ∀ s : State, ∃ t u, exec .build s = .next t ∧ exec .codegen t = .next u ∧
    (∀ y, (u.codeAt y).isSome = true ↔ y = Config.eof ∨ ∃ w : InWord, symOfWord w = y ∧ s.freqAt w ≠ 0) ∧
    (∀ y z c d, y ≠ z → u.codeAt y = some c → u.codeAt z = some d → ¬ c.bits <+: d.bits) ∧
    ((∃ w, s.freqAt w ≠ 0) → ∀ y c, u.codeAt y = some c → 1 ≤ c.len.toNat) ∧
    ((∀ w, s.freqAt w = 0) → u.codeAt Config.eof = some ⟨0, 0⟩) ∧
    (∑ y : Sym, (match u.codeAt y with
      | none   => 0
      | some c => 2 ^ (256 - c.len.toNat))) = 2 ^ 256 ∧
    ∀ y c, u.codeAt y = some c → c.len.toNat ≤ 256

/-! SERIALIZE and DESERIALIZE. -/

/-- SERIALIZE writes the current tree in preorder, one tag bit a node and nine symbol bits a leaf, and returns their
number (42_serdes.md R190 to R193). -/
def Obligations.SerializeRuns : Prop :=
  ∀ (s : State) (t : Machine.Tree), s.config.outAttached = true → s.treeValid = true → s.tree = some t →
    t.bits.length = t.size + 9 * t.leaves.length ∧
    ∃ u r, Streamed s u 0 s.inp t.bits ∧ exec .serialize s = .next (u.doneWith r) ∧ Holds64 r t.bits.length

/-- DESERIALIZE reads one tree, allocates its records in preorder with weight 0, and returns the bits it read; the bits
after the tree stay on IN (42_serdes.md R194, R195, R197, R199). IN_BITS is 0 while BUSY until a bit is taken
(20_memory.md R82; the invariant's clause `busy`). -/
def Obligations.DeserializeRuns : Prop :=
  ∀ (s : State) (t : Machine.Tree) (rest : Bits),
    s.config.inAttached = true → s.inBits = 0 → s.inp = t.bits ++ rest → t.size ≤ 513 →
    exec .deserialize s = .next
      ({ s with
          inp := rest, inBits := BitVec.ofNat 64 t.bits.length, nodes := t.records 0, root := 0
          treeBits := BitVec.ofNat 32 t.bits.length, prepassValid := false, treeValid := true, codesValid := false }.doneWith
        (BitVec.ofNat 64 t.bits.length))

/-- DESERIALIZE's errors, at every place inside a tree: a closed IN that ends there is TRUNCATED; a leaf symbol above
256 is BAD_SYMBOL; a 514th record is TREE_OVERFLOW, whether an internal node or a leaf needs it. The complete tags and
symbols are taken and the fewer than nine bits of an incomplete symbol stay; the records allocated so far stay, in
preorder, an internal node with a child unread having both NIL; no flag is set (42_serdes.md R194, R195, R197, R198).
Nothing else is an error: on a closed IN, bits that start with no tree of at most 513 records are of these forms. -/
def Obligations.DeserializeErrors : Prop :=
  ∀ s : State, s.config.inAttached = true → s.inBits = 0 →
    (∀ (c : Cut) (b rest : Bits) (e : ErrCode) (n : Nat),
      s.inp = c.bits ++ b → c.size ≤ 513 → CutEnd s.inClosed c b e n rest →
      exec .deserialize s = .next
        ({ s with
            inp := rest, inBits := BitVec.ofNat 64 (c.bits.length + n), nodes := c.records 0
            prepassValid := false, treeValid := false, codesValid := false }.failedWith e)) ∧
    (s.inClosed = true →
      (∃ (t : Machine.Tree) (rest : Bits), t.size ≤ 513 ∧ s.inp = t.bits ++ rest) ∨
      ∃ (c : Cut) (b rest : Bits) (e : ErrCode) (n : Nat),
        s.inp = c.bits ++ b ∧ c.size ≤ 513 ∧ CutEnd s.inClosed c b e n rest)

/-- What SERIALIZE writes of a tree, DESERIALIZE reads back on any machine: the same shape and symbols with weights 0
and records in preorder, exactly those bits read, the same codes, and SERIALIZE writes the same bits again (42_serdes.md
R200, which the spec marks as its own inference from R191 and R194). -/
def Obligations.SerdesRoundTrip : Prop :=
  ∀ (s v : State) (t : Machine.Tree) (rest : Bits),
    s.config.outAttached = true → s.treeValid = true → s.outEarly = 0 → s.tree = some t → t.size ≤ 513 →
    v.config.inAttached = true → v.config.outAttached = true → v.inBits = 0 →
    ∃ u b, exec .serialize s = .next u ∧ u.out = s.out ++ b ∧
      (v.inp = b ++ rest →
        ∃ w x y z, exec .deserialize v = .next w ∧ w.tree = some t ∧ w.nodes = t.records 0 ∧ w.inp = rest ∧
          w.inBits.toNat = b.length ∧ w.treeBits.toNat = b.length ∧
          exec .codegen s = .next y ∧ exec .codegen w = .next z ∧ z.code = y.code ∧
          exec .serialize w = .next x ∧ x.out = w.out ++ b)

/-! ENCODE and DECODE. -/

/-- ENCODE writes the words' codes back to back and the sentinel's code last, and returns how many bits these are: the
sum of the code lengths (43_bitstream.md R210 to R215). -/
def Obligations.EncodeRuns : Prop :=
  ∀ (s : State) (xs : List InWord) (rest : Bits),
    s.config.inAttached = true → s.config.outAttached = true → s.codesValid = true → s.inClosed = true →
    s.inp = wordBits xs ++ rest → rest.length < 8 → (∀ w ∈ xs, (s.codeAt (symOfWord w)).isSome = true) →
    (s.codeAt Config.eof).isSome = true →
    (∃ u r, Streamed s u (8 * xs.length) rest (s.codedWords xs ++ s.codeBits Config.eof) ∧
      exec .encode s = .next (u.doneWith r) ∧ Holds64 r (s.codedWords xs ++ s.codeBits Config.eof).length) ∧
    (s.codedWords xs ++ s.codeBits Config.eof).length =
      (∑ w : InWord, xs.count w * codeLen (s.codeAt (symOfWord w))) + codeLen (s.codeAt Config.eof)

/-- ENCODE ends with NO_CODE at a word, or at the sentinel, without a code: the word is taken, and the codes of the
words before it are written (43_bitstream.md R211, R213). -/
def Obligations.EncodeNoCode : Prop :=
  ∀ (s : State) (xs : List InWord) (rest : Bits),
    s.config.inAttached = true → s.config.outAttached = true → s.codesValid = true →
    (∀ w ∈ xs, (s.codeAt (symOfWord w)).isSome = true) →
    (∀ w : InWord, s.inp = wordBits xs ++ (bitsOfNat 8 w.toNat ++ rest) → s.codeAt (symOfWord w) = none →
      ∃ u : State, Streamed s u (8 * xs.length + 8) rest (s.codedWords xs) ∧
        exec .encode s = .next (u.failedWith .noCode)) ∧
    (s.inClosed = true → s.inp = wordBits xs ++ rest → rest.length < 8 → s.codeAt Config.eof = none →
      ∃ u : State, Streamed s u (8 * xs.length) rest (s.codedWords xs) ∧ exec .encode s = .next (u.failedWith .noCode))

/-- DECODE follows each path from the root to its leaf, writes the leaf's word, and ends at the sentinel's leaf; the
bits after it stay on IN. A tree of the sentinel's leaf alone reads and writes nothing (43_bitstream.md R216 to R220,
R222). -/
def Obligations.DecodeRuns : Prop :=
  ∀ (s : State) (t : Machine.Tree) (ps : List (InWord × Bits)) (e rest : Bits),
    s.config.inAttached = true → s.config.outAttached = true → s.treeValid = true → s.tree = some t →
    (∀ p ∈ ps, t.follow p.2 = some (.leaf (symOfWord p.1))) → t.follow e = some (.leaf Config.eof) →
    s.inp = pathBits ps ++ e ++ rest →
    ∃ u r, Streamed s u ((pathBits ps).length + e.length) rest (wordBits (ps.map Prod.fst)) ∧
      exec .decode s = .next (u.doneWith r) ∧ Holds64 r (8 * ps.length)

/-- DECODE's errors: a root that is a leaf of an ordinary symbol is BAD_TREE before anything is read; a closed IN that
ends before the sentinel's leaf is END_OF_INPUT, and the words before it are written (43_bitstream.md R220, R221). -/
def Obligations.DecodeErrors : Prop :=
  ∀ (s : State) (t : Machine.Tree), s.config.inAttached = true → s.config.outAttached = true → s.treeValid = true →
    s.tree = some t →
    (∀ y, t = .leaf y → y ≠ Config.eof → exec .decode s = .next (s.failedWith .badTree)) ∧
    ∀ (ps : List (InWord × Bits)) (e : Bits) (a b : Machine.Tree),
      (∀ p ∈ ps, t.follow p.2 = some (.leaf (symOfWord p.1))) → t.follow e = some (.node a b) →
      s.inp = pathBits ps ++ e → s.inClosed = true →
      ∃ u : State, Streamed s u ((pathBits ps).length + e.length) [] (wordBits (ps.map Prod.fst)) ∧
        exec .decode s = .next (u.failedWith .endOfInput)

/-- What ENCODE writes with the code table of a tree, DECODE with that tree reads back on any machine: exactly the
words, reading exactly those bits (43_bitstream.md R223). -/
def Obligations.EncodeDecode : Prop :=
  ∀ (s v : State) (t : Machine.Tree) (xs : List InWord) (rest more : Bits),
    s.config.inAttached = true → s.config.outAttached = true → s.codesValid = true → s.inClosed = true →
    s.outEarly = 0 → s.inp = wordBits xs ++ rest → rest.length < 8 → t.size ≤ 513 →
    (∀ y, s.codeAt y = (t.pathOf y).map codeOfPath) → (∀ w ∈ xs, symOfWord w ∈ t.leaves) → Config.eof ∈ t.leaves →
    v.config.inAttached = true → v.config.outAttached = true → v.treeValid = true → v.tree = some t → v.outEarly = 0 →
    ∃ u b, exec .encode s = .next u ∧ u.out = s.out ++ b ∧
      (v.inp = b ++ more →
        ∃ w, exec .decode v = .next w ∧ w.done = true ∧ w.out = v.out ++ wordBits xs ∧ w.inp = more ∧
          Holds64 w.inBits (v.inBits.toNat + b.length) ∧ Holds64 w.result (8 * xs.length))

/-! The pipeline. -/

/-- PREPASS counts, builds, derives the codes and estimates: EST is the length of the compressed stream, SAVED and
RESULT the bits of the input less EST, and the three validity flags are set (44_pipeline.md R231 to R234). -/
def Obligations.PrepassRuns : Prop :=
  ∀ (s : State) (f : Fmt) (xs : List InWord) (rest : Bits),
    s.config.inAttached = true → s.inClosed = true → s.inp = wordBits xs ++ rest → rest.length < 8 →
    (∀ w, xs.count w < 2 ^ 32) →
    ∃ u t,
      (∃ ib fq ns root tb cd est saved,
        u = { s with
              inp := rest, inBits := ib, freq := fq, inwords := BitVec.ofNat 64 xs.length, pq := [], nodes := ns
              root := root, treeBits := tb, code := cd, fmt := f, est := est, saved := saved
              prepassValid := true, treeValid := true, codesValid := true }) ∧
      Holds64 u.inBits (s.inBits.toNat + 8 * xs.length) ∧ (∀ w, (u.freqAt w).toNat = xs.count w) ∧ u.Built t ∧
      (∀ y, u.codeAt y = (t.pathOf y).map codeOfPath) ∧
      u.est.toNat = 64 + headerLength f u.treeBits.toNat
        + ((∑ w : InWord, (u.freqAt w).toNat * codeLen (u.codeAt (symOfWord w))) + codeLen (u.codeAt Config.eof)) ∧
      u.saved.toInt = (8 * xs.length : Int) - u.est.toNat ∧ exec (.prepass f) s = .next (u.doneWith u.saved)

/-- COMMIT without FORCE refuses when SAVED is not positive: it succeeds with RESULT 0 and REFUSED, and takes and writes
nothing (44_pipeline.md R237). -/
def Obligations.CommitRefuses : Prop :=
  ∀ s : State, s.config.inAttached = true → s.config.outAttached = true → s.prepassValid = true → s.saved.toInt ≤ 0 →
    exec (.commit false) s = .next ({ s with prepassValid := false, refused := true }.doneWith 0)

/-- COMMIT writes the magic number, the tag, the header of the retained format, the body, and returns OUT_BITS; a word
or a sentinel without a code is NO_CODE with what was written before it (44_pipeline.md R235, R236, R238, 20_memory.md
R90, 43_bitstream.md R213). -/
def Obligations.CommitRuns : Prop :=
  ∀ (s : State) (force : Bool) (t : Machine.Tree) (xs : List InWord) (rest : Bits),
    s.config.inAttached = true → s.config.outAttached = true → s.prepassValid = true →
    (force = true ∨ 0 < s.saved.toInt) → s.tree = some t → s.treeBits.toNat = t.bits.length →
    (∀ w ∈ xs, (s.codeAt (symOfWord w)).isSome = true) →
    (s.inClosed = true → s.inp = wordBits xs ++ rest → rest.length < 8 → (s.codeAt Config.eof).isSome = true →
      ∃ u : State, Streamed { s with prepassValid := false } u (8 * xs.length) rest
          (headerBits Config.params s.fmt s.freq t ++ (s.codedWords xs ++ s.codeBits Config.eof)) ∧
        exec (.commit force) s = .next (u.doneWith u.outBits)) ∧
    (∀ w : InWord, s.inp = wordBits xs ++ (bitsOfNat 8 w.toNat ++ rest) → s.codeAt (symOfWord w) = none →
      ∃ u : State, Streamed { s with prepassValid := false } u (8 * xs.length + 8) rest
          (headerBits Config.params s.fmt s.freq t ++ s.codedWords xs) ∧
        exec (.commit force) s = .next (u.failedWith .noCode)) ∧
    (s.inClosed = true → s.inp = wordBits xs ++ rest → rest.length < 8 → s.codeAt Config.eof = none →
      ∃ u : State, Streamed { s with prepassValid := false } u (8 * xs.length) rest
          (headerBits Config.params s.fmt s.freq t ++ s.codedWords xs) ∧
        exec (.commit force) s = .next (u.failedWith .noCode))

/-- COMMIT on the input PREPASS counted writes exactly EST bits (44_pipeline.md R239). -/
def Obligations.CommitEqualsEst : Prop :=
  ∀ (s : State) (force : Bool) (xs : List InWord) (rest : Bits),
    s.Inv → s.busy = true → s.prepassValid = true → s.config.inAttached = true → s.config.outAttached = true →
    s.inClosed = true → s.inp = wordBits xs ++ rest → rest.length < 8 → (∀ w, (s.freqAt w).toNat = xs.count w) →
    (force = true ∨ 0 < s.saved.toInt) →
    ∃ u : State, exec (.commit force) s = .next u ∧ u.done = true ∧ u.error = none ∧ u.result = s.est ∧ u.outBits = s.est

/-- DECOMPRESS of an SCF stream stores the counts, rebuilds their tree and decodes; of an STF stream it stores the
declared length, reads the tree, flags a declared length that differs, and decodes. RESULT is the bits written
(44_pipeline.md R240, R243 to R246). -/
def Obligations.DecompressRuns : Prop :=
  ∀ (s : State) (t : Machine.Tree) (ps : List (InWord × Bits)) (e rest : Bits),
    s.config.inAttached = true → s.config.outAttached = true → s.inBits = 0 →
    (∀ p ∈ ps, t.follow p.2 = some (.leaf (symOfWord p.1))) → t.follow e = some (.leaf Config.eof) →
    (∀ f : Table (BitVec 32) 256, State.huffman { s with freq := f } = some t →
      s.inp = bitsOfNat 32 Config.params.magic.toNat ++ (bitsOfNat 32 Config.params.tagScf.toNat ++
        (countBits f.rows ++ (pathBits ps ++ e ++ rest))) →
      ∃ v u r,
        (∃ ns root tb,
          v = { s with
                freq := f, pq := [], nodes := ns, root := root, treeBits := tb
                prepassValid := false, treeValid := true, codesValid := false }) ∧
        v.Built t ∧
        Streamed v u (8256 + ((pathBits ps).length + e.length)) rest (wordBits (ps.map Prod.fst)) ∧
        exec .decompress s = .next (u.doneWith r) ∧ Holds64 r (8 * ps.length)) ∧
    (∀ d : BitVec 32, t.size ≤ 513 →
      s.inp = bitsOfNat 32 Config.params.magic.toNat ++ (bitsOfNat 32 Config.params.tagStf.toNat ++
        (bitsOfNat 32 d.toNat ++ (t.bits ++ (pathBits ps ++ e ++ rest)))) →
      ∃ u r,
        Streamed
          { s with
            nodes := t.records 0, root := 0, treeBits := BitVec.ofNat 32 t.bits.length, treeBitsDecl := d
            lenMismatch := s.lenMismatch || decide (d.toNat ≠ t.bits.length)
            prepassValid := false, treeValid := true, codesValid := false }
          u (96 + t.bits.length + ((pathBits ps).length + e.length)) rest (wordBits (ps.map Prod.fst)) ∧
        exec .decompress s = .next (u.doneWith r) ∧ Holds64 r (8 * ps.length))

/-- DECOMPRESS's errors before and in the header, each after the bits named were taken, with nothing written and no flag
set: another magic number, another tag, and a closed IN that ends inside the magic number, the tag, the counts or the
declared length, which leaves the counts read so far in FREQ (44_pipeline.md R240 to R243, 60_exceptions.md R266). -/
def Obligations.DecompressRejects : Prop :=
  ∀ (s v : State) (rest : Bits), s.config.inAttached = true → s.config.outAttached = true →
    v = { s with prepassValid := false, treeValid := false, codesValid := false } →
    (∀ m : BitVec 32, m ≠ Config.params.magic → s.inp = bitsOfNat 32 m.toNat ++ rest →
      ∃ u : State, Streamed v u 32 rest [] ∧ exec .decompress s = .next (u.failedWith .badMagic)) ∧
    (s.inClosed = true → s.inp.length < 32 → exec .decompress s = .next (v.failedWith .truncated)) ∧
    ∀ b : Bits, s.inp = bitsOfNat 32 Config.params.magic.toNat ++ b →
      (s.inClosed = true → b.length < 32 →
        ∃ u : State, Streamed v u 32 b [] ∧ exec .decompress s = .next (u.failedWith .truncated)) ∧
      (∀ g : BitVec 32, g ≠ Config.params.tagScf → g ≠ Config.params.tagStf → b = bitsOfNat 32 g.toNat ++ rest →
        ∃ u : State, Streamed v u 64 rest [] ∧ exec .decompress s = .next (u.failedWith .badTag)) ∧
      (∀ cs : List (BitVec 32), s.inClosed = true → cs.length < 256 → rest.length < 32 →
        b = bitsOfNat 32 Config.params.tagScf.toNat ++ (countBits cs ++ rest) →
        ∃ (u : State) (f : Table (BitVec 32) 256), Streamed { v with freq := f } u (64 + 32 * cs.length) rest [] ∧
          f.rows = cs ++ s.freq.rows.drop cs.length ∧ exec .decompress s = .next (u.failedWith .truncated)) ∧
      (s.inClosed = true → rest.length < 32 → b = bitsOfNat 32 Config.params.tagStf.toNat ++ rest →
        ∃ u : State, Streamed v u 64 rest [] ∧ exec .decompress s = .next (u.failedWith .truncated))

/-- DECOMPRESS's errors after the fields of the header. In the tree of an STF header, at every place inside it:
TRUNCATED, BAD_SYMBOL and TREE_OVERFLOW as DESERIALIZE has them, with nothing written, LEN_MISMATCH not judged and
TREE_VALID 0. In the walk: a lone leaf of an ordinary symbol is BAD_TREE with nothing written, and a closed IN that ends
before the sentinel's leaf, in either format, is END_OF_INPUT with the words before it written; the tree is then left
valid for the host and, in STF, LEN_MISMATCH tells whether its length is the declared one. FREQ, INWORDS and the code
table stay as they were, but for the counts an SCF header brings (42_serdes.md R194 to R198, 43_bitstream.md R220, R221,
44_pipeline.md R243 to R245). -/
def Obligations.DecompressTreeErrors : Prop :=
  ∀ s : State, s.config.inAttached = true → s.config.outAttached = true → s.inBits = 0 →
    (∀ (d : BitVec 32) (b : Bits),
      s.inp = bitsOfNat 32 Config.params.magic.toNat ++ (bitsOfNat 32 Config.params.tagStf.toNat ++
        (bitsOfNat 32 d.toNat ++ b)) →
      (∀ (c : Cut) (x rest : Bits) (e : ErrCode) (n : Nat),
        b = c.bits ++ x → c.size ≤ 513 → CutEnd s.inClosed c x e n rest →
        ∃ u : State,
          Streamed
            { s with
              nodes := c.records 0, treeBitsDecl := d
              prepassValid := false, treeValid := false, codesValid := false }
            u (96 + (c.bits.length + n)) rest [] ∧
          exec .decompress s = .next (u.failedWith e)) ∧
      ∀ (t : Machine.Tree) (v : State), t.size ≤ 513 →
        v = { s with
              nodes := t.records 0, root := 0, treeBits := BitVec.ofNat 32 t.bits.length, treeBitsDecl := d
              lenMismatch := s.lenMismatch || decide (d.toNat ≠ t.bits.length)
              prepassValid := false, treeValid := true, codesValid := false } →
        (∀ y rest, t = .leaf y → y ≠ Config.eof → b = t.bits ++ rest →
          ∃ u : State, Streamed v u (96 + t.bits.length) rest [] ∧ exec .decompress s = .next (u.failedWith .badTree)) ∧
        ∀ (ps : List (InWord × Bits)) (e : Bits) (x y : Machine.Tree),
          (∀ p ∈ ps, t.follow p.2 = some (.leaf (symOfWord p.1))) → t.follow e = some (.node x y) →
          b = t.bits ++ (pathBits ps ++ e) → s.inClosed = true →
          ∃ u : State,
            Streamed v u (96 + t.bits.length + ((pathBits ps).length + e.length)) [] (wordBits (ps.map Prod.fst)) ∧
            exec .decompress s = .next (u.failedWith .endOfInput)) ∧
    ∀ (f : Table (BitVec 32) 256) (t : Machine.Tree) (ps : List (InWord × Bits)) (e : Bits) (x y : Machine.Tree),
      State.huffman { s with freq := f } = some t →
      (∀ p ∈ ps, t.follow p.2 = some (.leaf (symOfWord p.1))) → t.follow e = some (.node x y) →
      s.inp = bitsOfNat 32 Config.params.magic.toNat ++ (bitsOfNat 32 Config.params.tagScf.toNat ++
        (countBits f.rows ++ (pathBits ps ++ e))) →
      s.inClosed = true →
      ∃ v u : State,
        (∃ ns root tb,
          v = { s with
                freq := f, pq := [], nodes := ns, root := root, treeBits := tb
                prepassValid := false, treeValid := true, codesValid := false }) ∧
        v.Built t ∧
        Streamed v u (8256 + ((pathBits ps).length + e.length)) [] (wordBits (ps.map Prod.fst)) ∧
        exec .decompress s = .next (u.failedWith .endOfInput)

/-- The headline: for every sequence of words whose counts fit, and either format, PREPASS, then COMMIT on the same
words (forced, or with SAVED positive), then DECOMPRESS of the bits written, on any machine and with any bits after
them, writes the words again and returns their length in bits; the bits after them stay (44_pipeline.md R247). Each
command is accepted and runs as one step with no other move pending and `rst` released (20_memory.md R82, R84). -/
def Obligations.PipelineRoundTrip : Prop :=
  ∀ (s v : State) (f : Fmt) (force : Bool) (xs : List InWord) (fill : Bits),
    s.agenda = [] → s.rstHeld = false → s.config.inAttached = true → s.config.outAttached = true →
    (∀ w, xs.count w < 2 ^ 32) → v.agenda = [] → v.rstHeld = false → v.config.inAttached = true → v.config.outAttached = true →
    ∃ p : State, step ({ s with inp := wordBits xs, inClosed := true }.accept (encode (.prepass f))) = .next p ∧
      p.done = true ∧ p.result = p.saved ∧
      (force = true ∨ 0 < p.saved.toInt →
        ∃ q b, step ({ p with inp := wordBits xs, inClosed := true }.accept (encode (.commit force))) = .next q ∧
          q.done = true ∧ q.out = s.out ++ b ∧ q.result = p.est ∧ b.length = p.est.toNat ∧
          ∃ w : State, step ({ v with inp := b ++ fill, inClosed := true }.accept (encode .decompress)) = .next w ∧
            w.done = true ∧ w.error = none ∧ w.out = v.out ++ wordBits xs ∧ w.inp = fill ∧ w.lenMismatch = false ∧
            w.result = BitVec.ofNat 64 (8 * xs.length))

/-! The invariant. -/

/-- The reset state meets the invariant. -/
def Obligations.InvReset : Prop := State.reset.Inv

/-- Every step keeps the invariant: the queue's capacity and order, the node memory's capacity, a valid tree whenever
TREE_VALID, its codes whenever CODES_VALID, the tree of FREQ with its estimate whenever PREPASS_VALID, DONE and ERR
never together, the counters clear while BUSY, and the reset values while `rst` is asserted (10_state.md R35, R44, R46,
40_pqueue.md R141, 44_pipeline.md R236, 70_reset_and_hazards.md R290). -/
def Obligations.InvStep : Prop :=
  ∀ s t : State, s.Inv → step s = .next t → t.Inv
end

