-- ==== Sys2Proof/Laws/State.lean ====
section
/-! SUPPORT. What each named update of the state does to each field: one lemma per field per update, so that no later
proof unfolds a record update. -/

namespace Sys2Proof.Machine

@[simp] theorem accept_seq (s : State) (c : Word) : (s.accept c).seq = .busy c := rfl
@[simp] theorem accept_done (s : State) (c : Word) : (s.accept c).done = false := rfl
@[simp] theorem accept_error (s : State) (c : Word) : (s.accept c).error = none := rfl
@[simp] theorem accept_overrun (s : State) (c : Word) : (s.accept c).overrun = s.overrun := rfl
@[simp] theorem accept_prepassValid (s : State) (c : Word) : (s.accept c).prepassValid = s.prepassValid := rfl
@[simp] theorem accept_treeValid (s : State) (c : Word) : (s.accept c).treeValid = s.treeValid := rfl
@[simp] theorem accept_codesValid (s : State) (c : Word) : (s.accept c).codesValid = s.codesValid := rfl
@[simp] theorem accept_fmt (s : State) (c : Word) : (s.accept c).fmt = s.fmt := rfl
@[simp] theorem accept_refused (s : State) (c : Word) : (s.accept c).refused = false := rfl
@[simp] theorem accept_lenMismatch (s : State) (c : Word) : (s.accept c).lenMismatch = false := rfl
@[simp] theorem accept_config (s : State) (c : Word) : (s.accept c).config = s.config := rfl
@[simp] theorem accept_result (s : State) (c : Word) : (s.accept c).result = s.result := rfl
@[simp] theorem accept_saved (s : State) (c : Word) : (s.accept c).saved = s.saved := rfl
@[simp] theorem accept_est (s : State) (c : Word) : (s.accept c).est = s.est := rfl
@[simp] theorem accept_inwords (s : State) (c : Word) : (s.accept c).inwords = s.inwords := rfl
@[simp] theorem accept_inBits (s : State) (c : Word) : (s.accept c).inBits = 0 := rfl
@[simp] theorem accept_outBits (s : State) (c : Word) : (s.accept c).outBits = 0 := rfl
@[simp] theorem accept_treeBits (s : State) (c : Word) : (s.accept c).treeBits = s.treeBits := rfl
@[simp] theorem accept_treeBitsDecl (s : State) (c : Word) : (s.accept c).treeBitsDecl = s.treeBitsDecl := rfl
@[simp] theorem accept_root (s : State) (c : Word) : (s.accept c).root = s.root := rfl
@[simp] theorem accept_nodes (s : State) (c : Word) : (s.accept c).nodes = s.nodes := rfl
@[simp] theorem accept_pq (s : State) (c : Word) : (s.accept c).pq = s.pq := rfl
@[simp] theorem accept_pqKeyIn (s : State) (c : Word) : (s.accept c).pqKeyIn = s.pqKeyIn := rfl
@[simp] theorem accept_pqTagIn (s : State) (c : Word) : (s.accept c).pqTagIn = s.pqTagIn := rfl
@[simp] theorem accept_pqKeyOut (s : State) (c : Word) : (s.accept c).pqKeyOut = s.pqKeyOut := rfl
@[simp] theorem accept_pqTagOut (s : State) (c : Word) : (s.accept c).pqTagOut = s.pqTagOut := rfl
@[simp] theorem accept_freq (s : State) (c : Word) : (s.accept c).freq = s.freq := rfl
@[simp] theorem accept_freqIdx (s : State) (c : Word) : (s.accept c).freqIdx = s.freqIdx := rfl
@[simp] theorem accept_nodeIdx (s : State) (c : Word) : (s.accept c).nodeIdx = s.nodeIdx := rfl
@[simp] theorem accept_code (s : State) (c : Word) : (s.accept c).code = s.code := rfl
@[simp] theorem accept_codeIdx (s : State) (c : Word) : (s.accept c).codeIdx = s.codeIdx := rfl
@[simp] theorem accept_inp (s : State) (c : Word) : (s.accept c).inp = s.inp := rfl
@[simp] theorem accept_inClosed (s : State) (c : Word) : (s.accept c).inClosed = s.inClosed := rfl
@[simp] theorem accept_out (s : State) (c : Word) : (s.accept c).out = s.out := rfl
@[simp] theorem accept_outEarly (s : State) (c : Word) : (s.accept c).outEarly = 0 := rfl
@[simp] theorem accept_rstHeld (s : State) (c : Word) : (s.accept c).rstHeld = s.rstHeld := rfl
@[simp] theorem accept_draws (s : State) (c : Word) : (s.accept c).draws = s.draws := rfl
@[simp] theorem accept_agenda (s : State) (c : Word) : (s.accept c).agenda = s.agenda := rfl
@[simp] theorem accept_reads (s : State) (c : Word) : (s.accept c).reads = s.reads := rfl
@[simp] theorem accept_taken (s : State) (c : Word) : (s.accept c).taken = s.taken := rfl

@[simp] theorem complete_seq (s : State) (r : Int) : (s.complete r).seq = .idle := rfl
@[simp] theorem complete_done (s : State) (r : Int) : (s.complete r).done = true := rfl
@[simp] theorem complete_error (s : State) (r : Int) : (s.complete r).error = s.error := rfl
@[simp] theorem complete_overrun (s : State) (r : Int) : (s.complete r).overrun = s.overrun := rfl
@[simp] theorem complete_prepassValid (s : State) (r : Int) : (s.complete r).prepassValid = s.prepassValid := rfl
@[simp] theorem complete_treeValid (s : State) (r : Int) : (s.complete r).treeValid = s.treeValid := rfl
@[simp] theorem complete_codesValid (s : State) (r : Int) : (s.complete r).codesValid = s.codesValid := rfl
@[simp] theorem complete_fmt (s : State) (r : Int) : (s.complete r).fmt = s.fmt := rfl
@[simp] theorem complete_refused (s : State) (r : Int) : (s.complete r).refused = s.refused := rfl
@[simp] theorem complete_lenMismatch (s : State) (r : Int) : (s.complete r).lenMismatch = s.lenMismatch := rfl
@[simp] theorem complete_config (s : State) (r : Int) : (s.complete r).config = s.config := rfl
@[simp] theorem complete_result (s : State) (r : Int) : (s.complete r).result = int64 r := rfl
@[simp] theorem complete_saved (s : State) (r : Int) : (s.complete r).saved = s.saved := rfl
@[simp] theorem complete_est (s : State) (r : Int) : (s.complete r).est = s.est := rfl
@[simp] theorem complete_inwords (s : State) (r : Int) : (s.complete r).inwords = s.inwords := rfl
@[simp] theorem complete_inBits (s : State) (r : Int) : (s.complete r).inBits = s.inBits := rfl
@[simp] theorem complete_outBits (s : State) (r : Int) : (s.complete r).outBits = s.outBits := rfl
@[simp] theorem complete_treeBits (s : State) (r : Int) : (s.complete r).treeBits = s.treeBits := rfl
@[simp] theorem complete_treeBitsDecl (s : State) (r : Int) : (s.complete r).treeBitsDecl = s.treeBitsDecl := rfl
@[simp] theorem complete_root (s : State) (r : Int) : (s.complete r).root = s.root := rfl
@[simp] theorem complete_nodes (s : State) (r : Int) : (s.complete r).nodes = s.nodes := rfl
@[simp] theorem complete_pq (s : State) (r : Int) : (s.complete r).pq = s.pq := rfl
@[simp] theorem complete_pqKeyIn (s : State) (r : Int) : (s.complete r).pqKeyIn = s.pqKeyIn := rfl
@[simp] theorem complete_pqTagIn (s : State) (r : Int) : (s.complete r).pqTagIn = s.pqTagIn := rfl
@[simp] theorem complete_pqKeyOut (s : State) (r : Int) : (s.complete r).pqKeyOut = s.pqKeyOut := rfl
@[simp] theorem complete_pqTagOut (s : State) (r : Int) : (s.complete r).pqTagOut = s.pqTagOut := rfl
@[simp] theorem complete_freq (s : State) (r : Int) : (s.complete r).freq = s.freq := rfl
@[simp] theorem complete_freqIdx (s : State) (r : Int) : (s.complete r).freqIdx = s.freqIdx := rfl
@[simp] theorem complete_nodeIdx (s : State) (r : Int) : (s.complete r).nodeIdx = s.nodeIdx := rfl
@[simp] theorem complete_code (s : State) (r : Int) : (s.complete r).code = s.code := rfl
@[simp] theorem complete_codeIdx (s : State) (r : Int) : (s.complete r).codeIdx = s.codeIdx := rfl
@[simp] theorem complete_inp (s : State) (r : Int) : (s.complete r).inp = s.inp := rfl
@[simp] theorem complete_inClosed (s : State) (r : Int) : (s.complete r).inClosed = s.inClosed := rfl
@[simp] theorem complete_out (s : State) (r : Int) : (s.complete r).out = s.out := rfl
@[simp] theorem complete_outEarly (s : State) (r : Int) : (s.complete r).outEarly = 0 := rfl
@[simp] theorem complete_rstHeld (s : State) (r : Int) : (s.complete r).rstHeld = s.rstHeld := rfl
@[simp] theorem complete_draws (s : State) (r : Int) : (s.complete r).draws = s.draws := rfl
@[simp] theorem complete_agenda (s : State) (r : Int) : (s.complete r).agenda = s.agenda := rfl
@[simp] theorem complete_reads (s : State) (r : Int) : (s.complete r).reads = s.reads := rfl
@[simp] theorem complete_taken (s : State) (r : Int) : (s.complete r).taken = s.taken := rfl

@[simp] theorem completeError_seq (s : State) (e : ErrCode) : (s.completeError e).seq = .idle := rfl
@[simp] theorem completeError_done (s : State) (e : ErrCode) : (s.completeError e).done = s.done := rfl
@[simp] theorem completeError_error (s : State) (e : ErrCode) : (s.completeError e).error = some e := rfl
@[simp] theorem completeError_overrun (s : State) (e : ErrCode) : (s.completeError e).overrun = s.overrun := rfl
@[simp] theorem completeError_prepassValid (s : State) (e : ErrCode) : (s.completeError e).prepassValid = s.prepassValid := rfl
@[simp] theorem completeError_treeValid (s : State) (e : ErrCode) : (s.completeError e).treeValid = s.treeValid := rfl
@[simp] theorem completeError_codesValid (s : State) (e : ErrCode) : (s.completeError e).codesValid = s.codesValid := rfl
@[simp] theorem completeError_fmt (s : State) (e : ErrCode) : (s.completeError e).fmt = s.fmt := rfl
@[simp] theorem completeError_refused (s : State) (e : ErrCode) : (s.completeError e).refused = s.refused := rfl
@[simp] theorem completeError_lenMismatch (s : State) (e : ErrCode) : (s.completeError e).lenMismatch = s.lenMismatch := rfl
@[simp] theorem completeError_config (s : State) (e : ErrCode) : (s.completeError e).config = s.config := rfl
@[simp] theorem completeError_result (s : State) (e : ErrCode) : (s.completeError e).result = BitVec.allOnes 64 := rfl
@[simp] theorem completeError_saved (s : State) (e : ErrCode) : (s.completeError e).saved = s.saved := rfl
@[simp] theorem completeError_est (s : State) (e : ErrCode) : (s.completeError e).est = s.est := rfl
@[simp] theorem completeError_inwords (s : State) (e : ErrCode) : (s.completeError e).inwords = s.inwords := rfl
@[simp] theorem completeError_inBits (s : State) (e : ErrCode) : (s.completeError e).inBits = s.inBits := rfl
@[simp] theorem completeError_outBits (s : State) (e : ErrCode) : (s.completeError e).outBits = s.outBits := rfl
@[simp] theorem completeError_treeBits (s : State) (e : ErrCode) : (s.completeError e).treeBits = s.treeBits := rfl
@[simp] theorem completeError_treeBitsDecl (s : State) (e : ErrCode) : (s.completeError e).treeBitsDecl = s.treeBitsDecl := rfl
@[simp] theorem completeError_root (s : State) (e : ErrCode) : (s.completeError e).root = s.root := rfl
@[simp] theorem completeError_nodes (s : State) (e : ErrCode) : (s.completeError e).nodes = s.nodes := rfl
@[simp] theorem completeError_pq (s : State) (e : ErrCode) : (s.completeError e).pq = s.pq := rfl
@[simp] theorem completeError_pqKeyIn (s : State) (e : ErrCode) : (s.completeError e).pqKeyIn = s.pqKeyIn := rfl
@[simp] theorem completeError_pqTagIn (s : State) (e : ErrCode) : (s.completeError e).pqTagIn = s.pqTagIn := rfl
@[simp] theorem completeError_pqKeyOut (s : State) (e : ErrCode) : (s.completeError e).pqKeyOut = s.pqKeyOut := rfl
@[simp] theorem completeError_pqTagOut (s : State) (e : ErrCode) : (s.completeError e).pqTagOut = s.pqTagOut := rfl
@[simp] theorem completeError_freq (s : State) (e : ErrCode) : (s.completeError e).freq = s.freq := rfl
@[simp] theorem completeError_freqIdx (s : State) (e : ErrCode) : (s.completeError e).freqIdx = s.freqIdx := rfl
@[simp] theorem completeError_nodeIdx (s : State) (e : ErrCode) : (s.completeError e).nodeIdx = s.nodeIdx := rfl
@[simp] theorem completeError_code (s : State) (e : ErrCode) : (s.completeError e).code = s.code := rfl
@[simp] theorem completeError_codeIdx (s : State) (e : ErrCode) : (s.completeError e).codeIdx = s.codeIdx := rfl
@[simp] theorem completeError_inp (s : State) (e : ErrCode) : (s.completeError e).inp = s.inp := rfl
@[simp] theorem completeError_inClosed (s : State) (e : ErrCode) : (s.completeError e).inClosed = s.inClosed := rfl
@[simp] theorem completeError_out (s : State) (e : ErrCode) : (s.completeError e).out = s.out := rfl
@[simp] theorem completeError_outEarly (s : State) (e : ErrCode) : (s.completeError e).outEarly = 0 := rfl
@[simp] theorem completeError_rstHeld (s : State) (e : ErrCode) : (s.completeError e).rstHeld = s.rstHeld := rfl
@[simp] theorem completeError_draws (s : State) (e : ErrCode) : (s.completeError e).draws = s.draws := rfl
@[simp] theorem completeError_agenda (s : State) (e : ErrCode) : (s.completeError e).agenda = s.agenda := rfl
@[simp] theorem completeError_reads (s : State) (e : ErrCode) : (s.completeError e).reads = s.reads := rfl
@[simp] theorem completeError_taken (s : State) (e : ErrCode) : (s.completeError e).taken = s.taken := rfl

@[simp] theorem emit_seq (s : State) (b : Bits) : (s.emit b).seq = s.seq := rfl
@[simp] theorem emit_done (s : State) (b : Bits) : (s.emit b).done = s.done := rfl
@[simp] theorem emit_error (s : State) (b : Bits) : (s.emit b).error = s.error := rfl
@[simp] theorem emit_overrun (s : State) (b : Bits) : (s.emit b).overrun = s.overrun := rfl
@[simp] theorem emit_prepassValid (s : State) (b : Bits) : (s.emit b).prepassValid = s.prepassValid := rfl
@[simp] theorem emit_treeValid (s : State) (b : Bits) : (s.emit b).treeValid = s.treeValid := rfl
@[simp] theorem emit_codesValid (s : State) (b : Bits) : (s.emit b).codesValid = s.codesValid := rfl
@[simp] theorem emit_fmt (s : State) (b : Bits) : (s.emit b).fmt = s.fmt := rfl
@[simp] theorem emit_refused (s : State) (b : Bits) : (s.emit b).refused = s.refused := rfl
@[simp] theorem emit_lenMismatch (s : State) (b : Bits) : (s.emit b).lenMismatch = s.lenMismatch := rfl
@[simp] theorem emit_config (s : State) (b : Bits) : (s.emit b).config = s.config := rfl
@[simp] theorem emit_result (s : State) (b : Bits) : (s.emit b).result = s.result := rfl
@[simp] theorem emit_saved (s : State) (b : Bits) : (s.emit b).saved = s.saved := rfl
@[simp] theorem emit_est (s : State) (b : Bits) : (s.emit b).est = s.est := rfl
@[simp] theorem emit_inwords (s : State) (b : Bits) : (s.emit b).inwords = s.inwords := rfl
@[simp] theorem emit_inBits (s : State) (b : Bits) : (s.emit b).inBits = s.inBits := rfl
@[simp] theorem emit_outBits (s : State) (b : Bits) : (s.emit b).outBits = count64 (s.outBits.toNat + b.length) := rfl
@[simp] theorem emit_treeBits (s : State) (b : Bits) : (s.emit b).treeBits = s.treeBits := rfl
@[simp] theorem emit_treeBitsDecl (s : State) (b : Bits) : (s.emit b).treeBitsDecl = s.treeBitsDecl := rfl
@[simp] theorem emit_root (s : State) (b : Bits) : (s.emit b).root = s.root := rfl
@[simp] theorem emit_nodes (s : State) (b : Bits) : (s.emit b).nodes = s.nodes := rfl
@[simp] theorem emit_pq (s : State) (b : Bits) : (s.emit b).pq = s.pq := rfl
@[simp] theorem emit_pqKeyIn (s : State) (b : Bits) : (s.emit b).pqKeyIn = s.pqKeyIn := rfl
@[simp] theorem emit_pqTagIn (s : State) (b : Bits) : (s.emit b).pqTagIn = s.pqTagIn := rfl
@[simp] theorem emit_pqKeyOut (s : State) (b : Bits) : (s.emit b).pqKeyOut = s.pqKeyOut := rfl
@[simp] theorem emit_pqTagOut (s : State) (b : Bits) : (s.emit b).pqTagOut = s.pqTagOut := rfl
@[simp] theorem emit_freq (s : State) (b : Bits) : (s.emit b).freq = s.freq := rfl
@[simp] theorem emit_freqIdx (s : State) (b : Bits) : (s.emit b).freqIdx = s.freqIdx := rfl
@[simp] theorem emit_nodeIdx (s : State) (b : Bits) : (s.emit b).nodeIdx = s.nodeIdx := rfl
@[simp] theorem emit_code (s : State) (b : Bits) : (s.emit b).code = s.code := rfl
@[simp] theorem emit_codeIdx (s : State) (b : Bits) : (s.emit b).codeIdx = s.codeIdx := rfl
@[simp] theorem emit_inp (s : State) (b : Bits) : (s.emit b).inp = s.inp := rfl
@[simp] theorem emit_inClosed (s : State) (b : Bits) : (s.emit b).inClosed = s.inClosed := rfl
@[simp] theorem emit_out (s : State) (b : Bits) : (s.emit b).out = s.out ++ b.drop s.outEarly := rfl
@[simp] theorem emit_outEarly (s : State) (b : Bits) : (s.emit b).outEarly = s.outEarly - b.length := rfl
@[simp] theorem emit_rstHeld (s : State) (b : Bits) : (s.emit b).rstHeld = s.rstHeld := rfl
@[simp] theorem emit_draws (s : State) (b : Bits) : (s.emit b).draws = s.draws := rfl
@[simp] theorem emit_agenda (s : State) (b : Bits) : (s.emit b).agenda = s.agenda := rfl
@[simp] theorem emit_reads (s : State) (b : Bits) : (s.emit b).reads = s.reads := rfl
@[simp] theorem emit_taken (s : State) (b : Bits) : (s.emit b).taken = s.taken := rfl

@[simp] theorem setFreq_seq (s : State) (w : InWord) (v : BitVec 32) : (s.setFreq w v).seq = s.seq := rfl
@[simp] theorem setFreq_done (s : State) (w : InWord) (v : BitVec 32) : (s.setFreq w v).done = s.done := rfl
@[simp] theorem setFreq_error (s : State) (w : InWord) (v : BitVec 32) : (s.setFreq w v).error = s.error := rfl
@[simp] theorem setFreq_overrun (s : State) (w : InWord) (v : BitVec 32) : (s.setFreq w v).overrun = s.overrun := rfl
@[simp] theorem setFreq_prepassValid (s : State) (w : InWord) (v : BitVec 32) : (s.setFreq w v).prepassValid = s.prepassValid := rfl
@[simp] theorem setFreq_treeValid (s : State) (w : InWord) (v : BitVec 32) : (s.setFreq w v).treeValid = s.treeValid := rfl
@[simp] theorem setFreq_codesValid (s : State) (w : InWord) (v : BitVec 32) : (s.setFreq w v).codesValid = s.codesValid := rfl
@[simp] theorem setFreq_fmt (s : State) (w : InWord) (v : BitVec 32) : (s.setFreq w v).fmt = s.fmt := rfl
@[simp] theorem setFreq_refused (s : State) (w : InWord) (v : BitVec 32) : (s.setFreq w v).refused = s.refused := rfl
@[simp] theorem setFreq_lenMismatch (s : State) (w : InWord) (v : BitVec 32) : (s.setFreq w v).lenMismatch = s.lenMismatch := rfl
@[simp] theorem setFreq_config (s : State) (w : InWord) (v : BitVec 32) : (s.setFreq w v).config = s.config := rfl
@[simp] theorem setFreq_result (s : State) (w : InWord) (v : BitVec 32) : (s.setFreq w v).result = s.result := rfl
@[simp] theorem setFreq_saved (s : State) (w : InWord) (v : BitVec 32) : (s.setFreq w v).saved = s.saved := rfl
@[simp] theorem setFreq_est (s : State) (w : InWord) (v : BitVec 32) : (s.setFreq w v).est = s.est := rfl
@[simp] theorem setFreq_inwords (s : State) (w : InWord) (v : BitVec 32) : (s.setFreq w v).inwords = s.inwords := rfl
@[simp] theorem setFreq_inBits (s : State) (w : InWord) (v : BitVec 32) : (s.setFreq w v).inBits = s.inBits := rfl
@[simp] theorem setFreq_outBits (s : State) (w : InWord) (v : BitVec 32) : (s.setFreq w v).outBits = s.outBits := rfl
@[simp] theorem setFreq_treeBits (s : State) (w : InWord) (v : BitVec 32) : (s.setFreq w v).treeBits = s.treeBits := rfl
@[simp] theorem setFreq_treeBitsDecl (s : State) (w : InWord) (v : BitVec 32) : (s.setFreq w v).treeBitsDecl = s.treeBitsDecl := rfl
@[simp] theorem setFreq_root (s : State) (w : InWord) (v : BitVec 32) : (s.setFreq w v).root = s.root := rfl
@[simp] theorem setFreq_nodes (s : State) (w : InWord) (v : BitVec 32) : (s.setFreq w v).nodes = s.nodes := rfl
@[simp] theorem setFreq_pq (s : State) (w : InWord) (v : BitVec 32) : (s.setFreq w v).pq = s.pq := rfl
@[simp] theorem setFreq_pqKeyIn (s : State) (w : InWord) (v : BitVec 32) : (s.setFreq w v).pqKeyIn = s.pqKeyIn := rfl
@[simp] theorem setFreq_pqTagIn (s : State) (w : InWord) (v : BitVec 32) : (s.setFreq w v).pqTagIn = s.pqTagIn := rfl
@[simp] theorem setFreq_pqKeyOut (s : State) (w : InWord) (v : BitVec 32) : (s.setFreq w v).pqKeyOut = s.pqKeyOut := rfl
@[simp] theorem setFreq_pqTagOut (s : State) (w : InWord) (v : BitVec 32) : (s.setFreq w v).pqTagOut = s.pqTagOut := rfl
@[simp] theorem setFreq_freq (s : State) (w : InWord) (v : BitVec 32) : (s.setFreq w v).freq = s.freq.put w.toFin v := rfl
@[simp] theorem setFreq_freqIdx (s : State) (w : InWord) (v : BitVec 32) : (s.setFreq w v).freqIdx = s.freqIdx := rfl
@[simp] theorem setFreq_nodeIdx (s : State) (w : InWord) (v : BitVec 32) : (s.setFreq w v).nodeIdx = s.nodeIdx := rfl
@[simp] theorem setFreq_code (s : State) (w : InWord) (v : BitVec 32) : (s.setFreq w v).code = s.code := rfl
@[simp] theorem setFreq_codeIdx (s : State) (w : InWord) (v : BitVec 32) : (s.setFreq w v).codeIdx = s.codeIdx := rfl
@[simp] theorem setFreq_inp (s : State) (w : InWord) (v : BitVec 32) : (s.setFreq w v).inp = s.inp := rfl
@[simp] theorem setFreq_inClosed (s : State) (w : InWord) (v : BitVec 32) : (s.setFreq w v).inClosed = s.inClosed := rfl
@[simp] theorem setFreq_out (s : State) (w : InWord) (v : BitVec 32) : (s.setFreq w v).out = s.out := rfl
@[simp] theorem setFreq_outEarly (s : State) (w : InWord) (v : BitVec 32) : (s.setFreq w v).outEarly = s.outEarly := rfl
@[simp] theorem setFreq_rstHeld (s : State) (w : InWord) (v : BitVec 32) : (s.setFreq w v).rstHeld = s.rstHeld := rfl
@[simp] theorem setFreq_draws (s : State) (w : InWord) (v : BitVec 32) : (s.setFreq w v).draws = s.draws := rfl
@[simp] theorem setFreq_agenda (s : State) (w : InWord) (v : BitVec 32) : (s.setFreq w v).agenda = s.agenda := rfl
@[simp] theorem setFreq_reads (s : State) (w : InWord) (v : BitVec 32) : (s.setFreq w v).reads = s.reads := rfl
@[simp] theorem setFreq_taken (s : State) (w : InWord) (v : BitVec 32) : (s.setFreq w v).taken = s.taken := rfl

@[simp] theorem setCode_seq (s : State) (y : Sym) (c : Code) : (s.setCode y c).seq = s.seq := rfl
@[simp] theorem setCode_done (s : State) (y : Sym) (c : Code) : (s.setCode y c).done = s.done := rfl
@[simp] theorem setCode_error (s : State) (y : Sym) (c : Code) : (s.setCode y c).error = s.error := rfl
@[simp] theorem setCode_overrun (s : State) (y : Sym) (c : Code) : (s.setCode y c).overrun = s.overrun := rfl
@[simp] theorem setCode_prepassValid (s : State) (y : Sym) (c : Code) : (s.setCode y c).prepassValid = s.prepassValid := rfl
@[simp] theorem setCode_treeValid (s : State) (y : Sym) (c : Code) : (s.setCode y c).treeValid = s.treeValid := rfl
@[simp] theorem setCode_codesValid (s : State) (y : Sym) (c : Code) : (s.setCode y c).codesValid = s.codesValid := rfl
@[simp] theorem setCode_fmt (s : State) (y : Sym) (c : Code) : (s.setCode y c).fmt = s.fmt := rfl
@[simp] theorem setCode_refused (s : State) (y : Sym) (c : Code) : (s.setCode y c).refused = s.refused := rfl
@[simp] theorem setCode_lenMismatch (s : State) (y : Sym) (c : Code) : (s.setCode y c).lenMismatch = s.lenMismatch := rfl
@[simp] theorem setCode_config (s : State) (y : Sym) (c : Code) : (s.setCode y c).config = s.config := rfl
@[simp] theorem setCode_result (s : State) (y : Sym) (c : Code) : (s.setCode y c).result = s.result := rfl
@[simp] theorem setCode_saved (s : State) (y : Sym) (c : Code) : (s.setCode y c).saved = s.saved := rfl
@[simp] theorem setCode_est (s : State) (y : Sym) (c : Code) : (s.setCode y c).est = s.est := rfl
@[simp] theorem setCode_inwords (s : State) (y : Sym) (c : Code) : (s.setCode y c).inwords = s.inwords := rfl
@[simp] theorem setCode_inBits (s : State) (y : Sym) (c : Code) : (s.setCode y c).inBits = s.inBits := rfl
@[simp] theorem setCode_outBits (s : State) (y : Sym) (c : Code) : (s.setCode y c).outBits = s.outBits := rfl
@[simp] theorem setCode_treeBits (s : State) (y : Sym) (c : Code) : (s.setCode y c).treeBits = s.treeBits := rfl
@[simp] theorem setCode_treeBitsDecl (s : State) (y : Sym) (c : Code) : (s.setCode y c).treeBitsDecl = s.treeBitsDecl := rfl
@[simp] theorem setCode_root (s : State) (y : Sym) (c : Code) : (s.setCode y c).root = s.root := rfl
@[simp] theorem setCode_nodes (s : State) (y : Sym) (c : Code) : (s.setCode y c).nodes = s.nodes := rfl
@[simp] theorem setCode_pq (s : State) (y : Sym) (c : Code) : (s.setCode y c).pq = s.pq := rfl
@[simp] theorem setCode_pqKeyIn (s : State) (y : Sym) (c : Code) : (s.setCode y c).pqKeyIn = s.pqKeyIn := rfl
@[simp] theorem setCode_pqTagIn (s : State) (y : Sym) (c : Code) : (s.setCode y c).pqTagIn = s.pqTagIn := rfl
@[simp] theorem setCode_pqKeyOut (s : State) (y : Sym) (c : Code) : (s.setCode y c).pqKeyOut = s.pqKeyOut := rfl
@[simp] theorem setCode_pqTagOut (s : State) (y : Sym) (c : Code) : (s.setCode y c).pqTagOut = s.pqTagOut := rfl
@[simp] theorem setCode_freq (s : State) (y : Sym) (c : Code) : (s.setCode y c).freq = s.freq := rfl
@[simp] theorem setCode_freqIdx (s : State) (y : Sym) (c : Code) : (s.setCode y c).freqIdx = s.freqIdx := rfl
@[simp] theorem setCode_nodeIdx (s : State) (y : Sym) (c : Code) : (s.setCode y c).nodeIdx = s.nodeIdx := rfl
@[simp] theorem setCode_code (s : State) (y : Sym) (c : Code) : (s.setCode y c).code = s.code.put y (some c) := rfl
@[simp] theorem setCode_codeIdx (s : State) (y : Sym) (c : Code) : (s.setCode y c).codeIdx = s.codeIdx := rfl
@[simp] theorem setCode_inp (s : State) (y : Sym) (c : Code) : (s.setCode y c).inp = s.inp := rfl
@[simp] theorem setCode_inClosed (s : State) (y : Sym) (c : Code) : (s.setCode y c).inClosed = s.inClosed := rfl
@[simp] theorem setCode_out (s : State) (y : Sym) (c : Code) : (s.setCode y c).out = s.out := rfl
@[simp] theorem setCode_outEarly (s : State) (y : Sym) (c : Code) : (s.setCode y c).outEarly = s.outEarly := rfl
@[simp] theorem setCode_rstHeld (s : State) (y : Sym) (c : Code) : (s.setCode y c).rstHeld = s.rstHeld := rfl
@[simp] theorem setCode_draws (s : State) (y : Sym) (c : Code) : (s.setCode y c).draws = s.draws := rfl
@[simp] theorem setCode_agenda (s : State) (y : Sym) (c : Code) : (s.setCode y c).agenda = s.agenda := rfl
@[simp] theorem setCode_reads (s : State) (y : Sym) (c : Code) : (s.setCode y c).reads = s.reads := rfl
@[simp] theorem setCode_taken (s : State) (y : Sym) (c : Code) : (s.setCode y c).taken = s.taken := rfl

@[simp] theorem clearPrepass_seq (s : State) : (s.clearPrepass).seq = s.seq := rfl
@[simp] theorem clearPrepass_done (s : State) : (s.clearPrepass).done = s.done := rfl
@[simp] theorem clearPrepass_error (s : State) : (s.clearPrepass).error = s.error := rfl
@[simp] theorem clearPrepass_overrun (s : State) : (s.clearPrepass).overrun = s.overrun := rfl
@[simp] theorem clearPrepass_prepassValid (s : State) : (s.clearPrepass).prepassValid = false := rfl
@[simp] theorem clearPrepass_treeValid (s : State) : (s.clearPrepass).treeValid = s.treeValid := rfl
@[simp] theorem clearPrepass_codesValid (s : State) : (s.clearPrepass).codesValid = s.codesValid := rfl
@[simp] theorem clearPrepass_fmt (s : State) : (s.clearPrepass).fmt = s.fmt := rfl
@[simp] theorem clearPrepass_refused (s : State) : (s.clearPrepass).refused = s.refused := rfl
@[simp] theorem clearPrepass_lenMismatch (s : State) : (s.clearPrepass).lenMismatch = s.lenMismatch := rfl
@[simp] theorem clearPrepass_config (s : State) : (s.clearPrepass).config = s.config := rfl
@[simp] theorem clearPrepass_result (s : State) : (s.clearPrepass).result = s.result := rfl
@[simp] theorem clearPrepass_saved (s : State) : (s.clearPrepass).saved = s.saved := rfl
@[simp] theorem clearPrepass_est (s : State) : (s.clearPrepass).est = s.est := rfl
@[simp] theorem clearPrepass_inwords (s : State) : (s.clearPrepass).inwords = s.inwords := rfl
@[simp] theorem clearPrepass_inBits (s : State) : (s.clearPrepass).inBits = s.inBits := rfl
@[simp] theorem clearPrepass_outBits (s : State) : (s.clearPrepass).outBits = s.outBits := rfl
@[simp] theorem clearPrepass_treeBits (s : State) : (s.clearPrepass).treeBits = s.treeBits := rfl
@[simp] theorem clearPrepass_treeBitsDecl (s : State) : (s.clearPrepass).treeBitsDecl = s.treeBitsDecl := rfl
@[simp] theorem clearPrepass_root (s : State) : (s.clearPrepass).root = s.root := rfl
@[simp] theorem clearPrepass_nodes (s : State) : (s.clearPrepass).nodes = s.nodes := rfl
@[simp] theorem clearPrepass_pq (s : State) : (s.clearPrepass).pq = s.pq := rfl
@[simp] theorem clearPrepass_pqKeyIn (s : State) : (s.clearPrepass).pqKeyIn = s.pqKeyIn := rfl
@[simp] theorem clearPrepass_pqTagIn (s : State) : (s.clearPrepass).pqTagIn = s.pqTagIn := rfl
@[simp] theorem clearPrepass_pqKeyOut (s : State) : (s.clearPrepass).pqKeyOut = s.pqKeyOut := rfl
@[simp] theorem clearPrepass_pqTagOut (s : State) : (s.clearPrepass).pqTagOut = s.pqTagOut := rfl
@[simp] theorem clearPrepass_freq (s : State) : (s.clearPrepass).freq = s.freq := rfl
@[simp] theorem clearPrepass_freqIdx (s : State) : (s.clearPrepass).freqIdx = s.freqIdx := rfl
@[simp] theorem clearPrepass_nodeIdx (s : State) : (s.clearPrepass).nodeIdx = s.nodeIdx := rfl
@[simp] theorem clearPrepass_code (s : State) : (s.clearPrepass).code = s.code := rfl
@[simp] theorem clearPrepass_codeIdx (s : State) : (s.clearPrepass).codeIdx = s.codeIdx := rfl
@[simp] theorem clearPrepass_inp (s : State) : (s.clearPrepass).inp = s.inp := rfl
@[simp] theorem clearPrepass_inClosed (s : State) : (s.clearPrepass).inClosed = s.inClosed := rfl
@[simp] theorem clearPrepass_out (s : State) : (s.clearPrepass).out = s.out := rfl
@[simp] theorem clearPrepass_outEarly (s : State) : (s.clearPrepass).outEarly = s.outEarly := rfl
@[simp] theorem clearPrepass_rstHeld (s : State) : (s.clearPrepass).rstHeld = s.rstHeld := rfl
@[simp] theorem clearPrepass_draws (s : State) : (s.clearPrepass).draws = s.draws := rfl
@[simp] theorem clearPrepass_agenda (s : State) : (s.clearPrepass).agenda = s.agenda := rfl
@[simp] theorem clearPrepass_reads (s : State) : (s.clearPrepass).reads = s.reads := rfl
@[simp] theorem clearPrepass_taken (s : State) : (s.clearPrepass).taken = s.taken := rfl

@[simp] theorem clearCodes_seq (s : State) : (s.clearCodes).seq = s.seq := rfl
@[simp] theorem clearCodes_done (s : State) : (s.clearCodes).done = s.done := rfl
@[simp] theorem clearCodes_error (s : State) : (s.clearCodes).error = s.error := rfl
@[simp] theorem clearCodes_overrun (s : State) : (s.clearCodes).overrun = s.overrun := rfl
@[simp] theorem clearCodes_prepassValid (s : State) : (s.clearCodes).prepassValid = s.prepassValid := rfl
@[simp] theorem clearCodes_treeValid (s : State) : (s.clearCodes).treeValid = s.treeValid := rfl
@[simp] theorem clearCodes_codesValid (s : State) : (s.clearCodes).codesValid = false := rfl
@[simp] theorem clearCodes_fmt (s : State) : (s.clearCodes).fmt = s.fmt := rfl
@[simp] theorem clearCodes_refused (s : State) : (s.clearCodes).refused = s.refused := rfl
@[simp] theorem clearCodes_lenMismatch (s : State) : (s.clearCodes).lenMismatch = s.lenMismatch := rfl
@[simp] theorem clearCodes_config (s : State) : (s.clearCodes).config = s.config := rfl
@[simp] theorem clearCodes_result (s : State) : (s.clearCodes).result = s.result := rfl
@[simp] theorem clearCodes_saved (s : State) : (s.clearCodes).saved = s.saved := rfl
@[simp] theorem clearCodes_est (s : State) : (s.clearCodes).est = s.est := rfl
@[simp] theorem clearCodes_inwords (s : State) : (s.clearCodes).inwords = s.inwords := rfl
@[simp] theorem clearCodes_inBits (s : State) : (s.clearCodes).inBits = s.inBits := rfl
@[simp] theorem clearCodes_outBits (s : State) : (s.clearCodes).outBits = s.outBits := rfl
@[simp] theorem clearCodes_treeBits (s : State) : (s.clearCodes).treeBits = s.treeBits := rfl
@[simp] theorem clearCodes_treeBitsDecl (s : State) : (s.clearCodes).treeBitsDecl = s.treeBitsDecl := rfl
@[simp] theorem clearCodes_root (s : State) : (s.clearCodes).root = s.root := rfl
@[simp] theorem clearCodes_nodes (s : State) : (s.clearCodes).nodes = s.nodes := rfl
@[simp] theorem clearCodes_pq (s : State) : (s.clearCodes).pq = s.pq := rfl
@[simp] theorem clearCodes_pqKeyIn (s : State) : (s.clearCodes).pqKeyIn = s.pqKeyIn := rfl
@[simp] theorem clearCodes_pqTagIn (s : State) : (s.clearCodes).pqTagIn = s.pqTagIn := rfl
@[simp] theorem clearCodes_pqKeyOut (s : State) : (s.clearCodes).pqKeyOut = s.pqKeyOut := rfl
@[simp] theorem clearCodes_pqTagOut (s : State) : (s.clearCodes).pqTagOut = s.pqTagOut := rfl
@[simp] theorem clearCodes_freq (s : State) : (s.clearCodes).freq = s.freq := rfl
@[simp] theorem clearCodes_freqIdx (s : State) : (s.clearCodes).freqIdx = s.freqIdx := rfl
@[simp] theorem clearCodes_nodeIdx (s : State) : (s.clearCodes).nodeIdx = s.nodeIdx := rfl
@[simp] theorem clearCodes_code (s : State) : (s.clearCodes).code = s.code := rfl
@[simp] theorem clearCodes_codeIdx (s : State) : (s.clearCodes).codeIdx = s.codeIdx := rfl
@[simp] theorem clearCodes_inp (s : State) : (s.clearCodes).inp = s.inp := rfl
@[simp] theorem clearCodes_inClosed (s : State) : (s.clearCodes).inClosed = s.inClosed := rfl
@[simp] theorem clearCodes_out (s : State) : (s.clearCodes).out = s.out := rfl
@[simp] theorem clearCodes_outEarly (s : State) : (s.clearCodes).outEarly = s.outEarly := rfl
@[simp] theorem clearCodes_rstHeld (s : State) : (s.clearCodes).rstHeld = s.rstHeld := rfl
@[simp] theorem clearCodes_draws (s : State) : (s.clearCodes).draws = s.draws := rfl
@[simp] theorem clearCodes_agenda (s : State) : (s.clearCodes).agenda = s.agenda := rfl
@[simp] theorem clearCodes_reads (s : State) : (s.clearCodes).reads = s.reads := rfl
@[simp] theorem clearCodes_taken (s : State) : (s.clearCodes).taken = s.taken := rfl

@[simp] theorem clearAllValid_seq (s : State) : (s.clearAllValid).seq = s.seq := rfl
@[simp] theorem clearAllValid_done (s : State) : (s.clearAllValid).done = s.done := rfl
@[simp] theorem clearAllValid_error (s : State) : (s.clearAllValid).error = s.error := rfl
@[simp] theorem clearAllValid_overrun (s : State) : (s.clearAllValid).overrun = s.overrun := rfl
@[simp] theorem clearAllValid_prepassValid (s : State) : (s.clearAllValid).prepassValid = false := rfl
@[simp] theorem clearAllValid_treeValid (s : State) : (s.clearAllValid).treeValid = false := rfl
@[simp] theorem clearAllValid_codesValid (s : State) : (s.clearAllValid).codesValid = false := rfl
@[simp] theorem clearAllValid_fmt (s : State) : (s.clearAllValid).fmt = s.fmt := rfl
@[simp] theorem clearAllValid_refused (s : State) : (s.clearAllValid).refused = s.refused := rfl
@[simp] theorem clearAllValid_lenMismatch (s : State) : (s.clearAllValid).lenMismatch = s.lenMismatch := rfl
@[simp] theorem clearAllValid_config (s : State) : (s.clearAllValid).config = s.config := rfl
@[simp] theorem clearAllValid_result (s : State) : (s.clearAllValid).result = s.result := rfl
@[simp] theorem clearAllValid_saved (s : State) : (s.clearAllValid).saved = s.saved := rfl
@[simp] theorem clearAllValid_est (s : State) : (s.clearAllValid).est = s.est := rfl
@[simp] theorem clearAllValid_inwords (s : State) : (s.clearAllValid).inwords = s.inwords := rfl
@[simp] theorem clearAllValid_inBits (s : State) : (s.clearAllValid).inBits = s.inBits := rfl
@[simp] theorem clearAllValid_outBits (s : State) : (s.clearAllValid).outBits = s.outBits := rfl
@[simp] theorem clearAllValid_treeBits (s : State) : (s.clearAllValid).treeBits = s.treeBits := rfl
@[simp] theorem clearAllValid_treeBitsDecl (s : State) : (s.clearAllValid).treeBitsDecl = s.treeBitsDecl := rfl
@[simp] theorem clearAllValid_root (s : State) : (s.clearAllValid).root = s.root := rfl
@[simp] theorem clearAllValid_nodes (s : State) : (s.clearAllValid).nodes = s.nodes := rfl
@[simp] theorem clearAllValid_pq (s : State) : (s.clearAllValid).pq = s.pq := rfl
@[simp] theorem clearAllValid_pqKeyIn (s : State) : (s.clearAllValid).pqKeyIn = s.pqKeyIn := rfl
@[simp] theorem clearAllValid_pqTagIn (s : State) : (s.clearAllValid).pqTagIn = s.pqTagIn := rfl
@[simp] theorem clearAllValid_pqKeyOut (s : State) : (s.clearAllValid).pqKeyOut = s.pqKeyOut := rfl
@[simp] theorem clearAllValid_pqTagOut (s : State) : (s.clearAllValid).pqTagOut = s.pqTagOut := rfl
@[simp] theorem clearAllValid_freq (s : State) : (s.clearAllValid).freq = s.freq := rfl
@[simp] theorem clearAllValid_freqIdx (s : State) : (s.clearAllValid).freqIdx = s.freqIdx := rfl
@[simp] theorem clearAllValid_nodeIdx (s : State) : (s.clearAllValid).nodeIdx = s.nodeIdx := rfl
@[simp] theorem clearAllValid_code (s : State) : (s.clearAllValid).code = s.code := rfl
@[simp] theorem clearAllValid_codeIdx (s : State) : (s.clearAllValid).codeIdx = s.codeIdx := rfl
@[simp] theorem clearAllValid_inp (s : State) : (s.clearAllValid).inp = s.inp := rfl
@[simp] theorem clearAllValid_inClosed (s : State) : (s.clearAllValid).inClosed = s.inClosed := rfl
@[simp] theorem clearAllValid_out (s : State) : (s.clearAllValid).out = s.out := rfl
@[simp] theorem clearAllValid_outEarly (s : State) : (s.clearAllValid).outEarly = s.outEarly := rfl
@[simp] theorem clearAllValid_rstHeld (s : State) : (s.clearAllValid).rstHeld = s.rstHeld := rfl
@[simp] theorem clearAllValid_draws (s : State) : (s.clearAllValid).draws = s.draws := rfl
@[simp] theorem clearAllValid_agenda (s : State) : (s.clearAllValid).agenda = s.agenda := rfl
@[simp] theorem clearAllValid_reads (s : State) : (s.clearAllValid).reads = s.reads := rfl
@[simp] theorem clearAllValid_taken (s : State) : (s.clearAllValid).taken = s.taken := rfl

@[simp] theorem clearNone_seq (s : State) : (s.clearNone).seq = s.seq := rfl
@[simp] theorem clearNone_done (s : State) : (s.clearNone).done = s.done := rfl
@[simp] theorem clearNone_error (s : State) : (s.clearNone).error = s.error := rfl
@[simp] theorem clearNone_overrun (s : State) : (s.clearNone).overrun = s.overrun := rfl
@[simp] theorem clearNone_prepassValid (s : State) : (s.clearNone).prepassValid = s.prepassValid := rfl
@[simp] theorem clearNone_treeValid (s : State) : (s.clearNone).treeValid = s.treeValid := rfl
@[simp] theorem clearNone_codesValid (s : State) : (s.clearNone).codesValid = s.codesValid := rfl
@[simp] theorem clearNone_fmt (s : State) : (s.clearNone).fmt = s.fmt := rfl
@[simp] theorem clearNone_refused (s : State) : (s.clearNone).refused = s.refused := rfl
@[simp] theorem clearNone_lenMismatch (s : State) : (s.clearNone).lenMismatch = s.lenMismatch := rfl
@[simp] theorem clearNone_config (s : State) : (s.clearNone).config = s.config := rfl
@[simp] theorem clearNone_result (s : State) : (s.clearNone).result = s.result := rfl
@[simp] theorem clearNone_saved (s : State) : (s.clearNone).saved = s.saved := rfl
@[simp] theorem clearNone_est (s : State) : (s.clearNone).est = s.est := rfl
@[simp] theorem clearNone_inwords (s : State) : (s.clearNone).inwords = s.inwords := rfl
@[simp] theorem clearNone_inBits (s : State) : (s.clearNone).inBits = s.inBits := rfl
@[simp] theorem clearNone_outBits (s : State) : (s.clearNone).outBits = s.outBits := rfl
@[simp] theorem clearNone_treeBits (s : State) : (s.clearNone).treeBits = s.treeBits := rfl
@[simp] theorem clearNone_treeBitsDecl (s : State) : (s.clearNone).treeBitsDecl = s.treeBitsDecl := rfl
@[simp] theorem clearNone_root (s : State) : (s.clearNone).root = s.root := rfl
@[simp] theorem clearNone_nodes (s : State) : (s.clearNone).nodes = s.nodes := rfl
@[simp] theorem clearNone_pq (s : State) : (s.clearNone).pq = s.pq := rfl
@[simp] theorem clearNone_pqKeyIn (s : State) : (s.clearNone).pqKeyIn = s.pqKeyIn := rfl
@[simp] theorem clearNone_pqTagIn (s : State) : (s.clearNone).pqTagIn = s.pqTagIn := rfl
@[simp] theorem clearNone_pqKeyOut (s : State) : (s.clearNone).pqKeyOut = s.pqKeyOut := rfl
@[simp] theorem clearNone_pqTagOut (s : State) : (s.clearNone).pqTagOut = s.pqTagOut := rfl
@[simp] theorem clearNone_freq (s : State) : (s.clearNone).freq = s.freq := rfl
@[simp] theorem clearNone_freqIdx (s : State) : (s.clearNone).freqIdx = s.freqIdx := rfl
@[simp] theorem clearNone_nodeIdx (s : State) : (s.clearNone).nodeIdx = s.nodeIdx := rfl
@[simp] theorem clearNone_code (s : State) : (s.clearNone).code = s.code := rfl
@[simp] theorem clearNone_codeIdx (s : State) : (s.clearNone).codeIdx = s.codeIdx := rfl
@[simp] theorem clearNone_inp (s : State) : (s.clearNone).inp = s.inp := rfl
@[simp] theorem clearNone_inClosed (s : State) : (s.clearNone).inClosed = s.inClosed := rfl
@[simp] theorem clearNone_out (s : State) : (s.clearNone).out = s.out := rfl
@[simp] theorem clearNone_outEarly (s : State) : (s.clearNone).outEarly = s.outEarly := rfl
@[simp] theorem clearNone_rstHeld (s : State) : (s.clearNone).rstHeld = s.rstHeld := rfl
@[simp] theorem clearNone_draws (s : State) : (s.clearNone).draws = s.draws := rfl
@[simp] theorem clearNone_agenda (s : State) : (s.clearNone).agenda = s.agenda := rfl
@[simp] theorem clearNone_reads (s : State) : (s.clearNone).reads = s.reads := rfl
@[simp] theorem clearNone_taken (s : State) : (s.clearNone).taken = s.taken := rfl

@[simp] theorem writeStatus_seq (s : State) (v : Word) : (s.writeStatus v).seq = s.seq := rfl
@[simp] theorem writeStatus_done (s : State) (v : Word) : (s.writeStatus v).done = (s.done && !v.getLsbD 1) := rfl
@[simp] theorem writeStatus_error (s : State) (v : Word) : (s.writeStatus v).error = (if v.getLsbD 2 then none else s.error) := rfl
@[simp] theorem writeStatus_overrun (s : State) (v : Word) : (s.writeStatus v).overrun = (s.overrun && !v.getLsbD 3) := rfl
@[simp] theorem writeStatus_prepassValid (s : State) (v : Word) : (s.writeStatus v).prepassValid = s.prepassValid := rfl
@[simp] theorem writeStatus_treeValid (s : State) (v : Word) : (s.writeStatus v).treeValid = s.treeValid := rfl
@[simp] theorem writeStatus_codesValid (s : State) (v : Word) : (s.writeStatus v).codesValid = s.codesValid := rfl
@[simp] theorem writeStatus_fmt (s : State) (v : Word) : (s.writeStatus v).fmt = s.fmt := rfl
@[simp] theorem writeStatus_refused (s : State) (v : Word) : (s.writeStatus v).refused = s.refused := rfl
@[simp] theorem writeStatus_lenMismatch (s : State) (v : Word) : (s.writeStatus v).lenMismatch = s.lenMismatch := rfl
@[simp] theorem writeStatus_config (s : State) (v : Word) : (s.writeStatus v).config = s.config := rfl
@[simp] theorem writeStatus_result (s : State) (v : Word) : (s.writeStatus v).result = s.result := rfl
@[simp] theorem writeStatus_saved (s : State) (v : Word) : (s.writeStatus v).saved = s.saved := rfl
@[simp] theorem writeStatus_est (s : State) (v : Word) : (s.writeStatus v).est = s.est := rfl
@[simp] theorem writeStatus_inwords (s : State) (v : Word) : (s.writeStatus v).inwords = s.inwords := rfl
@[simp] theorem writeStatus_inBits (s : State) (v : Word) : (s.writeStatus v).inBits = s.inBits := rfl
@[simp] theorem writeStatus_outBits (s : State) (v : Word) : (s.writeStatus v).outBits = s.outBits := rfl
@[simp] theorem writeStatus_treeBits (s : State) (v : Word) : (s.writeStatus v).treeBits = s.treeBits := rfl
@[simp] theorem writeStatus_treeBitsDecl (s : State) (v : Word) : (s.writeStatus v).treeBitsDecl = s.treeBitsDecl := rfl
@[simp] theorem writeStatus_root (s : State) (v : Word) : (s.writeStatus v).root = s.root := rfl
@[simp] theorem writeStatus_nodes (s : State) (v : Word) : (s.writeStatus v).nodes = s.nodes := rfl
@[simp] theorem writeStatus_pq (s : State) (v : Word) : (s.writeStatus v).pq = s.pq := rfl
@[simp] theorem writeStatus_pqKeyIn (s : State) (v : Word) : (s.writeStatus v).pqKeyIn = s.pqKeyIn := rfl
@[simp] theorem writeStatus_pqTagIn (s : State) (v : Word) : (s.writeStatus v).pqTagIn = s.pqTagIn := rfl
@[simp] theorem writeStatus_pqKeyOut (s : State) (v : Word) : (s.writeStatus v).pqKeyOut = s.pqKeyOut := rfl
@[simp] theorem writeStatus_pqTagOut (s : State) (v : Word) : (s.writeStatus v).pqTagOut = s.pqTagOut := rfl
@[simp] theorem writeStatus_freq (s : State) (v : Word) : (s.writeStatus v).freq = s.freq := rfl
@[simp] theorem writeStatus_freqIdx (s : State) (v : Word) : (s.writeStatus v).freqIdx = s.freqIdx := rfl
@[simp] theorem writeStatus_nodeIdx (s : State) (v : Word) : (s.writeStatus v).nodeIdx = s.nodeIdx := rfl
@[simp] theorem writeStatus_code (s : State) (v : Word) : (s.writeStatus v).code = s.code := rfl
@[simp] theorem writeStatus_codeIdx (s : State) (v : Word) : (s.writeStatus v).codeIdx = s.codeIdx := rfl
@[simp] theorem writeStatus_inp (s : State) (v : Word) : (s.writeStatus v).inp = s.inp := rfl
@[simp] theorem writeStatus_inClosed (s : State) (v : Word) : (s.writeStatus v).inClosed = s.inClosed := rfl
@[simp] theorem writeStatus_out (s : State) (v : Word) : (s.writeStatus v).out = s.out := rfl
@[simp] theorem writeStatus_outEarly (s : State) (v : Word) : (s.writeStatus v).outEarly = s.outEarly := rfl
@[simp] theorem writeStatus_rstHeld (s : State) (v : Word) : (s.writeStatus v).rstHeld = s.rstHeld := rfl
@[simp] theorem writeStatus_draws (s : State) (v : Word) : (s.writeStatus v).draws = s.draws := rfl
@[simp] theorem writeStatus_agenda (s : State) (v : Word) : (s.writeStatus v).agenda = s.agenda := rfl
@[simp] theorem writeStatus_reads (s : State) (v : Word) : (s.writeStatus v).reads = s.reads := rfl
@[simp] theorem writeStatus_taken (s : State) (v : Word) : (s.writeStatus v).taken = s.taken := rfl

@[simp] theorem writeConfig_seq (s : State) (v : Word) : (s.writeConfig v).seq = s.seq := rfl
@[simp] theorem writeConfig_done (s : State) (v : Word) : (s.writeConfig v).done = s.done := rfl
@[simp] theorem writeConfig_error (s : State) (v : Word) : (s.writeConfig v).error = s.error := rfl
@[simp] theorem writeConfig_overrun (s : State) (v : Word) : (s.writeConfig v).overrun = s.overrun := rfl
@[simp] theorem writeConfig_prepassValid (s : State) (v : Word) : (s.writeConfig v).prepassValid = s.prepassValid := rfl
@[simp] theorem writeConfig_treeValid (s : State) (v : Word) : (s.writeConfig v).treeValid = s.treeValid := rfl
@[simp] theorem writeConfig_codesValid (s : State) (v : Word) : (s.writeConfig v).codesValid = s.codesValid := rfl
@[simp] theorem writeConfig_fmt (s : State) (v : Word) : (s.writeConfig v).fmt = s.fmt := rfl
@[simp] theorem writeConfig_refused (s : State) (v : Word) : (s.writeConfig v).refused = s.refused := rfl
@[simp] theorem writeConfig_lenMismatch (s : State) (v : Word) : (s.writeConfig v).lenMismatch = s.lenMismatch := rfl
@[simp] theorem writeConfig_config (s : State) (v : Word) : (s.writeConfig v).config = { inAttached := v.getLsbD 0, outAttached := v.getLsbD 1, irqEn := v.getLsbD 2 } := rfl
@[simp] theorem writeConfig_result (s : State) (v : Word) : (s.writeConfig v).result = s.result := rfl
@[simp] theorem writeConfig_saved (s : State) (v : Word) : (s.writeConfig v).saved = s.saved := rfl
@[simp] theorem writeConfig_est (s : State) (v : Word) : (s.writeConfig v).est = s.est := rfl
@[simp] theorem writeConfig_inwords (s : State) (v : Word) : (s.writeConfig v).inwords = s.inwords := rfl
@[simp] theorem writeConfig_inBits (s : State) (v : Word) : (s.writeConfig v).inBits = s.inBits := rfl
@[simp] theorem writeConfig_outBits (s : State) (v : Word) : (s.writeConfig v).outBits = s.outBits := rfl
@[simp] theorem writeConfig_treeBits (s : State) (v : Word) : (s.writeConfig v).treeBits = s.treeBits := rfl
@[simp] theorem writeConfig_treeBitsDecl (s : State) (v : Word) : (s.writeConfig v).treeBitsDecl = s.treeBitsDecl := rfl
@[simp] theorem writeConfig_root (s : State) (v : Word) : (s.writeConfig v).root = s.root := rfl
@[simp] theorem writeConfig_nodes (s : State) (v : Word) : (s.writeConfig v).nodes = s.nodes := rfl
@[simp] theorem writeConfig_pq (s : State) (v : Word) : (s.writeConfig v).pq = s.pq := rfl
@[simp] theorem writeConfig_pqKeyIn (s : State) (v : Word) : (s.writeConfig v).pqKeyIn = s.pqKeyIn := rfl
@[simp] theorem writeConfig_pqTagIn (s : State) (v : Word) : (s.writeConfig v).pqTagIn = s.pqTagIn := rfl
@[simp] theorem writeConfig_pqKeyOut (s : State) (v : Word) : (s.writeConfig v).pqKeyOut = s.pqKeyOut := rfl
@[simp] theorem writeConfig_pqTagOut (s : State) (v : Word) : (s.writeConfig v).pqTagOut = s.pqTagOut := rfl
@[simp] theorem writeConfig_freq (s : State) (v : Word) : (s.writeConfig v).freq = s.freq := rfl
@[simp] theorem writeConfig_freqIdx (s : State) (v : Word) : (s.writeConfig v).freqIdx = s.freqIdx := rfl
@[simp] theorem writeConfig_nodeIdx (s : State) (v : Word) : (s.writeConfig v).nodeIdx = s.nodeIdx := rfl
@[simp] theorem writeConfig_code (s : State) (v : Word) : (s.writeConfig v).code = s.code := rfl
@[simp] theorem writeConfig_codeIdx (s : State) (v : Word) : (s.writeConfig v).codeIdx = s.codeIdx := rfl
@[simp] theorem writeConfig_inp (s : State) (v : Word) : (s.writeConfig v).inp = s.inp := rfl
@[simp] theorem writeConfig_inClosed (s : State) (v : Word) : (s.writeConfig v).inClosed = s.inClosed := rfl
@[simp] theorem writeConfig_out (s : State) (v : Word) : (s.writeConfig v).out = s.out := rfl
@[simp] theorem writeConfig_outEarly (s : State) (v : Word) : (s.writeConfig v).outEarly = s.outEarly := rfl
@[simp] theorem writeConfig_rstHeld (s : State) (v : Word) : (s.writeConfig v).rstHeld = s.rstHeld := rfl
@[simp] theorem writeConfig_draws (s : State) (v : Word) : (s.writeConfig v).draws = s.draws := rfl
@[simp] theorem writeConfig_agenda (s : State) (v : Word) : (s.writeConfig v).agenda = s.agenda := rfl
@[simp] theorem writeConfig_reads (s : State) (v : Word) : (s.writeConfig v).reads = s.reads := rfl
@[simp] theorem writeConfig_taken (s : State) (v : Word) : (s.writeConfig v).taken = s.taken := rfl

@[simp] theorem takeOut_seq (s : State) (k : Nat) : (s.takeOut k).seq = s.seq := rfl
@[simp] theorem takeOut_done (s : State) (k : Nat) : (s.takeOut k).done = s.done := rfl
@[simp] theorem takeOut_error (s : State) (k : Nat) : (s.takeOut k).error = s.error := rfl
@[simp] theorem takeOut_overrun (s : State) (k : Nat) : (s.takeOut k).overrun = s.overrun := rfl
@[simp] theorem takeOut_prepassValid (s : State) (k : Nat) : (s.takeOut k).prepassValid = s.prepassValid := rfl
@[simp] theorem takeOut_treeValid (s : State) (k : Nat) : (s.takeOut k).treeValid = s.treeValid := rfl
@[simp] theorem takeOut_codesValid (s : State) (k : Nat) : (s.takeOut k).codesValid = s.codesValid := rfl
@[simp] theorem takeOut_fmt (s : State) (k : Nat) : (s.takeOut k).fmt = s.fmt := rfl
@[simp] theorem takeOut_refused (s : State) (k : Nat) : (s.takeOut k).refused = s.refused := rfl
@[simp] theorem takeOut_lenMismatch (s : State) (k : Nat) : (s.takeOut k).lenMismatch = s.lenMismatch := rfl
@[simp] theorem takeOut_config (s : State) (k : Nat) : (s.takeOut k).config = s.config := rfl
@[simp] theorem takeOut_result (s : State) (k : Nat) : (s.takeOut k).result = s.result := rfl
@[simp] theorem takeOut_saved (s : State) (k : Nat) : (s.takeOut k).saved = s.saved := rfl
@[simp] theorem takeOut_est (s : State) (k : Nat) : (s.takeOut k).est = s.est := rfl
@[simp] theorem takeOut_inwords (s : State) (k : Nat) : (s.takeOut k).inwords = s.inwords := rfl
@[simp] theorem takeOut_inBits (s : State) (k : Nat) : (s.takeOut k).inBits = s.inBits := rfl
@[simp] theorem takeOut_outBits (s : State) (k : Nat) : (s.takeOut k).outBits = s.outBits := rfl
@[simp] theorem takeOut_treeBits (s : State) (k : Nat) : (s.takeOut k).treeBits = s.treeBits := rfl
@[simp] theorem takeOut_treeBitsDecl (s : State) (k : Nat) : (s.takeOut k).treeBitsDecl = s.treeBitsDecl := rfl
@[simp] theorem takeOut_root (s : State) (k : Nat) : (s.takeOut k).root = s.root := rfl
@[simp] theorem takeOut_nodes (s : State) (k : Nat) : (s.takeOut k).nodes = s.nodes := rfl
@[simp] theorem takeOut_pq (s : State) (k : Nat) : (s.takeOut k).pq = s.pq := rfl
@[simp] theorem takeOut_pqKeyIn (s : State) (k : Nat) : (s.takeOut k).pqKeyIn = s.pqKeyIn := rfl
@[simp] theorem takeOut_pqTagIn (s : State) (k : Nat) : (s.takeOut k).pqTagIn = s.pqTagIn := rfl
@[simp] theorem takeOut_pqKeyOut (s : State) (k : Nat) : (s.takeOut k).pqKeyOut = s.pqKeyOut := rfl
@[simp] theorem takeOut_pqTagOut (s : State) (k : Nat) : (s.takeOut k).pqTagOut = s.pqTagOut := rfl
@[simp] theorem takeOut_freq (s : State) (k : Nat) : (s.takeOut k).freq = s.freq := rfl
@[simp] theorem takeOut_freqIdx (s : State) (k : Nat) : (s.takeOut k).freqIdx = s.freqIdx := rfl
@[simp] theorem takeOut_nodeIdx (s : State) (k : Nat) : (s.takeOut k).nodeIdx = s.nodeIdx := rfl
@[simp] theorem takeOut_code (s : State) (k : Nat) : (s.takeOut k).code = s.code := rfl
@[simp] theorem takeOut_codeIdx (s : State) (k : Nat) : (s.takeOut k).codeIdx = s.codeIdx := rfl
@[simp] theorem takeOut_inp (s : State) (k : Nat) : (s.takeOut k).inp = s.inp := rfl
@[simp] theorem takeOut_inClosed (s : State) (k : Nat) : (s.takeOut k).inClosed = s.inClosed := rfl
@[simp] theorem takeOut_out (s : State) (k : Nat) : (s.takeOut k).out = s.out.drop k := rfl
@[simp] theorem takeOut_outEarly (s : State) (k : Nat) : (s.takeOut k).outEarly = s.outEarly := rfl
@[simp] theorem takeOut_rstHeld (s : State) (k : Nat) : (s.takeOut k).rstHeld = s.rstHeld := rfl
@[simp] theorem takeOut_draws (s : State) (k : Nat) : (s.takeOut k).draws = s.draws := rfl
@[simp] theorem takeOut_agenda (s : State) (k : Nat) : (s.takeOut k).agenda = s.agenda := rfl
@[simp] theorem takeOut_reads (s : State) (k : Nat) : (s.takeOut k).reads = s.reads := rfl
@[simp] theorem takeOut_taken (s : State) (k : Nat) : (s.takeOut k).taken = s.taken ++ s.out.take k := rfl

@[simp] theorem blockReset_seq (s : State) : s.blockReset.seq = State.reset.seq := rfl
@[simp] theorem blockReset_done (s : State) : s.blockReset.done = State.reset.done := rfl
@[simp] theorem blockReset_error (s : State) : s.blockReset.error = State.reset.error := rfl
@[simp] theorem blockReset_overrun (s : State) : s.blockReset.overrun = State.reset.overrun := rfl
@[simp] theorem blockReset_prepassValid (s : State) : s.blockReset.prepassValid = State.reset.prepassValid := rfl
@[simp] theorem blockReset_treeValid (s : State) : s.blockReset.treeValid = State.reset.treeValid := rfl
@[simp] theorem blockReset_codesValid (s : State) : s.blockReset.codesValid = State.reset.codesValid := rfl
@[simp] theorem blockReset_fmt (s : State) : s.blockReset.fmt = State.reset.fmt := rfl
@[simp] theorem blockReset_refused (s : State) : s.blockReset.refused = State.reset.refused := rfl
@[simp] theorem blockReset_lenMismatch (s : State) : s.blockReset.lenMismatch = State.reset.lenMismatch := rfl
@[simp] theorem blockReset_config (s : State) : s.blockReset.config = State.reset.config := rfl
@[simp] theorem blockReset_result (s : State) : s.blockReset.result = State.reset.result := rfl
@[simp] theorem blockReset_saved (s : State) : s.blockReset.saved = State.reset.saved := rfl
@[simp] theorem blockReset_est (s : State) : s.blockReset.est = State.reset.est := rfl
@[simp] theorem blockReset_inwords (s : State) : s.blockReset.inwords = State.reset.inwords := rfl
@[simp] theorem blockReset_inBits (s : State) : s.blockReset.inBits = State.reset.inBits := rfl
@[simp] theorem blockReset_outBits (s : State) : s.blockReset.outBits = State.reset.outBits := rfl
@[simp] theorem blockReset_treeBits (s : State) : s.blockReset.treeBits = State.reset.treeBits := rfl
@[simp] theorem blockReset_treeBitsDecl (s : State) : s.blockReset.treeBitsDecl = State.reset.treeBitsDecl := rfl
@[simp] theorem blockReset_root (s : State) : s.blockReset.root = State.reset.root := rfl
@[simp] theorem blockReset_nodes (s : State) : s.blockReset.nodes = State.reset.nodes := rfl
@[simp] theorem blockReset_pq (s : State) : s.blockReset.pq = State.reset.pq := rfl
@[simp] theorem blockReset_pqKeyIn (s : State) : s.blockReset.pqKeyIn = State.reset.pqKeyIn := rfl
@[simp] theorem blockReset_pqTagIn (s : State) : s.blockReset.pqTagIn = State.reset.pqTagIn := rfl
@[simp] theorem blockReset_pqKeyOut (s : State) : s.blockReset.pqKeyOut = State.reset.pqKeyOut := rfl
@[simp] theorem blockReset_pqTagOut (s : State) : s.blockReset.pqTagOut = State.reset.pqTagOut := rfl
@[simp] theorem blockReset_freq (s : State) : s.blockReset.freq = State.reset.freq := rfl
@[simp] theorem blockReset_freqIdx (s : State) : s.blockReset.freqIdx = State.reset.freqIdx := rfl
@[simp] theorem blockReset_nodeIdx (s : State) : s.blockReset.nodeIdx = State.reset.nodeIdx := rfl
@[simp] theorem blockReset_code (s : State) : s.blockReset.code = State.reset.code := rfl
@[simp] theorem blockReset_codeIdx (s : State) : s.blockReset.codeIdx = State.reset.codeIdx := rfl
@[simp] theorem blockReset_inp (s : State) : s.blockReset.inp = s.inp := rfl
@[simp] theorem blockReset_inClosed (s : State) : s.blockReset.inClosed = s.inClosed := rfl
@[simp] theorem blockReset_out (s : State) : s.blockReset.out = s.out := rfl
@[simp] theorem blockReset_outEarly (s : State) : s.blockReset.outEarly = State.reset.outEarly := rfl
@[simp] theorem blockReset_rstHeld (s : State) : s.blockReset.rstHeld = s.rstHeld := rfl
@[simp] theorem blockReset_draws (s : State) : s.blockReset.draws = s.draws := rfl
@[simp] theorem blockReset_agenda (s : State) : s.blockReset.agenda = s.agenda := rfl
@[simp] theorem blockReset_reads (s : State) : s.blockReset.reads = s.reads := rfl
@[simp] theorem blockReset_taken (s : State) : s.blockReset.taken = s.taken := rfl

end Sys2Proof.Machine
end

