-- ==== Sys2Proof/Laws/Cmd.lean ====
section
/-! SUPPORT. How pseudocode runs: the laws of sequencing, raising and assigning, the counts of 64-bit registers, and
what a command can answer (00_scope.md R27, 60_exceptions.md R262 to R266). -/

namespace Sys2Proof.Machine

theorem Cmd.bind_of_ok {α β : Type} {x : Cmd α} {f : α → Cmd β} {s t : State} {a : α} (h : x s = .ok a t) :
    (x >>= f) s = f a t := by
  show EStateM.bind x f s = f a t
  simp only [EStateM.bind, h]

theorem Cmd.bind_of_error {α β : Type} {x : Cmd α} {f : α → Cmd β} {s t : State} {e : Stop} (h : x s = .error e t) :
    (x >>= f) s = .error e t := by
  show EStateM.bind x f s = .error e t
  simp only [EStateM.bind, h]

/-- The inversion of a sequence that ends: both parts end. -/
theorem Cmd.bind_ok_inv {α β : Type} {x : Cmd α} {f : α → Cmd β} {s u : State} {b : β} (h : (x >>= f) s = .ok b u) :
    ∃ a t, x s = .ok a t ∧ f a t = .ok b u := by
  cases hx : x s with
  | ok a t => exact ⟨a, t, rfl, by rwa [Cmd.bind_of_ok hx] at h⟩
  | error e t => rw [Cmd.bind_of_error hx] at h; cases h

/-- The inversion of a sequence that stops: the first part stops, or it ends and the second stops. -/
theorem Cmd.bind_error_inv {α β : Type} {x : Cmd α} {f : α → Cmd β} {s u : State} {e : Stop}
    (h : (x >>= f) s = .error e u) :
    x s = .error e u ∨ ∃ a t, x s = .ok a t ∧ f a t = .error e u := by
  cases hx : x s with
  | ok a t => exact .inr ⟨a, t, rfl, by rwa [Cmd.bind_of_ok hx] at h⟩
  | error e' t => rw [Cmd.bind_of_error hx] at h; cases h; exact .inl rfl

@[simp] theorem Cmd.pure_apply {α : Type} (a : α) (s : State) : (pure a : Cmd α) s = .ok a s := rfl

@[simp] theorem Cmd.map_apply {α β : Type} (f : α → β) (x : Cmd α) (s : State) :
    (f <$> x) s =
      match x s with
      | .ok a t    => .ok (f a) t
      | .error e t => .error e t := by
  show EStateM.map f x s = _
  cases h : x s <;> simp [EStateM.map, h]

@[simp] theorem raise_apply {α : Type} (e : ErrCode) (s : State) : (raise e : Cmd α) s = .error (.raise e) s := rfl

@[simp] theorem broken_apply {α : Type} (s : State) : (broken : Cmd α) s = .error .broken s := rfl

@[simp] theorem now_apply (s : State) : now s = .ok s s := rfl

@[simp] theorem assign_apply (f : State → State) (s : State) : assign f s = .ok () (f s) := rfl

@[simp] theorem Cmd.now_bind {β : Type} (f : State → Cmd β) (s : State) : (now >>= f) s = f s s := rfl

@[simp] theorem Cmd.assign_bind {β : Type} (g : State → State) (f : Unit → Cmd β) (s : State) :
    (assign g >>= f) s = f () (g s) := rfl

@[simp] theorem Cmd.raise_bind {α β : Type} (e : ErrCode) (f : α → Cmd β) (s : State) :
    (raise e >>= f) s = .error (.raise e) s := rfl

@[simp] theorem Cmd.broken_bind {α β : Type} (f : α → Cmd β) (s : State) :
    (broken >>= f) s = .error .broken s := rfl

theorem count64_of_lt {n : Nat} (h : n < 2 ^ 64) : count64 n = BitVec.ofNat 64 n := if_pos h

theorem count64_toNat {n : Nat} (h : n < 2 ^ 64) : (count64 n).toNat = n := by
  rw [count64_of_lt h, BitVec.toNat_ofNat, Nat.mod_eq_of_lt h]

@[simp] theorem count64_toNat_self (r : BitVec 64) : count64 r.toNat = r := by
  rw [count64_of_lt r.isLt, BitVec.ofNat_toNat, BitVec.setWidth_eq]

theorem int64_of_fits {r : Int} (h : -(2 ^ 63) ≤ r ∧ r < 2 ^ 64) : int64 r = BitVec.ofInt 64 r := if_pos h

theorem int64_natCast {n : Nat} (h : n < 2 ^ 64) : int64 (n : Int) = BitVec.ofNat 64 n := by
  rw [int64_of_fits ⟨by omega, by exact_mod_cast h⟩, BitVec.ofInt_natCast]

@[simp] theorem int64_toNat (r : BitVec 64) : int64 (r.toNat : Int) = r := by
  rw [int64_natCast r.isLt, BitVec.ofNat_toNat, BitVec.setWidth_eq]

/-- What a command answers: its error at admission, its completion, or the state as it is while it waits; a fault only
for a node memory that is no tree. -/
theorem Command.exec_cases (c : Command) (s : State) :
    (∃ e, c.admission s = some e ∧ c.exec s = .next (s.completeError e)) ∨
    (c.admission s = none ∧
      ((∃ r t, c.run s = .ok r t ∧ c.exec s = .next (t.complete r)) ∨
       (∃ e t, c.run s = .error (.raise e) t ∧ c.exec s = .next (t.completeError e)) ∨
       (∃ t, c.run s = .error .wait t ∧ c.exec s = .next s) ∨
       (∃ t, c.run s = .error .broken t ∧ c.exec s = .fault .brokenTree))) := by
  cases ha : c.admission s with
  | some e => exact .inl ⟨e, rfl, by simp [Command.exec, ha]⟩
  | none =>
    refine .inr ⟨rfl, ?_⟩
    cases hr : c.run s with
    | ok r t => exact .inl ⟨r, t, rfl, by simp [Command.exec, ha, hr]⟩
    | error e t =>
      cases e with
      | raise e => exact .inr (.inl ⟨e, t, rfl, by simp [Command.exec, ha, hr]⟩)
      | wait => exact .inr (.inr (.inl ⟨t, rfl, by simp [Command.exec, ha, hr]⟩))
      | broken => exact .inr (.inr (.inr ⟨t, rfl, by simp [Command.exec, ha, hr]⟩))

theorem Command.exec_of_admission {c : Command} {s : State} {e : ErrCode} (h : c.admission s = some e) :
    c.exec s = .next (s.completeError e) := by simp [Command.exec, h]

theorem Command.exec_of_ok {c : Command} {s t : State} {r : Int} (ha : c.admission s = none)
    (h : c.run s = .ok r t) : c.exec s = .next (t.complete r) := by simp [Command.exec, ha, h]

theorem Command.exec_of_raise {c : Command} {s t : State} {e : ErrCode} (ha : c.admission s = none)
    (h : c.run s = .error (.raise e) t) : c.exec s = .next (t.completeError e) := by
  simp [Command.exec, ha, h]

theorem Command.exec_of_wait {c : Command} {s t : State} (ha : c.admission s = none)
    (h : c.run s = .error .wait t) : c.exec s = .next s := by simp [Command.exec, ha, h]

end Sys2Proof.Machine
end

