-- ==== Sys2Proof/Laws/Queue.lean ====
section
/-! SUPPORT. The priority queue: where an entry goes, order and stability, and the two primitives (40_pqueue.md R140 to
R148). -/

namespace Sys2Proof.Machine

theorem insPos_le (q : List Entry) (k : BitVec 32) : insPos q k ≤ q.length := by
  induction q with
  | nil => simp [insPos]
  | cons e es ih => simp only [insPos]; split <;> simp; omega

/-- Every entry before the insertion position has a key of at most `k` (40_pqueue.md R143). -/
theorem insPos_before (q : List Entry) (k : BitVec 32) : ∀ e ∈ q.take (insPos q k), e.key ≤ k := by
  induction q with
  | nil => simp
  | cons e es ih =>
    simp only [insPos]
    split
    · simp
    · rename_i h
      intro x hx
      simp only [List.take_succ_cons, List.mem_cons] at hx
      rcases hx with rfl | hx
      · exact BitVec.not_lt.mp h
      · exact ih x hx

/-- The entry at the insertion position, if there is one, has a greater key (40_pqueue.md R143). -/
theorem insPos_at (q : List Entry) (k : BitVec 32) : ∀ e, q[insPos q k]? = some e → k < e.key := by
  induction q with
  | nil => simp
  | cons e es ih =>
    simp only [insPos]
    split
    · rename_i h; intro x hx; simp at hx; exact hx ▸ h
    · intro x hx; simp at hx; exact ih x hx

/-- The insertion position of an entry behind the entries with keys of at most its own and before a greater one. -/
theorem insPos_split {a b : List Entry} {k : BitVec 32} (ha : ∀ e ∈ a, e.key ≤ k)
    (hb : ∀ e, b.head? = some e → k < e.key) : insPos (a ++ b) k = a.length := by
  induction a with
  | nil =>
    cases b with
    | nil => rfl
    | cons e es => simp [insPos, hb e rfl]
  | cons e es ih =>
    have he : ¬ k < e.key := BitVec.not_lt.mpr (ha e List.mem_cons_self)
    simp only [List.cons_append, insPos, if_neg he, List.length_cons]
    rw [ih fun x hx => ha x (List.mem_cons_of_mem _ hx)]

/-- An entry goes between the entries that are not greater and the first greater one (40_pqueue.md R140, R143). -/
theorem inserted_split {a b : List Entry} {e : Entry} (ha : ∀ x ∈ a, x.key ≤ e.key)
    (hb : ∀ x, b.head? = some x → e.key < x.key) : inserted (a ++ b) e = a ++ e :: b := by
  simp [inserted, insPos_split ha hb]

theorem inserted_perm (q : List Entry) (e : Entry) : (inserted q e).Perm (e :: q) := by
  simp only [inserted, List.append_assoc, List.singleton_append]
  refine List.perm_middle.trans ?_
  rw [List.take_append_drop]

@[simp] theorem inserted_length (q : List Entry) (e : Entry) : (inserted q e).length = q.length + 1 := by
  simpa using (inserted_perm q e).length_eq

theorem mem_inserted {q : List Entry} {e x : Entry} : x ∈ inserted q e ↔ x = e ∨ x ∈ q := by
  rw [(inserted_perm q e).mem_iff, List.mem_cons]

/-- Enqueue keeps the queue in ascending order (40_pqueue.md R141). -/
theorem inserted_sorted {q : List Entry} (e : Entry) (h : q.Pairwise fun a b => a.key ≤ b.key) :
    (inserted q e).Pairwise fun a b => a.key ≤ b.key := by
  have hsplit := List.take_append_drop (insPos q e.key) q
  have h' := h
  rw [← hsplit, List.pairwise_append] at h'
  obtain ⟨h1, h2, h3⟩ := h'
  have hafter : ∀ x ∈ q.drop (insPos q e.key), e.key ≤ x.key := by
    intro x hx
    cases hd : q.drop (insPos q e.key) with
    | nil => simp [hd] at hx
    | cons y ys =>
      have hy : q[insPos q e.key]? = some y := by rw [← List.head?_drop, hd]; rfl
      have hlt := insPos_at q e.key y hy
      rw [hd] at hx h2
      rcases List.mem_cons.mp hx with rfl | hx
      · exact BitVec.le_of_lt hlt
      · exact BitVec.le_trans (BitVec.le_of_lt hlt) (List.rel_of_pairwise_cons h2 hx)
  simp only [inserted, List.append_assoc, List.singleton_append]
  rw [List.pairwise_append]
  refine ⟨h1, List.pairwise_cons.mpr ⟨hafter, h2⟩, ?_⟩
  intro a ha b hb
  rcases List.mem_cons.mp hb with rfl | hb
  · exact insPos_before q _ a ha
  · exact h3 a ha b hb

/-- A new entry goes behind every entry of its own key, and the entries of any one key keep their order
(40_pqueue.md R141, R146). -/
theorem inserted_stable {q : List Entry} (e : Entry) (k : BitVec 32) (h : q.Pairwise fun a b => a.key ≤ b.key) :
    (inserted q e).filter (fun x => x.key = k) =
      q.filter (fun x => x.key = k) ++ (if e.key = k then [e] else []) := by
  have hsplit := List.take_append_drop (insPos q e.key) q
  have hf : q.filter (fun x => x.key = k) =
      (q.take (insPos q e.key)).filter (fun x => x.key = k) ++ (q.drop (insPos q e.key)).filter (fun x => x.key = k) := by
    rw [← List.filter_append, hsplit]
  simp only [inserted, List.filter_append, hf, List.append_assoc]
  congr 1
  by_cases hk : e.key = k
  · have hnil : (q.drop (insPos q e.key)).filter (fun x => x.key = k) = [] := by
      rw [List.filter_eq_nil_iff]
      intro x hx
      have hs := inserted_sorted e h
      simp only [inserted, List.append_assoc, List.singleton_append] at hs
      have hs2 := (List.pairwise_append.mp hs).2.1
      cases hd : q.drop (insPos q e.key) with
      | nil => simp [hd] at hx
      | cons y ys =>
        have hy : q[insPos q e.key]? = some y := by rw [← List.head?_drop, hd]; rfl
        have hlt := insPos_at q e.key y hy
        rw [hd] at hx hs2
        have hyx : y.key ≤ x.key := by
          rcases List.mem_cons.mp hx with rfl | hx
          · exact BitVec.le_refl _
          · exact List.rel_of_pairwise_cons (List.pairwise_cons.mp hs2).2 hx
        have hne : e.key < x.key := by
          rw [BitVec.lt_def] at hlt ⊢
          rw [BitVec.le_def] at hyx
          omega
        simp only [decide_eq_true_eq]
        intro hxk
        rw [hxk, ← hk] at hne
        exact absurd hne (BitVec.lt_irrefl _)
    rw [hnil]
    simp [hk]
  · simp [hk]

/-- Everything Enqueue can do (40_pqueue.md R143). -/
theorem enqueue_ok {k : BitVec 32} {t : BitVec 16} {s : State} (h : s.pq.length < 257) :
    enqueue k t s = .ok () { s with pq := inserted s.pq ⟨k, t⟩ } :=
  if_neg (by simpa [Config.pqCap] using h)

theorem enqueue_full {k : BitVec 32} {t : BitVec 16} {s : State} (h : 257 ≤ s.pq.length) :
    enqueue k t s = .error (.raise .pqFull) s := if_pos h

/-- Everything Dequeue can do (40_pqueue.md R143). -/
theorem dequeue_cons {e : Entry} {q : List Entry} {s : State} (h : s.pq = e :: q) :
    dequeue s = .ok e { s with pq := q } := by simp [dequeue, h]

theorem dequeue_nil {s : State} (h : s.pq = []) : dequeue s = .error (.raise .pqEmpty) s := by simp [dequeue, h]

end Sys2Proof.Machine
end

