-- ==== Sys2Proof/Laws/Streams.lean ====
section
/-! SUPPORT. Bit strings as numbers, ReadBits and WriteBits (20_memory.md R87 to R89), and the entries of a table
(10_state.md R41, R47). -/

namespace Sys2Proof.Machine

@[simp] theorem bitsOfNat_length (n v : Nat) : (bitsOfNat n v).length = n := by
  induction n with
  | zero => rfl
  | succ n ih => simp [bitsOfNat, ih]

@[simp] theorem natOfBits_nil : natOfBits [] = 0 := rfl

theorem foldl_bits (b : Bits) (a : Nat) :
    b.foldl (fun a x => 2 * a + x.toNat) a = a * 2 ^ b.length + natOfBits b := by
  induction b generalizing a with
  | nil => simp
  | cons x xs ih =>
    simp only [natOfBits, List.foldl_cons, List.length_cons, Nat.pow_succ]
    rw [ih, ih (2 * 0 + x.toNat)]
    ring

theorem natOfBits_cons (x : Bool) (xs : Bits) :
    natOfBits (x :: xs) = x.toNat * 2 ^ xs.length + natOfBits xs := by
  simp only [natOfBits, List.foldl_cons]
  rw [foldl_bits]
  simp [natOfBits]

theorem natOfBits_append (xs ys : Bits) :
    natOfBits (xs ++ ys) = natOfBits xs * 2 ^ ys.length + natOfBits ys := by
  simp only [natOfBits, List.foldl_append]
  rw [foldl_bits ys]
  rfl

theorem natOfBits_lt (b : Bits) : natOfBits b < 2 ^ b.length := by
  induction b with
  | nil => simp
  | cons x xs ih =>
    rw [natOfBits_cons, List.length_cons, Nat.pow_succ]
    cases x <;> simp <;> omega

/-- What WriteBits(n, v) appends stands for v modulo 2^n (20_memory.md R88). -/
theorem natOfBits_bitsOfNat (n v : Nat) : natOfBits (bitsOfNat n v) = v % 2 ^ n := by
  induction n with
  | zero => simp [bitsOfNat, Nat.mod_one]
  | succ n ih =>
    rw [bitsOfNat, natOfBits_cons, ih, bitsOfNat_length, Nat.mod_pow_succ, Nat.testBit_eq_decide_div_mod_eq]
    rcases Nat.mod_two_eq_zero_or_one (v / 2 ^ n) with h | h <;> (simp [h]; try ring)

theorem natOfBits_bitsOfNat_of_lt {n v : Nat} (h : v < 2 ^ n) : natOfBits (bitsOfNat n v) = v := by
  rw [natOfBits_bitsOfNat, Nat.mod_eq_of_lt h]

theorem bitsOfNat_mod (n v : Nat) (m : Nat) (h : n ≤ m) : bitsOfNat n (v % 2 ^ m) = bitsOfNat n v := by
  induction n with
  | zero => rfl
  | succ n ih =>
    rw [bitsOfNat, bitsOfNat, ih (by omega)]
    simp [Nat.testBit_mod_two_pow, show n < m by omega]

/-- A bit string is what WriteBits appends for its number (20_memory.md R88, R89). -/
theorem bitsOfNat_natOfBits (b : Bits) : bitsOfNat b.length (natOfBits b) = b := by
  induction b with
  | nil => rfl
  | cons x xs ih =>
    have hlt := natOfBits_lt xs
    rw [List.length_cons, bitsOfNat, natOfBits_cons]
    congr 1
    · rw [Nat.testBit_eq_decide_div_mod_eq]
      have : (x.toNat * 2 ^ xs.length + natOfBits xs) / 2 ^ xs.length = x.toNat := by
        rw [Nat.mul_comm, Nat.mul_add_div (Nat.two_pow_pos _), Nat.div_eq_of_lt hlt, Nat.add_zero]
      rw [this]
      cases x <;> rfl
    · rw [← bitsOfNat_mod _ _ xs.length le_rfl, Nat.mul_comm, Nat.mul_add_mod, Nat.mod_eq_of_lt hlt, ih]

theorem Holds64.count {r : BitVec 64} {a b : Nat} (h : Holds64 r a) : Holds64 (count64 (r.toNat + b)) (a + b) := by
  intro hlt
  have ha : r = BitVec.ofNat 64 a := h (by omega)
  have : r.toNat = a := by rw [ha, BitVec.toNat_ofNat, Nat.mod_eq_of_lt (by omega)]
  rw [this, count64_of_lt hlt]

theorem Holds64.self (r : BitVec 64) : Holds64 r r.toNat := by
  intro _
  rw [BitVec.ofNat_toNat, BitVec.setWidth_eq]

/-- ReadBits(n) where the bits are present (20_memory.md R87). -/
theorem readBits_append {n : Nat} {b r : Bits} {s : State} (hs : s.inp = b ++ r) (hb : b.length = n) :
    readBits n s = .ok (some (natOfBits b)) { s with inp := r, inBits := count64 (s.inBits.toNat + n) } := by
  subst hb
  simp [readBits, hs]

/-- ReadBits(n) at the end of a closed input takes nothing (20_memory.md R87). -/
theorem readBits_eoi {n : Nat} {s : State} (hs : s.inp.length < n) (hc : s.inClosed = true) :
    readBits n s = .ok none s := by
  simp [readBits, Nat.not_le.mpr hs, hc]

/-- ReadBits(n) with too few bits on an open input waits (20_memory.md R87). -/
theorem readBits_wait {n : Nat} {s : State} (hs : s.inp.length < n) (hc : s.inClosed = false) :
    readBits n s = .error .wait s := by
  simp [readBits, Nat.not_le.mpr hs, hc]

/-- Everything ReadBits can do (20_memory.md R87). -/
theorem readBits_cases (n : Nat) (s : State) :
    (n ≤ s.inp.length ∧ readBits n s = .ok (some (natOfBits (s.inp.take n)))
        { s with inp := s.inp.drop n, inBits := count64 (s.inBits.toNat + n) }) ∨
    (s.inp.length < n ∧ s.inClosed = true ∧ readBits n s = .ok none s) ∨
    (s.inp.length < n ∧ s.inClosed = false ∧ readBits n s = .error .wait s) := by
  by_cases h : n ≤ s.inp.length
  · exact .inl ⟨h, by simp [readBits, h]⟩
  · have h' : s.inp.length < n := by omega
    cases hc : s.inClosed with
    | true => exact .inr (.inl ⟨h', rfl, readBits_eoi h' hc⟩)
    | false => exact .inr (.inr ⟨h', rfl, readBits_wait h' hc⟩)

@[simp] theorem writeBits_apply (n v : Nat) (s : State) : writeBits n v s = .ok () (s.emit (bitsOfNat n v)) := rfl

@[simp] theorem Cmd.writeBits_bind {β : Type} (n v : Nat) (f : Unit → Cmd β) (s : State) :
    (writeBits n v >>= f) s = f () (s.emit (bitsOfNat n v)) := rfl

/-- Two writes append what one write of both appends (20_memory.md R88, R94); OUT_BITS aside. -/
theorem emit_out_append (s : State) (a b : Bits) : ((s.emit a).emit b).out = (s.emit (a ++ b)).out := by
  simp [List.drop_append]

theorem emit_outEarly_append (s : State) (a b : Bits) :
    ((s.emit a).emit b).outEarly = (s.emit (a ++ b)).outEarly := by
  simp [Nat.sub_sub]

@[simp] theorem Table.get_put_same {α : Type} {n : Nat} (t : Table α n) (i : Fin n) (a : α) : (t.put i a).get i = a := by
  simp [Table.get, Table.put]

theorem Table.get_put_other {α : Type} {n : Nat} (t : Table α n) {i j : Fin n} (a : α) (h : i ≠ j) :
    (t.put i a).get j = t.get j := by
  have : i.val ≠ j.val := fun e => h (Fin.ext e)
  simp [Table.get, Table.put, List.getElem_set_ne this]

theorem Table.get_put {α : Type} {n : Nat} (t : Table α n) (i j : Fin n) (a : α) :
    (t.put i a).get j = if i = j then a else t.get j := by
  by_cases h : i = j
  · subst h; simp
  · simp [h, Table.get_put_other t a h]

@[simp] theorem Table.get_fill {α : Type} {n : Nat} (a : α) (i : Fin n) : (Table.fill α n a).get i = a := by
  simp [Table.get, Table.fill]

theorem Table.ext_get {α : Type} {n : Nat} {t u : Table α n} (h : ∀ i, t.get i = u.get i) : t = u := by
  cases t with
  | mk rt ht =>
    cases u with
    | mk ru hu =>
      congr
      apply List.ext_getElem (ht.trans hu.symm)
      intro i h1 h2
      exact h ⟨i, ht ▸ h1⟩

end Sys2Proof.Machine
end

