-- ==== Sys2Proof/Laws/Io.lean ====
section
/-! SUPPORT. What a run of reads and writes does to the ports, said once: `Streamed` composes, and each stream
primitive is one (20_memory.md R87, R88). -/

namespace Sys2Proof.Machine

theorem Holds64.step {r q : BitVec 64} {a b : Nat} (h : Holds64 r a) (h' : Holds64 q (r.toNat + b)) :
    Holds64 q (a + b) := by
  intro hlt
  have ha : r = BitVec.ofNat 64 a := h (by omega)
  have : r.toNat = a := by rw [ha, BitVec.toNat_ofNat, Nat.mod_eq_of_lt (by omega)]
  rw [this] at h'
  exact h' hlt

theorem Holds64.of_eq {r : BitVec 64} {a b : Nat} (h : Holds64 r a) (e : a = b) : Holds64 r b := e ▸ h

theorem Holds64.toNat {r : BitVec 64} {a : Nat} (h : Holds64 r a) (hlt : a < 2 ^ 64) : r.toNat = a := by
  rw [h hlt, BitVec.toNat_ofNat, Nat.mod_eq_of_lt hlt]

theorem Streamed.refl (s : State) : Streamed s s 0 s.inp [] :=
  ⟨s.inBits, s.outBits, by simp, Holds64.self _, Holds64.self _⟩

theorem Streamed.refl_of {s : State} {b : Bits} (h : s.inp = b) : Streamed s s 0 b [] := h ▸ Streamed.refl s

theorem Streamed.trans {s t u : State} {n m : Nat} {r r' b b' : Bits} (h : Streamed s t n r b)
    (h' : Streamed t u m r' b') : Streamed s u (n + m) r' (b ++ b') := by
  obtain ⟨ib, ob, rfl, hi, ho⟩ := h
  obtain ⟨ib', ob', rfl, hi', ho'⟩ := h'
  refine ⟨ib', ob', ?_, ?_, ?_⟩
  · simp [List.drop_append, Nat.sub_sub]
  · exact (hi.step hi').of_eq (by omega)
  · exact (ho.step ho').of_eq (by simp; omega)

theorem Streamed.of_read {n : Nat} {r : Bits} {s : State} :
    Streamed s { s with inp := r, inBits := count64 (s.inBits.toNat + n) } n r [] :=
  ⟨_, s.outBits, by simp, (Holds64.self _).count, Holds64.self _⟩

theorem Streamed.of_emit (s : State) (b : Bits) : Streamed s (s.emit b) 0 s.inp b :=
  ⟨s.inBits, _, rfl, Holds64.self _, (Holds64.self _).count⟩

theorem Streamed.inp {s t : State} {n : Nat} {r b : Bits} (h : Streamed s t n r b) : t.inp = r := by
  obtain ⟨_, _, rfl, _⟩ := h; rfl

/-- A run that writes nothing changes IN.bits and IN_BITS alone. -/
theorem Streamed.read_only {s t : State} {n : Nat} {r : Bits} (h : Streamed s t n r []) :
    t = { s with inp := r, inBits := t.inBits } ∧ Holds64 t.inBits (s.inBits.toNat + n) := by
  obtain ⟨ib, ob, rfl, hi, ho⟩ := h
  have : ob = s.outBits := by
    have := ho (by simpa using s.outBits.isLt)
    simpa using this
  exact ⟨by simp [this], hi⟩

/-- A run that reads nothing changes OUT.bits and OUT_BITS alone (and the model's count of early bits). -/
theorem Streamed.write_only {s t : State} {b : Bits} (h : Streamed s t 0 s.inp b) :
    t = { s with out := s.out ++ b.drop s.outEarly, outEarly := s.outEarly - b.length, outBits := t.outBits } ∧
      Holds64 t.outBits (s.outBits.toNat + b.length) := by
  obtain ⟨ib, ob, rfl, hi, ho⟩ := h
  have : ib = s.inBits := by
    have := hi (by simpa using s.inBits.isLt)
    simpa using this
  exact ⟨by simp [this], ho⟩

/-- A stream run leaves everything but the ports and their counters. -/
theorem Streamed.nodes {s t : State} {n : Nat} {r b : Bits} (h : Streamed s t n r b) : t.nodes = s.nodes := by
  obtain ⟨_, _, rfl, _⟩ := h; rfl

theorem Streamed.root {s t : State} {n : Nat} {r b : Bits} (h : Streamed s t n r b) : t.root = s.root := by
  obtain ⟨_, _, rfl, _⟩ := h; rfl

theorem Streamed.code {s t : State} {n : Nat} {r b : Bits} (h : Streamed s t n r b) : t.code = s.code := by
  obtain ⟨_, _, rfl, _⟩ := h; rfl

theorem Streamed.inClosed {s t : State} {n : Nat} {r b : Bits} (h : Streamed s t n r b) : t.inClosed = s.inClosed := by
  obtain ⟨_, _, rfl, _⟩ := h; rfl

/-- A ReadBits(n) that answers a value. -/
theorem readBits_streamed {n : Nat} {b r : Bits} {s : State} (hs : s.inp = b ++ r) (hb : b.length = n) :
    ∃ t, readBits n s = .ok (some (natOfBits b)) t ∧ Streamed s t n r [] :=
  ⟨_, readBits_append hs hb, Streamed.of_read⟩

/-- A WriteBits(n, v). -/
theorem writeBits_streamed (n v : Nat) (s : State) :
    ∃ t, writeBits n v s = .ok () t ∧ Streamed s t 0 s.inp (bitsOfNat n v) :=
  ⟨_, rfl, Streamed.of_emit s _⟩

@[simp] theorem wordBits_nil : wordBits [] = [] := rfl

@[simp] theorem wordBits_cons (w : InWord) (ws : List InWord) :
    wordBits (w :: ws) = bitsOfNat 8 w.toNat ++ wordBits ws := rfl

@[simp] theorem wordBits_length (ws : List InWord) : (wordBits ws).length = 8 * ws.length := by
  induction ws with
  | nil => rfl
  | cons w ws ih => simp [ih]; omega

/-- ReadBits(W) where a whole word is present (20_memory.md R93). -/
theorem readWord {w : InWord} {r : Bits} {s : State} (hs : s.inp = bitsOfNat 8 w.toNat ++ r) :
    ∃ t, readBits Config.wordBits s = .ok (some w.toNat) t ∧ Streamed s t 8 r [] := by
  obtain ⟨t, h, ht⟩ := readBits_streamed (n := 8) hs (by simp)
  rw [natOfBits_bitsOfNat_of_lt w.isLt] at h
  exact ⟨t, h, ht⟩

end Sys2Proof.Machine
end

