-- ==== Sys2Proof/Laws/Trees.lean ====
section
/-! SUPPORT. Trees and the node memory that holds them: sizes, paths, prefixes (41_tree.md R168, R173, R174), and how
`treeAt` behaves when records are added. -/

namespace Sys2Proof.Machine

theorem Tree.size_pos (t : Tree) : 0 < t.size := by cases t <;> simp [Tree.size]

/-- A full binary tree has one leaf more than internal nodes. -/
theorem Tree.size_leaves (t : Tree) : t.size + 1 = 2 * t.leaves.length := by
  induction t with
  | leaf y => simp [Tree.size, Tree.leaves]
  | node l r ihl ihr => simp [Tree.size, Tree.leaves]; omega

/-- The serialized length: one tag bit a node and nine symbol bits a leaf (42_serdes.md R193). -/
theorem Tree.bits_length (t : Tree) : t.bits.length = t.size + 9 * t.leaves.length := by
  induction t with
  | leaf y => simp [Tree.bits, Tree.size, Tree.leaves]
  | node l r ihl ihr => simp [Tree.bits, Tree.size, Tree.leaves, ihl, ihr]; omega

theorem Tree.paths_fst (t : Tree) : t.paths.map Prod.fst = t.leaves := by
  induction t with
  | leaf y => rfl
  | node l r ihl ihr =>
    simp [Tree.paths, Tree.leaves, ← ihl, ← ihr, Function.comp_def]

/-- A path leads to its leaf (43_bitstream.md R223). -/
theorem Tree.follow_of_mem {t : Tree} {y : Sym} {p : Bits} (h : (y, p) ∈ t.paths) : t.follow p = some (.leaf y) := by
  induction t generalizing p with
  | leaf z => simp only [Tree.paths, List.mem_singleton, Prod.mk.injEq] at h; obtain ⟨rfl, rfl⟩ := h; rfl
  | node l r ihl ihr =>
    simp only [Tree.paths, List.mem_append, List.mem_map, Prod.mk.injEq] at h
    rcases h with ⟨⟨z, q⟩, hm, rfl, rfl⟩ | ⟨⟨z, q⟩, hm, rfl, rfl⟩
    · simpa [Tree.follow] using ihl hm
    · simpa [Tree.follow] using ihr hm

theorem Tree.mem_of_follow {t : Tree} {y : Sym} {p : Bits} (h : t.follow p = some (.leaf y)) : (y, p) ∈ t.paths := by
  induction t generalizing p with
  | leaf z =>
    cases p with
    | nil => simp [Tree.follow] at h; simp [Tree.paths, h]
    | cons b bs => simp [Tree.follow] at h
  | node l r ihl ihr =>
    cases p with
    | nil => simp [Tree.follow] at h
    | cons b bs =>
      cases b with
      | false =>
        simp [Tree.follow] at h
        simp [Tree.paths, ihl h]
      | true =>
        simp [Tree.follow] at h
        simp [Tree.paths, ihr h]

/-- No leaf's path is a proper prefix of another's (41_tree.md R174). -/
theorem Tree.follow_prefix {t : Tree} {y z : Sym} {p q : Bits} (hp : t.follow p = some (.leaf y))
    (hq : t.follow (p ++ q) = some (.leaf z)) : q = [] := by
  induction t generalizing p with
  | leaf x =>
    cases p with
    | nil =>
      cases q with
      | nil => rfl
      | cons b bs => simp [Tree.follow] at hq
    | cons b bs => simp [Tree.follow] at hp
  | node l r ihl ihr =>
    cases p with
    | nil => simp [Tree.follow] at hp
    | cons b bs =>
      cases b with
      | false => simp [Tree.follow] at hp hq; exact ihl hp hq
      | true => simp [Tree.follow] at hp hq; exact ihr hp hq

/-- A path is shorter than half the tree (00_scope.md R18). -/
theorem Tree.path_length {t u : Tree} {p : Bits} (h : t.follow p = some u) : 2 * p.length + 1 ≤ t.size := by
  induction t generalizing p with
  | leaf x =>
    cases p with
    | nil => simp [Tree.size]
    | cons b bs => simp [Tree.follow] at h
  | node l r ihl ihr =>
    cases p with
    | nil => simp [Tree.size]
    | cons b bs =>
      have hl := l.size_pos
      have hr := r.size_pos
      cases b with
      | false =>
        simp [Tree.follow] at h
        have := ihl h
        simp [Tree.size]; omega
      | true =>
        simp [Tree.follow] at h
        have := ihr h
        simp [Tree.size]; omega

theorem Tree.pathOf_leaf (y z : Sym) : (Tree.leaf y).pathOf z = if y = z then some [] else none := by
  by_cases h : y = z <;> simp [Tree.pathOf, Tree.paths, h]

/-- The last leaf of a symbol is the right subtree's, if that has one (41_tree.md R172). -/
theorem Tree.pathOf_node (l r : Tree) (y : Sym) :
    (Tree.node l r).pathOf y =
      match r.pathOf y with
      | some p => some (true :: p)
      | none   => (l.pathOf y).map (false :: ·) := by
  simp only [Tree.pathOf, Tree.paths, List.filter_append, List.filter_map, Function.comp_def, List.getLast?_append,
    List.getLast?_map]
  cases hr : (List.filter (fun p => decide (p.1 = y)) r.paths).getLast? with
  | some p => simp
  | none => simp [Function.comp_def]

theorem Tree.mem_of_pathOf {t : Tree} {y : Sym} {p : Bits} (h : t.pathOf y = some p) : (y, p) ∈ t.paths := by
  simp only [Tree.pathOf, Option.map_eq_some_iff] at h
  obtain ⟨⟨z, q⟩, hq, rfl⟩ := h
  have hm := List.mem_of_getLast? hq
  simp only [List.mem_filter, decide_eq_true_eq] at hm
  obtain ⟨hm, rfl⟩ := hm
  exact hm

/-- A symbol has a path exactly when a leaf holds it. -/
theorem Tree.pathOf_isSome (t : Tree) (y : Sym) : (t.pathOf y).isSome = true ↔ y ∈ t.leaves := by
  rw [← t.paths_fst]
  simp only [Tree.pathOf, Option.isSome_map, List.getLast?_isSome, ne_eq, List.filter_eq_nil_iff, not_forall,
    decide_eq_true_eq, not_not, List.mem_map]
  constructor
  · rintro ⟨a, hm, rfl⟩; exact ⟨a, hm, rfl⟩
  · rintro ⟨a, hm, rfl⟩; exact ⟨a, hm, rfl⟩

theorem treeAt_succ (nodes : List Node) (k : Nat) (i : NodeIdx) :
    treeAt nodes (k + 1) i =
      match nodes[i.toNat]? with
      | none              => none
      | some (.leaf y _)  => some (.leaf y)
      | some (.int l r _) =>
        match treeAt nodes k l, treeAt nodes k r with
        | some tl, some tr => some (.node tl tr)
        | _, _             => none := rfl

/-- The inversion of `treeAt`: a leaf record, or an internal record over two trees. -/
theorem treeAt_some {nodes : List Node} {k : Nat} {i : NodeIdx} {t : Tree} (h : treeAt nodes (k + 1) i = some t) :
    (∃ y w, nodes[i.toNat]? = some (.leaf y w) ∧ t = .leaf y) ∨
    (∃ l r w tl tr, nodes[i.toNat]? = some (.int l r w) ∧ treeAt nodes k l = some tl ∧ treeAt nodes k r = some tr ∧
      t = .node tl tr) := by
  rw [treeAt_succ] at h
  cases hn : nodes[i.toNat]? with
  | none => simp [hn] at h
  | some n =>
    cases n with
    | leaf y w => simp [hn] at h; exact .inl ⟨y, w, rfl, h.symm⟩
    | int l r w =>
      simp only [hn] at h
      cases hl : treeAt nodes k l with
      | none => simp [hl] at h
      | some tl =>
        cases hr : treeAt nodes k r with
        | none => simp [hl, hr] at h
        | some tr =>
          simp [hl, hr] at h
          exact .inr ⟨l, r, w, tl, tr, rfl, hl, hr, h.symm⟩

theorem treeAt_leaf {nodes : List Node} {k : Nat} {i : NodeIdx} {y : Sym} {w : BitVec 32}
    (h : nodes[i.toNat]? = some (.leaf y w)) : treeAt nodes (k + 1) i = some (.leaf y) := by
  simp [treeAt_succ, h]

theorem treeAt_int {nodes : List Node} {k : Nat} {i l r : NodeIdx} {w : BitVec 32} {tl tr : Tree}
    (h : nodes[i.toNat]? = some (.int l r w)) (hl : treeAt nodes k l = some tl) (hr : treeAt nodes k r = some tr) :
    treeAt nodes (k + 1) i = some (.node tl tr) := by
  simp [treeAt_succ, h, hl, hr]

/-- More fuel reads the same tree. -/
theorem treeAt_mono {nodes : List Node} {k m : Nat} {i : NodeIdx} {t : Tree} (h : treeAt nodes k i = some t)
    (hkm : k ≤ m) : treeAt nodes m i = some t := by
  induction k generalizing m i t with
  | zero => simp [treeAt] at h
  | succ k ih =>
    obtain ⟨m, rfl⟩ : ∃ m', m = m' + 1 := ⟨m - 1, by omega⟩
    rcases treeAt_some h with ⟨y, w, hn, rfl⟩ | ⟨l, r, w, tl, tr, hn, hl, hr, rfl⟩
    · exact treeAt_leaf hn
    · exact treeAt_int hn (ih hl (by omega)) (ih hr (by omega))

/-- Records added behind the others leave the trees there are. -/
theorem treeAt_append {nodes more : List Node} {k : Nat} {i : NodeIdx} {t : Tree} (h : treeAt nodes k i = some t) :
    treeAt (nodes ++ more) k i = some t := by
  induction k generalizing i t with
  | zero => simp [treeAt] at h
  | succ k ih =>
    have ext : ∀ {j : NodeIdx} {n : Node}, nodes[j.toNat]? = some n → (nodes ++ more)[j.toNat]? = some n := by
      intro j n hj
      rw [List.getElem?_append_left (List.getElem?_eq_some_iff.mp hj).1]
      exact hj
    rcases treeAt_some h with ⟨y, w, hn, rfl⟩ | ⟨l, r, w, tl, tr, hn, hl, hr, rfl⟩
    · exact treeAt_leaf (ext hn)
    · exact treeAt_int (ext hn) (ih hl) (ih hr)

/-- A fuel of the tree's size is enough to read it. -/
theorem treeAt_size {nodes : List Node} {k : Nat} {i : NodeIdx} {t : Tree} (h : treeAt nodes k i = some t) :
    treeAt nodes t.size i = some t := by
  induction k generalizing i t with
  | zero => simp [treeAt] at h
  | succ k ih =>
    rcases treeAt_some h with ⟨y, w, hn, rfl⟩ | ⟨l, r, w, tl, tr, hn, hl, hr, rfl⟩
    · exact treeAt_leaf (k := 0) hn
    · exact treeAt_int hn (treeAt_mono (ih hl) (by omega)) (treeAt_mono (ih hr) (by omega))

/-- NODE[i] under a tree exists. -/
theorem nodeAt_of_treeAt {s : State} {k : Nat} {i : NodeIdx} {t : Tree} (h : treeAt s.nodes k i = some t) :
    ∃ n, s.nodes[i.toNat]? = some n ∧ nodeAt i s = .ok n s := by
  obtain ⟨k, rfl⟩ : ∃ k', k = k' + 1 := by
    cases k with
    | zero => simp [treeAt] at h
    | succ k => exact ⟨k, rfl⟩
  rcases treeAt_some h with ⟨y, w, hn, _⟩ | ⟨l, r, w, _, _, hn, _⟩ <;> exact ⟨_, hn, by simp [nodeAt, hn]⟩

theorem nodeAt_of_some {s : State} {i : NodeIdx} {n : Node} (h : s.nodes[i.toNat]? = some n) :
    nodeAt i s = .ok n s := by simp [nodeAt, h]

end Sys2Proof.Machine
end

