-- ==== Sys2Proof/Laws/Building.lean ====
section
/-! SUPPORT. BUILD: the leaves, the merge loop over the queue, and the tree it leaves (41_tree.md R163 to R170). -/

namespace Sys2Proof.Machine

/-- The entries of the leaves that are created as records `k`, `k + 1`, ... -/
def leafEntries (k : Nat) (ls : List (Sym × BitVec 32)) : List Entry :=
  match ls with
  | []      => []
  | l :: ls => ⟨l.2, tagOfIdx (BitVec.ofNat 10 k)⟩ :: leafEntries (k + 1) ls

/-- The records of the leaves. -/
def leafRecords (ls : List (Sym × BitVec 32)) : List Node := ls.map fun l => .leaf l.1 l.2

@[simp] theorem leafEntries_length (k : Nat) (ls : List (Sym × BitVec 32)) : (leafEntries k ls).length = ls.length := by
  induction ls generalizing k with
  | nil => rfl
  | cons l ls ih => simp [leafEntries, ih]

@[simp] theorem leafRecords_length (ls : List (Sym × BitVec 32)) : (leafRecords ls).length = ls.length := by
  simp [leafRecords]

theorem idxOfTag_tagOfIdx (i : NodeIdx) : idxOfTag (tagOfIdx i) = i := by
  simp [idxOfTag, tagOfIdx]

theorem alloc_ok (nd : Node) {s : State} (h : s.nodes.length < 513) :
    alloc nd s = .ok (BitVec.ofNat 10 s.nodes.length) { s with nodes := s.nodes ++ [nd] } :=
  if_neg (by simpa [Config.maxNodes] using h)

theorem addLeaf_ok {y : Sym} {w : BitVec 32} {s : State} (hn : s.nodes.length < 513) (hq : s.pq.length < 257) :
    addLeaf y w s = .ok ()
      { s with
        nodes := s.nodes ++ [.leaf y w]
        pq := inserted s.pq ⟨w, tagOfIdx (BitVec.ofNat 10 s.nodes.length)⟩ } := by
  rw [addLeaf, Cmd.bind_of_ok (alloc_ok _ hn)]
  exact enqueue_ok hq

/-- The leaves of the listed symbols with positive frequencies, created and enqueued in order (41_tree.md R163, R164). -/
theorem addLeaves_spec (fs : List (InWord × BitVec 32)) : ∀ (s : State) (ls : List (Sym × BitVec 32)),
    ls = (fs.filter fun p => p.2 ≠ 0).map (fun p => (symOfWord p.1, p.2)) →
    s.nodes.length + ls.length ≤ 513 → s.pq.length + ls.length ≤ 257 →
    addLeaves fs s = .ok ()
      { s with
        nodes := s.nodes ++ leafRecords ls
        pq := (leafEntries s.nodes.length ls).foldl inserted s.pq } := by
  induction fs with
  | nil => intro s ls hl _ _; simp at hl; subst hl; simp [addLeaves, leafRecords, leafEntries]
  | cons p fs ih =>
    intro s ls hl hn hq
    obtain ⟨w, f⟩ := p
    by_cases hf : f = 0
    · subst hf
      simp at hl
      simp only [addLeaves, ne_eq, not_true_eq_false, if_false]
      exact ih s ls (by simpa using hl) hn hq
    · rw [List.filter_cons_of_pos (by simpa using hf), List.map_cons] at hl
      subst hl
      simp only [List.length_cons] at hn hq
      simp only [addLeaves, ne_eq, hf, not_false_eq_true, if_true]
      rw [Cmd.bind_of_ok (addLeaf_ok (by omega) (by omega)), ih _ _ rfl
        (by simp only [List.length_append, List.length_singleton]; omega) (by simp only [inserted_length]; omega)]
      simp [leafRecords, leafEntries]

/-- A record fits the tree it is the root of: a leaf of its symbol, or an internal record of the weight of the tree's
size (41_tree.md R168). -/
def Node.Fits (nd : Node) (t : Tree) : Prop :=
  match nd with
  | .leaf y _  => t = .leaf y
  | .int _ _ w => w.toNat = t.size

/-- Every record is the root of a tree of records before it, which it fits (41_tree.md R168). -/
def Grown (nodes : List Node) : Prop :=
  ∀ j nd, nodes[j]? = some nd → ∃ t, treeAt nodes (j + 1) (BitVec.ofNat 10 j) = some t ∧ nd.Fits t

/-- A queue entry and the tree its node index names. -/
def Names (nodes : List Node) (p : Entry × Tree) : Prop :=
  ∃ j, j < nodes.length ∧ p.1.tag = tagOfIdx (BitVec.ofNat 10 j) ∧
    treeAt nodes (j + 1) (BitVec.ofNat 10 j) = some p.2

theorem getElem?_append_some {α : Type} {l m : List α} {i : Nat} {a : α} (h : l[i]? = some a) : (l ++ m)[i]? = some a := by
  rw [List.getElem?_append_left (List.getElem?_eq_some_iff.mp h).1]
  exact h

theorem Names.append {nodes : List Node} {p : Entry × Tree} (h : Names nodes p) (more : List Node) :
    Names (nodes ++ more) p := by
  obtain ⟨j, hj, ht, htree⟩ := h
  exact ⟨j, by simp; omega, ht, treeAt_append htree⟩

theorem Grown.snoc {nodes : List Node} (h : Grown nodes) {nd : Node} {t : Tree}
    (ht : treeAt (nodes ++ [nd]) (nodes.length + 1) (BitVec.ofNat 10 nodes.length) = some t)
    (hw : nd.Fits t) : Grown (nodes ++ [nd]) := by
  intro j x hx
  by_cases hj : j < nodes.length
  · rw [List.getElem?_append_left hj] at hx
    obtain ⟨u, hu, hux⟩ := h j x hx
    exact ⟨u, treeAt_append hu, hux⟩
  · have hlt := (List.getElem?_eq_some_iff.mp hx).1
    simp at hlt
    have : j = nodes.length := by omega
    subst this
    simp at hx
    subst hx
    exact ⟨t, ht, hw⟩

theorem idx_toNat {n : Nat} (h : n < 1024) : (BitVec.ofNat 10 n).toNat = n := by
  rw [BitVec.toNat_ofNat]; exact Nat.mod_eq_of_lt h

/-- The forest a run of BUILD holds: the queue's entries name trees that hold every record once. -/
structure Forest (s : State) (ps : List (Entry × Tree)) : Prop where
  queue : s.pq = ps.map Prod.fst
  names : ∀ p ∈ ps, Names s.nodes p
  sizes : (ps.map fun p => p.2.size).sum = s.nodes.length
  grown : Grown s.nodes

/-- The entries and their trees with one more pair at its insertion position. -/
def insertedPair (ps : List (Entry × Tree)) (p : Entry × Tree) : List (Entry × Tree) :=
  ps.take (insPos (ps.map Prod.fst) p.1.key) ++ [p] ++ ps.drop (insPos (ps.map Prod.fst) p.1.key)

theorem insertedPair_fst (ps : List (Entry × Tree)) (p : Entry × Tree) :
    (insertedPair ps p).map Prod.fst = inserted (ps.map Prod.fst) p.1 := by
  simp [insertedPair, inserted, List.map_take, List.map_drop]

theorem insertedPair_perm (ps : List (Entry × Tree)) (p : Entry × Tree) : (insertedPair ps p).Perm (p :: ps) := by
  simp only [insertedPair, List.append_assoc, List.singleton_append]
  refine List.perm_middle.trans ?_
  rw [List.take_append_drop]

/-- The weighted trees of the queue's entries. -/
def weighted (ps : List (Entry × Tree)) : List (BitVec 32 × Tree) := ps.map fun p => (p.1.key, p.2)

/-- The queue's insertion position is where the weighted tree goes (40_pqueue.md R140, R143). -/
theorem weighted_insertedPair (ps : List (Entry × Tree)) (p : Entry × Tree) :
    weighted (insertedPair ps p) = placeTree (weighted ps) p.1.key p.2 := by
  induction ps with
  | nil => rfl
  | cons q ps ih =>
    by_cases h : p.1.key < q.1.key
    · have hn : ¬ q.1.key ≤ p.1.key := by
        rw [BitVec.le_def]; rw [BitVec.lt_def] at h; omega
      simp [insertedPair, insPos, h, weighted, placeTree, hn]
    · have hy : q.1.key ≤ p.1.key := BitVec.not_lt.mp h
      have hstep : insertedPair (q :: ps) p = q :: insertedPair ps p := by
        simp [insertedPair, insPos, h]
      rw [hstep]
      simp only [weighted, List.map_cons, placeTree] at ih ⊢
      simp [hy, ih]

theorem Forest.add {s : State} {ps : List (Entry × Tree)} (h : Forest s ps) {e : Entry} {nd : Node} {t : Tree}
    (ps' : List (Entry × Tree))
    (hsz : t.size + (ps'.map fun p => p.2.size).sum = s.nodes.length + 1) (hmem : ∀ p ∈ ps', p ∈ ps)
    (htag : e.tag = tagOfIdx (BitVec.ofNat 10 s.nodes.length))
    (ht : treeAt (s.nodes ++ [nd]) (s.nodes.length + 1) (BitVec.ofNat 10 s.nodes.length) = some t)
    (hw : nd.Fits t) :
    Forest { s with nodes := s.nodes ++ [nd], pq := inserted (ps'.map Prod.fst) e } (insertedPair ps' (e, t)) where
  queue := (insertedPair_fst ps' (e, t)).symm
  names := by
    intro p hp
    rcases List.mem_cons.mp ((insertedPair_perm ps' (e, t)).mem_iff.mp hp) with rfl | hp
    · exact ⟨s.nodes.length, by simp, htag, ht⟩
    · exact (h.names p (hmem p hp)).append _
  sizes := by
    have := ((insertedPair_perm ps' (e, t)).map fun p => p.2.size).sum_eq
    rw [this]
    simpa using hsz
  grown := h.grown.snoc ht hw

/-- Creating and enqueueing a leaf grows the forest by a leaf. -/
theorem Forest.addLeaf {s : State} {ps : List (Entry × Tree)} (h : Forest s ps) (y : Sym) (w : BitVec 32)
    (hcap : s.nodes.length < 513) :
    Forest
      { s with
        nodes := s.nodes ++ [.leaf y w]
        pq := inserted s.pq ⟨w, tagOfIdx (BitVec.ofNat 10 s.nodes.length)⟩ }
      (insertedPair ps (⟨w, tagOfIdx (BitVec.ofNat 10 s.nodes.length)⟩, .leaf y)) := by
  have hidx := idx_toNat (n := s.nodes.length) (by omega)
  have := h.add (e := ⟨w, tagOfIdx (BitVec.ofNat 10 s.nodes.length)⟩) (nd := .leaf y w) (t := .leaf y) ps
    (by rw [h.sizes]; simp [Tree.size]; omega) (fun _ hp => hp) rfl
    (treeAt_leaf (w := w) (by rw [hidx]; simp)) rfl
  rwa [← h.queue] at this

/-- The forest of the leaves alone. -/
theorem forest_leaves (ls : List (Sym × BitVec 32)) : ∀ (s : State) (ps : List (Entry × Tree)), Forest s ps →
    s.nodes.length + ls.length ≤ 513 →
    ∃ qs, Forest
        { s with
          nodes := s.nodes ++ leafRecords ls
          pq := (leafEntries s.nodes.length ls).foldl inserted s.pq } qs ∧
      (qs.map fun p => p.2.leaves).flatten.Perm ((ps.map fun p => p.2.leaves).flatten ++ ls.map Prod.fst) ∧
      weighted qs = ls.foldl (fun q l => placeTree q l.2 (.leaf l.1)) (weighted ps) := by
  induction ls with
  | nil => intro s ps h _; exact ⟨ps, by simpa [leafRecords, leafEntries] using h, by simp, rfl⟩
  | cons l ls ih =>
    intro s ps h hcap
    simp only [List.length_cons] at hcap
    obtain ⟨qs, hq, hl, hw⟩ := ih _ _ (h.addLeaf l.1 l.2 (by omega)) (by simp; omega)
    refine ⟨qs, ?_, ?_, by rw [hw, weighted_insertedPair]; rfl⟩
    · simpa [leafRecords, leafEntries] using hq
    · refine hl.trans ?_
      have hp := ((insertedPair_perm ps
        (⟨l.2, tagOfIdx (BitVec.ofNat 10 s.nodes.length)⟩, Tree.leaf l.1)).map fun p => p.2.leaves).flatten
      refine (hp.append_right _).trans ?_
      simp only [List.map_cons, List.flatten_cons, Tree.leaves, List.singleton_append]
      exact List.perm_middle.symm

/-- The weight of a merge is the size of the tree it makes (41_tree.md R167, R168). -/
theorem childWeight_of_names {nodes : List Node} (hg : Grown nodes) {j : Nat} {nd : Node} {t : Tree}
    (hn : nodes[j]? = some nd) (ht : treeAt nodes (j + 1) (BitVec.ofNat 10 j) = some t) : childWeight nd = t.size := by
  obtain ⟨u, hu, hnd⟩ := hg j nd hn
  rw [ht] at hu
  cases hu
  cases nd with
  | leaf y w => simp only [Node.Fits] at hnd; subst hnd; rfl
  | int l r w => exact hnd

/-- One merge: it takes the two first entries and puts the tree over both, in the order dequeued, at its place in the
queue, as the next record (41_tree.md R166, R167). -/
theorem mergeOnce_spec {s : State} {a b : Entry} {ta tb : Tree} {ps : List (Entry × Tree)}
    (h : Forest s ((a, ta) :: (b, tb) :: ps)) (hcap : s.nodes.length < 513) (hq : s.pq.length ≤ 257) :
    ∃ w : BitVec 32, w.toNat = ta.size + tb.size + 1 ∧
      mergeOnce s = .ok ()
        { s with
          nodes := s.nodes ++ [.int (idxOfTag a.tag) (idxOfTag b.tag) w]
          pq := inserted (ps.map Prod.fst) ⟨w, tagOfIdx (BitVec.ofNat 10 s.nodes.length)⟩ } ∧
      Forest
        { s with
          nodes := s.nodes ++ [.int (idxOfTag a.tag) (idxOfTag b.tag) w]
          pq := inserted (ps.map Prod.fst) ⟨w, tagOfIdx (BitVec.ofNat 10 s.nodes.length)⟩ }
        (insertedPair ps (⟨w, tagOfIdx (BitVec.ofNat 10 s.nodes.length)⟩, .node ta tb)) := by
  obtain ⟨ja, hja, htaga, hta⟩ := h.names (a, ta) (by simp)
  obtain ⟨jb, hjb, htagb, htb⟩ := h.names (b, tb) (by simp)
  simp only at htaga htagb hta htb
  have hia : idxOfTag a.tag = BitVec.ofNat 10 ja := by rw [htaga, idxOfTag_tagOfIdx]
  have hib : idxOfTag b.tag = BitVec.ofNat 10 jb := by rw [htagb, idxOfTag_tagOfIdx]
  have hna : s.nodes[ja]? = some s.nodes[ja] := List.getElem?_eq_getElem hja
  have hnb : s.nodes[jb]? = some s.nodes[jb] := List.getElem?_eq_getElem hjb
  have hca := childWeight_of_names h.grown hna hta
  have hcb := childWeight_of_names h.grown hnb htb
  have hsz := h.sizes
  simp only [List.map_cons, List.sum_cons] at hsz
  have hwt : (mergeWeight s.nodes[ja] s.nodes[jb]).toNat = ta.size + tb.size + 1 := by
    rw [mergeWeight, BitVec.toNat_ofNat, hca, hcb]
    exact Nat.mod_eq_of_lt (by omega)
  have hpq : s.pq = a :: b :: ps.map Prod.fst := by rw [h.queue]; rfl
  refine ⟨mergeWeight s.nodes[ja] s.nodes[jb], hwt, ?_, ?_⟩
  · rw [mergeOnce, Cmd.bind_of_ok (dequeue_cons hpq), Cmd.bind_of_ok (dequeue_cons rfl), hia, hib,
      Cmd.bind_of_ok (nodeAt_of_some (n := s.nodes[ja]) (by rw [idx_toNat (by omega)]; exact hna)),
      Cmd.bind_of_ok (nodeAt_of_some (n := s.nodes[jb]) (by rw [idx_toNat (by omega)]; exact hnb))]
    refine (Cmd.bind_of_ok (alloc_ok _ (by exact hcap))).trans ?_
    refine enqueue_ok ?_
    rw [hpq] at hq
    simp only [List.length_cons, List.length_map] at hq ⊢
    omega
  · refine h.add (e := ⟨mergeWeight s.nodes[ja] s.nodes[jb], tagOfIdx (BitVec.ofNat 10 s.nodes.length)⟩)
      (nd := .int (idxOfTag a.tag) (idxOfTag b.tag) (mergeWeight s.nodes[ja] s.nodes[jb])) (t := .node ta tb) ps
      (by simp only [Tree.size]; omega)
      (fun p hp => List.mem_cons_of_mem _ (List.mem_cons_of_mem _ hp)) rfl ?_ hwt
    have hidx := idx_toNat (n := s.nodes.length) (by omega)
    refine treeAt_int (l := idxOfTag a.tag) (r := idxOfTag b.tag) (w := mergeWeight s.nodes[ja] s.nodes[jb])
      (by rw [hidx]; simp) ?_ ?_
    · rw [hia]; exact treeAt_mono (treeAt_append hta) (by omega)
    · rw [hib]; exact treeAt_mono (treeAt_append htb) (by omega)

/-- The merge loop ends with one entry, which names the tree of every record; its records are internal
(41_tree.md R165, R166). -/
theorem mergeLoop_spec : ∀ (fuel : Nat) (s : State) (ps : List (Entry × Tree)), Forest s ps → ps ≠ [] →
    ps.length ≤ fuel → ps.length ≤ 257 → s.nodes.length + ps.length ≤ 514 →
    ∃ e t more, mergeLoop fuel s = .ok () { s with nodes := s.nodes ++ more, pq := [e] } ∧
      Forest { s with nodes := s.nodes ++ more, pq := [e] } [(e, t)] ∧
      t.leaves.Perm (ps.map fun p => p.2.leaves).flatten ∧ more.length + 1 = ps.length ∧
      joinTrees fuel (weighted ps) = some t ∧ ∀ nd ∈ more, ∃ l r w, nd = .int l r w := by
  intro fuel
  induction fuel with
  | zero => intro s ps _ hne hf; simp at hf; exact absurd hf hne
  | succ k ih =>
    intro s ps h hne hf hq hcap
    have hpq := h.queue
    cases ps with
    | nil => exact absurd rfl hne
    | cons p ps =>
      cases ps with
      | nil =>
        refine ⟨p.1, p.2, [], ?_, ?_, by simp, rfl, rfl, by simp⟩
        · have : s.pq = [p.1] := by simpa using hpq
          rw [mergeLoop, Cmd.now_bind]
          simp [this]
          rw [← this]
        · have : s.pq = [p.1] := by simpa using hpq
          simp only [List.append_nil, ← this]
          exact h
      | cons q ps =>
        obtain ⟨a, ta⟩ := p
        obtain ⟨b, tb⟩ := q
        simp only [List.length_cons] at hf hq hcap
        obtain ⟨w, hw, hm, hF⟩ := mergeOnce_spec h (by omega) (by rw [hpq]; simp; omega)
        have hlen := (insertedPair_perm ps
          (⟨w, tagOfIdx (BitVec.ofNat 10 s.nodes.length)⟩, Tree.node ta tb)).length_eq
        simp only [List.length_cons] at hlen
        obtain ⟨e, t, more, hrun, hF', hl, hmore, hj, hint⟩ := ih _ _ hF (by intro h0; simp [h0] at hlen) (by omega) (by omega)
          (by simp; omega)
        refine ⟨e, t, .int (idxOfTag a.tag) (idxOfTag b.tag) w :: more, ?_, ?_, ?_, ?_, ?_, ?_⟩
        · rw [mergeLoop, Cmd.now_bind, if_pos (by rw [hpq]; simp), Cmd.bind_of_ok hm, hrun]
          simp
        · simpa using hF'
        · refine hl.trans ?_
          refine ((insertedPair_perm ps _).map fun p => p.2.leaves).flatten.trans ?_
          simp [Tree.leaves]
        · simp; omega
        · rw [weighted_insertedPair] at hj
          have hwe : w = BitVec.ofNat 32 (ta.size + tb.size + 1) := by
            rw [← hw, BitVec.ofNat_toNat, BitVec.setWidth_eq]
          rw [← hj, hwe]
          rfl
        · intro nd hnd
          rcases List.mem_cons.mp hnd with rfl | hnd
          · exact ⟨_, _, _, rfl⟩
          · exact hint nd hnd

theorem ordinarySymbols_length : ordinarySymbols.length = 256 := by simp [ordinarySymbols, Config.alphabet]

theorem frequencies_snd (s : State) : s.frequencies.map Prod.snd = s.freq.rows := by
  rw [State.frequencies, List.map_snd_zip]
  rw [ordinarySymbols_length, s.freq.size]

/-- There are P + 1 leaves (41_tree.md R169). -/
theorem leafList_length (s : State) : s.leafList.length = s.positives + 1 := by
  have h : s.positives = (s.frequencies.filter fun p => p.2 ≠ 0).length := by
    rw [State.positives, ← frequencies_snd, List.countP_map, List.countP_eq_length_filter]
    rfl
  rw [h]
  simp [State.leafList]

theorem positives_le (s : State) : s.positives ≤ 256 := by
  have := List.countP_le_length (p := fun x : BitVec 32 => decide (x ≠ 0)) (l := s.freq.rows)
  rw [s.freq.size] at this
  exact this

/-- The body of BUILD: it never fails; it leaves the queue empty and one tree of all its records: the leaves first, in
symbol order, the sentinel's last, then one internal record a merge, each of the weight of its size; TREE_BITS is the
serialized length (41_tree.md R163 to R170). -/
theorem buildBody_spec (s : State) :
    ∃ t root more, buildBody s = .ok ()
        { s with
          pq := [], nodes := leafRecords s.leafList ++ more, root := root
          treeBits := BitVec.ofNat 32 t.bits.length, treeValid := true } ∧
      treeAt (leafRecords s.leafList ++ more) t.size root = some t ∧
      t.size = s.leafList.length + more.length ∧ t.leaves.Perm (s.leafList.map Prod.fst) ∧
      more.length = s.positives ∧ (∀ nd ∈ more, ∃ l r w, nd = .int l r w) ∧
      Grown (leafRecords s.leafList ++ more) ∧ s.huffman = some t := by
  have hL := leafList_length s
  have hP := positives_le s
  -- the leaves
  have hleaves : (do addLeaves s.frequencies; addLeaf Config.eof 1 : Cmd Unit) { s with pq := [], nodes := [] } = .ok ()
      { s with pq := (leafEntries 0 s.leafList).foldl inserted [], nodes := leafRecords s.leafList } := by
    have hfl : ((s.frequencies.filter fun p => p.2 ≠ 0).map fun p => (symOfWord p.1, p.2)).length = s.positives := by
      have := hL
      simp only [State.leafList, List.length_append, List.length_singleton] at this
      omega
    have h1 := addLeaves_spec s.frequencies { s with pq := [], nodes := [] } _ rfl (by simp only [hfl]; simp; omega)
      (by simp only [hfl]; simp; omega)
    rw [Cmd.bind_of_ok h1]
    have h2 : ∀ (q : List Entry) (ls : List (Sym × BitVec 32)) (n : Nat),
        ((leafEntries n ls).foldl inserted q).length = q.length + ls.length := by
      intro q ls
      induction ls generalizing q with
      | nil => intro n; simp [leafEntries]
      | cons l ls ih => intro n; simp [leafEntries, ih]; omega
    rw [addLeaf_ok (by simp only [List.nil_append, leafRecords_length, hfl]; omega)
      (by simp only [h2, hfl]; simp; omega)]
    have h3 : ∀ (ls : List (Sym × BitVec 32)) (l : Sym × BitVec 32) (n : Nat),
        leafEntries n (ls ++ [l]) = leafEntries n ls ++ [⟨l.2, tagOfIdx (BitVec.ofNat 10 (n + ls.length))⟩] := by
      intro ls l
      induction ls with
      | nil => intro n; simp [leafEntries]
      | cons x ls ih => intro n; simp [leafEntries, ih, Nat.add_assoc, Nat.add_comm 1]
    simp [State.leafList, h3, leafRecords, List.foldl_append]
  -- the forest of the leaves
  have hF0 : Forest { s with pq := [], nodes := [] } [] :=
    ⟨rfl, by simp, rfl, by intro j nd h; simp at h⟩
  obtain ⟨qs, hF1, hperm, hweighted⟩ := forest_leaves s.leafList _ _ hF0 (by simp; omega)
  simp only [List.nil_append, List.length_nil] at hF1 hperm
  have hqlen : qs.length = s.leafList.length := by
    have hq := congrArg List.length hF1.queue
    have h2 : ∀ (q : List Entry) (ls : List (Sym × BitVec 32)) (n : Nat),
        ((leafEntries n ls).foldl inserted q).length = q.length + ls.length := by
      intro q ls
      induction ls generalizing q with
      | nil => intro n; simp [leafEntries]
      | cons l ls ih => intro n; simp [leafEntries, ih]; omega
    simp only [h2] at hq
    simpa using hq.symm
  -- the merges
  obtain ⟨e, t, more, hm, hF, hl, hmore, hjoin, hint⟩ := mergeLoop_spec 257 _ qs hF1 (by intro h0; simp [h0] at hqlen; omega)
    (by omega) (by omega) (by simp; omega)
  simp only at hm hF
  have hsize : t.size = s.leafList.length + more.length := by simpa using hF.sizes
  obtain ⟨j, hj, htag, htree⟩ := hF.names (e, t) (by simp)
  simp only at hj htag htree
  simp only [List.length_append, leafRecords_length] at hj
  have hroot : idxOfTag e.tag = BitVec.ofNat 10 j := by rw [htag, idxOfTag_tagOfIdx]
  have hperm' : t.leaves.Perm (s.leafList.map Prod.fst) := hl.trans (by simpa using hperm)
  have hleaves' : t.leaves.length = s.positives + 1 := by rw [hperm'.length_eq, List.length_map, hL]
  have hbits : t.bits.length = t.size + 9 * (s.positives + 1) := by rw [Tree.bits_length, hleaves']
  refine ⟨t, idxOfTag e.tag, more, ?_, ?_, hsize, hperm', by omega, hint, hF.grown,
    by rw [State.huffman, ← hjoin, hweighted]; rfl⟩
  · obtain ⟨nd, hnd⟩ : ∃ nd, (leafRecords s.leafList ++ more)[j]? = some nd :=
      ⟨_, List.getElem?_eq_getElem (by simpa using hj)⟩
    have hweight : (weightOf nd).toNat = t.size := by
      obtain ⟨u, hu, hnd'⟩ := hF.grown j _ hnd
      simp only at hu
      rw [htree] at hu
      cases hu
      cases nd with
      | int l r w => exact hnd'
      | leaf y w =>
        simp only [Node.Fits] at hnd'
        have h1 : t.size = 1 := by rw [hnd']; rfl
        have hfl : (s.frequencies.filter fun p => p.2 ≠ 0) = [] := by
          have := hL
          simp only [State.leafList, List.length_append, List.length_singleton, List.length_map] at this
          exact List.length_eq_zero_iff.mp (by omega)
        have hll : s.leafList = [(Config.eof, 1)] := by simp only [State.leafList, hfl]; rfl
        have hmore0 : more = [] := List.length_eq_zero_iff.mp (by omega)
        have hj0 : j = 0 := by rw [hll, hmore0] at hj; simp at hj; exact hj
        subst hj0
        simp [hll, hmore0, leafRecords] at hnd
        rw [h1, weightOf, ← hnd.2]
        rfl
    rw [buildBody, Cmd.assign_bind, Cmd.now_bind]
    have hassoc : ∀ (f : Unit → Cmd Unit), (do addLeaves s.frequencies; addLeaf Config.eof 1; f () : Cmd Unit)
        { s with pq := [], nodes := [] } = f ()
          { s with pq := (leafEntries 0 s.leafList).foldl inserted [], nodes := leafRecords s.leafList } := by
      intro f
      obtain ⟨_, v, hv1, hv2⟩ := Cmd.bind_ok_inv hleaves
      rw [Cmd.bind_of_ok hv1, Cmd.bind_of_ok hv2]
    show (do addLeaves s.frequencies; addLeaf Config.eof 1; _ : Cmd Unit) _ = _
    refine (hassoc (fun _ => do
      mergeLoop Config.pqCap
      let r ← dequeue
      assign fun s => { s with root := idxOfTag r.tag }
      sizeAccounting
      assign fun s => { s with treeValid := true })).trans ?_
    rw [Cmd.bind_of_ok (show mergeLoop Config.pqCap _ = _ from hm), Cmd.bind_of_ok (dequeue_cons rfl), Cmd.assign_bind,
      sizeAccounting]
    have hna : nodeAt (idxOfTag e.tag)
        { s with pq := [], nodes := leafRecords s.leafList ++ more, root := idxOfTag e.tag } =
        .ok nd
          { s with pq := [], nodes := leafRecords s.leafList ++ more, root := idxOfTag e.tag } :=
      nodeAt_of_some (by rw [hroot, idx_toNat (by omega)]; exact hnd)
    have hsa : sizeAccounting { s with pq := [], nodes := leafRecords s.leafList ++ more, root := idxOfTag e.tag } =
        .ok () { s with
          pq := [], nodes := leafRecords s.leafList ++ more, root := idxOfTag e.tag
          treeBits := BitVec.ofNat 32 t.bits.length } := by
      rw [sizeAccounting, Cmd.now_bind, Cmd.bind_of_ok hna]
      simp only [assign_apply, hweight, State.positives, Config.symBits]
      rw [hbits]
      rfl
    rw [sizeAccounting] at hsa
    rw [Cmd.bind_of_ok hsa]
    rfl
  · rw [hroot]
    exact treeAt_size htree

theorem Built.bits_lt {s : State} {t : Tree} (h : s.Built t) : t.bits.length ≤ 2826 := by
  have hL := leafList_length s
  have hP := positives_le s
  have hl : t.leaves.length = s.positives + 1 := by rw [h.leaves.length_eq, List.length_map, hL]
  have := t.size_leaves
  rw [Tree.bits_length]
  omega

/-- The body of BUILD leaves a tree built from FREQ and changes PQ, the node memory, ROOT, TREE_BITS and TREE_VALID
alone (41_tree.md R170). -/
theorem buildBody_built (s : State) :
    ∃ ns root tb t,
      buildBody s = .ok () { s with pq := [], nodes := ns, root := root, treeBits := tb, treeValid := true } ∧
      State.Built { s with pq := [], nodes := ns, root := root, treeBits := tb, treeValid := true } t := by
  obtain ⟨t, root, more, hrun, htree, hsz, hperm, hmore, hint, hgrown, hhuff⟩ := buildBody_spec s
  have hL := leafList_length s
  have hP := positives_le s
  have hlen : t.size = (leafRecords s.leafList ++ more).length := by simp [hsz]
  have hll : t.leaves.length = s.positives + 1 := by rw [hperm.length_eq, List.length_map, hL]
  have hsl := t.size_leaves
  refine ⟨_, _, _, t, hrun, ?_⟩
  exact {
    tree := by simp only [State.tree]; rw [← hlen]; exact htree
    shape := hhuff
    size := hlen
    leaves := hperm
    records := ⟨more, rfl, by rw [hmore]; exact hL.symm, hint⟩
    weights := by
      intro j l r w hj
      obtain ⟨u, hu, hw⟩ := hgrown j _ hj
      have hlt := (List.getElem?_eq_some_iff.mp hj).1
      exact ⟨u, treeAt_mono hu hlt, hw⟩
    treeBits := by
      simp only
      rw [BitVec.toNat_ofNat, Nat.mod_eq_of_lt]
      rw [Tree.bits_length]
      omega }

/-- A built tree is within the node memory (41_tree.md R165). -/
theorem Built.nodes_le {s : State} {t : Tree} (h : s.Built t) : s.nodes.length ≤ 513 := by
  have h1 := h.size
  have h2 := t.size_leaves
  have h3 := h.leaves.length_eq
  have h4 := leafList_length s
  have h5 := positives_le s
  rw [List.length_map] at h3
  omega

theorem Built.size_le {s : State} {t : Tree} (h : s.Built t) : t.size ≤ 513 := h.size ▸ Built.nodes_le h

/-- No symbol has two leaves in a built tree (41_tree.md R163). -/
theorem leafList_nodup (s : State) : (s.leafList.map Prod.fst).Nodup := by
  have hfst : s.frequencies.map Prod.fst = ordinarySymbols := by
    rw [State.frequencies, List.map_fst_zip]
    rw [s.freq.size, ordinarySymbols_length]
  have hord : ordinarySymbols.Nodup := by
    refine List.Nodup.map_on (fun a ha b hb h => ?_) List.nodup_range
    have := congrArg BitVec.toNat h
    simp only [List.mem_range, Config.alphabet] at ha hb
    simpa [Nat.mod_eq_of_lt ha, Nat.mod_eq_of_lt hb] using this
  have hsub : ((s.frequencies.filter fun p => p.2 ≠ 0).map Prod.fst).Nodup :=
    List.Nodup.sublist (List.Sublist.map _ List.filter_sublist) (hfst ▸ hord)
  have hinj : Function.Injective symOfWord := fun a b h => by
    have h1 : a.toNat = b.toNat := by simpa [symOfWord] using h
    exact BitVec.eq_of_toNat_eq h1
  have heq : (s.leafList.map Prod.fst) =
      ((s.frequencies.filter fun p => p.2 ≠ 0).map Prod.fst).map symOfWord ++ [Config.eof] := by
    simp [State.leafList, Function.comp_def]
  rw [heq, List.nodup_append]
  refine ⟨hsub.map hinj, List.nodup_singleton _, ?_⟩
  intro a ha b hb hab
  obtain ⟨w, _, rfl⟩ := List.mem_map.1 ha
  rw [List.mem_singleton.1 hb] at hab
  have h1 := congrArg Fin.val hab
  have h2 : (symOfWord w).val < 256 := w.isLt
  rw [h1] at h2
  exact absurd h2 (by decide)

theorem Built.leaves_nodup {s : State} {t : Tree} (h : s.Built t) : t.leaves.Nodup :=
  h.leaves.nodup_iff.2 (leafList_nodup s)

end Sys2Proof.Machine
end

