-- ==== Sys2Proof/Laws/Codec.lean ====
section
/-! SUPPORT. What the units do on a tree: the serializer (42_serdes.md R191), the code walk (41_tree.md R172), the
parser (42_serdes.md R194), the encoder (43_bitstream.md R211) and the decode walk (43_bitstream.md R218). -/

namespace Sys2Proof.Machine

/-- Ser(i) writes the serialized tree at record `i` and answers its length (42_serdes.md R190, R191). -/
theorem ser_spec {s : State} {k : Nat} {i : NodeIdx} {t : Tree} (h : treeAt s.nodes k i = some t) :
    ∃ u, ser k i s = .ok t.bits.length u ∧ Streamed s u 0 s.inp t.bits := by
  induction k generalizing s i t with
  | zero => simp [treeAt] at h
  | succ k ih =>
    rcases treeAt_some h with ⟨y, w, hn, rfl⟩ | ⟨l, r, w, tl, tr, hn, hl, hr, rfl⟩
    · refine ⟨(s.emit (bitsOfNat 1 1)).emit (bitsOfNat 9 y.val), ?_, ?_⟩
      · rw [ser, Cmd.bind_of_ok (nodeAt_of_some hn)]
        simp [Tree.bits, Config.wordBits, Config.symBits]
      · exact (Streamed.of_emit s _).trans (Streamed.of_emit _ _)
    · have h1 := Streamed.of_emit s (bitsOfNat 1 0)
      obtain ⟨u, hu, h2⟩ := ih (s := s.emit (bitsOfNat 1 0)) (i := l) (t := tl) hl
      obtain ⟨v, hv, h3⟩ := ih (s := u) (i := r) (t := tr) (by rw [h2.nodes]; exact hr)
      refine ⟨v, ?_, ?_⟩
      · rw [ser, Cmd.bind_of_ok (nodeAt_of_some hn)]
        simp only [Cmd.writeBits_bind]
        rw [Cmd.bind_of_ok hu, Cmd.bind_of_ok hv]
        simp [Tree.bits]
        omega
      · have := (h1.trans h2).trans h3
        simpa [h2.inp, Tree.bits, bitsOfNat] using this

/-- The code `walk` leaves for a symbol below depth `d` with path bits `v` (41_tree.md R172, R173). -/
def walkedCode (d v : Nat) (p : Bits) : Code :=
  ⟨BitVec.ofNat 9 (d + p.length), BitVec.ofNat 256 (v * 2 ^ p.length + natOfBits p)⟩

/-- Walk(i, d, v) gives each symbol of the subtree its last leaf's code and leaves the others (41_tree.md R172). -/
theorem walk_spec {s : State} {k : Nat} {i : NodeIdx} {t : Tree} (d v : Nat) (h : treeAt s.nodes k i = some t) :
    ∃ cd, walk k i d v s = .ok () { s with code := cd } ∧
      ∀ y, cd.get y = match t.pathOf y with
        | some p => some (walkedCode d v p)
        | none   => s.codeAt y := by
  induction k generalizing s i t d v with
  | zero => simp [treeAt] at h
  | succ k ih =>
    rcases treeAt_some h with ⟨y, w, hn, rfl⟩ | ⟨l, r, w, tl, tr, hn, hl, hr, rfl⟩
    · refine ⟨s.code.put y (some ⟨BitVec.ofNat 9 d, BitVec.ofNat 256 v⟩), ?_, ?_⟩
      · rw [walk, Cmd.bind_of_ok (nodeAt_of_some hn)]
        rfl
      · intro z
        rw [Table.get_put, Tree.pathOf_leaf]
        by_cases hyz : y = z
        · simp [hyz, walkedCode]
        · simp [hyz, State.codeAt]
    · obtain ⟨cd, hcd, hc⟩ := ih (s := s) (i := l) (d + 1) (2 * v) hl
      obtain ⟨ce, hce, he⟩ := ih (s := { s with code := cd }) (i := r) (d + 1) (2 * v + 1) hr
      refine ⟨ce, ?_, ?_⟩
      · rw [walk, Cmd.bind_of_ok (nodeAt_of_some hn)]
        simp only
        rw [Cmd.bind_of_ok hcd, hce]
      · intro y
        rw [he y, Tree.pathOf_node]
        cases hpr : tr.pathOf y with
        | some p =>
          simp only [walkedCode, List.length_cons, natOfBits_cons, Bool.toNat_true]
          congr 2 <;> ring_nf
        | none =>
          simp only [State.codeAt]
          rw [hc y]
          cases hpl : tl.pathOf y with
          | some p =>
            simp only [walkedCode, List.length_cons, natOfBits_cons, Bool.toNat_false, Option.map_some]
            congr 2 <;> ring_nf
          | none => rfl

theorem walkedCode_root (p : Bits) : walkedCode 0 0 p = codeOfPath p := by
  simp [walkedCode, codeOfPath]

@[simp] theorem Tree.records_length (t : Tree) (k : Nat) : (t.records k).length = t.size := by
  induction t generalizing k with
  | leaf y => rfl
  | node l r ihl ihr => simp [Tree.records, Tree.size, ihl, ihr]

/-- Parse() on a serialized tree allocates its records in preorder and takes exactly its bits
(42_serdes.md R194, R195, R199). -/
theorem parse_spec (t : Tree) : ∀ (fuel : Nat) (s : State) (rest : Bits), s.inp = t.bits ++ rest →
    514 ≤ fuel + s.nodes.length → s.nodes.length + t.size ≤ 513 →
    ∃ u, parse fuel s =
        .ok (BitVec.ofNat 10 s.nodes.length) { u with nodes := s.nodes ++ t.records s.nodes.length } ∧
      Streamed s u t.bits.length rest [] := by
  induction t with
  | leaf y =>
    intro fuel s rest hin hf hcap
    simp only [Tree.size] at hcap
    obtain ⟨k, rfl⟩ : ∃ k, fuel = k + 1 := ⟨fuel - 1, by omega⟩
    simp only [Tree.bits, List.cons_append] at hin
    obtain ⟨u, hu, h1⟩ := readBits_streamed (n := 1) (b := [true]) (s := s) hin rfl
    have hin2 : u.inp = bitsOfNat 9 y.val ++ rest := h1.inp
    obtain ⟨v, hv, h2⟩ := readBits_streamed (n := 9) hin2 (by simp)
    rw [natOfBits_bitsOfNat_of_lt (by have := y.isLt; omega)] at hv
    have h12 := h1.trans h2
    refine ⟨v, ?_, by simpa [Tree.bits, Nat.add_comm] using h12⟩
    rw [parse, Cmd.bind_of_ok hu]
    have e : natOfBits [true] ≠ 0 := by decide
    simp only [e, if_false]
    rw [Cmd.bind_of_ok (show readBits Config.symBits u = _ from hv)]
    have hnv : v.nodes = s.nodes := h12.nodes
    simp only [y.isLt, dite_true]
    rw [alloc, if_neg (by rw [hnv]; simp [Config.maxNodes]; omega)]
    simp [hnv, Tree.records]
  | node l r ihl ihr =>
    intro fuel s rest hin hf hcap
    simp only [Tree.size] at hcap
    obtain ⟨k, rfl⟩ : ∃ k, fuel = k + 1 := ⟨fuel - 1, by omega⟩
    simp only [Tree.bits, List.cons_append, List.append_assoc] at hin
    obtain ⟨u, hu, h1⟩ := readBits_streamed (n := 1) (b := [false]) (s := s) hin rfl
    have hnu : u.nodes = s.nodes := h1.nodes
    have halloc : alloc (.int Config.nil Config.nil 0) u =
        .ok (BitVec.ofNat 10 s.nodes.length)
          { u with nodes := s.nodes ++ [.int Config.nil Config.nil 0] } := by
      rw [alloc, if_neg (by rw [hnu]; simp [Config.maxNodes]; omega), hnu]
    obtain ⟨v, hv, h2⟩ := ihl k { u with nodes := s.nodes ++ [.int Config.nil Config.nil 0] } (r.bits ++ rest) h1.inp
      (by simp; omega) (by simp; omega)
    obtain ⟨w, hw, h3⟩ := ihr k
      { v with nodes := (s.nodes ++ [.int Config.nil Config.nil 0]) ++ l.records (s.nodes.length + 1) } rest h2.inp
      (by simp; omega) (by simp; omega)
    simp only [List.length_append, List.length_singleton, Tree.records_length] at hv hw
    refine ⟨{ w with nodes := s.nodes }, ?_, ?_⟩
    · rw [parse, Cmd.bind_of_ok hu]
      have e : natOfBits [false] = 0 := by decide
      simp only [e, if_true]
      rw [Cmd.bind_of_ok halloc, Cmd.bind_of_ok hv, Cmd.bind_of_ok hw]
      simp only [setNode, Cmd.assign_bind, Cmd.pure_apply]
      have hidx : (BitVec.ofNat 10 s.nodes.length).toNat = s.nodes.length := by
        rw [BitVec.toNat_ofNat]; exact Nat.mod_eq_of_lt (by omega)
      simp [hidx, Tree.records, Nat.add_assoc]
    · obtain ⟨i1, o1, rfl, hi1, ho1⟩ := h1
      obtain ⟨i2, o2, rfl, hi2, ho2⟩ := h2
      obtain ⟨i3, o3, rfl, hi3, ho3⟩ := h3
      refine ⟨i3, o3, by simp, ?_, ?_⟩
      · exact ((hi1.step hi2).step hi3).of_eq (by simp [Tree.bits]; omega)
      · exact ((ho1.step ho2).step ho3).of_eq (by simp)

/-- The records DESERIALIZE allocates hold the tree they were read from (42_serdes.md R195, R200). -/
theorem treeAt_records (t : Tree) (pre post : List Node) (hcap : pre.length + t.size ≤ 513) :
    treeAt (pre ++ t.records pre.length ++ post) t.size (BitVec.ofNat 10 pre.length) = some t := by
  induction t generalizing pre post with
  | leaf y =>
    simp only [Tree.size] at hcap
    have hidx : (BitVec.ofNat 10 pre.length).toNat = pre.length := by
      rw [BitVec.toNat_ofNat]; exact Nat.mod_eq_of_lt (by omega)
    exact treeAt_leaf (k := 0) (w := 0) (by rw [hidx]; simp [Tree.records])
  | node l r ihl ihr =>
    simp only [Tree.size] at hcap
    have hidx : (BitVec.ofNat 10 pre.length).toNat = pre.length := by
      rw [BitVec.toNat_ofNat]; exact Nat.mod_eq_of_lt (by omega)
    have h1 := ihl (pre ++ [.int (BitVec.ofNat 10 (pre.length + 1)) (BitVec.ofNat 10 (pre.length + 1 + l.size)) 0])
      (r.records (pre.length + 1 + l.size) ++ post) (by simp; omega)
    have h2 := ihr
      (pre ++ [.int (BitVec.ofNat 10 (pre.length + 1)) (BitVec.ofNat 10 (pre.length + 1 + l.size)) 0]
        ++ l.records (pre.length + 1)) post (by simp; omega)
    simp only [List.length_append, List.length_singleton, List.append_assoc, List.cons_append, List.nil_append] at h1 h2
    simp only [List.length_cons, Tree.records_length, show pre.length + (l.size + 1) = pre.length + 1 + l.size by omega]
      at h2
    simp only [Tree.records, List.append_assoc, List.cons_append]
    exact treeAt_int (w := 0) (by rw [hidx]; simp) (treeAt_mono h1 (by omega)) (treeAt_mono h2 (by omega))

/-- Writing the code of a symbol that has one (43_bitstream.md R211). -/
theorem writeCode_spec {y : Sym} {s : State} (h : (s.codeAt y).isSome = true) :
    ∃ t, writeCode y s = .ok (s.codeBits y).length t ∧ Streamed s t 0 s.inp (s.codeBits y) := by
  obtain ⟨c, hc⟩ := Option.isSome_iff_exists.mp h
  refine ⟨s.emit c.bits, ?_, ?_⟩
  · simp [writeCode, hc, State.codeBits, Code.bits]
  · simpa [State.codeBits, hc] using Streamed.of_emit s c.bits

/-- NO_CODE, with nothing written (43_bitstream.md R213). -/
theorem writeCode_none {y : Sym} {s : State} (h : s.codeAt y = none) :
    writeCode y s = .error (.raise .noCode) s := by
  simp [writeCode, h]

theorem Streamed.codeAt {s t : State} {n : Nat} {r b : Bits} (h : Streamed s t n r b) (y : Sym) :
    t.codeAt y = s.codeAt y := by simp [State.codeAt, h.code]

theorem Streamed.codeBits {s t : State} {n : Nat} {r b : Bits} (h : Streamed s t n r b) (y : Sym) :
    t.codeBits y = s.codeBits y := by simp [State.codeBits, h.codeAt]

theorem Streamed.codedWords {s t : State} {n : Nat} {r b : Bits} (h : Streamed s t n r b) (xs : List InWord) :
    t.codedWords xs = s.codedWords xs := by simp [State.codedWords, h.codeBits]

/-- The encode loop over words that all have codes, up to where it reads the next word (43_bitstream.md R211). -/
theorem encodeLoop_words (xs : List InWord) : ∀ (fuel n : Nat) (s : State) (rest : Bits),
    s.inp = wordBits xs ++ rest → (∀ w ∈ xs, (s.codeAt (symOfWord w)).isSome = true) →
    ∃ t, encodeLoop (fuel + xs.length) n s = encodeLoop fuel (n + (s.codedWords xs).length) t ∧
      Streamed s t (8 * xs.length) rest (s.codedWords xs) := by
  induction xs with
  | nil =>
    intro fuel n s rest hin _
    simp only [wordBits_nil, List.nil_append] at hin
    subst hin
    exact ⟨s, by simp [State.codedWords], Streamed.refl s⟩
  | cons x xs ih =>
    intro fuel n s rest hin hcode
    simp only [wordBits_cons, List.append_assoc] at hin
    obtain ⟨t, ht, h1⟩ := readWord hin
    obtain ⟨u, hu, h2⟩ := writeCode_spec (y := symOfWord x) (s := t)
      (by rw [h1.codeAt]; exact hcode x List.mem_cons_self)
    have h12 := h1.trans h2
    obtain ⟨v, hv, h3⟩ := ih fuel (n + (s.codeBits (symOfWord x)).length) u rest
      (by rw [h2.inp, h1.inp]) (by intro w hw; rw [h12.codeAt]; exact hcode w (List.mem_cons_of_mem _ hw))
    refine ⟨v, ?_, ?_⟩
    · rw [List.length_cons, ← Nat.add_assoc, encodeLoop, Cmd.bind_of_ok ht]
      simp only [BitVec.ofNat_toNat, BitVec.setWidth_eq]
      rw [Cmd.bind_of_ok hu, h1.codeBits, hv, h12.codedWords]
      simp [State.codedWords, Nat.add_assoc]
    · have h := h12.trans h3
      rw [h1.codeBits, h12.codedWords] at h
      have e : 8 + 0 + 8 * xs.length = 8 * (x :: xs).length := by simp; omega
      rw [e] at h
      simpa [State.codedWords] using h

/-- EncodeBody() over a closed input whose words have codes, the sentinel too (43_bitstream.md R211, R214). -/
theorem encodeBody_spec {xs : List InWord} {s : State} {rest : Bits} (hin : s.inp = wordBits xs ++ rest)
    (hr : rest.length < 8) (hc : s.inClosed = true) (hcode : ∀ w ∈ xs, (s.codeAt (symOfWord w)).isSome = true)
    (heof : (s.codeAt Config.eof).isSome = true) :
    ∃ t, encodeBody s = .ok (s.codedWords xs ++ s.codeBits Config.eof).length t ∧
      Streamed s t (8 * xs.length) rest (s.codedWords xs ++ s.codeBits Config.eof) := by
  have hlen : s.inp.length = 8 * xs.length + rest.length := by simp [hin]
  obtain ⟨f, hf⟩ : ∃ f, s.inp.length + 1 = (f + 1) + xs.length := ⟨s.inp.length - xs.length, by omega⟩
  obtain ⟨t, ht, h1⟩ := encodeLoop_words xs (f + 1) 0 s rest hin hcode
  obtain ⟨u, hu, h2⟩ := writeCode_spec (y := Config.eof) (s := t) (by rw [h1.codeAt]; exact heof)
  have hend : encodeLoop (f + 1) (0 + (s.codedWords xs).length) t = .ok (s.codedWords xs).length t := by
    rw [encodeLoop, Cmd.bind_of_ok (readBits_eoi (by rw [h1.inp]; exact hr) (by rw [h1.inClosed]; exact hc))]
    simp
  refine ⟨u, ?_, ?_⟩
  · rw [encodeBody, Cmd.now_bind, hf, Cmd.bind_of_ok (ht.trans hend), Cmd.bind_of_ok hu, h1.codeBits]
    simp
  · have := h1.trans h2
    rwa [h1.inp, h1.codeBits] at this

/-- EncodeBody() that meets a word without a code: the codes before it are written, the word is taken
(43_bitstream.md R211, R213). -/
theorem encodeBody_noCode {xs : List InWord} {w : InWord} {s : State} {rest : Bits}
    (hin : s.inp = wordBits xs ++ (bitsOfNat 8 w.toNat ++ rest))
    (hcode : ∀ x ∈ xs, (s.codeAt (symOfWord x)).isSome = true) (hw : s.codeAt (symOfWord w) = none) :
    ∃ t, encodeBody s = .error (.raise .noCode) t ∧ Streamed s t (8 * xs.length + 8) rest (s.codedWords xs) := by
  have hlen : s.inp.length = 8 * xs.length + (8 + rest.length) := by simp [hin]
  obtain ⟨f, hf⟩ : ∃ f, s.inp.length + 1 = (f + 1) + xs.length := ⟨s.inp.length - xs.length, by omega⟩
  obtain ⟨t, ht, h1⟩ := encodeLoop_words xs (f + 1) 0 s _ hin hcode
  obtain ⟨u, hu, h2⟩ := readWord h1.inp
  have h12 := h1.trans h2
  refine ⟨u, ?_, by simpa using h12⟩
  rw [encodeBody, Cmd.now_bind, hf]
  refine Cmd.bind_of_error (ht.trans ?_)
  rw [encodeLoop, Cmd.bind_of_ok hu]
  simp only [BitVec.ofNat_toNat, BitVec.setWidth_eq]
  exact Cmd.bind_of_error (writeCode_none (by rw [h12.codeAt]; exact hw))

/-- EncodeBody() whose words have codes but the sentinel has none (43_bitstream.md R211, R213). -/
theorem encodeBody_noEof {xs : List InWord} {s : State} {rest : Bits} (hin : s.inp = wordBits xs ++ rest)
    (hr : rest.length < 8) (hc : s.inClosed = true) (hcode : ∀ w ∈ xs, (s.codeAt (symOfWord w)).isSome = true)
    (heof : s.codeAt Config.eof = none) :
    ∃ t, encodeBody s = .error (.raise .noCode) t ∧ Streamed s t (8 * xs.length) rest (s.codedWords xs) := by
  have hlen : s.inp.length = 8 * xs.length + rest.length := by simp [hin]
  obtain ⟨f, hf⟩ : ∃ f, s.inp.length + 1 = (f + 1) + xs.length := ⟨s.inp.length - xs.length, by omega⟩
  obtain ⟨t, ht, h1⟩ := encodeLoop_words xs (f + 1) 0 s rest hin hcode
  have hend : encodeLoop (f + 1) (0 + (s.codedWords xs).length) t = .ok (s.codedWords xs).length t := by
    rw [encodeLoop, Cmd.bind_of_ok (readBits_eoi (by rw [h1.inp]; exact hr) (by rw [h1.inClosed]; exact hc))]
    simp
  refine ⟨t, ?_, h1⟩
  rw [encodeBody, Cmd.now_bind, hf, Cmd.bind_of_ok (ht.trans hend)]
  exact Cmd.bind_of_error (writeCode_none (by rw [h1.codeAt]; exact heof))

end Sys2Proof.Machine
end

