-- ==== Sys2Proof/Laws/Counting.lean ====
section
/-! SUPPORT. COUNT's loop over a closed input (41_tree.md R161, R162). -/

namespace Sys2Proof.Machine

theorem freqAt_setFreq (s : State) (w x : InWord) (v : BitVec 32) :
    (s.setFreq w v).freqAt x = if w = x then v else s.freqAt x := by
  simp only [State.freqAt, setFreq_freq, Table.get_put]
  by_cases h : w = x
  · simp [h]
  · have : w.toFin ≠ x.toFin := fun e => h (BitVec.eq_of_toFin_eq e)
    simp [h, this]

/-- FreqInc(w) below the largest count (41_tree.md R162). -/
theorem freqInc_ok {w : InWord} {s : State} (h : (s.freqAt w).toNat + 1 < 2 ^ 32) :
    freqInc w s = .ok () (s.setFreq w (s.freqAt w + 1)) := by
  have : s.freqAt w ≠ BitVec.allOnes 32 := by
    intro e; rw [e] at h; simp at h
  exact if_neg this

/-- FreqInc(w) at the largest count (41_tree.md R162). -/
theorem freqInc_overflow {w : InWord} {s : State} (h : s.freqAt w = BitVec.allOnes 32) :
    freqInc w s = .error (.raise .countOverflow) s := by
  simp [freqInc, h]

theorem toNat_succ {v : BitVec 32} (h : v.toNat + 1 < 2 ^ 32) : (v + 1).toNat = v.toNat + 1 := by
  rw [BitVec.toNat_add]
  exact Nat.mod_eq_of_lt h

/-- Any input is a word sequence and a remainder shorter than a word (20_memory.md R93). -/
theorem words_split (b : Bits) : ∃ xs rest, b = wordBits xs ++ rest ∧ rest.length < 8 := by
  by_cases h : b.length < 8
  · exact ⟨[], b, rfl, h⟩
  · obtain ⟨xs, rest, hb, hr⟩ := words_split (b.drop 8)
    refine ⟨BitVec.ofNat 8 (natOfBits (b.take 8)) :: xs, rest, ?_, hr⟩
    have hl : (b.take 8).length = 8 := by rw [List.length_take]; omega
    have hlt := natOfBits_lt (b.take 8)
    rw [hl] at hlt
    have hw : bitsOfNat 8 (natOfBits (b.take 8)) = b.take 8 := by
      have := bitsOfNat_natOfBits (b.take 8)
      rwa [hl] at this
    rw [wordBits_cons, BitVec.toNat_ofNat, Nat.mod_eq_of_lt hlt, hw, List.append_assoc, ← hb, List.take_append_drop]
termination_by b.length
decreasing_by simp; omega

/-- The loop over words whose counts fit, up to where it reads the next word (41_tree.md R161). -/
theorem countLoop_words (xs : List InWord) : ∀ (fuel : Nat) (s : State) (rest : Bits), s.inp = wordBits xs ++ rest →
    (∀ w, (s.freqAt w).toNat + xs.count w < 2 ^ 32) → s.inwords.toNat + xs.length < 2 ^ 64 →
    ∃ t fq, countLoop (fuel + xs.length) s =
        countLoop fuel { t with freq := fq, inwords := BitVec.ofNat 64 (s.inwords.toNat + xs.length) } ∧
      Streamed s t (8 * xs.length) rest [] ∧
      ∀ w : InWord, (fq.get w.toFin).toNat = (s.freqAt w).toNat + xs.count w := by
  induction xs with
  | nil =>
    intro fuel s rest hin hcnt hw
    refine ⟨s, s.freq, ?_, ?_, ?_⟩
    · simp
    · have := Streamed.refl s
      rwa [hin] at this
    · intro w; simp [State.freqAt]
  | cons x xs ih =>
    intro fuel s rest hin hcnt hw
    simp only [wordBits_cons, List.append_assoc] at hin
    obtain ⟨t, ht, hst⟩ := readWord hin
    rw [List.length_cons, ← Nat.add_assoc, countLoop, Cmd.bind_of_ok ht]
    have hfx : t.freqAt x = s.freqAt x := by obtain ⟨_, _, rfl, _⟩ := hst; rfl
    have hcx := hcnt x
    simp only [List.count_cons_self] at hcx
    have hinc : freqInc x t = .ok () (t.setFreq x (t.freqAt x + 1)) := freqInc_ok (by rw [hfx]; omega)
    simp only [BitVec.ofNat_toNat, BitVec.setWidth_eq]
    rw [Cmd.bind_of_ok hinc, Cmd.assign_bind]
    simp only [List.length_cons] at hw
    obtain ⟨ib, ob, rfl, hib, hob⟩ := hst
    obtain ⟨t', fq, hrun, ⟨ib', ob', rfl, hib', hob'⟩, hfq⟩ := ih fuel
      { (State.setFreq { s with
            inp := wordBits xs ++ rest, inBits := ib, out := s.out ++ ([] : Bits).drop s.outEarly
            outEarly := s.outEarly - ([] : Bits).length, outBits := ob } x (s.freqAt x + 1)) with
        inwords := count64 (s.inwords.toNat + 1) } rest rfl
      (by
        intro w
        have h := hcnt w
        have e := freqAt_setFreq s x w (s.freqAt x + 1)
        simp only [State.freqAt, setFreq_freq] at e h hcx ⊢
        rw [e]
        rw [List.count_cons] at h
        by_cases hxw : x = w
        · subst hxw
          simp only [if_true]
          rw [toNat_succ (by omega)]
          simp at h
          omega
        · have : (x == w) = false := by simp [hxw]
          simp only [this] at h
          simp only [if_neg hxw]
          simpa using h)
      (by
        simp only
        rw [count64_toNat (by omega)]
        omega)
    refine ⟨{ s with inp := rest, inBits := ib', outBits := ob' }, fq, ?_, ?_, ?_⟩
    · refine hrun.trans ?_
      simp only
      rw [count64_toNat (by omega)]
      rw [show s.inwords.toNat + 1 + xs.length = s.inwords.toNat + (xs.length + 1) by omega]
      simp [State.setFreq]
    · refine ⟨ib', ob', ?_, ?_, ?_⟩
      · simp
      · exact (hib.step hib').of_eq (by omega)
      · exact (hob.step hob').of_eq (by simp)
    · intro w
      have h := hfq w
      have e := freqAt_setFreq s x w (s.freqAt x + 1)
      simp only [State.freqAt, setFreq_freq] at e h hcx ⊢
      rw [h, e, List.count_cons]
      by_cases hxw : x = w
      · subst hxw
        simp only [if_true, BEq.rfl]
        rw [toNat_succ (by omega)]
        omega
      · simp [hxw]

/-- The loop counts the words of a closed input and leaves the short remainder (41_tree.md R161, 20_memory.md R93). -/
theorem countLoop_spec (xs : List InWord) (fuel : Nat) (s : State) (rest : Bits) (hin : s.inp = wordBits xs ++ rest)
    (hr : rest.length < 8) (hc : s.inClosed = true) (hf : xs.length < fuel)
    (hcnt : ∀ w, (s.freqAt w).toNat + xs.count w < 2 ^ 32) (hw : s.inwords.toNat + xs.length < 2 ^ 64) :
    ∃ t fq, countLoop fuel s =
        .ok () { t with freq := fq, inwords := BitVec.ofNat 64 (s.inwords.toNat + xs.length) } ∧
      Streamed s t (8 * xs.length) rest [] ∧
      ∀ w : InWord, (fq.get w.toFin).toNat = (s.freqAt w).toNat + xs.count w := by
  obtain ⟨k, rfl⟩ : ∃ k, fuel = k + 1 + xs.length := ⟨fuel - xs.length - 1, by omega⟩
  obtain ⟨t, fq, hrun, hst, hfq⟩ := countLoop_words xs (k + 1) s rest hin hcnt hw
  refine ⟨t, fq, ?_, hst, hfq⟩
  rw [hrun, countLoop]
  exact Cmd.bind_of_ok (readBits_eoi (by show t.inp.length < 8; rw [hst.inp]; exact hr) (by show t.inClosed = true; rw [hst.inClosed]; exact hc))

/-- COUNT_OVERFLOW: the word that cannot be counted is taken; FREQ and INWORDS keep what was counted before it
(41_tree.md R162). -/
theorem countLoop_overflow (xs : List InWord) (w : InWord) (fuel : Nat) (s : State) (rest : Bits)
    (hin : s.inp = wordBits xs ++ (bitsOfNat 8 w.toNat ++ rest)) (hf : xs.length < fuel)
    (hcnt : ∀ w, (s.freqAt w).toNat + xs.count w < 2 ^ 32) (hw : s.inwords.toNat + xs.length < 2 ^ 64)
    (hmax : (s.freqAt w).toNat + xs.count w = 2 ^ 32 - 1) :
    ∃ t fq, countLoop fuel s = .error (.raise .countOverflow)
        { t with freq := fq, inwords := BitVec.ofNat 64 (s.inwords.toNat + xs.length) } ∧
      Streamed s t (8 * xs.length + 8) rest [] ∧
      ∀ w : InWord, (fq.get w.toFin).toNat = (s.freqAt w).toNat + xs.count w := by
  obtain ⟨k, rfl⟩ : ∃ k, fuel = k + 1 + xs.length := ⟨fuel - xs.length - 1, by omega⟩
  obtain ⟨t, fq, hrun, hst, hfq⟩ := countLoop_words xs (k + 1) s _ hin hcnt hw
  obtain ⟨ib, ob, rfl, hi, ho⟩ := hst
  obtain ⟨u, hu, ⟨ib', ob', hue, hi', ho'⟩⟩ := readWord (w := w) (r := rest) (s := { s with
    inp := bitsOfNat 8 w.toNat ++ rest, inBits := ib, out := s.out ++ ([] : Bits).drop s.outEarly
    outEarly := s.outEarly - ([] : Bits).length, outBits := ob, freq := fq
    inwords := BitVec.ofNat 64 (s.inwords.toNat + xs.length) }) rfl
  refine ⟨{ s with inp := rest, inBits := ib', outBits := ob' }, fq, ?_, ?_, hfq⟩
  · rw [hrun, countLoop, Cmd.bind_of_ok hu]
    simp only [BitVec.ofNat_toNat, BitVec.setWidth_eq]
    have hfw : u.freqAt w = BitVec.allOnes 32 := by
      apply BitVec.eq_of_toNat_eq
      rw [hue]
      simp only [State.freqAt] at hfq hmax ⊢
      rw [hfq w, hmax, BitVec.toNat_allOnes]
    rw [Cmd.bind_of_error (freqInc_overflow hfw), hue]
    simp
  · exact ⟨ib', ob', by simp, (hi.step hi').of_eq (by omega), (ho.step ho').of_eq (by simp)⟩

/-- Either every count of a word sequence fits 32 bits, or there is a first word whose count does not (41_tree.md R162). -/
theorem counts_fit_or_overflow (xs : List InWord) :
    (∀ w, xs.count w < 2 ^ 32) ∨
    ∃ ys w zs, xs = ys ++ w :: zs ∧ (∀ v, ys.count v < 2 ^ 32) ∧ ys.count w = 2 ^ 32 - 1 := by
  induction xs using List.reverseRecOn with
  | nil => left; simp
  | append_singleton xs x ih =>
    rcases ih with h | ⟨ys, w, zs, rfl, h1, h2⟩
    · by_cases hx : xs.count x = 2 ^ 32 - 1
      · exact .inr ⟨xs, x, [], rfl, h, hx⟩
      · left
        intro w
        rw [List.count_append, List.count_singleton]
        have := h w
        by_cases hxw : x = w
        · subst hxw; simp; omega
        · simp [hxw]; omega
    · exact .inr ⟨ys, w, zs ++ [x], by simp, h1, h2⟩

end Sys2Proof.Machine
end

