-- ==== Sys2Proof/Laws/Decoding.lean ====
section
/-! SUPPORT. The decode walk on a tree: one code at a time, then a whole body, its end at the sentinel, and its errors
(43_bitstream.md R216 to R222). -/

namespace Sys2Proof.Machine

/-- The record under a tree: a leaf of its symbol, or an internal record over its two subtrees. -/
theorem nodeAt_leaf {s : State} {k : Nat} {i : NodeIdx} {y : Sym} (h : treeAt s.nodes k i = some (.leaf y)) :
    ∃ w, nodeAt i s = .ok (.leaf y w) s := by
  cases k with
  | zero => simp [treeAt] at h
  | succ k =>
    rcases treeAt_some h with ⟨z, w, hn, e⟩ | ⟨l, r, w, tl, tr, _, _, _, e⟩
    · cases e; exact ⟨w, nodeAt_of_some hn⟩
    · cases e

theorem nodeAt_int {s : State} {k : Nat} {i : NodeIdx} {tl tr : Tree} (h : treeAt s.nodes k i = some (.node tl tr)) :
    ∃ l r w, nodeAt i s = .ok (.int l r w) s ∧ treeAt s.nodes (k - 1) l = some tl ∧
      treeAt s.nodes (k - 1) r = some tr := by
  cases k with
  | zero => simp [treeAt] at h
  | succ k =>
    rcases treeAt_some h with ⟨z, w, hn, e⟩ | ⟨l, r, w, a, b, hn, hl, hr, e⟩
    · cases e
    · cases e; exact ⟨l, r, w, nodeAt_of_some hn, hl, hr⟩

/-- One step of the walk from an internal record: it takes a bit and reaches the child that bit selects
(43_bitstream.md R218). -/
theorem decodeLoop_bit {s : State} {f k n : Nat} {i : NodeIdx} {tl tr : Tree} {x : Bool} {rest : Bits}
    (ht : treeAt s.nodes k i = some (.node tl tr)) (hin : s.inp = x :: rest) :
    ∃ c u, treeAt s.nodes (k - 1) c = some (if x then tr else tl) ∧ Streamed s u 1 rest [] ∧
      decodeLoop (f + 1) i n s =
        (nodeAt c >>= fun nd =>
          match nd with
          | .leaf y _ =>
            if y = Config.eof then (return n : Cmd Nat)
            else do
              writeBits Config.wordBits y.val
              let s ← now
              decodeLoop f s.root (n + 1)
          | .int _ _ _ => decodeLoop f c n) u := by
  obtain ⟨u, hu, hst⟩ := readBits_streamed (n := 1) (b := [x]) (s := s) (r := rest) hin rfl
  have hnu := hst.nodes
  obtain ⟨l, r, w, hn, hl, hr⟩ := nodeAt_int (s := u) (by rw [hnu]; exact ht)
  rw [hnu] at hl hr
  cases x with
  | false =>
    refine ⟨l, u, by simpa using hl, hst, ?_⟩
    rw [decodeLoop, Cmd.bind_of_ok hu]
    simp only [Cmd.bind_of_ok hn, childOf]
    rfl
  | true =>
    refine ⟨r, u, by simpa using hr, hst, ?_⟩
    rw [decodeLoop, Cmd.bind_of_ok hu]
    simp only [Cmd.bind_of_ok hn, childOf]
    rfl

/-- A path that ends inside the tree, one bit at a time, leads to its last internal record. -/
theorem decodeLoop_path (p : Bits) : ∀ {s : State} {k n : Nat} {i : NodeIdx} {t : Tree} {y : Sym} (f : Nat) (rest : Bits),
    treeAt s.nodes k i = some t → t.follow p = some (.leaf y) → p ≠ [] → s.inp = p ++ rest →
    ∃ u, Streamed s u p.length rest [] ∧
      decodeLoop (f + p.length) i n s =
        (if y = Config.eof then (return n : Cmd Nat)
         else do
           writeBits Config.wordBits y.val
           let s ← now
           decodeLoop f s.root (n + 1)) u := by
  induction p with
  | nil => intro s k n i t y f rest _ _ h; exact absurd rfl h
  | cons x xs ih =>
    intro s k n i t y f rest ht hf _ hin
    cases t with
    | leaf z => simp [Tree.follow] at hf
    | node tl tr =>
      simp only [Tree.follow] at hf
      obtain ⟨c, u, hc, hst, hrun⟩ := decodeLoop_bit (f := f + xs.length) (n := n) ht (rest := xs ++ rest) hin
      have hf' : (if x then tr else tl).follow xs = some (.leaf y) := by cases x <;> simpa using hf
      have hcu : treeAt u.nodes (k - 1) c = some (if x then tr else tl) := by rw [hst.nodes]; exact hc
      by_cases hxs : xs = []
      · subst hxs
        simp only [Tree.follow, Option.some.injEq] at hf'
        rw [hf'] at hcu
        obtain ⟨w, hn⟩ := nodeAt_leaf hcu
        refine ⟨u, hst, ?_⟩
        rw [show f + [x].length = f + ([] : Bits).length + 1 from rfl, hrun, Cmd.bind_of_ok hn]
        rfl
      · obtain ⟨v, hst', hrun'⟩ := ih (n := n) f rest hcu hf' hxs hst.inp
        refine ⟨v, ?_, ?_⟩
        · have := hst.trans hst'
          rw [show 1 + xs.length = (x :: xs).length by simp; omega] at this
          simpa using this
        · rw [show f + (x :: xs).length = f + xs.length + 1 by simp; omega, hrun]
          cases hsub : (if x then tr else tl) with
          | leaf z =>
            rw [hsub] at hf'
            cases xs with
            | nil => exact absurd rfl hxs
            | cons a as => simp [Tree.follow] at hf'
          | node a b =>
            rw [hsub] at hcu
            obtain ⟨_, _, _, hn, _⟩ := nodeAt_int hcu
            rw [Cmd.bind_of_ok hn]
            exact hrun'

theorem symOfWord_ne_eof (w : InWord) : symOfWord w ≠ Config.eof := by
  intro h
  have := congrArg Fin.val h
  have hw := w.isLt
  simp [symOfWord, Config.eof] at this
  omega

/-- The walk over the codes of a word sequence: it writes the words and stands at the root again
(43_bitstream.md R218). -/
theorem decodeLoop_words (ps : List (InWord × Bits)) : ∀ {s : State} {n : Nat} {tl tr : Tree} (f : Nat) (rest : Bits),
    s.tree = some (.node tl tr) → (∀ p ∈ ps, (Tree.node tl tr).follow p.2 = some (.leaf (symOfWord p.1))) →
    s.inp = pathBits ps ++ rest →
    ∃ u, Streamed s u (pathBits ps).length rest (wordBits (ps.map Prod.fst)) ∧
      decodeLoop (f + (pathBits ps).length) s.root n s = decodeLoop f u.root (n + ps.length) u := by
  induction ps with
  | nil =>
    intro s n tl tr f rest _ _ hin
    have := Streamed.refl s
    simp only [pathBits, List.flatMap_nil, List.nil_append] at hin
    rw [hin] at this
    exact ⟨s, this, rfl⟩
  | cons p ps ih =>
    intro s n tl tr f rest ht hp hin
    obtain ⟨w, p⟩ := p
    have hpw := hp (w, p) List.mem_cons_self
    have hne : p ≠ [] := by rintro rfl; simp [Tree.follow] at hpw
    have hpb : pathBits ((w, p) :: ps) = p ++ pathBits ps := rfl
    rw [hpb, List.append_assoc] at hin
    obtain ⟨u, hst, hrun⟩ := decodeLoop_path p (n := n) (f + (pathBits ps).length) (pathBits ps ++ rest) ht hpw hne hin
    have hst2 := hst.trans (Streamed.of_emit u (bitsOfNat 8 w.toNat))
    rw [hst.inp] at hst2
    have hsame : (u.emit (bitsOfNat 8 w.toNat)).tree = some (.node tl tr) := by
      rw [State.tree, hst2.nodes, hst2.root]; exact ht
    obtain ⟨v, hst3, hrun3⟩ := ih (s := u.emit (bitsOfNat 8 w.toNat)) (n := n + 1) f rest hsame
      (fun q hq => hp q (List.mem_cons_of_mem _ hq)) hst2.inp
    refine ⟨v, ?_, ?_⟩
    · have := hst2.trans hst3
      simpa [hpb] using this
    · rw [hpb, List.length_append, Nat.add_comm p.length, ← Nat.add_assoc, hrun, if_neg (symOfWord_ne_eof w)]
      simp only [symOfWord, Cmd.writeBits_bind, Cmd.now_bind]
      refine hrun3.trans ?_
      rw [List.length_cons, Nat.add_assoc, Nat.add_comm 1]

/-- DecodeBody on the codes of a word sequence, the sentinel's code and anything after it: it writes the words, takes
exactly the codes and leaves the rest (43_bitstream.md R218, R220, R222). -/
theorem decodeBody_spec {s : State} {t : Tree} {ps : List (InWord × Bits)} {e rest : Bits} (ht : s.tree = some t)
    (hp : ∀ p ∈ ps, t.follow p.2 = some (.leaf (symOfWord p.1))) (he : t.follow e = some (.leaf Config.eof))
    (hin : s.inp = pathBits ps ++ e ++ rest) :
    ∃ u, decodeBody s = .ok ps.length u ∧
      Streamed s u ((pathBits ps).length + e.length) rest (wordBits (ps.map Prod.fst)) := by
  cases t with
  | leaf y =>
    obtain ⟨w, hn⟩ := nodeAt_leaf ht
    have hy : y = Config.eof ∧ e = [] := by
      cases e with
      | nil => simp [Tree.follow] at he; exact ⟨he, rfl⟩
      | cons a as => simp [Tree.follow] at he
    have hps : ps = [] := by
      cases ps with
      | nil => rfl
      | cons p ps =>
        have := hp p List.mem_cons_self
        cases hp2 : p.2 with
        | nil =>
          rw [hp2] at this
          simp only [Tree.follow, Option.some.injEq, Tree.leaf.injEq] at this
          exact absurd (this.symm.trans hy.1) (symOfWord_ne_eof p.1)
        | cons a as => rw [hp2] at this; simp [Tree.follow] at this
    obtain ⟨rfl, rfl⟩ := hy
    subst hps
    refine ⟨s, ?_, ?_⟩
    · rw [decodeBody, Cmd.now_bind, Cmd.bind_of_ok hn]
      simp
    · have := Streamed.refl s
      rw [hin] at this
      simpa [pathBits] using this
  | node tl tr =>
    obtain ⟨l, r, w, hn, _⟩ := nodeAt_int ht
    have hne : e ≠ [] := by rintro rfl; simp [Tree.follow] at he
    obtain ⟨f, hf⟩ : ∃ f, s.inp.length + 1 = (f + e.length) + (pathBits ps).length :=
      ⟨s.inp.length + 1 - e.length - (pathBits ps).length, by simp [hin]; omega⟩
    obtain ⟨u, hst, hrun⟩ := decodeLoop_words ps (n := 0) (f + e.length) (e ++ rest) ht hp
      (by rw [hin, List.append_assoc])
    obtain ⟨v, hst', hrun'⟩ := decodeLoop_path e (s := u) (k := s.nodes.length) (i := u.root) (n := 0 + ps.length)
      (t := .node tl tr) f rest
      (by rw [hst.nodes, hst.root]; exact ht) he hne hst.inp
    refine ⟨v, ?_, ?_⟩
    · rw [decodeBody, Cmd.now_bind, Cmd.bind_of_ok hn]
      simp only
      rw [hf, hrun, hrun', if_pos rfl]
      simp
    · simpa using hst.trans hst'

/-- BAD_TREE: a root that is a leaf of an ordinary symbol is refused before any read (43_bitstream.md R220). -/
theorem decodeBody_badTree {s : State} {y : Sym} (ht : s.tree = some (.leaf y)) (hy : y ≠ Config.eof) :
    decodeBody s = .error (.raise .badTree) s := by
  obtain ⟨w, hn⟩ := nodeAt_leaf ht
  rw [decodeBody, Cmd.now_bind, Cmd.bind_of_ok hn]
  simp [hy]

/-- A path that ends at an internal record takes its bits and stands there (43_bitstream.md R216). -/
theorem decodeLoop_inside (p : Bits) : ∀ {s : State} {k n : Nat} {i : NodeIdx} {t a b : Tree} (f : Nat) (rest : Bits),
    treeAt s.nodes k i = some t → t.follow p = some (.node a b) → s.inp = p ++ rest →
    ∃ u j m, Streamed s u p.length rest [] ∧ treeAt s.nodes m j = some (.node a b) ∧
      decodeLoop (f + p.length) i n s = decodeLoop f j n u := by
  induction p with
  | nil =>
    intro s k n i t a b f rest ht hf hin
    simp only [Tree.follow, Option.some.injEq] at hf
    subst hf
    have := Streamed.refl s
    simp only [List.nil_append] at hin
    rw [hin] at this
    exact ⟨s, i, k, this, ht, rfl⟩
  | cons x xs ih =>
    intro s k n i t a b f rest ht hf hin
    cases t with
    | leaf z => simp [Tree.follow] at hf
    | node tl tr =>
      simp only [Tree.follow] at hf
      obtain ⟨c, u, hc, hst, hrun⟩ := decodeLoop_bit (f := f + xs.length) (n := n) ht (rest := xs ++ rest) hin
      have hf' : (if x then tr else tl).follow xs = some (.node a b) := by cases x <;> simpa using hf
      have hcu : treeAt u.nodes (k - 1) c = some (if x then tr else tl) := by rw [hst.nodes]; exact hc
      obtain ⟨v, j, m, hst', hj, hrun'⟩ := ih (n := n) f rest hcu hf' hst.inp
      refine ⟨v, j, m, ?_, by rw [← hst.nodes]; exact hj, ?_⟩
      · have := hst.trans hst'
        rw [show 1 + xs.length = (x :: xs).length by simp; omega] at this
        simpa using this
      · rw [show f + (x :: xs).length = f + xs.length + 1 by simp; omega, hrun]
        cases hsub : (if x then tr else tl) with
        | leaf z =>
          rw [hsub] at hf'
          cases xs with
          | nil => simp [Tree.follow] at hf'
          | cons a as => simp [Tree.follow] at hf'
        | node a b =>
          rw [hsub] at hcu
          obtain ⟨_, _, _, hn, _⟩ := nodeAt_int hcu
          rw [Cmd.bind_of_ok hn]
          exact hrun'

/-- END_OF_INPUT: a closed input that ends between codes or inside one; the words before it stay written
(43_bitstream.md R221). -/
theorem decodeBody_endOfInput {s : State} {t a b : Tree} {ps : List (InWord × Bits)} {e : Bits} (ht : s.tree = some t)
    (hp : ∀ p ∈ ps, t.follow p.2 = some (.leaf (symOfWord p.1))) (he : t.follow e = some (.node a b))
    (hin : s.inp = pathBits ps ++ e) (hc : s.inClosed = true) :
    ∃ u, decodeBody s = .error (.raise .endOfInput) u ∧
      Streamed s u ((pathBits ps).length + e.length) [] (wordBits (ps.map Prod.fst)) := by
  cases t with
  | leaf y =>
    cases e with
    | nil => simp [Tree.follow] at he
    | cons x xs => simp [Tree.follow] at he
  | node tl tr =>
    obtain ⟨l, r, w, hn, _⟩ := nodeAt_int ht
    obtain ⟨f, hf⟩ : ∃ f, s.inp.length + 1 = ((f + 1) + e.length) + (pathBits ps).length :=
      ⟨s.inp.length - e.length - (pathBits ps).length, by simp [hin]; omega⟩
    obtain ⟨u, hst, hrun⟩ := decodeLoop_words ps (n := 0) ((f + 1) + e.length) e ht hp hin
    obtain ⟨v, j, m, hst', hj, hrun'⟩ := decodeLoop_inside e (s := u) (k := s.nodes.length) (i := u.root)
      (n := 0 + ps.length) (t := .node tl tr) (a := a) (b := b) (f + 1) []
      (by rw [hst.nodes, hst.root]; exact ht) he (by rw [hst.inp, List.append_nil])
    refine ⟨v, ?_, ?_⟩
    · rw [decodeBody, Cmd.now_bind, Cmd.bind_of_ok hn]
      simp only
      rw [hf, hrun, hrun', decodeLoop,
        Cmd.bind_of_ok (readBits_eoi (by simp [hst'.inp]) (by rw [hst'.inClosed, hst.inClosed]; exact hc))]
      rfl
    · simpa using hst.trans hst'

end Sys2Proof.Machine
end

