-- ==== Sys2Proof/Laws/Codes.lean ====
section
/-! SUPPORT. The code table of a tree: a code is its leaf's path, codes of different symbols are no prefixes of each
other, and how long a coded word sequence is (41_tree.md R172 to R174, 43_bitstream.md R214). -/

namespace Sys2Proof.Machine

/-- A path of at most 256 steps, read back from its code (41_tree.md R173). -/
theorem codeOfPath_bits {p : Bits} (h : p.length ≤ 256) : (codeOfPath p).bits = p := by
  have hlt := natOfBits_lt p
  have h256 : natOfBits p < 2 ^ 256 := lt_of_lt_of_le hlt (Nat.pow_le_pow_right (by omega) h)
  simp only [codeOfPath, Code.bits, BitVec.toNat_ofNat]
  rw [Nat.mod_eq_of_lt (a := p.length) (by omega), Nat.mod_eq_of_lt h256, bitsOfNat_natOfBits]

theorem codeOfPath_len {p : Bits} (h : p.length ≤ 256) : (codeOfPath p).len.toNat = p.length := by
  simp only [codeOfPath, BitVec.toNat_ofNat]
  exact Nat.mod_eq_of_lt (by omega)

/-- A path's code fits its length (10_state.md R47). -/
theorem codeOfPath_fits {p : Bits} (h : p.length ≤ 256) : (codeOfPath p).fits := by
  have hlt := natOfBits_lt p
  refine ⟨by rw [codeOfPath_len h]; exact h, ?_⟩
  rw [codeOfPath_len h]
  have h256 : natOfBits p < 2 ^ 256 := lt_of_lt_of_le hlt (Nat.pow_le_pow_right (by omega) h)
  simp only [codeOfPath, BitVec.toNat_ofNat]
  rwa [Nat.mod_eq_of_lt h256]

/-- The code table is the tree's (10_state.md R35). -/
def State.CodesOf (s : State) (t : Tree) : Prop := ∀ y, s.codeAt y = (t.pathOf y).map codeOfPath

theorem Tree.pathOf_length {t : Tree} {y : Sym} {p : Bits} (h : t.pathOf y = some p) (hsz : t.size ≤ 513) :
    p.length ≤ 256 := by
  have := Tree.path_length (Tree.follow_of_mem (Tree.mem_of_pathOf h))
  omega

/-- The bits of a symbol's code are its leaf's path, none without a leaf. -/
theorem State.CodesOf.bits {s : State} {t : Tree} (h : s.CodesOf t) (hsz : t.size ≤ 513) (y : Sym) :
    s.codeBits y = (t.pathOf y).getD [] := by
  simp only [State.codeBits, h y]
  cases hp : t.pathOf y with
  | none => rfl
  | some p => simp [codeOfPath_bits (Tree.pathOf_length hp hsz)]

theorem State.CodesOf.isSome {s : State} {t : Tree} (h : s.CodesOf t) (y : Sym) :
    (s.codeAt y).isSome = true ↔ y ∈ t.leaves := by
  rw [h y, Option.isSome_map, Tree.pathOf_isSome]

theorem State.CodesOf.follow {s : State} {t : Tree} (h : s.CodesOf t) (hsz : t.size ≤ 513) {y : Sym}
    (hy : (s.codeAt y).isSome = true) : t.follow (s.codeBits y) = some (.leaf y) := by
  rw [h y, Option.isSome_map] at hy
  obtain ⟨p, hp⟩ := Option.isSome_iff_exists.mp hy
  rw [h.bits hsz, hp]
  exact Tree.follow_of_mem (Tree.mem_of_pathOf hp)

/-- No code is a prefix of the code of another symbol (41_tree.md R174). -/
theorem State.CodesOf.prefix_free {s : State} {t : Tree} (h : s.CodesOf t) (hsz : t.size ≤ 513) {y z : Sym}
    (hy : (s.codeAt y).isSome = true) (hz : (s.codeAt z).isSome = true) (hne : y ≠ z) :
    ¬ s.codeBits y <+: s.codeBits z := by
  rintro ⟨q, hq⟩
  have h1 := h.follow hsz hy
  have h2 := h.follow hsz hz
  rw [← hq] at h2
  have := Tree.follow_prefix h1 h2
  subst this
  rw [List.append_nil] at h2
  rw [h1] at h2
  simp only [Option.some.injEq, Tree.leaf.injEq] at h2
  exact hne h2

/-- The words with their codes' bits. -/
def State.codedPairs (s : State) (xs : List InWord) : List (InWord × Bits) :=
  xs.map fun w => (w, s.codeBits (symOfWord w))

theorem pathBits_codedPairs (s : State) (xs : List InWord) : pathBits (s.codedPairs xs) = s.codedWords xs := by
  simp [pathBits, State.codedPairs, State.codedWords, List.flatMap_map]

theorem codedPairs_fst (s : State) (xs : List InWord) : (s.codedPairs xs).map Prod.fst = xs := by
  simp [State.codedPairs, Function.comp_def]

/-- Walking the whole tree gives its code table (41_tree.md R172). -/
theorem codegenBody_spec {s : State} {t : Tree} (h : s.tree = some t) :
    ∃ cd, codegenBody s = .ok () { s with code := cd, codesValid := true } ∧
      ∀ y, cd.get y = (t.pathOf y).map codeOfPath := by
  obtain ⟨cd, hw, hc⟩ := walk_spec (s := { s with code := Table.fill (Option Code) 257 none }) (i := s.root) 0 0 h
  refine ⟨cd, ?_, ?_⟩
  · rw [codegenBody, Cmd.assign_bind, Cmd.now_bind, Cmd.bind_of_ok hw]
    rfl
  · intro y
    rw [hc y]
    cases hp : t.pathOf y with
    | none => simp [State.codeAt]
    | some p => simp [walkedCode_root]

theorem codeLen_codeBits (s : State) (y : Sym) :
    codeLen (s.codeAt y) = (s.codeBits y).length := by
  simp only [State.codeBits]
  cases hc : s.codeAt y with
  | none => rfl
  | some c => simp [codeLen, Code.bits]

/-- A sum over words is a sum over the alphabet, each symbol as often as it occurs (43_bitstream.md R214). -/
theorem sum_words (g : InWord → Nat) (xs : List InWord) :
    (xs.map g).sum = ∑ w : InWord, xs.count w * g w := by
  induction xs with
  | nil => simp
  | cons x xs ih =>
    simp only [List.map_cons, List.sum_cons, ih, List.count_cons]
    have : ∀ w : InWord, (xs.count w + if (x == w) = true then 1 else 0) * g w =
        xs.count w * g w + if x = w then g w else 0 := by
      intro w
      by_cases hw : x = w
      · simp [hw, Nat.add_mul]
      · simp [hw]
    simp only [this, Finset.sum_add_distrib, Finset.sum_ite_eq, Finset.mem_univ, if_true]
    omega

/-- A word is a number below 256. -/
def wordEquiv : InWord ≃ Fin 256 where
  toFun w := w.toFin
  invFun f := BitVec.ofFin f
  left_inv _ := rfl
  right_inv _ := rfl

/-- A sum over two tables entry by entry. -/
theorem zipWith_tables {α β : Type} {n : Nat} (t : Table α n) (u : Table β (n + 1)) (g : α → β → Nat) :
    (List.zipWith g t.rows u.rows).sum = ∑ i : Fin n, g (t.get i) (u.get ⟨i.val, Nat.lt_succ_of_lt i.isLt⟩) := by
  have hl : List.zipWith g t.rows u.rows =
      List.ofFn fun i : Fin n => g (t.get i) (u.get ⟨i.val, Nat.lt_succ_of_lt i.isLt⟩) := by
    apply List.ext_getElem
    · rw [List.length_zipWith, t.size, u.size, List.length_ofFn]; omega
    · intro i h1 h2
      simp [Table.get]
  rw [hl, List.sum_ofFn]

/-- The sum of Estimate(F) over the tables is a sum over the alphabet (44_pipeline.md R232). -/
theorem bodyEstimate_eq (s : State) :
    s.bodyEstimate = (∑ w : InWord, (s.freqAt w).toNat * (s.codeBits (symOfWord w)).length)
      + (s.codeBits Config.eof).length := by
  rw [State.bodyEstimate, codeLen_codeBits]
  refine congrArg (· + _) ?_
  rw [zipWith_tables, ← wordEquiv.sum_comp]
  refine Finset.sum_congr rfl fun w _ => ?_
  rw [← codeLen_codeBits]
  rfl

theorem length_eq_sum_count (xs : List InWord) : xs.length = ∑ w : InWord, xs.count w := by
  have := sum_words (fun _ => 1) xs
  simpa using this

/-- Counts that fit 32 bits make fewer than 2^40 words (10_state.md R40). -/
theorem length_lt_of_counts {xs : List InWord} (h : ∀ w, xs.count w < 2 ^ 32) : xs.length < 2 ^ 40 := by
  rw [length_eq_sum_count]
  have hcard : Fintype.card InWord = 256 := by rw [Fintype.card_congr wordEquiv, Fintype.card_fin]
  calc ∑ w : InWord, xs.count w ≤ ∑ _w : InWord, (2 ^ 32 - 1) :=
        Finset.sum_le_sum fun w _ => by have := h w; omega
    _ = 256 * (2 ^ 32 - 1) := by rw [Finset.sum_const, Finset.card_univ, hcard]; rfl
    _ < 2 ^ 40 := by norm_num

/-- The symbols with a code are the leaves' symbols, each once (41_tree.md R172). -/
theorem codeCount_eq {s : State} {t : Tree} (h : s.CodesOf t) : s.codeCount = t.leaves.dedup.length := by
  have hrows : s.code.rows = List.ofFn s.codeAt := by
    apply List.ext_getElem
    · rw [s.code.size, List.length_ofFn]
    · intro i h1 h2
      rw [List.getElem_ofFn]
      rfl
  rw [State.codeCount, hrows, List.countP_eq_length_filter, List.ofFn_eq_map, List.filter_map, List.length_map]
  have hnd : ((List.finRange 257).filter ((fun c : Option Code => c.isSome) ∘ s.codeAt)).Nodup :=
    (List.nodup_finRange 257).filter _
  refine (List.perm_of_nodup_nodup_toFinset_eq hnd t.leaves.nodup_dedup ?_).length_eq
  ext y
  simp [h.isSome y]

/-- The paths of a full binary tree fill the code space: over its leaves, 2^(n - length) sums to 2^n (41_tree.md R174). -/
theorem Tree.kraft (t : Tree) : ∀ n : Nat, (∀ p ∈ t.paths, p.2.length ≤ n) →
    (t.paths.map fun p => 2 ^ (n - p.2.length)).sum = 2 ^ n := by
  induction t with
  | leaf y => intro n _; simp [Tree.paths]
  | node l r ihl ihr =>
    intro n h
    obtain ⟨q, hq⟩ : ∃ q, q ∈ l.paths := by
      have : l.paths ≠ [] := by
        intro h0
        have h1 := congrArg List.length (Tree.paths_fst l)
        have h2 := l.size_leaves
        have h3 := l.size_pos
        simp [h0] at h1
        omega
      exact List.exists_mem_of_ne_nil _ this
    have hn := h (q.1, false :: q.2) (List.mem_append_left _ (List.mem_map.2 ⟨q, hq, rfl⟩))
    obtain ⟨m, rfl⟩ : ∃ m, n = m + 1 := ⟨n - 1, by simp at hn; omega⟩
    have hl := ihl m fun p hp => by
      have := h (p.1, false :: p.2) (List.mem_append_left _ (List.mem_map.2 ⟨p, hp, rfl⟩))
      simpa using this
    have hr := ihr m fun p hp => by
      have := h (p.1, true :: p.2) (List.mem_append_right _ (List.mem_map.2 ⟨p, hp, rfl⟩))
      simpa using this
    simp only [Tree.paths, List.map_append, List.map_map, List.sum_append, Function.comp_def, List.length_cons,
      Nat.add_sub_add_right, hl, hr]
    omega

/-- A sum over the symbols of a list of symbols with paths, each symbol listed once. -/
theorem sum_last_path (g : Bits → Nat) (ls : List (Sym × Bits)) (h : (ls.map Prod.fst).Nodup) :
    (∑ y : Sym, (match ((ls.filter fun p => p.1 = y).getLast?).map Prod.snd with
      | none   => 0
      | some p => g p)) = (ls.map fun p => g p.2).sum := by
  induction ls with
  | nil => simp
  | cons a ls ih =>
    simp only [List.map_cons, List.nodup_cons] at h
    rw [List.map_cons, List.sum_cons, ← ih h.2]
    have hone : (∑ y : Sym, if y = a.1 then g a.2 else 0) = g a.2 := by simp
    rw [← hone, ← Finset.sum_add_distrib]
    refine Finset.sum_congr rfl fun y _ => ?_
    by_cases hy : y = a.1
    · subst hy
      have : ls.filter (fun p => decide (p.1 = a.1)) = [] := by
        rw [List.filter_eq_nil_iff]
        intro p hp
        have : p.1 ≠ a.1 := fun he => h.1 (he ▸ List.mem_map.2 ⟨p, hp, rfl⟩)
        simpa using this
      simp [this]
    · have : ¬ a.1 = y := fun h => hy h.symm
      simp [this, hy]

/-- The code lengths of a tree with one leaf per symbol fill the code space (41_tree.md R174). -/
theorem Tree.kraft_symbols {t : Tree} (h : t.leaves.Nodup) (n : Nat) (hn : ∀ p ∈ t.paths, p.2.length ≤ n) :
    (∑ y : Sym, (match t.pathOf y with
      | none   => 0
      | some p => 2 ^ (n - p.length))) = 2 ^ n := by
  rw [← t.kraft n hn]
  exact sum_last_path (fun p => 2 ^ (n - p.length)) t.paths (by rw [Tree.paths_fst]; exact h)

end Sys2Proof.Machine
end

