-- ==== Sys2Proof/Laws/Exec.lean ====
section
/-! SUPPORT. Everything a command's execution can do, in terms of its admission and its pseudocode
(60_exceptions.md R262 to R266), for all commands at once. -/

namespace Sys2Proof.Machine

/-- Every meaning is its command's admission, pseudocode and completion. -/
theorem exec_eq (i : Instr) (s : State) : exec i s = (commandOf i).exec s := by cases i <;> rfl

/-- The admission checks of every command, in their order (60_exceptions.md R262 to R264). -/
theorem admission_eq (i : Instr) (s : State) :
    (commandOf i).admission s =
      if (needsIn i && !s.config.inAttached) || (needsOut i && !s.config.outAttached) then some .invalidArg
      else if !neededFlag i s then some .sequence
      else none := by cases i <;> rfl

theorem admitted {i : Instr} {s : State} (h1 : needsIn i = true → s.config.inAttached = true)
    (h2 : needsOut i = true → s.config.outAttached = true) (h3 : neededFlag i s = true) :
    (commandOf i).admission s = none := by
  rw [admission_eq, h3]
  cases hi : needsIn i <;> cases ho : needsOut i <;> simp_all

/-- A command that passes admission and whose pseudocode ends. -/
theorem exec_of_ok {i : Instr} {s t : State} {r : Int} (ha : (commandOf i).admission s = none)
    (h : (commandOf i).body ((commandOf i).clears s) = .ok r t) : exec i s = .next (t.doneWith (int64 r)) := by
  rw [exec_eq, Command.exec_of_ok ha h]; rfl

/-- A command that passes admission and whose pseudocode raises an error. -/
theorem exec_of_raise {i : Instr} {s t : State} {e : ErrCode} (ha : (commandOf i).admission s = none)
    (h : (commandOf i).body ((commandOf i).clears s) = .error (.raise e) t) : exec i s = .next (t.failedWith e) := by
  rw [exec_eq, Command.exec_of_raise ha h]; rfl

/-- A command that fails admission. -/
theorem exec_of_admission {i : Instr} {s : State} {e : ErrCode} (h : (commandOf i).admission s = some e) :
    exec i s = .next (s.failedWith e) := by
  rw [exec_eq, Command.exec_of_admission h]; rfl

/-- Everything a command that answers a next state can have done: it failed admission, completed, raised an error, or
waits with nothing changed. -/
theorem exec_next {i : Instr} {s t : State} (h : exec i s = .next t) :
    (∃ e, (commandOf i).admission s = some e ∧ t = s.failedWith e) ∨
    ((commandOf i).admission s = none ∧
      ((∃ r u, (commandOf i).body ((commandOf i).clears s) = .ok r u ∧ t = u.doneWith (int64 r)) ∨
       (∃ e u, (commandOf i).body ((commandOf i).clears s) = .error (.raise e) u ∧ t = u.failedWith e) ∨
       (∃ u, (commandOf i).body ((commandOf i).clears s) = .error .wait u ∧ t = s))) := by
  rw [exec_eq] at h
  rcases Command.exec_cases (commandOf i) s with ⟨e, ha, hx⟩ | ⟨ha, ⟨r, u, hr, hx⟩ | ⟨e, u, hr, hx⟩ | ⟨u, hr, hx⟩ | ⟨u, hr, hx⟩⟩
  · rw [hx] at h; exact .inl ⟨e, ha, (Host.Outcome.next.inj h).symm⟩
  · rw [hx] at h; exact .inr ⟨ha, .inl ⟨r, u, hr, (Host.Outcome.next.inj h).symm⟩⟩
  · rw [hx] at h; exact .inr ⟨ha, .inr (.inl ⟨e, u, hr, (Host.Outcome.next.inj h).symm⟩)⟩
  · rw [hx] at h; exact .inr ⟨ha, .inr (.inr ⟨u, hr, (Host.Outcome.next.inj h).symm⟩)⟩
  · rw [hx] at h; cases h

theorem int64_zero : int64 0 = 0 := by rw [int64_of_fits] <;> decide

end Sys2Proof.Machine
end

