-- ==== Sys2Proof/Laws/Extends.lean ====
section
/-! SUPPORT. A run that ends on the bits present ends the same way when more bits stand behind them: bits that arrive
later only extend IN (20_memory.md R84, R87). -/

namespace Sys2Proof.Machine

/-- The state with more bits on IN, and IN open or closed. -/
def State.push (s : State) (m : Bits) (c : Bool) : State := { s with inp := s.inp ++ m, inClosed := c }

/-- What `x` comes to from a state with IN open, `y` comes to when more bits stand on IN, and it leaves them there. -/
def Cmd.Extends {α : Type} (x y : Cmd α) : Prop :=
  ∀ s m c, s.inClosed = false →
    match x s with
    | .ok a t             => t.inClosed = false ∧ y (s.push m c) = .ok a (t.push m c)
    | .error (.raise e) t => y (s.push m c) = .error (.raise e) (t.push m c)
    | .error _ _          => True

theorem Cmd.Extends.pure {α : Type} (a : α) : (pure a : Cmd α).Extends (pure a) := fun _ _ _ h => ⟨h, rfl⟩

theorem Cmd.Extends.raise {α : Type} (e : ErrCode) : (raise e : Cmd α).Extends (raise e) := fun _ _ _ _ => rfl

theorem Cmd.Extends.broken {α : Type} (y : Cmd α) : (broken : Cmd α).Extends y := fun _ _ _ _ => trivial

theorem Cmd.Extends.assign {g : State → State} (h : ∀ s m c, g (s.push m c) = (g s).push m c) :
    (assign g).Extends (assign g) := by
  intro s m c hc
  refine ⟨?_, by simp [h]⟩
  have h0 : s.push [] s.inClosed = s := by simp [State.push]
  have h1 := congrArg State.inClosed (h s [] s.inClosed)
  rw [h0] at h1
  exact h1.trans hc

theorem Cmd.Extends.bind {α β : Type} {x y : Cmd α} {f g : α → Cmd β} (hx : x.Extends y) (hf : ∀ a, (f a).Extends (g a)) :
    (x >>= f).Extends (y >>= g) := by
  intro s m c hs
  have h := hx s m c hs
  cases hxs : x s with
  | ok a t =>
    rw [hxs] at h
    obtain ⟨ht, hy⟩ := h
    have h2 := hf a t m c ht
    rw [Cmd.bind_of_ok hxs, Cmd.bind_of_ok hy]
    exact h2
  | error e t =>
    rw [hxs] at h
    rw [Cmd.bind_of_error hxs]
    cases e with
    | raise e => exact Cmd.bind_of_error h
    | wait => trivial
    | broken => trivial

theorem Cmd.Extends.now {β : Type} {f g : State → Cmd β} (h : ∀ s m c, (f s).Extends (g (s.push m c))) :
    (Machine.now >>= f).Extends (Machine.now >>= g) := fun s m c hs => by
  rw [Cmd.now_bind, Cmd.now_bind]
  exact h s m c s m c hs

/-- Reading the state, where what is used of it is not IN. -/
theorem Cmd.Extends.now_of_eq {β : Type} {f g : State → Cmd β} (h : ∀ s m c, g (s.push m c) = g s)
    (hf : ∀ s, (f s).Extends (g s)) : (Machine.now >>= f).Extends (Machine.now >>= g) :=
  .now fun s m c => by rw [h]; exact hf s

theorem Cmd.Extends.readBits (n : Nat) : (readBits n).Extends (readBits n) := by
  intro s m c hs
  by_cases h : n ≤ s.inp.length
  · have h' : n ≤ (s.push m c).inp.length := by simp [State.push]; omega
    simp only [Machine.readBits, h, if_true, h']
    refine ⟨hs, ?_⟩
    simp only [State.push]
    rw [List.take_append_of_le_length h, List.drop_append_of_le_length h]
  · rw [readBits_wait (by omega) hs]
    trivial

/-- A piece that neither reads IN nor looks whether it is closed. -/
theorem Cmd.Extends.of_eq {α : Type} {x : Cmd α}
    (h : ∀ s m c, x (s.push m c) =
      match x s with
      | .ok a t    => .ok a (t.push m c)
      | .error e t => .error e (t.push m c))
    (hc : ∀ s a t, x s = .ok a t → t.inClosed = s.inClosed) : x.Extends x := by
  intro s m c hs
  have h1 := h s m c
  cases hx : x s with
  | ok a t => rw [hx] at h1; exact ⟨(hc s a t hx).trans hs, h1⟩
  | error e t =>
    rw [hx] at h1
    cases e with
    | raise e => exact h1
    | wait => trivial
    | broken => trivial

theorem Cmd.Extends.writeBits (n v : Nat) : (writeBits n v).Extends (writeBits n v) :=
  .assign fun _ _ _ => rfl

theorem Cmd.Extends.nodeAt (i : NodeIdx) : (nodeAt i).Extends (nodeAt i) :=
  .of_eq (fun s m c => by cases h : s.nodes[i.toNat]? <;> simp [Machine.nodeAt, State.push, h])
    (fun s a t h => by cases hn : s.nodes[i.toNat]? <;> simp [Machine.nodeAt, hn] at h; rw [h.2])

theorem Cmd.Extends.alloc (n : Node) : (alloc n).Extends (alloc n) :=
  .of_eq (fun s m c => by by_cases h : Config.maxNodes ≤ s.nodes.length <;> simp [Machine.alloc, State.push, h])
    (fun s a t h => by
      by_cases hn : Config.maxNodes ≤ s.nodes.length <;> simp [Machine.alloc, hn] at h
      rw [← h.2])

theorem Cmd.Extends.enqueue (k : BitVec 32) (t : BitVec 16) : (enqueue k t).Extends (enqueue k t) :=
  .of_eq (fun s m c => by by_cases h : Config.pqCap ≤ s.pq.length <;> simp [Machine.enqueue, State.push, h])
    (fun s a t h => by
      by_cases hn : Config.pqCap ≤ s.pq.length <;> simp [Machine.enqueue, hn] at h
      rw [← h])

theorem Cmd.Extends.dequeue : dequeue.Extends dequeue :=
  .of_eq (fun s m c => by cases h : s.pq <;> simp [Machine.dequeue, State.push, h])
    (fun s a t h => by
      cases hn : s.pq <;> simp [Machine.dequeue, hn] at h
      rw [← h.2])

theorem Cmd.Extends.freqInc (w : InWord) : (freqInc w).Extends (freqInc w) :=
  .of_eq
    (fun s m c => by
      have e : (s.push m c).freqAt w = s.freqAt w := rfl
      by_cases h : s.freqAt w = BitVec.allOnes 32
      · rw [freqInc_overflow h, freqInc_overflow (e.trans h)]
      · simp only [Machine.freqInc, e, if_neg h]; rfl)
    (fun s a t h => by
      by_cases hn : s.freqAt w = BitVec.allOnes 32
      · rw [freqInc_overflow hn] at h; cases h
      · simp only [Machine.freqInc, if_neg hn] at h; cases h; rfl)

theorem Cmd.Extends.countLoop (f : Nat) : ∀ g, f ≤ g → (countLoop f).Extends (countLoop g) := by
  induction f with
  | zero => intro g _; exact .broken _
  | succ f ih =>
    intro g hg
    obtain ⟨g, rfl⟩ : ∃ k, g = k + 1 := ⟨g - 1, by omega⟩
    refine (Cmd.Extends.readBits _).bind fun a => ?_
    cases a with
    | none => exact .pure _
    | some w =>
      exact (Cmd.Extends.freqInc _).bind fun _ => (Cmd.Extends.assign fun _ _ _ => rfl).bind fun _ =>
        ih g (by omega)

theorem Cmd.Extends.countBody : countBody.Extends countBody :=
  (Cmd.Extends.assign fun _ _ _ => rfl).bind fun _ => .now fun s m c =>
    .countLoop _ _ (by simp [State.push])

theorem Cmd.Extends.addLeaf (y : Sym) (w : BitVec 32) : (addLeaf y w).Extends (addLeaf y w) :=
  (Cmd.Extends.alloc _).bind fun _ => .enqueue _ _

theorem Cmd.Extends.addLeaves (fs : List (InWord × BitVec 32)) : (addLeaves fs).Extends (addLeaves fs) := by
  induction fs with
  | nil => exact .pure _
  | cons p fs ih =>
    obtain ⟨w, f⟩ := p
    by_cases hf : f = 0
    · simp only [Machine.addLeaves, hf, ne_eq, not_true_eq_false, if_false]; exact ih
    · simp only [Machine.addLeaves, hf, ne_eq, not_false_eq_true, if_true]; exact (Cmd.Extends.addLeaf _ _).bind fun _ => ih

theorem Cmd.Extends.mergeOnce : mergeOnce.Extends mergeOnce :=
  Cmd.Extends.dequeue.bind fun _ => Cmd.Extends.dequeue.bind fun _ => (Cmd.Extends.nodeAt _).bind fun _ =>
    (Cmd.Extends.nodeAt _).bind fun _ => (Cmd.Extends.alloc _).bind fun _ => .enqueue _ _

theorem Cmd.Extends.mergeLoop (fuel : Nat) : (mergeLoop fuel).Extends (mergeLoop fuel) := by
  induction fuel with
  | zero => exact .broken _
  | succ n ih =>
    refine .now_of_eq (fun _ _ _ => rfl) fun s => ?_
    by_cases h : s.pq.length ≠ 1
    · simp only [h, if_true, ne_eq, not_false_eq_true]; exact Cmd.Extends.mergeOnce.bind fun _ => ih
    · simp only [h, if_false]; exact .pure _

theorem Cmd.Extends.sizeAccounting : sizeAccounting.Extends sizeAccounting :=
  .now_of_eq (fun _ _ _ => rfl) fun _ => (Cmd.Extends.nodeAt _).bind fun _ => .assign fun _ _ _ => rfl

theorem Cmd.Extends.buildBody : buildBody.Extends buildBody :=
  (Cmd.Extends.assign fun _ _ _ => rfl).bind fun _ => .now_of_eq (fun _ _ _ => rfl) fun _ =>
    (Cmd.Extends.addLeaves _).bind fun _ => (Cmd.Extends.addLeaf _ _).bind fun _ =>
    (Cmd.Extends.mergeLoop _).bind fun _ => Cmd.Extends.dequeue.bind fun _ =>
    (Cmd.Extends.assign fun _ _ _ => rfl).bind fun _ => Cmd.Extends.sizeAccounting.bind fun _ =>
    .assign fun _ _ _ => rfl

theorem Cmd.Extends.walk (fuel : Nat) : ∀ i d v, (walk fuel i d v).Extends (walk fuel i d v) := by
  induction fuel with
  | zero => intro i d v; exact .broken _
  | succ n ih =>
    intro i d v
    refine (Cmd.Extends.nodeAt _).bind fun nd => ?_
    cases nd with
    | leaf y w => exact .assign fun _ _ _ => rfl
    | int l r w => exact (ih _ _ _).bind fun _ => ih _ _ _

theorem Cmd.Extends.codegenBody : codegenBody.Extends codegenBody :=
  (Cmd.Extends.assign fun _ _ _ => rfl).bind fun _ => .now_of_eq (fun _ _ _ => rfl) fun _ =>
    (Cmd.Extends.walk _ _ _ _).bind fun _ => .assign fun _ _ _ => rfl

theorem Cmd.Extends.ser (fuel : Nat) : ∀ i, (ser fuel i).Extends (ser fuel i) := by
  induction fuel with
  | zero => intro i; exact .broken _
  | succ n ih =>
    intro i
    refine (Cmd.Extends.nodeAt _).bind fun nd => ?_
    cases nd with
    | leaf y w => exact (Cmd.Extends.writeBits _ _).bind fun _ => (Cmd.Extends.writeBits _ _).bind fun _ => .pure _
    | int l r w =>
      exact (Cmd.Extends.writeBits _ _).bind fun _ => (ih _).bind fun _ => (ih _).bind fun _ => .pure _

theorem Cmd.Extends.serRoot : serRoot.Extends serRoot := .now_of_eq (fun _ _ _ => rfl) fun _ => .ser _ _

theorem Cmd.Extends.parse (fuel : Nat) : (parse fuel).Extends (parse fuel) := by
  induction fuel with
  | zero => exact .broken _
  | succ n ih =>
    refine (Cmd.Extends.readBits _).bind fun a => ?_
    cases a with
    | none => exact .raise _
    | some b =>
      by_cases hb : b = 0
      · simp only [hb, if_true]
        exact (Cmd.Extends.alloc _).bind fun _ => ih.bind fun _ => ih.bind fun _ =>
          (Cmd.Extends.assign fun _ _ _ => rfl).bind fun _ => .pure _
      · simp only [hb, if_false]
        refine (Cmd.Extends.readBits _).bind fun a => ?_
        cases a with
        | none => exact .raise _
        | some v =>
          by_cases hv : v < 257
          · simp only [hv, dite_true]; exact .alloc _
          · simp only [hv, dite_false]; exact .raise _

theorem Cmd.Extends.parseTree : parseTree.Extends parseTree :=
  (Cmd.Extends.assign fun _ _ _ => rfl).bind fun _ => .now_of_eq (fun _ _ _ => rfl) fun _ =>
    (Cmd.Extends.parse _).bind fun _ => .assign fun _ _ _ => rfl

theorem Cmd.Extends.writeCode (y : Sym) : (writeCode y).Extends (writeCode y) := by
  refine .now_of_eq (fun _ _ _ => rfl) fun s => ?_
  cases s.codeAt y with
  | none => exact .raise _
  | some c => exact (Cmd.Extends.writeBits _ _).bind fun _ => .pure _

theorem Cmd.Extends.encodeLoop (f : Nat) : ∀ g n, f ≤ g → (encodeLoop f n).Extends (encodeLoop g n) := by
  induction f with
  | zero => intro g n _; exact .broken _
  | succ f ih =>
    intro g n hg
    obtain ⟨g, rfl⟩ : ∃ k, g = k + 1 := ⟨g - 1, by omega⟩
    refine (Cmd.Extends.readBits _).bind fun a => ?_
    cases a with
    | none => exact .pure _
    | some w => exact (Cmd.Extends.writeCode _).bind fun _ => ih g _ (by omega)

theorem Cmd.Extends.encodeBody : encodeBody.Extends encodeBody :=
  .now fun s m c => (Cmd.Extends.encodeLoop _ _ _ (by simp [State.push])).bind fun _ =>
    (Cmd.Extends.writeCode _).bind fun _ => .pure _

theorem Cmd.Extends.childOf (nd : Node) (b : Nat) : (childOf nd b).Extends (childOf nd b) := by
  cases nd with
  | leaf y w => exact .broken _
  | int l r w => exact .pure _

theorem Cmd.Extends.decodeLoop (f : Nat) : ∀ g i n, f ≤ g → (decodeLoop f i n).Extends (decodeLoop g i n) := by
  induction f with
  | zero => intro g i n _; exact .broken _
  | succ f ih =>
    intro g i n hg
    obtain ⟨g, rfl⟩ : ∃ k, g = k + 1 := ⟨g - 1, by omega⟩
    refine (Cmd.Extends.readBits _).bind fun a => ?_
    cases a with
    | none => exact .raise _
    | some b =>
      refine (Cmd.Extends.nodeAt _).bind fun here => (Cmd.Extends.childOf _ _).bind fun next =>
        (Cmd.Extends.nodeAt _).bind fun nd => ?_
      cases nd with
      | int l r w => exact ih g _ _ (by omega)
      | leaf y w =>
        by_cases hy : y = Config.eof
        · simp only [hy, if_true]; exact .pure _
        · simp only [hy, if_false]
          exact (Cmd.Extends.writeBits _ _).bind fun _ => .now_of_eq (fun _ _ _ => rfl) fun _ => ih g _ _ (by omega)

theorem Cmd.Extends.decodeBody : decodeBody.Extends decodeBody := by
  refine .now fun s m c => (Cmd.Extends.nodeAt _).bind fun nd => ?_
  cases nd with
  | int l r w => exact .decodeLoop _ _ _ _ (by simp [State.push])
  | leaf y w =>
    by_cases hy : y = Config.eof
    · simp only [hy, if_true]; exact .pure _
    · simp only [hy, if_false]; exact .raise _

theorem Cmd.Extends.readField : readField.Extends readField := by
  refine (Cmd.Extends.readBits _).bind fun a => ?_
  cases a with
  | none => exact .raise _
  | some v => exact .pure _

theorem Cmd.Extends.readCounts (ws : List InWord) : (readCounts ws).Extends (readCounts ws) := by
  induction ws with
  | nil => exact .pure _
  | cons w ws ih =>
    exact Cmd.Extends.readField.bind fun _ => (Cmd.Extends.assign fun _ _ _ => rfl).bind fun _ => ih

theorem Cmd.Extends.writeCounts (cs : List (BitVec 32)) : (writeCounts cs).Extends (writeCounts cs) := by
  induction cs with
  | nil => exact .pure _
  | cons c cs ih => exact (Cmd.Extends.writeBits _ _).bind fun _ => ih

theorem Cmd.Extends.readStf : readStf.Extends readStf :=
  Cmd.Extends.readField.bind fun _ => (Cmd.Extends.assign fun _ _ _ => rfl).bind fun _ =>
    Cmd.Extends.parseTree.bind fun _ => .assign fun _ _ _ => rfl

theorem Cmd.Extends.readHeader (p : StreamParams) : (readHeader p).Extends (readHeader p) := by
  refine Cmd.Extends.readField.bind fun m => ?_
  by_cases hm : m ≠ p.magic
  · simp only [hm, if_true, ne_eq, not_false_eq_true]; exact .raise _
  · simp only [hm, if_false]
    refine Cmd.Extends.readField.bind fun t => ?_
    by_cases h1 : t = p.tagScf
    · simp only [h1, if_true]
      exact (Cmd.Extends.readCounts _).bind fun _ => Cmd.Extends.buildBody.bind fun _ => .assign fun _ _ _ => rfl
    · by_cases h2 : t = p.tagStf
      · simp only [h2, if_true]
        have : p.tagStf ≠ p.tagScf := h2 ▸ h1
        simp only [this, if_false]
        exact Cmd.Extends.readStf.bind fun _ => .assign fun _ _ _ => rfl
      · simp only [h1, if_false, h2]
        exact (Cmd.Extends.raise _).bind fun _ => .assign fun _ _ _ => rfl

theorem Cmd.Extends.decompressBody (p : StreamParams) : (decompressBody p).Extends (decompressBody p) :=
  (Cmd.Extends.readHeader p).bind fun _ => Cmd.Extends.decodeBody.bind fun _ => .pure _

theorem Cmd.Extends.prepassBody (f : Fmt) : (prepassBody f).Extends (prepassBody f) :=
  Cmd.Extends.countBody.bind fun _ => Cmd.Extends.buildBody.bind fun _ => Cmd.Extends.codegenBody.bind fun _ =>
    .now_of_eq (fun _ _ _ => rfl) fun _ => (Cmd.Extends.assign fun _ _ _ => rfl).bind fun _ => .pure _

theorem Cmd.Extends.writeHeader (p : StreamParams) : (writeHeader p).Extends (writeHeader p) := by
  refine .now_of_eq (fun _ _ _ => rfl) fun s => ?_
  cases s.fmt with
  | scf => exact (Cmd.Extends.writeBits _ _).bind fun _ => .writeCounts _
  | stf =>
    exact (Cmd.Extends.writeBits _ _).bind fun _ => (Cmd.Extends.writeBits _ _).bind fun _ =>
      Cmd.Extends.serRoot.bind fun _ => .pure _

theorem Cmd.Extends.commitBody (p : StreamParams) (force : Bool) :
    (commitBody p force).Extends (commitBody p force) := by
  refine .now_of_eq (fun _ _ _ => rfl) fun s => ?_
  by_cases h : (!force && decide (s.saved.toInt ≤ 0)) = true
  · simp only [h, if_true]
    exact (Cmd.Extends.assign fun _ _ _ => rfl).bind fun _ => .pure _
  · simp only [h]
    exact (Cmd.Extends.writeBits _ _).bind fun _ => (Cmd.Extends.writeHeader p).bind fun _ =>
      Cmd.Extends.encodeBody.bind fun _ => .now_of_eq (fun _ _ _ => rfl) fun _ => .pure _

end Sys2Proof.Machine
end

