-- ==== Sys2Proof/Laws/Frames.lean ====
section
/-! SUPPORT. What a piece of pseudocode leaves unchanged: `x.Keeps f` says that the view `f` of the state is the same
wherever `x` ends or stops; and what it keeps true. A view that blanks the fields a command may change is that
command's frame. -/

namespace Sys2Proof.Machine

/-- The state a run has reached, whether it ended or stopped. -/
def Cmd.after {α : Type} (x : Cmd α) (s : State) : State :=
  match x s with
  | .ok _ t    => t
  | .error _ t => t

theorem Cmd.after_of_ok {α : Type} {x : Cmd α} {s t : State} {a : α} (h : x s = .ok a t) : x.after s = t := by
  simp [Cmd.after, h]

theorem Cmd.after_of_error {α : Type} {x : Cmd α} {s t : State} {e : Stop} (h : x s = .error e t) :
    x.after s = t := by simp [Cmd.after, h]

/-- Wherever a run of `x` ends or stops, `P` holds if it held before. -/
def Cmd.Invariant {α : Type} (P : State → Prop) (x : Cmd α) : Prop := ∀ s, P s → P (x.after s)

/-- Wherever a run of `x` ends or stops, the view `f` is unchanged. -/
def Cmd.Keeps {α β : Type} (f : State → β) (x : Cmd α) : Prop := ∀ s, f (x.after s) = f s

theorem Cmd.Keeps.invariant {α β : Type} {f : State → β} {x : Cmd α} (h : x.Keeps f) (b : β) :
    x.Invariant (fun s => f s = b) := fun s hs => (h s).trans hs

theorem Cmd.Invariant.pure {α : Type} {P : State → Prop} (a : α) : (pure a : Cmd α).Invariant P := fun _ h => h

theorem Cmd.Invariant.raise {α : Type} {P : State → Prop} (e : ErrCode) : (raise e : Cmd α).Invariant P := fun _ h => h

theorem Cmd.Invariant.broken {α : Type} {P : State → Prop} : (broken : Cmd α).Invariant P := fun _ h => h

theorem Cmd.Invariant.now {P : State → Prop} : now.Invariant P := fun _ h => h

theorem Cmd.Invariant.nodeAt {P : State → Prop} (i : NodeIdx) : (nodeAt i).Invariant P := by
  intro s h
  simp only [Cmd.after, Machine.nodeAt]
  cases s.nodes[i.toNat]? <;> exact h

theorem Cmd.Invariant.assign {P : State → Prop} {g : State → State} (h : ∀ s, P s → P (g s)) :
    (assign g).Invariant P := h

theorem Cmd.Invariant.bind {α β : Type} {P : State → Prop} {x : Cmd α} {f : α → Cmd β} (hx : x.Invariant P)
    (hf : ∀ a, (f a).Invariant P) : (x >>= f).Invariant P := by
  intro s hs
  have hp := hx s hs
  cases h : x s with
  | ok a t =>
    rw [Cmd.after_of_ok h] at hp
    simp only [Cmd.after, Cmd.bind_of_ok h]
    exact hf a t hp
  | error e t =>
    rw [Cmd.after_of_error h] at hp
    simp only [Cmd.after, Cmd.bind_of_error h]
    exact hp

theorem Cmd.Invariant.map {α β : Type} {P : State → Prop} {x : Cmd α} {f : α → β} (hx : x.Invariant P) :
    (f <$> x).Invariant P := by
  intro s hs
  have hp := hx s hs
  simp only [Cmd.after, Cmd.map_apply] at hp ⊢
  cases h : x s <;> simpa [h] using hp

/-- ReadBits changes IN.bits and IN_BITS alone. -/
theorem Cmd.Invariant.readBits {P : State → Prop} (n : Nat)
    (h : ∀ s r b, P s → P { s with inp := r, inBits := b }) : (readBits n).Invariant P := by
  intro s hs
  rcases readBits_cases n s with ⟨_, e⟩ | ⟨_, _, e⟩ | ⟨_, _, e⟩
  · rw [Cmd.after_of_ok e]; exact h s _ _ hs
  · rw [Cmd.after_of_ok e]; exact hs
  · rw [Cmd.after_of_error e]; exact hs

/-- WriteBits changes OUT.bits and OUT_BITS alone (and the model's count of early bits). -/
theorem Cmd.Invariant.writeBits {P : State → Prop} (n v : Nat)
    (h : ∀ s o e b, P s → P { s with out := o, outEarly := e, outBits := b }) : (writeBits n v).Invariant P :=
  fun s hs => h s _ _ _ hs

theorem Cmd.Invariant.writeCode {P : State → Prop} (y : Sym)
    (h : ∀ s o e b, P s → P { s with out := o, outEarly := e, outBits := b }) : (writeCode y).Invariant P := by
  intro s hs
  cases hc : s.codeAt y with
  | none => rw [Cmd.after_of_error (show Machine.writeCode y s = .error (.raise .noCode) s by simp [Machine.writeCode, hc])]; exact hs
  | some c =>
    rw [Cmd.after_of_ok (show Machine.writeCode y s = .ok c.len.toNat (s.emit (bitsOfNat c.len.toNat c.val.toNat)) by
      simp only [Machine.writeCode, Cmd.now_bind, hc]; rfl)]
    exact h s _ _ _ hs

theorem Cmd.Invariant.encodeLoop {P : State → Prop} (hr : ∀ s r b, P s → P { s with inp := r, inBits := b })
    (hw : ∀ s o e b, P s → P { s with out := o, outEarly := e, outBits := b }) (fuel : Nat) :
    ∀ n, (encodeLoop fuel n).Invariant P := by
  induction fuel with
  | zero => intro n; exact Cmd.Invariant.broken
  | succ k ih =>
    intro n
    rw [Machine.encodeLoop]
    refine (Cmd.Invariant.readBits _ hr).bind fun a => ?_
    cases a with
    | none => exact Cmd.Invariant.pure _
    | some w => exact (Cmd.Invariant.writeCode _ hw).bind fun _ => ih _

/-- EncodeBody changes the ports and their counters alone (43_bitstream.md R224). -/
theorem Cmd.Invariant.encodeBody {P : State → Prop} (hr : ∀ s r b, P s → P { s with inp := r, inBits := b })
    (hw : ∀ s o e b, P s → P { s with out := o, outEarly := e, outBits := b }) : encodeBody.Invariant P := by
  refine Cmd.Invariant.now.bind fun s => (Cmd.Invariant.encodeLoop hr hw _ _).bind fun n => ?_
  exact (Cmd.Invariant.writeCode _ hw).bind fun _ => Cmd.Invariant.pure _

theorem Cmd.Invariant.decodeLoop {P : State → Prop} (hr : ∀ s r b, P s → P { s with inp := r, inBits := b })
    (hw : ∀ s o e b, P s → P { s with out := o, outEarly := e, outBits := b }) (fuel : Nat) :
    ∀ i n, (decodeLoop fuel i n).Invariant P := by
  induction fuel with
  | zero => intro i n; exact Cmd.Invariant.broken
  | succ k ih =>
    intro i n
    rw [Machine.decodeLoop]
    refine (Cmd.Invariant.readBits _ hr).bind fun a => ?_
    cases a with
    | none => exact Cmd.Invariant.raise _
    | some b =>
      refine (Cmd.Invariant.nodeAt _).bind fun here => ?_
      refine Cmd.Invariant.bind ?_ fun next => (Cmd.Invariant.nodeAt _).bind fun nd => ?_
      · cases here with
        | leaf _ _ => exact Cmd.Invariant.broken
        | int _ _ _ => exact Cmd.Invariant.pure _
      · cases nd with
        | int _ _ _ => exact ih _ _
        | leaf y _ =>
          by_cases hy : y = Config.eof
          · simp only [hy, if_true]
            exact Cmd.Invariant.pure _
          · simp only [hy, if_false]
            exact (Cmd.Invariant.writeBits _ _ hw).bind fun _ => Cmd.Invariant.now.bind fun _ => ih _ _

/-- DecodeBody changes the ports and their counters alone (43_bitstream.md R224). -/
theorem Cmd.Invariant.decodeBody {P : State → Prop} (hr : ∀ s r b, P s → P { s with inp := r, inBits := b })
    (hw : ∀ s o e b, P s → P { s with out := o, outEarly := e, outBits := b }) : decodeBody.Invariant P := by
  refine Cmd.Invariant.now.bind fun s => (Cmd.Invariant.nodeAt _).bind fun nd => ?_
  cases nd with
  | int _ _ _ => exact Cmd.Invariant.decodeLoop hr hw _ _ _
  | leaf y _ =>
    by_cases hy : y = Config.eof
    · simp only [hy, if_true]
      exact Cmd.Invariant.pure _
    · simp only [hy, if_false]
      exact Cmd.Invariant.raise _

/-- COUNT's loop changes FREQ, INWORDS and the input side alone (41_tree.md R161). -/
theorem Cmd.Invariant.countLoop {P : State → Prop} (hr : ∀ s r b, P s → P { s with inp := r, inBits := b })
    (hf : ∀ s f w, P s → P { s with freq := f, inwords := w }) (fuel : Nat) : (countLoop fuel).Invariant P := by
  induction fuel with
  | zero => exact Cmd.Invariant.broken
  | succ k ih =>
    rw [Machine.countLoop]
    refine (Cmd.Invariant.readBits _ hr).bind fun a => ?_
    cases a with
    | none => exact Cmd.Invariant.pure _
    | some w =>
      refine Cmd.Invariant.bind ?_ fun _ => Cmd.Invariant.bind ?_ fun _ => ih
      · intro s hs
        simp only [Cmd.after, freqInc]
        split
        · rename_i h
          split at h <;> cases h
          exact hf s _ s.inwords hs
        · rename_i h
          split at h <;> cases h
          exact hs
      · exact Cmd.Invariant.assign fun s hs => hf s s.freq _ hs

theorem Cmd.Invariant.countBody {P : State → Prop} (hr : ∀ s r b, P s → P { s with inp := r, inBits := b })
    (hf : ∀ s f w, P s → P { s with freq := f, inwords := w }) : countBody.Invariant P :=
  (Cmd.Invariant.assign fun s hs => hf s _ _ hs).bind fun _ => Cmd.Invariant.now.bind fun _ =>
    Cmd.Invariant.countLoop hr hf _

/-- Ser(i) changes the output side alone (42_serdes.md R191). -/
theorem Cmd.Invariant.ser {P : State → Prop}
    (hw : ∀ s o e b, P s → P { s with out := o, outEarly := e, outBits := b }) (fuel : Nat) :
    ∀ i, (ser fuel i).Invariant P := by
  induction fuel with
  | zero => intro i; exact Cmd.Invariant.broken
  | succ k ih =>
    intro i
    rw [Machine.ser]
    refine (Cmd.Invariant.nodeAt _).bind fun nd => ?_
    cases nd with
    | leaf y _ =>
      exact (Cmd.Invariant.writeBits _ _ hw).bind fun _ => (Cmd.Invariant.writeBits _ _ hw).bind fun _ =>
        Cmd.Invariant.pure _
    | int l r _ =>
      exact (Cmd.Invariant.writeBits _ _ hw).bind fun _ => (ih _).bind fun _ => (ih _).bind fun _ => Cmd.Invariant.pure _

/-- Walk(i, d, v) changes CODE alone (41_tree.md R172). -/
theorem Cmd.Invariant.walk {P : State → Prop} (hc : ∀ s c, P s → P { s with code := c }) (fuel : Nat) :
    ∀ i d v, (walk fuel i d v).Invariant P := by
  induction fuel with
  | zero => intro i d v; exact Cmd.Invariant.broken
  | succ k ih =>
    intro i d v
    rw [Machine.walk]
    refine (Cmd.Invariant.nodeAt _).bind fun nd => ?_
    cases nd with
    | leaf y _ => exact Cmd.Invariant.assign fun s hs => hc s _ hs
    | int l r _ => exact (ih _ _ _).bind fun _ => ih _ _ _

/-- The reads of an SCF header change FREQ and the input side alone (44_pipeline.md R243). -/
theorem Cmd.Invariant.readField {P : State → Prop} (hr : ∀ s r b, P s → P { s with inp := r, inBits := b }) :
    readField.Invariant P := by
  refine (Cmd.Invariant.readBits _ hr).bind fun a => ?_
  cases a with
  | none => exact Cmd.Invariant.raise _
  | some v => exact Cmd.Invariant.pure _

theorem Cmd.Invariant.readCounts {P : State → Prop} (hr : ∀ s r b, P s → P { s with inp := r, inBits := b })
    (hf : ∀ s f, P s → P { s with freq := f }) (ws : List InWord) : (readCounts ws).Invariant P := by
  induction ws with
  | nil => exact Cmd.Invariant.pure _
  | cons w ws ih =>
    exact (Cmd.Invariant.readField hr).bind fun c => (Cmd.Invariant.assign fun s hs => hf s _ hs).bind fun _ => ih

end Sys2Proof.Machine
end

