-- ==== Sys2Proof/Laws/Oblivious.lean ====
section
/-! SUPPORT. A command's pseudocode never looks at OUT: what it does, and the bits it writes, are the same whatever the
host has drained and whatever was put out early; OUT only grows by those bits (20_memory.md R88, R94, R98). -/

namespace Sys2Proof.Machine

/-- The state with the fields that only the output side and the host's record hold replaced. -/
def State.port (s : State) (o : Bits) (e d : Nat) (k : Bits) : State :=
  { s with out := o, outEarly := e, draws := d, taken := k }

/-- A result with its state changed. -/
def onState {α : Type} (f : State → State) (r : EStateM.Result Stop State α) : EStateM.Result Stop State α :=
  match r with
  | .ok a t    => .ok a (f t)
  | .error e t => .error e (f t)

/-- A run of `x` writes some bits, the same and with the same other effects whatever stands on the output side. -/
def Cmd.Oblivious {α : Type} (x : Cmd α) : Prop :=
  ∀ s, ∃ b : Bits, ∀ o e d k, x (s.port o e d k) = onState (fun t => t.port (o ++ b.drop e) (e - b.length) d k) (x s)

/-- What does not touch the output side at all. -/
theorem Cmd.Oblivious.of_eq {α : Type} {x : Cmd α} (h : ∀ s o e d k, x (s.port o e d k) = onState (fun t => t.port o e d k) (x s)) :
    x.Oblivious := fun s => ⟨[], fun o e d k => by simpa using h s o e d k⟩

theorem Cmd.Oblivious.pure {α : Type} (a : α) : (pure a : Cmd α).Oblivious := of_eq fun _ _ _ _ _ => rfl

theorem Cmd.Oblivious.raise {α : Type} (c : ErrCode) : (raise c : Cmd α).Oblivious := of_eq fun _ _ _ _ _ => rfl

theorem Cmd.Oblivious.broken {α : Type} : (broken : Cmd α).Oblivious := of_eq fun _ _ _ _ _ => rfl

theorem Cmd.Oblivious.assign {g : State → State} (h : ∀ s o e d k, g (s.port o e d k) = (g s).port o e d k) :
    (assign g).Oblivious := of_eq fun s o e d k => by simp [onState, h]

theorem Cmd.Oblivious.bind {α β : Type} {x : Cmd α} {f : α → Cmd β} (hx : x.Oblivious) (hf : ∀ a, (f a).Oblivious) :
    (x >>= f).Oblivious := by
  intro s
  obtain ⟨b, hb⟩ := hx s
  cases hxs : x s with
  | ok a t =>
    obtain ⟨c, hc⟩ := hf a t
    refine ⟨b ++ c, fun o e d k => ?_⟩
    have h := hb o e d k
    rw [hxs] at h
    rw [Cmd.bind_of_ok h, Cmd.bind_of_ok hxs, hc]
    congr
    funext u
    simp [List.drop_append, Nat.sub_sub]
  | error c t =>
    refine ⟨b, fun o e d k => ?_⟩
    have h := hb o e d k
    rw [hxs] at h
    rw [Cmd.bind_of_error h, Cmd.bind_of_error hxs]
    rfl

/-- Reading the state, where what is used of it is not the output side. -/
theorem Cmd.Oblivious.now {β : Type} {f : State → Cmd β} (h : ∀ s o e d k, f (s.port o e d k) = f s)
    (hf : ∀ s, (f s).Oblivious) : (now >>= f).Oblivious := by
  intro s
  obtain ⟨b, hb⟩ := hf s s
  refine ⟨b, fun o e d k => ?_⟩
  rw [Cmd.now_bind, Cmd.now_bind, h]
  exact hb o e d k

theorem Cmd.Oblivious.readBits (n : Nat) : (readBits n).Oblivious := of_eq fun s o e d k => by
  by_cases h : n ≤ s.inp.length
  · simp [Machine.readBits, State.port, onState, h]
  · cases hc : s.inClosed <;> simp [Machine.readBits, State.port, onState, h, hc]

theorem Cmd.Oblivious.writeBits (n v : Nat) : (writeBits n v).Oblivious :=
  fun s => ⟨bitsOfNat n v, fun o e d k => by simp [State.port, onState, State.emit]⟩

theorem Cmd.Oblivious.nodeAt (i : NodeIdx) : (nodeAt i).Oblivious := of_eq fun s o e d k => by
  simp only [Machine.nodeAt, State.port]
  cases s.nodes[i.toNat]? <;> rfl

theorem Cmd.Oblivious.alloc (n : Node) : (alloc n).Oblivious := of_eq fun s o e d k => by
  by_cases h : Config.maxNodes ≤ s.nodes.length <;> simp [Machine.alloc, State.port, onState, h]

theorem Cmd.Oblivious.enqueue (w : BitVec 32) (t : BitVec 16) : (enqueue w t).Oblivious := of_eq fun s o e d k => by
  by_cases h : Config.pqCap ≤ s.pq.length <;> simp [Machine.enqueue, State.port, onState, h]

theorem Cmd.Oblivious.dequeue : dequeue.Oblivious := of_eq fun s o e d k => by
  cases h : s.pq <;> simp [Machine.dequeue, State.port, onState, h]

theorem Cmd.Oblivious.freqInc (w : InWord) : (freqInc w).Oblivious := of_eq fun s o e d k => by
  by_cases h : s.freqAt w = BitVec.allOnes 32
  · have h' : (s.port o e d k).freqAt w = BitVec.allOnes 32 := h
    simp only [freqInc_overflow h, freqInc_overflow h', onState]
  · have h' : ¬ (s.port o e d k).freqAt w = BitVec.allOnes 32 := h
    simp only [Machine.freqInc, if_neg h, if_neg h', onState]
    rfl

theorem Cmd.Oblivious.countLoop (fuel : Nat) : (countLoop fuel).Oblivious := by
  induction fuel with
  | zero => exact .broken
  | succ n ih =>
    refine (Cmd.Oblivious.readBits _).bind fun a => ?_
    cases a with
    | none => exact .pure _
    | some w => exact (Cmd.Oblivious.freqInc _).bind fun _ => (Cmd.Oblivious.assign fun _ _ _ _ _ => rfl).bind fun _ => ih

theorem Cmd.Oblivious.countBody : countBody.Oblivious :=
  (Cmd.Oblivious.assign fun _ _ _ _ _ => rfl).bind fun _ => .now (fun _ _ _ _ _ => rfl) fun _ => .countLoop _

theorem Cmd.Oblivious.addLeaf (y : Sym) (w : BitVec 32) : (addLeaf y w).Oblivious :=
  (Cmd.Oblivious.alloc _).bind fun _ => .enqueue _ _

theorem Cmd.Oblivious.addLeaves (fs : List (InWord × BitVec 32)) : (addLeaves fs).Oblivious := by
  induction fs with
  | nil => exact .pure _
  | cons p fs ih =>
    obtain ⟨w, f⟩ := p
    by_cases hf : f = 0
    · simp only [Machine.addLeaves, hf, ne_eq, not_true_eq_false, if_false]; exact ih
    · simp only [Machine.addLeaves, hf, ne_eq, not_false_eq_true, if_true]; exact (Cmd.Oblivious.addLeaf _ _).bind fun _ => ih

theorem Cmd.Oblivious.mergeOnce : mergeOnce.Oblivious :=
  Cmd.Oblivious.dequeue.bind fun _ => Cmd.Oblivious.dequeue.bind fun _ => (Cmd.Oblivious.nodeAt _).bind fun _ =>
    (Cmd.Oblivious.nodeAt _).bind fun _ => (Cmd.Oblivious.alloc _).bind fun _ => .enqueue _ _

theorem Cmd.Oblivious.mergeLoop (fuel : Nat) : (mergeLoop fuel).Oblivious := by
  induction fuel with
  | zero => exact .broken
  | succ n ih =>
    refine .now (fun _ _ _ _ _ => rfl) fun s => ?_
    by_cases h : s.pq.length ≠ 1
    · simp only [h, if_true, ne_eq, not_false_eq_true]; exact Cmd.Oblivious.mergeOnce.bind fun _ => ih
    · simp only [h, if_false]; exact .pure _

theorem Cmd.Oblivious.sizeAccounting : sizeAccounting.Oblivious :=
  .now (fun _ _ _ _ _ => rfl) fun _ => (Cmd.Oblivious.nodeAt _).bind fun _ => .assign fun _ _ _ _ _ => rfl

theorem Cmd.Oblivious.buildBody : buildBody.Oblivious :=
  (Cmd.Oblivious.assign fun _ _ _ _ _ => rfl).bind fun _ => .now (fun _ _ _ _ _ => rfl) fun _ =>
    (Cmd.Oblivious.addLeaves _).bind fun _ => (Cmd.Oblivious.addLeaf _ _).bind fun _ =>
    (Cmd.Oblivious.mergeLoop _).bind fun _ => Cmd.Oblivious.dequeue.bind fun _ =>
    (Cmd.Oblivious.assign fun _ _ _ _ _ => rfl).bind fun _ => Cmd.Oblivious.sizeAccounting.bind fun _ =>
    .assign fun _ _ _ _ _ => rfl

theorem Cmd.Oblivious.walk (fuel : Nat) : ∀ i d v, (walk fuel i d v).Oblivious := by
  induction fuel with
  | zero => intro i d v; exact .broken
  | succ n ih =>
    intro i d v
    refine (Cmd.Oblivious.nodeAt _).bind fun nd => ?_
    cases nd with
    | leaf y w => exact .assign fun _ _ _ _ _ => rfl
    | int l r w => exact (ih _ _ _).bind fun _ => ih _ _ _

theorem Cmd.Oblivious.codegenBody : codegenBody.Oblivious :=
  (Cmd.Oblivious.assign fun _ _ _ _ _ => rfl).bind fun _ => .now (fun _ _ _ _ _ => rfl) fun _ =>
    (Cmd.Oblivious.walk _ _ _ _).bind fun _ => .assign fun _ _ _ _ _ => rfl

theorem Cmd.Oblivious.ser (fuel : Nat) : ∀ i, (ser fuel i).Oblivious := by
  induction fuel with
  | zero => intro i; exact .broken
  | succ n ih =>
    intro i
    refine (Cmd.Oblivious.nodeAt _).bind fun nd => ?_
    cases nd with
    | leaf y w => exact (Cmd.Oblivious.writeBits _ _).bind fun _ => (Cmd.Oblivious.writeBits _ _).bind fun _ => .pure _
    | int l r w =>
      exact (Cmd.Oblivious.writeBits _ _).bind fun _ => (ih _).bind fun _ => (ih _).bind fun _ => .pure _

theorem Cmd.Oblivious.serRoot : serRoot.Oblivious := .now (fun _ _ _ _ _ => rfl) fun _ => .ser _ _

theorem Cmd.Oblivious.parse (fuel : Nat) : (parse fuel).Oblivious := by
  induction fuel with
  | zero => exact .broken
  | succ n ih =>
    refine (Cmd.Oblivious.readBits _).bind fun a => ?_
    cases a with
    | none => exact .raise _
    | some b =>
      by_cases hb : b = 0
      · simp only [hb, if_true]
        exact (Cmd.Oblivious.alloc _).bind fun _ => ih.bind fun _ => ih.bind fun _ =>
          (Cmd.Oblivious.assign fun _ _ _ _ _ => rfl).bind fun _ => .pure _
      · simp only [hb, if_false]
        refine (Cmd.Oblivious.readBits _).bind fun a => ?_
        cases a with
        | none => exact .raise _
        | some v =>
          by_cases hv : v < 257
          · simp only [hv, dite_true]; exact .alloc _
          · simp only [hv, dite_false]; exact .raise _

theorem Cmd.Oblivious.parseTree : parseTree.Oblivious :=
  (Cmd.Oblivious.assign fun _ _ _ _ _ => rfl).bind fun _ => .now (fun _ _ _ _ _ => rfl) fun _ =>
    (Cmd.Oblivious.parse _).bind fun _ => .assign fun _ _ _ _ _ => rfl

theorem Cmd.Oblivious.writeCode (y : Sym) : (writeCode y).Oblivious := by
  refine .now (fun _ _ _ _ _ => rfl) fun s => ?_
  cases s.codeAt y with
  | none => exact .raise _
  | some c => exact (Cmd.Oblivious.writeBits _ _).bind fun _ => .pure _

theorem Cmd.Oblivious.encodeLoop (fuel : Nat) : ∀ n, (encodeLoop fuel n).Oblivious := by
  induction fuel with
  | zero => intro n; exact .broken
  | succ k ih =>
    intro n
    refine (Cmd.Oblivious.readBits _).bind fun a => ?_
    cases a with
    | none => exact .pure _
    | some w => exact (Cmd.Oblivious.writeCode _).bind fun _ => ih _

theorem Cmd.Oblivious.encodeBody : encodeBody.Oblivious :=
  .now (fun _ _ _ _ _ => rfl) fun _ => (Cmd.Oblivious.encodeLoop _ _).bind fun _ =>
    (Cmd.Oblivious.writeCode _).bind fun _ => .pure _

theorem Cmd.Oblivious.childOf (nd : Node) (b : Nat) : (childOf nd b).Oblivious := by
  cases nd with
  | leaf y w => exact .broken
  | int l r w => exact .pure _

theorem Cmd.Oblivious.decodeLoop (fuel : Nat) : ∀ i n, (decodeLoop fuel i n).Oblivious := by
  induction fuel with
  | zero => intro i n; exact .broken
  | succ k ih =>
    intro i n
    refine (Cmd.Oblivious.readBits _).bind fun a => ?_
    cases a with
    | none => exact .raise _
    | some b =>
      refine (Cmd.Oblivious.nodeAt _).bind fun here => (Cmd.Oblivious.childOf _ _).bind fun next =>
        (Cmd.Oblivious.nodeAt _).bind fun nd => ?_
      cases nd with
      | int l r w => exact ih _ _
      | leaf y w =>
        by_cases hy : y = Config.eof
        · simp only [hy, if_true]; exact .pure _
        · simp only [hy, if_false]
          exact (Cmd.Oblivious.writeBits _ _).bind fun _ => .now (fun _ _ _ _ _ => rfl) fun _ => ih _ _

theorem Cmd.Oblivious.decodeBody : decodeBody.Oblivious := by
  refine .now (fun _ _ _ _ _ => rfl) fun s => (Cmd.Oblivious.nodeAt _).bind fun nd => ?_
  cases nd with
  | int l r w => exact .decodeLoop _ _ _
  | leaf y w =>
    by_cases hy : y = Config.eof
    · simp only [hy, if_true]; exact .pure _
    · simp only [hy, if_false]; exact .raise _

theorem Cmd.Oblivious.readField : readField.Oblivious := by
  refine (Cmd.Oblivious.readBits _).bind fun a => ?_
  cases a with
  | none => exact .raise _
  | some v => exact .pure _

theorem Cmd.Oblivious.readCounts (ws : List InWord) : (readCounts ws).Oblivious := by
  induction ws with
  | nil => exact .pure _
  | cons w ws ih =>
    exact Cmd.Oblivious.readField.bind fun _ => (Cmd.Oblivious.assign fun _ _ _ _ _ => rfl).bind fun _ => ih

theorem Cmd.Oblivious.writeCounts (cs : List (BitVec 32)) : (writeCounts cs).Oblivious := by
  induction cs with
  | nil => exact .pure _
  | cons c cs ih => exact (Cmd.Oblivious.writeBits _ _).bind fun _ => ih

theorem Cmd.Oblivious.readStf : readStf.Oblivious :=
  Cmd.Oblivious.readField.bind fun _ => (Cmd.Oblivious.assign fun _ _ _ _ _ => rfl).bind fun _ =>
    Cmd.Oblivious.parseTree.bind fun _ => .assign fun _ _ _ _ _ => rfl

theorem Cmd.Oblivious.readHeader (p : StreamParams) : (readHeader p).Oblivious := by
  refine Cmd.Oblivious.readField.bind fun m => ?_
  by_cases hm : m ≠ p.magic
  · simp only [hm, if_true, ne_eq, not_false_eq_true]; exact .raise _
  · simp only [hm, if_false]
    refine Cmd.Oblivious.readField.bind fun t => ?_
    by_cases h1 : t = p.tagScf
    · simp only [h1, if_true]
      exact (Cmd.Oblivious.readCounts _).bind fun _ => Cmd.Oblivious.buildBody.bind fun _ => .assign fun _ _ _ _ _ => rfl
    · by_cases h2 : t = p.tagStf
      · simp only [h2, if_true]
        have : p.tagStf ≠ p.tagScf := h2 ▸ h1
        simp only [this, if_false]
        exact Cmd.Oblivious.readStf.bind fun _ => .assign fun _ _ _ _ _ => rfl
      · simp only [h1, if_false, h2]
        exact (Cmd.Oblivious.raise _).bind fun _ => .assign fun _ _ _ _ _ => rfl

theorem Cmd.Oblivious.decompressBody (p : StreamParams) : (decompressBody p).Oblivious :=
  (Cmd.Oblivious.readHeader p).bind fun _ => Cmd.Oblivious.decodeBody.bind fun _ => .pure _

theorem Cmd.Oblivious.prepassBody (f : Fmt) : (prepassBody f).Oblivious :=
  Cmd.Oblivious.countBody.bind fun _ => Cmd.Oblivious.buildBody.bind fun _ => Cmd.Oblivious.codegenBody.bind fun _ =>
    .now (fun _ _ _ _ _ => rfl) fun _ => (Cmd.Oblivious.assign fun _ _ _ _ _ => rfl).bind fun _ => .pure _

theorem Cmd.Oblivious.writeHeader (p : StreamParams) : (writeHeader p).Oblivious := by
  refine .now (fun _ _ _ _ _ => rfl) fun s => ?_
  cases s.fmt with
  | scf => exact (Cmd.Oblivious.writeBits _ _).bind fun _ => .writeCounts _
  | stf =>
    exact (Cmd.Oblivious.writeBits _ _).bind fun _ => (Cmd.Oblivious.writeBits _ _).bind fun _ =>
      Cmd.Oblivious.serRoot.bind fun _ => .pure _

theorem Cmd.Oblivious.commitBody (p : StreamParams) (force : Bool) : (commitBody p force).Oblivious := by
  refine .now (fun _ _ _ _ _ => rfl) fun s => ?_
  by_cases h : (!force && decide (s.saved.toInt ≤ 0)) = true
  · simp only [h, if_true]
    exact (Cmd.Oblivious.assign fun _ _ _ _ _ => rfl).bind fun _ => .pure _
  · simp only [h]
    exact (Cmd.Oblivious.writeBits _ _).bind fun _ => (Cmd.Oblivious.writeHeader p).bind fun _ =>
      Cmd.Oblivious.encodeBody.bind fun _ => .now (fun _ _ _ _ _ => rfl) fun _ => .pure _

end Sys2Proof.Machine
end

