-- ==== Sys2Proof/Laws/Parsing.lean ====
section
/-! SUPPORT. Everything Parse() can do (42_serdes.md R194 to R198): it reads a serialized tree that fits, or it ends with
TRUNCATED, BAD_SYMBOL or TREE_OVERFLOW, or it waits on an open input; it never meets a broken memory. -/

namespace Sys2Proof.Machine

theorem bits_split {s : Bits} {n : Nat} (h : n ≤ s.length) : ∃ b r, s = b ++ r ∧ b.length = n :=
  ⟨s.take n, s.drop n, (List.take_append_drop n s).symm, by simp [h]⟩

theorem alloc_cases (nd : Node) (s : State) :
    (s.nodes.length < 513 ∧
      alloc nd s = .ok (BitVec.ofNat 10 s.nodes.length) { s with nodes := s.nodes ++ [nd] }) ∨
    (513 ≤ s.nodes.length ∧ alloc nd s = .error (.raise .treeOverflow) s) := by
  by_cases h : Config.maxNodes ≤ s.nodes.length
  · exact .inr ⟨h, by simp [alloc, h]⟩
  · exact .inl ⟨by simpa [Config.maxNodes] using h, by simp [alloc, h]⟩

/-- What a run of Parse() comes to. -/
inductive ParseEnd (s : State) : EStateM.Result Stop State NodeIdx → Prop where
  /-- It read a tree and allocated its records in preorder. -/
  | tree (t : Tree) (rest : Bits) (u : State) (hin : s.inp = t.bits ++ rest) (hcap : s.nodes.length + t.size ≤ 513)
      (hu : Streamed s u t.bits.length rest []) :
      ParseEnd s (.ok (BitVec.ofNat 10 s.nodes.length) { u with nodes := s.nodes ++ t.records s.nodes.length })
  /-- It ended with an error of the stream, or stopped to wait; the records there were are still there. -/
  | stop (e : Stop) (u : State) (more : List Node) (n : Nat) (taken rest : Bits) (hin : s.inp = taken ++ rest)
      (he : e = .raise .truncated ∧ s.inClosed = true ∨ e = .raise .badSymbol ∨ e = .raise .treeOverflow ∨
        e = .wait ∧ s.inClosed = false)
      (hn : taken.length = n) (hcap : s.nodes.length + more.length ≤ 513) (hu : Streamed s u n rest []) :
      ParseEnd s (.error e { u with nodes := s.nodes ++ more })

theorem ParseEnd.stop_here {s u : State} {e : Stop} {n : Nat} {taken rest : Bits} (hin : s.inp = taken ++ rest)
    (he : e = .raise .truncated ∧ s.inClosed = true ∨ e = .raise .badSymbol ∨ e = .raise .treeOverflow ∨
      e = .wait ∧ s.inClosed = false)
    (hn : taken.length = n) (hcap : s.nodes.length ≤ 513) (hu : Streamed s u n rest []) : ParseEnd s (.error e u) := by
  have := ParseEnd.stop e u [] n taken rest hin he hn (by simpa using hcap) hu
  have hnu := hu.nodes
  rwa [List.append_nil, ← hnu] at this

/-- Parse() from a node memory with room, with fuel enough. -/
theorem parse_ends : ∀ (fuel : Nat) (s : State), 514 ≤ fuel + s.nodes.length → s.nodes.length ≤ 513 →
    ParseEnd s (parse fuel s) := by
  intro fuel
  induction fuel with
  | zero => intro s h1 h2; omega
  | succ k ih =>
    intro s hf hcap
    rw [parse]
    rcases readBits_cases 1 s with ⟨hlen, hr⟩ | ⟨hlen, hc, hr⟩ | ⟨hlen, hc, hr⟩
    · obtain ⟨b, r, hs, hb⟩ := bits_split hlen
      obtain ⟨x, rfl⟩ : ∃ x, b = [x] := List.length_eq_one_iff.mp hb
      obtain ⟨u, hu, h1⟩ := readBits_streamed (n := 1) (b := [x]) (s := s) hs rfl
      rw [Cmd.bind_of_ok hu]
      have hnu := h1.nodes
      cases x with
      | false =>
        have e : natOfBits [false] = 0 := by decide
        simp only [e, if_true]
        rcases alloc_cases (.int Config.nil Config.nil 0) u with ⟨hroom, ha⟩ | ⟨hfull, ha⟩
        · rw [Cmd.bind_of_ok ha]
          obtain ⟨i1, o1, rfl, hi1, ho1⟩ := h1
          have hl := ih _ (show 514 ≤ k + ({ s with
              inp := r, inBits := i1, out := s.out ++ ([] : Bits).drop s.outEarly
              outEarly := s.outEarly - ([] : Bits).length, outBits := o1
              nodes := s.nodes ++ [.int Config.nil Config.nil 0] } : State).nodes.length by simp; omega)
            (by simp; simp at hroom; omega)
          simp only at hl hroom ⊢
          generalize hrl : parse k _ = resl at hl ⊢
          cases hl with
          | tree tl restl ul hinl hcapl hul =>
            rw [Cmd.bind_of_ok hrl]
            simp only at hinl hcapl
            obtain ⟨i2, o2, rfl, hi2, ho2⟩ := hul
            have hr' := ih _ (show 514 ≤ k + ({ s with
                inp := restl, inBits := i2, out := s.out ++ ([] : Bits).drop s.outEarly
                outEarly := s.outEarly - ([] : Bits).length, outBits := o2
                nodes := (s.nodes ++ [.int Config.nil Config.nil 0]) ++ tl.records (s.nodes.length + 1) }
                : State).nodes.length by simp; omega)
              (by simp at hcapl ⊢; omega)
            simp only [List.length_append, List.length_singleton, List.drop_nil, List.append_nil, List.length_nil,
              Nat.sub_zero] at hr' ⊢
            generalize hrr : parse k _ = resr at hr' ⊢
            cases hr' with
            | tree tr restr ur hinr hcapr hur =>
              have hrr' : parse k _ = _ := hrr
              rw [Cmd.bind_of_ok hrr']
              obtain ⟨i3, o3, rfl, hi3, ho3⟩ := hur
              simp only at hinr hcapr
              have hidx : (BitVec.ofNat 10 s.nodes.length).toNat = s.nodes.length := by
                rw [BitVec.toNat_ofNat]; exact Nat.mod_eq_of_lt (by omega)
              have := ParseEnd.tree (s := s) (.node tl tr) restr
                { s with inp := restr, inBits := i3, outBits := o3 }
                (by rw [hs, hinl, hinr]; simp [Tree.bits])
                (by simp [Tree.size] at hcapl hcapr ⊢; omega)
                ⟨i3, o3, by simp, ((hi1.step hi2).step hi3).of_eq (by simp [Tree.bits]; omega),
                  ((ho1.step ho2).step ho3).of_eq (by simp)⟩
              simpa [setNode, hidx, Tree.records, Nat.add_assoc, Nat.add_comm 1 tl.size] using this
            | stop e ur more n taken rest hinr he hn hcapr hur =>
              have hrr' : parse k _ = _ := hrr
              rw [Cmd.bind_of_error hrr']
              obtain ⟨i3, o3, rfl, hi3, ho3⟩ := hur
              simp only at hinr he hcapr
              have := ParseEnd.stop (s := s) e { s with inp := rest, inBits := i3, outBits := o3 }
                (.int Config.nil Config.nil 0 :: (tl.records (s.nodes.length + 1) ++ more))
                (1 + (tl.bits.length + n)) (false :: (tl.bits ++ taken)) rest
                (by rw [hs, hinl, hinr]; simp) he (by simp [hn]; omega)
                (by simp at hcapr ⊢; omega)
                ⟨i3, o3, by simp, ((hi1.step hi2).step hi3).of_eq (by omega), ((ho1.step ho2).step ho3).of_eq (by simp)⟩
              simpa using this
          | stop e ul more n taken rest hinl he hn hcapl hul =>
            rw [Cmd.bind_of_error hrl]
            obtain ⟨i2, o2, rfl, hi2, ho2⟩ := hul
            simp only at hinl he hcapl
            have := ParseEnd.stop (s := s) e { s with inp := rest, inBits := i2, outBits := o2 }
              (.int Config.nil Config.nil 0 :: more) (1 + n) (false :: taken) rest
              (by rw [hs, hinl]; simp) he (by simp [hn]; omega)
              (by simp at hcapl ⊢; omega)
              ⟨i2, o2, by simp, (hi1.step hi2).of_eq (by omega), (ho1.step ho2).of_eq (by simp)⟩
            simpa using this
        · rw [Cmd.bind_of_error ha]
          exact ParseEnd.stop_here hs (.inr (.inr (.inl rfl))) rfl hcap h1
      | true =>
        have e : natOfBits [true] ≠ 0 := by decide
        simp only [e, if_false]
        rcases readBits_cases 9 u with ⟨hlen9, hr9⟩ | ⟨hlen9, hc9, hr9⟩ | ⟨hlen9, hc9, hr9⟩
        · obtain ⟨b9, r9, hs9, hb9⟩ := bits_split hlen9
          obtain ⟨v, hv, h2⟩ := readBits_streamed (n := 9) (s := u) hs9 hb9
          rw [Cmd.bind_of_ok (show readBits Config.symBits u = _ from hv)]
          have h12 := h1.trans h2
          have hr : r = b9 ++ r9 := by rw [← h1.inp, hs9]
          by_cases hsym : natOfBits b9 < 257
          · simp only [hsym, dite_true]
            rcases alloc_cases (.leaf ⟨natOfBits b9, hsym⟩ 0) v with ⟨hroom, ha⟩ | ⟨hfull, ha⟩
            · rw [ha, h12.nodes]
              rw [h12.nodes] at hroom
              have hb : bitsOfNat 9 (natOfBits b9) = b9 := by rw [← hb9]; exact bitsOfNat_natOfBits b9
              exact ParseEnd.tree (s := s) (.leaf ⟨natOfBits b9, hsym⟩) r9 v
                (by rw [hs, hr]; simp [Tree.bits, hb]) (by simp [Tree.size]; omega)
                (by simpa [Tree.bits, Nat.add_comm] using h12)
            · rw [ha]
              exact ParseEnd.stop_here (taken := [true] ++ b9) (by rw [hs, hr]; simp)
                (.inr (.inr (.inl rfl))) (by simp [hb9]) hcap h12
          · simp only [hsym, dite_false, raise_apply]
            exact ParseEnd.stop_here (taken := [true] ++ b9) (by rw [hs, hr]; simp)
              (.inr (.inl rfl)) (by simp [hb9]) hcap h12
        · rw [Cmd.bind_of_ok (show readBits Config.symBits u = _ from hr9)]
          exact ParseEnd.stop_here hs (.inl ⟨rfl, by rw [← h1.inClosed]; exact hc9⟩) rfl hcap h1
        · rw [Cmd.bind_of_error (show readBits Config.symBits u = _ from hr9)]
          exact ParseEnd.stop_here hs (.inr (.inr (.inr ⟨rfl, by rw [← h1.inClosed]; exact hc9⟩))) rfl hcap h1
    · rw [Cmd.bind_of_ok hr]
      exact ParseEnd.stop_here (taken := []) rfl (.inl ⟨rfl, hc⟩) rfl hcap (Streamed.refl s)
    · rw [Cmd.bind_of_error hr]
      exact ParseEnd.stop_here (taken := []) rfl (.inr (.inr (.inr ⟨rfl, hc⟩))) rfl hcap (Streamed.refl s)

@[simp] theorem Cut.records_length (c : Cut) : ∀ k, (c.records k).length = c.size := by
  induction c with
  | here => intro k; rfl
  | left c ih => intro k; simp [Cut.records, Cut.size, ih]
  | right l c ih => intro k; simp [Cut.records, Cut.size, ih]

theorem Cut.bits_length (c : Cut) : c.bits.length ≤ 10 * c.size := by
  induction c with
  | here => exact Nat.le_refl 0
  | left c ih => simp [Cut.bits, Cut.size]; omega
  | right l c ih =>
    have := l.bits_length
    have := l.size_leaves
    simp [Cut.bits, Cut.size]; omega

theorem CutEnd.taken_le {closed : Bool} {c : Cut} {b rest : Bits} {e : ErrCode} {n : Nat} (h : CutEnd closed c b e n rest) :
    n ≤ 10 := by cases h <;> omega

/-- Parse() up to a place inside a tree: it has read the bits and allocated the records before the place, and an error
of the parse of what stands there is its error (42_serdes.md R194, R195). -/
theorem parse_upto (c : Cut) : ∀ (fuel : Nat) (s : State) (b : Bits), s.inp = c.bits ++ b →
    s.nodes.length + c.size ≤ 513 → 514 ≤ fuel + s.nodes.length →
    ∃ u k, Streamed s u c.bits.length b [] ∧ 514 ≤ k + (s.nodes.length + c.size) ∧
      ∀ e v, parse k { u with nodes := s.nodes ++ c.records s.nodes.length } = .error e v → parse fuel s = .error e v := by
  have opened : ∀ (fuel : Nat) (s : State) (b : Bits), s.inp = false :: b → s.nodes.length + 1 ≤ 513 →
      514 ≤ fuel + s.nodes.length → ∃ u k, Streamed s u 1 b [] ∧ 514 ≤ k + (s.nodes.length + 1) ∧
        parse fuel s = ((do
          let l ← parse k
          let r ← parse k
          setNode (BitVec.ofNat 10 s.nodes.length) (.int l r 0)
          return BitVec.ofNat 10 s.nodes.length) : Cmd NodeIdx)
            { u with nodes := s.nodes ++ [.int Config.nil Config.nil 0] } := by
    intro fuel s b hin hcap hf
    obtain ⟨k, rfl⟩ : ∃ k, fuel = k + 1 := ⟨fuel - 1, by omega⟩
    obtain ⟨u, hu, h1⟩ := readBits_streamed (n := 1) (b := [false]) (s := s) hin rfl
    have e0 : natOfBits [false] = 0 := by decide
    refine ⟨u, k, h1, by omega, ?_⟩
    rw [parse, Cmd.bind_of_ok hu]
    simp only [e0, if_true]
    rw [← h1.nodes]
    exact Cmd.bind_of_ok (if_neg (by rw [h1.nodes]; simp only [Config.maxNodes]; omega))
  induction c with
  | here =>
    intro fuel s b hin _ hf
    have hin : s.inp = b := hin
    exact ⟨s, fuel, Streamed.refl_of hin, by simpa [Cut.size] using hf, fun e v h => by simpa [Cut.records] using h⟩
  | left c ih =>
    intro fuel s b hin hcap hf
    simp only [Cut.size] at hcap
    obtain ⟨u, k, h1, hk, hp⟩ := opened fuel s (c.bits ++ b) hin (by omega) hf
    obtain ⟨w, m, h2, hm, hw⟩ := ih k { u with nodes := s.nodes ++ [.int Config.nil Config.nil 0] } b h1.inp
      (by simp; omega) (by simp; omega)
    obtain ⟨i1, o1, rfl, hi1, ho1⟩ := h1
    obtain ⟨i2, o2, rfl, hi2, ho2⟩ := h2
    refine ⟨{ s with inp := b, inBits := i2, outBits := o2 }, m,
      ⟨i2, o2, by simp, (hi1.step hi2).of_eq (by simp [Cut.bits]; omega), (ho1.step ho2).of_eq (by simp)⟩,
      by simp [Cut.size] at hm ⊢; omega, fun e v h => ?_⟩
    rw [hp]
    exact Cmd.bind_of_error (hw e v (by simpa [Cut.records] using h))
  | right l c ih =>
    intro fuel s b hin hcap hf
    simp only [Cut.size] at hcap
    obtain ⟨u, k, h1, hk, hp⟩ := opened fuel s (l.bits ++ (c.bits ++ b)) (by simpa [Cut.bits] using hin) (by omega) hf
    obtain ⟨x, hx, h2⟩ := parse_spec l k { u with nodes := s.nodes ++ [.int Config.nil Config.nil 0] } (c.bits ++ b) h1.inp
      (by simp; omega) (by simp; omega)
    obtain ⟨w, m, h3, hm, hw⟩ := ih k
      { x with nodes := s.nodes ++ [.int Config.nil Config.nil 0] ++ l.records (s.nodes.length + 1) } b h2.inp
      (by simp; omega) (by simp; omega)
    obtain ⟨i1, o1, rfl, hi1, ho1⟩ := h1
    obtain ⟨i2, o2, rfl, hi2, ho2⟩ := h2
    obtain ⟨i3, o3, rfl, hi3, ho3⟩ := h3
    refine ⟨{ s with inp := b, inBits := i3, outBits := o3 }, m,
      ⟨i3, o3, by simp, ((hi1.step hi2).step hi3).of_eq (by simp [Cut.bits]; omega),
        ((ho1.step ho2).step ho3).of_eq (by simp)⟩,
      by simp [Cut.size] at hm ⊢; omega, fun e v h => ?_⟩
    rw [hp]
    refine (Cmd.bind_of_ok (by simpa using hx)).trans (Cmd.bind_of_error (hw e v ?_))
    simpa [Cut.records, Nat.add_assoc, Nat.add_comm 1 l.size] using h

/-- A leaf's tag and nine symbol bits, read (42_serdes.md R194). -/
theorem parse_leafBits {fuel v : Nat} {s : State} {rest : Bits} (hv : v < 512)
    (hin : s.inp = true :: (bitsOfNat 9 v ++ rest)) :
    ∃ u, Streamed s u 10 rest [] ∧
      parse (fuel + 1) s = (if h : v < 257 then alloc (.leaf ⟨v, h⟩ 0) else raise .badSymbol : Cmd NodeIdx) u := by
  obtain ⟨u, hu, h1⟩ := readBits_streamed (n := 1) (b := [true]) (s := s) hin rfl
  obtain ⟨w, hw, h2⟩ := readBits_streamed (n := Config.symBits) (b := bitsOfNat 9 v) (s := u) h1.inp (by simp [Config.symBits])
  refine ⟨w, h1.trans h2, ?_⟩
  have e1 : natOfBits [true] ≠ 0 := by decide
  rw [natOfBits_bitsOfNat_of_lt (by omega)] at hw
  rw [parse, Cmd.bind_of_ok hu]
  simp only [e1, if_false]
  rw [Cmd.bind_of_ok hw]

/-- Everything a parse into an empty node memory leaves when it ends with an error (42_serdes.md R194 to R198). -/
theorem parse_cutEnd {c : Cut} {s : State} {b rest : Bits} {e : ErrCode} {n : Nat} (hs : s.nodes = [])
    (hend : CutEnd s.inClosed c b e n rest) (hin : s.inp = c.bits ++ b) (hcap : c.size ≤ 513) :
    ∃ u, Streamed s u (c.bits.length + n) rest [] ∧
      parse 514 s = .error (.raise e) { u with nodes := c.records 0 } := by
  obtain ⟨u, k, h1, hk, hp⟩ := parse_upto c 514 s b hin (by simpa [hs] using hcap) (by simp)
  simp only [hs, List.length_nil, List.nil_append, Nat.zero_add] at hk hp
  obtain ⟨k, rfl⟩ : ∃ j, k = j + 1 := ⟨k - 1, by omega⟩
  have full : ∀ (nd : Node) (v : State), v.nodes = c.records 0 → c.size = 513 → alloc nd v = .error (.raise .treeOverflow) v :=
    fun nd v hv hc => if_pos (by rw [hv, Cut.records_length, hc]; decide)
  have e1 : natOfBits [true] ≠ 0 := by decide
  have e0 : natOfBits [false] = 0 := by decide
  have here : ∃ w, Streamed { u with nodes := c.records 0 } w n rest [] ∧
      parse (k + 1) { u with nodes := c.records 0 } = .error (.raise e) w := by
    cases hend with
    | noTag hc =>
      refine ⟨{ u with nodes := c.records 0 }, Streamed.refl_of h1.inp, ?_⟩
      rw [parse, Cmd.bind_of_ok (readBits_eoi (s := { u with nodes := c.records 0 }) (n := 1) (by simp [h1.inp])
        (h1.inClosed.trans hc))]
      rfl
    | noSymbol hc _ hr =>
      obtain ⟨v, hv, h2⟩ := readBits_streamed (n := 1) (b := [true]) (s := { u with nodes := c.records 0 }) h1.inp rfl
      refine ⟨v, h2, ?_⟩
      rw [parse, Cmd.bind_of_ok hv]
      simp only [e1, if_false]
      rw [Cmd.bind_of_ok (readBits_eoi (by rw [h2.inp]; exact hr) (by rw [h2.inClosed]; exact h1.inClosed.trans hc))]; rfl
    | badSymbol v h3 h4 _ =>
      obtain ⟨w, h2, hw⟩ := parse_leafBits (fuel := k) (s := { u with nodes := c.records 0 }) h4 h1.inp
      exact ⟨w, h2, by rw [hw, dif_neg (by omega)]; rfl⟩
    | noInt hc _ =>
      obtain ⟨v, hv, h2⟩ := readBits_streamed (n := 1) (b := [false]) (s := { u with nodes := c.records 0 }) h1.inp rfl
      refine ⟨v, h2, ?_⟩
      rw [parse, Cmd.bind_of_ok hv]
      simp only [e0, if_true]
      exact Cmd.bind_of_error (full _ v h2.nodes hc)
    | noLeaf hc v hv _ =>
      obtain ⟨w, h2, hw⟩ := parse_leafBits (fuel := k) (s := { u with nodes := c.records 0 }) (by omega) h1.inp
      exact ⟨w, h2, by rw [hw, dif_pos (by omega)]; exact full _ w h2.nodes hc⟩
  obtain ⟨w, ⟨i2, o2, rfl, hi2, ho2⟩, hw⟩ := here
  obtain ⟨i1, o1, rfl, hi1, ho1⟩ := h1
  refine ⟨{ s with inp := rest, inBits := i2, outBits := o2 },
    ⟨i2, o2, by simp, (hi1.step hi2).of_eq (by omega), (ho1.step ho2).of_eq (by simp)⟩, ?_⟩
  simpa using hp _ _ hw

/-- Every bit string starts with a tree of at most `m` nodes, or breaks off or goes wrong at a place inside one
(42_serdes.md R194 to R198). -/
theorem tree_or_cut (m : Nat) : ∀ b : Bits,
    (∃ (t : Tree) (rest : Bits), t.size ≤ m ∧ b = t.bits ++ rest) ∨
    ∃ (c : Cut) (x : Bits), c.size ≤ m ∧ b = c.bits ++ x ∧
      (x = [] ∨ (∃ r : Bits, x = true :: r ∧ r.length < 9) ∨
        (∃ (v : Nat) (r : Bits), 256 < v ∧ v < 512 ∧ x = true :: (bitsOfNat 9 v ++ r)) ∨
        (c.size = m ∧ ((∃ r : Bits, x = false :: r) ∨ ∃ (v : Nat) (r : Bits), v ≤ 256 ∧ x = true :: (bitsOfNat 9 v ++ r)))) := by
  induction m using Nat.strong_induction_on with
  | _ m ih =>
    intro b
    match b with
    | [] => exact .inr ⟨.here, [], Nat.zero_le _, rfl, .inl rfl⟩
    | true :: r =>
      by_cases hr : r.length < 9
      · exact .inr ⟨.here, true :: r, Nat.zero_le _, rfl, .inr (.inl ⟨r, rfl, hr⟩)⟩
      obtain ⟨y, q, rfl, hy⟩ := bits_split (n := 9) (s := r) (by omega)
      have hv := natOfBits_lt y
      have hb : bitsOfNat 9 (natOfBits y) = y := by rw [← hy]; exact bitsOfNat_natOfBits y
      rw [hy] at hv
      by_cases h1 : 256 < natOfBits y
      · exact .inr ⟨.here, _, Nat.zero_le _, rfl, .inr (.inr (.inl ⟨natOfBits y, q, h1, by omega, by rw [hb]⟩))⟩
      by_cases hm : m = 0
      · exact .inr ⟨.here, _, Nat.zero_le _, rfl, .inr (.inr (.inr ⟨hm.symm, .inr ⟨natOfBits y, q, by omega, by rw [hb]⟩⟩))⟩
      · exact .inl ⟨.leaf ⟨natOfBits y, by omega⟩, q, by simp [Tree.size]; omega, by simp [Tree.bits, hb]⟩
    | false :: r =>
      by_cases hm : m = 0
      · exact .inr ⟨.here, _, Nat.zero_le _, rfl, .inr (.inr (.inr ⟨hm.symm, .inl ⟨r, rfl⟩⟩))⟩
      rcases ih (m - 1) (by omega) r with ⟨l, q, hl, rfl⟩ | ⟨c, x, hc, rfl, hx⟩
      · rcases ih (m - 1 - l.size) (by omega) q with ⟨t, p, ht, rfl⟩ | ⟨c, x, hc, rfl, hx⟩
        · exact .inl ⟨.node l t, p, by simp [Tree.size]; omega, by simp [Tree.bits]⟩
        · refine .inr ⟨.right l c, x, by simp [Cut.size]; omega, by simp [Cut.bits], ?_⟩
          exact hx.imp id (Or.imp id (Or.imp id fun h => ⟨by simp [Cut.size]; omega, h.2⟩))
      · refine .inr ⟨.left c, x, by simp [Cut.size]; omega, by simp [Cut.bits], ?_⟩
        exact hx.imp id (Or.imp id (Or.imp id fun h => ⟨by simp [Cut.size]; omega, h.2⟩))

/-- Parsing a whole tree into an empty node memory, with ROOT and TREE_BITS (42_serdes.md R195, R197). -/
theorem parseTree_spec {t : Tree} {s : State} {rest : Bits} (hib : s.inBits.toNat < 2 ^ 63)
    (hin : s.inp = t.bits ++ rest) (hsz : t.size ≤ 513) :
    ∃ u, Streamed s u t.bits.length rest [] ∧
      parseTree s =
        .ok () { u with nodes := t.records 0, root := 0, treeBits := BitVec.ofNat 32 t.bits.length } := by
  have h1 := t.bits_length
  have h2 := t.size_leaves
  obtain ⟨u, hp, ib, ob, rfl, hi, ho⟩ := parse_spec t 514 { s with nodes := [] } rest hin (by simp) (by simpa using hsz)
  refine ⟨{ s with inp := rest, inBits := ib, outBits := ob }, ⟨ib, ob, by simp, hi, ho⟩, ?_⟩
  have hi' : ib.toNat = s.inBits.toNat + t.bits.length := hi.toNat (by simp; omega)
  show (parse 514 >>= _) { s with nodes := [] } = _
  rw [Cmd.bind_of_ok hp]
  simp [hi']

/-- An error of the parse is the error of the whole (42_serdes.md R197). -/
theorem parseTree_error {s u : State} {e : Stop} {n : Nat} {rest : Bits} {ns : List Node}
    (hp : parse 514 { s with nodes := [] } = .error e { u with nodes := ns })
    (hu : Streamed { s with nodes := [] } u n rest []) :
    ∃ v, Streamed s v n rest [] ∧ parseTree s = .error e { v with nodes := ns } := by
  obtain ⟨ib, ob, rfl, hi, ho⟩ := hu
  refine ⟨{ s with inp := rest, inBits := ib, outBits := ob }, ⟨ib, ob, by simp, hi, ho⟩, ?_⟩
  show (parse 514 >>= _) { s with nodes := [] } = _
  rw [Cmd.bind_of_error hp]
  simp

end Sys2Proof.Machine
end

