-- ==== Sys2Proof/Laws/Pipelines.lean ====
section
/-! SUPPORT. The parts of PREPASS, COMMIT and DECOMPRESS: counting, the estimate, the header's fields and tables, and
the checks of a stream (44_pipeline.md R231 to R245). -/

namespace Sys2Proof.Machine

/-- COUNT's body over a closed input (41_tree.md R161). -/
theorem countBody_spec {xs : List InWord} {s : State} {rest : Bits} (hin : s.inp = wordBits xs ++ rest)
    (hr : rest.length < 8) (hc : s.inClosed = true) (hcnt : ∀ w, xs.count w < 2 ^ 32) :
    ∃ u fq, countBody s = .ok () { u with freq := fq, inwords := BitVec.ofNat 64 xs.length } ∧
      Streamed s u (8 * xs.length) rest [] ∧ ∀ w : InWord, (fq.get w.toFin).toNat = xs.count w := by
  have hlt := length_lt_of_counts hcnt
  have hlen : s.inp.length = 8 * xs.length + rest.length := by simp [hin]
  obtain ⟨t, fq, hrun, ⟨ib, ob, rfl, hi, ho⟩, hfq⟩ := countLoop_spec xs (s.inp.length + 1)
    { s with freq := Table.fill (BitVec 32) 256 0, inwords := 0 } rest hin hr hc (by omega)
    (by intro w; simpa [State.freqAt] using hcnt w) (by simp; omega)
  refine ⟨{ s with inp := rest, inBits := ib, outBits := ob }, fq, ?_, ⟨ib, ob, by simp, hi, ho⟩, ?_⟩
  · rw [countBody, Cmd.assign_bind, Cmd.now_bind]
    refine hrun.trans ?_
    simp
  · intro w
    have := hfq w
    simpa [State.freqAt] using this

/-- The body of COUNT where a count would pass 2^32 - 1 (41_tree.md R162). -/
theorem countBody_overflow {xs : List InWord} {w : InWord} {s : State} {rest : Bits}
    (hin : s.inp = wordBits xs ++ (bitsOfNat 8 w.toNat ++ rest)) (hcnt : ∀ v, xs.count v < 2 ^ 32)
    (hmax : xs.count w = 2 ^ 32 - 1) :
    ∃ ib fq, countBody s = .error (.raise .countOverflow)
        { s with inp := rest, inBits := ib, freq := fq, inwords := BitVec.ofNat 64 xs.length } ∧
      Holds64 ib (s.inBits.toNat + (8 * xs.length + 8)) ∧ ∀ v : InWord, (fq.get v.toFin).toNat = xs.count v := by
  have hl := length_lt_of_counts hcnt
  obtain ⟨z, hz⟩ : ∃ z : State, z = { s with freq := Table.fill (BitVec 32) 256 0, inwords := 0 } := ⟨_, rfl⟩
  have hz0 : ∀ v, z.freqAt v = 0 := fun v => by rw [hz]; exact Table.get_fill _ _
  have hzi : z.inp = s.inp := by rw [hz]
  obtain ⟨u, fq, hx, hu, hf⟩ := countLoop_overflow xs w (s.inp.length + 1) z rest (hzi.trans hin)
    (by rw [hin]; simp; omega) (fun v => by rw [hz0]; simpa using hcnt v) (by rw [hz]; simp; omega)
    (by rw [hz0]; simpa using hmax)
  obtain ⟨hu1, hu2⟩ := hu.read_only
  refine ⟨u.inBits, fq, ?_, by simpa [hz] using hu2, fun v => by rw [hf, hz0]; simp⟩
  have : countBody s = countLoop (s.inp.length + 1) z := by rw [hz]; rfl
  rw [this, hx, hu1, hz]
  simp

/-- The leaves of the tree of a counted input: its words and the sentinel (41_tree.md R163). -/
theorem mem_leafList {s : State} {y : Sym} :
    y ∈ s.leafList.map Prod.fst ↔ y = Config.eof ∨ ∃ w : InWord, symOfWord w = y ∧ s.freqAt w ≠ 0 := by
  have hzip : ∀ w f, (w, f) ∈ s.frequencies ↔ s.freqAt w = f := by
    intro w f
    have hget : ∀ i (h : i < 256), s.frequencies[i]? =
        some (BitVec.ofNat 8 i, s.freq.rows[i]'(s.freq.size.symm ▸ h)) := by
      intro i h
      have h1 : i < s.freq.rows.length := s.freq.size.symm ▸ h
      rw [State.frequencies, List.getElem?_zip_eq_some]
      refine ⟨?_, List.getElem?_eq_getElem h1⟩
      simp [ordinarySymbols, Config.alphabet, h]
    constructor
    · intro hm
      obtain ⟨i, hi, he⟩ := List.getElem_of_mem hm
      have hi' : i < 256 := by
        simp only [State.frequencies, List.length_zip, ordinarySymbols_length, s.freq.size] at hi
        omega
      have := hget i hi'
      rw [List.getElem?_eq_getElem hi, he] at this
      simp only [Option.some.injEq, Prod.mk.injEq] at this
      obtain ⟨rfl, rfl⟩ := this
      simp only [State.freqAt, Table.get]
      congr 1
      simp [Nat.mod_eq_of_lt hi']
    · rintro rfl
      have := hget w.toNat w.isLt
      have hm := List.mem_of_getElem? this
      rw [BitVec.ofNat_toNat, BitVec.setWidth_eq] at hm
      exact hm
  simp only [State.leafList, List.map_append, List.map_map, List.mem_append, List.mem_map, List.mem_filter,
    Function.comp_apply, decide_eq_true_eq, List.map_cons, List.map_nil, List.mem_singleton]
  constructor
  · rintro (⟨⟨w, f⟩, ⟨hm, hf⟩, rfl⟩ | rfl)
    · refine .inr ⟨w, rfl, ?_⟩
      rw [(hzip w f).mp hm]; exact hf
    · exact .inl rfl
  · rintro (rfl | ⟨w, rfl, hf⟩)
    · exact .inr rfl
    · exact .inl ⟨(w, s.freqAt w), ⟨(hzip w _).mpr rfl, hf⟩, rfl⟩

@[simp] theorem countBits_length (cs : List (BitVec 32)) : (countBits cs).length = 32 * cs.length := by
  induction cs with
  | nil => rfl
  | cons c cs ih => simp only [countBits, List.flatMap_cons, List.length_append] at ih ⊢; simp [ih]; omega

/-- The counts are written one after another (44_pipeline.md R238). -/
theorem writeCounts_spec (cs : List (BitVec 32)) : ∀ s : State,
    ∃ u, writeCounts cs s = .ok () u ∧ Streamed s u 0 s.inp (countBits cs) := by
  induction cs with
  | nil => intro s; exact ⟨s, rfl, Streamed.refl s⟩
  | cons c cs ih =>
    intro s
    obtain ⟨u, hu, hst⟩ := ih (s.emit (bitsOfNat 32 c.toNat))
    refine ⟨u, ?_, ?_⟩
    · rw [writeCounts, Cmd.writeBits_bind]; exact hu
    · exact (Streamed.of_emit s _).trans hst

/-- A header field where its bits are present (44_pipeline.md R240). -/
theorem readField_spec {v : BitVec 32} {r : Bits} {s : State} (hs : s.inp = bitsOfNat 32 v.toNat ++ r) :
    ∃ u, readField s = .ok v u ∧ Streamed s u 32 r [] := by
  obtain ⟨u, hu, hst⟩ := readBits_streamed (n := 32) hs (by simp)
  rw [natOfBits_bitsOfNat_of_lt v.isLt] at hu
  refine ⟨u, ?_, hst⟩
  rw [readField, Cmd.bind_of_ok hu]
  simp

/-- Any 32 bits are a field. -/
theorem field_of_bits {b : Bits} (h : b.length = 32) : ∃ v : BitVec 32, b = bitsOfNat 32 v.toNat := by
  refine ⟨BitVec.ofNat 32 (natOfBits b), ?_⟩
  have := natOfBits_lt b
  rw [BitVec.toNat_ofNat, Nat.mod_eq_of_lt (by rwa [h] at this), ← h, bitsOfNat_natOfBits]

/-- TRUNCATED: fewer than 32 bits on a closed input (44_pipeline.md R240, R241). -/
theorem readField_truncated {s : State} (hs : s.inp.length < 32) (hc : s.inClosed = true) :
    readField s = .error (.raise .truncated) s := by
  rw [readField, Cmd.bind_of_ok (readBits_eoi hs hc)]
  rfl

/-- Everything the read of a header field can do. -/
theorem readField_cases (s : State) :
    (∃ v r u, s.inp = bitsOfNat 32 v.toNat ++ r ∧ readField s = .ok v u ∧ Streamed s u 32 r []) ∨
    (s.inp.length < 32 ∧ s.inClosed = true ∧ readField s = .error (.raise .truncated) s) ∨
    (s.inp.length < 32 ∧ s.inClosed = false ∧ readField s = .error .wait s) := by
  rcases readBits_cases 32 s with ⟨h, _⟩ | ⟨h, hc, _⟩ | ⟨h, hc, hr⟩
  · obtain ⟨b, r, hs, hb⟩ := bits_split h
    obtain ⟨v, rfl⟩ := field_of_bits hb
    obtain ⟨u, hu, hst⟩ := readField_spec hs
    exact .inl ⟨v, r, u, hs, hu, hst⟩
  · exact .inr (.inl ⟨h, hc, readField_truncated h hc⟩)
  · exact .inr (.inr ⟨h, hc, by rw [readField, Cmd.bind_of_error hr]⟩)

/-- The words `k`, `k + 1`, ..., `k + n - 1`. -/
def wordsFrom (k n : Nat) : List InWord := (List.range' k n).map (BitVec.ofNat 8)

theorem wordsFrom_succ (k n : Nat) : wordsFrom k (n + 1) = BitVec.ofNat 8 k :: wordsFrom (k + 1) n := by
  simp [wordsFrom, List.range'_succ]

theorem ordinarySymbols_eq : ordinarySymbols = wordsFrom 0 256 := by
  simp [ordinarySymbols, wordsFrom, Config.alphabet, List.range_eq_range']

/-- The counts present are read into FREQ in order, from entry `k` on (44_pipeline.md R243). -/
theorem readCounts_read (cs : List (BitVec 32)) : ∀ (s : State) (k m : Nat) (rest : Bits), k + cs.length ≤ 256 →
    s.inp = countBits cs ++ rest →
    ∃ u fq, Streamed s u (32 * cs.length) rest [] ∧
      fq.rows = s.freq.rows.take k ++ cs ++ s.freq.rows.drop (k + cs.length) ∧
      readCounts (wordsFrom k (cs.length + m)) s = readCounts (wordsFrom (k + cs.length) m) { u with freq := fq } := by
  induction cs with
  | nil =>
    intro s k m rest _ hin
    have hst := Streamed.refl s
    rw [hin] at hst
    exact ⟨s, s.freq, hst, by simp, by simp⟩
  | cons c cs ih =>
    intro s k m rest hk hin
    simp only [List.length_cons] at hk
    obtain ⟨u, hu, hst⟩ := readField_spec (v := c) (r := countBits cs ++ rest) (s := s)
      (by rw [hin]; simp [countBits])
    obtain ⟨ib, ob, rfl, hi, ho⟩ := hst
    have hfin : (BitVec.ofNat 8 k).toFin.val = k := by
      show (BitVec.ofNat 8 k).toNat = k
      rw [BitVec.toNat_ofNat]; exact Nat.mod_eq_of_lt (by omega)
    obtain ⟨v, fq, ⟨ib', ob', rfl, hi', ho'⟩, hfq, hrun⟩ := ih (State.setFreq { s with
        inp := countBits cs ++ rest, inBits := ib, out := s.out ++ ([] : Bits).drop s.outEarly
        outEarly := s.outEarly - ([] : Bits).length, outBits := ob } (BitVec.ofNat 8 k) c) (k + 1) m rest (by omega) rfl
    refine ⟨{ s with inp := rest, inBits := ib', outBits := ob' }, fq, ?_, ?_, ?_⟩
    · exact ⟨ib', ob', by simp, (hi.step hi').of_eq (by simp; omega), (ho.step ho').of_eq (by simp)⟩
    · rw [hfq]
      simp only [setFreq_freq, Table.put, hfin]
      have hlen : k < s.freq.rows.length := by rw [s.freq.size]; omega
      rw [List.take_add_one, List.getElem?_set_self hlen, List.take_set_of_le (by omega),
        List.drop_set_of_lt (by omega)]
      simp [Nat.add_assoc, Nat.add_comm 1]
    · rw [show (c :: cs).length + m = (cs.length + m) + 1 by simp; omega, wordsFrom_succ, readCounts,
        Cmd.bind_of_ok hu, Cmd.assign_bind, hrun]
      rw [show k + 1 + cs.length = k + (c :: cs).length by simp; omega]
      simp [State.setFreq]

/-- A whole SCF header becomes FREQ (44_pipeline.md R243). -/
theorem readCounts_spec {f : Table (BitVec 32) 256} {s : State} {rest : Bits} (hin : s.inp = countBits f.rows ++ rest) :
    ∃ u, Streamed s u 8192 rest [] ∧ readCounts ordinarySymbols s = .ok () { u with freq := f } := by
  obtain ⟨u, fq, hst, hfq, hrun⟩ := readCounts_read f.rows s 0 0 rest (by rw [f.size]) hin
  refine ⟨u, by simpa [f.size] using hst, ?_⟩
  have : fq = f := by
    cases f with
    | mk r hr =>
      cases fq with
      | mk q hq =>
        simp only [hr] at hfq
        simp only [Table.mk.injEq]
        rw [hfq, List.drop_of_length_le (by rw [s.freq.size])]
        simp
  subst this
  rw [ordinarySymbols_eq]
  have h256 : fq.rows.length + 0 = 256 := by rw [fq.size]
  rw [← h256, hrun]
  rfl

/-- TRUNCATED inside the counts: those read so far stay in FREQ (44_pipeline.md R243). -/
theorem readCounts_truncated {cs : List (BitVec 32)} {s : State} {rest : Bits} (hin : s.inp = countBits cs ++ rest)
    (hcs : cs.length < 256) (hr : rest.length < 32) (hc : s.inClosed = true) :
    ∃ u fq, Streamed s u (32 * cs.length) rest [] ∧ fq.rows = cs ++ s.freq.rows.drop cs.length ∧
      readCounts ordinarySymbols s = .error (.raise .truncated) { u with freq := fq } := by
  obtain ⟨u, fq, hst, hfq, hrun⟩ := readCounts_read cs s 0 (256 - cs.length) rest (by omega) hin
  refine ⟨u, fq, hst, by simpa using hfq, ?_⟩
  rw [ordinarySymbols_eq, show 256 = cs.length + (256 - cs.length) by omega, hrun]
  obtain ⟨m, hm⟩ : ∃ m, 256 - cs.length = m + 1 := ⟨255 - cs.length, by omega⟩
  rw [hm, wordsFrom_succ, readCounts]
  exact Cmd.bind_of_error (readField_truncated (by simp only [hst.inp]; exact hr) (by simp only [hst.inClosed]; exact hc))

/-- The tag and header of the retained format (44_pipeline.md R238). -/
theorem writeHeader_spec {p : StreamParams} {s : State} {t : Tree} (ht : s.tree = some t)
    (hb : s.treeBits.toNat = t.bits.length) :
    ∃ u, (do writeBits 32 p.magic.toNat; writeHeader p : Cmd Unit) s = .ok () u ∧
      Streamed s u 0 s.inp (headerBits p s.fmt s.freq t) := by
  have h0 := Streamed.of_emit s (bitsOfNat 32 p.magic.toNat)
  rw [Cmd.writeBits_bind, writeHeader, Cmd.now_bind]
  cases hf : s.fmt with
  | scf =>
    simp only [emit_fmt, hf, Cmd.writeBits_bind]
    obtain ⟨u, hu, hst⟩ := writeCounts_spec s.freq.rows
      ((s.emit (bitsOfNat 32 p.magic.toNat)).emit (bitsOfNat 32 p.tagScf.toNat))
    refine ⟨u, hu, ?_⟩
    have := (h0.trans (Streamed.of_emit _ (bitsOfNat 32 p.tagScf.toNat))).trans hst
    simpa [headerBits] using this
  | stf =>
    simp only [emit_fmt, hf, Cmd.writeBits_bind, serRoot, bind_assoc, Cmd.now_bind, emit_treeBits]
    obtain ⟨u, hu, hst⟩ := ser_spec
      (s := ((s.emit (bitsOfNat 32 p.magic.toNat)).emit (bitsOfNat 32 p.tagStf.toNat)).emit
        (bitsOfNat 32 s.treeBits.toNat)) (k := s.nodes.length) (i := s.root) (t := t)
      (by simp only [emit_nodes]; exact ht)
    refine ⟨u, ?_, ?_⟩
    · simp only [emit_nodes, emit_root]
      exact Cmd.bind_of_ok hu
    · have := ((h0.trans (Streamed.of_emit _ (bitsOfNat 32 p.tagStf.toNat))).trans
        (Streamed.of_emit _ (bitsOfNat 32 s.treeBits.toNat))).trans hst
      simpa [headerBits, hb] using this

end Sys2Proof.Machine
end

