-- ==== Sys2Proof/Laws/Passes.lean ====
section
/-! SUPPORT. What PREPASS, COMMIT and DECOMPRESS come to on a closed input that their rules accept
(44_pipeline.md R231 to R245). -/

namespace Sys2Proof.Machine

/-- A counted word occurs in the input. -/
theorem freqAt_ne_zero {f : Table (BitVec 32) 256} {xs : List InWord} (h : ∀ w : InWord, (f.get w.toFin).toNat = xs.count w)
    (w : InWord) : f.get w.toFin ≠ 0 ↔ w ∈ xs := by
  rw [← List.count_pos_iff, ← h w]
  constructor
  · intro hne
    exact Nat.pos_of_ne_zero fun h0 => hne (BitVec.eq_of_toNat_eq (by simpa using h0))
  · intro hpos h0
    rw [h0] at hpos
    simp at hpos

/-- The estimate in terms of the words counted: header and coded body (44_pipeline.md R232, 43_bitstream.md R214). -/
theorem estimate_eq {s : State} {xs : List InWord} (h : ∀ w : InWord, (s.freqAt w).toNat = xs.count w) (f : Fmt) :
    s.estimate f = 64 + headerLength f s.treeBits.toNat + (s.codedWords xs ++ s.codeBits Config.eof).length := by
  have hw : (s.codedWords xs).length = ∑ w : InWord, (s.freqAt w).toNat * (s.codeBits (symOfWord w)).length := by
    have := sum_words (fun w => (s.codeBits (symOfWord w)).length) xs
    rw [State.codedWords, List.length_flatMap, this]
    exact Finset.sum_congr rfl fun w _ => by rw [h w]
  unfold State.estimate
  rw [bodyEstimate_eq, List.length_append, hw]
  cases f <;> simp only [headerLength, Config.alphabet]

/-- The estimate reads FREQ, CODE and TREE_BITS alone (44_pipeline.md R232). -/
theorem estimate_congr {s t : State} (f : Fmt) (h1 : s.freq = t.freq) (h2 : s.treeBits = t.treeBits)
    (h3 : s.code = t.code) : s.estimate f = t.estimate f := by
  simp only [State.estimate, State.bodyEstimate, State.codeAt, h1, h2, h3]

/-- PREPASS over a closed input whose counts fit: FREQ counts the words, the tree and the codes are those of FREQ, EST
and SAVED are computed (44_pipeline.md R231 to R234). -/
theorem prepassBody_spec (f : Fmt) {xs : List InWord} {s : State} {rest : Bits} (hin : s.inp = wordBits xs ++ rest)
    (hr : rest.length < 8) (hc : s.inClosed = true) (hcnt : ∀ w, xs.count w < 2 ^ 32) :
    ∃ v t, prepassBody f s = .ok ((xs.length * 8 : Nat) - (v.estimate f : Int)) v ∧
      v = { s with
        inp := rest, inBits := v.inBits, freq := v.freq, inwords := BitVec.ofNat 64 xs.length
        pq := [], nodes := v.nodes, root := v.root, treeBits := v.treeBits, code := v.code, fmt := f
        est := count64 (v.estimate f), saved := int64 ((xs.length * 8 : Nat) - (v.estimate f : Int))
        prepassValid := true, treeValid := true, codesValid := true } ∧
      Holds64 v.inBits (s.inBits.toNat + 8 * xs.length) ∧ (∀ w, (v.freqAt w).toNat = xs.count w) ∧
      v.Built t ∧ v.CodesOf t := by
  obtain ⟨u, fq, hcount, hst, hfq⟩ := countBody_spec hin hr hc hcnt
  have hlt := length_lt_of_counts hcnt
  obtain ⟨hu, hi⟩ := hst.read_only
  obtain ⟨ns, root, tb, t, hbuild, hb⟩ := buildBody_built { u with freq := fq, inwords := BitVec.ofNat 64 xs.length }
  obtain ⟨cd, hgen, hcd⟩ := codegenBody_spec hb.tree
  obtain ⟨v, hv⟩ : ∃ v : Nat → State, v = fun e => { s with
      inp := rest, inBits := u.inBits, freq := fq, inwords := BitVec.ofNat 64 xs.length, pq := [], nodes := ns
      root := root, treeBits := tb, code := cd, fmt := f, est := count64 e
      saved := int64 ((xs.length * 8 : Nat) - (e : Int))
      prepassValid := true, treeValid := true, codesValid := true } := ⟨_, rfl⟩
  obtain ⟨e, he⟩ : ∃ e, (v 0).estimate f = e := ⟨_, rfl⟩
  have hve : (v e).estimate f = e := by rw [← he]; exact estimate_congr f (by rw [hv]) (by rw [hv]) (by rw [hv])
  have hrun : prepassBody f s = .ok ((xs.length * 8 : Nat) - (e : Int)) (v e) := by
    rw [prepassBody, Cmd.bind_of_ok hcount, Cmd.bind_of_ok hbuild, Cmd.bind_of_ok hgen, Cmd.now_bind, Cmd.assign_bind]
    have hn : (BitVec.ofNat 64 xs.length).toNat = xs.length := by
      rw [BitVec.toNat_ofNat]; exact Nat.mod_eq_of_lt (by omega)
    have hest : ∀ w : State, w.freq = fq → w.treeBits = tb → w.code = cd → w.estimate f = e := by
      intro w h1 h2 h3
      rw [← he]
      exact estimate_congr f (by rw [hv, h1]) (by rw [hv, h2]) (by rw [hv, h3])
    simp only [hn, Config.wordBits, Cmd.pure_apply, hv]
    rw [hest _ rfl rfl rfl, hu]
  refine ⟨v e, t, by rw [hve]; exact hrun, ?_, ?_, ?_, ?_, ?_⟩
  · rw [hve, hv]
  · rw [hv]
    exact hi
  · intro w
    rw [← hfq w, hv]
    rfl
  · rw [hv]
    exact ⟨hb.tree, hb.shape, hb.size, hb.leaves, hb.records, hb.weights, hb.treeBits⟩
  · rw [hv]
    exact hcd

/-- COMMIT refuses (44_pipeline.md R237). -/
theorem commitBody_refuses (p : StreamParams) {s : State} (h : s.saved.toInt ≤ 0) :
    commitBody p false s = .ok 0 { s with refused := true } := by
  rw [commitBody, Cmd.now_bind]
  simp [h]

/-- A COMMIT that does not refuse writes the header and goes on with the body (44_pipeline.md R235, R238). -/
theorem commitBody_header (p : StreamParams) {force : Bool} {s : State} {t : Tree} (hgo : force = true ∨ 0 < s.saved.toInt)
    (ht : s.tree = some t) (hb : s.treeBits.toNat = t.bits.length) :
    ∃ u, Streamed s u 0 s.inp (headerBits p s.fmt s.freq t) ∧
      commitBody p force s = (encodeBody >>= fun _ => now >>= fun s => pure (s.outBits.toNat : Int) : Cmd Int) u := by
  obtain ⟨u, hu, h1⟩ := writeHeader_spec (p := p) ht hb
  refine ⟨u, h1, ?_⟩
  have hcond : (!force && decide (s.saved.toInt ≤ 0)) = false := by
    rcases hgo with rfl | h
    · rfl
    · simp; intro _; omega
  obtain ⟨_, w, hw1, hw2⟩ := Cmd.bind_ok_inv hu
  rw [commitBody, Cmd.now_bind]
  simp only [hcond, Bool.false_eq_true, if_false]
  rw [Cmd.bind_of_ok hw1, Cmd.bind_of_ok hw2]

/-- COMMIT writes the header and the body over a closed input whose words have codes (44_pipeline.md R235, R238). -/
theorem commitBody_writes (p : StreamParams) {force : Bool} {xs : List InWord} {s : State} {t : Tree} {rest : Bits}
    (hgo : force = true ∨ 0 < s.saved.toInt) (ht : s.tree = some t) (hb : s.treeBits.toNat = t.bits.length)
    (hin : s.inp = wordBits xs ++ rest) (hr : rest.length < 8) (hc : s.inClosed = true)
    (hcode : ∀ w ∈ xs, (s.codeAt (symOfWord w)).isSome = true) (heof : (s.codeAt Config.eof).isSome = true) :
    ∃ v, commitBody p force s = .ok (v.outBits.toNat : Int) v ∧
      Streamed s v (8 * xs.length) rest
        (headerBits p s.fmt s.freq t ++ (s.codedWords xs ++ s.codeBits Config.eof)) := by
  obtain ⟨u, h1, hu⟩ := commitBody_header p hgo ht hb
  obtain ⟨v, hv, h2⟩ := encodeBody_spec (xs := xs) (s := u) (rest := rest) (by rw [h1.inp]; exact hin) hr
    (by rw [h1.inClosed]; exact hc) (by intro w hw; rw [h1.codeAt]; exact hcode w hw) (by rw [h1.codeAt]; exact heof)
  refine ⟨v, by rw [hu, Cmd.bind_of_ok hv]; rfl, ?_⟩
  have := h1.trans h2
  rwa [h1.codedWords, h1.codeBits, Nat.zero_add] at this

/-- COMMIT meets a word without a code (43_bitstream.md R213). -/
theorem commitBody_noCode (p : StreamParams) {force : Bool} {xs : List InWord} {w : InWord} {s : State} {t : Tree}
    {rest : Bits} (hgo : force = true ∨ 0 < s.saved.toInt) (ht : s.tree = some t)
    (hb : s.treeBits.toNat = t.bits.length) (hin : s.inp = wordBits xs ++ (bitsOfNat 8 w.toNat ++ rest))
    (hcode : ∀ x ∈ xs, (s.codeAt (symOfWord x)).isSome = true) (hw : s.codeAt (symOfWord w) = none) :
    ∃ v, commitBody p force s = .error (.raise .noCode) v ∧
      Streamed s v (8 * xs.length + 8) rest (headerBits p s.fmt s.freq t ++ s.codedWords xs) := by
  obtain ⟨u, h1, hu⟩ := commitBody_header p hgo ht hb
  obtain ⟨v, hv, h2⟩ := encodeBody_noCode (xs := xs) (w := w) (s := u) (rest := rest) (by rw [h1.inp]; exact hin)
    (by intro x hx; rw [h1.codeAt]; exact hcode x hx) (by rw [h1.codeAt]; exact hw)
  refine ⟨v, by rw [hu, Cmd.bind_of_error hv], ?_⟩
  have := h1.trans h2
  rwa [h1.codedWords, Nat.zero_add] at this

/-- COMMIT ends at a sentinel without a code (43_bitstream.md R213). -/
theorem commitBody_noEof (p : StreamParams) {force : Bool} {xs : List InWord} {s : State} {t : Tree} {rest : Bits}
    (hgo : force = true ∨ 0 < s.saved.toInt) (ht : s.tree = some t) (hb : s.treeBits.toNat = t.bits.length)
    (hin : s.inp = wordBits xs ++ rest) (hr : rest.length < 8) (hc : s.inClosed = true)
    (hcode : ∀ x ∈ xs, (s.codeAt (symOfWord x)).isSome = true) (heof : s.codeAt Config.eof = none) :
    ∃ v, commitBody p force s = .error (.raise .noCode) v ∧
      Streamed s v (8 * xs.length) rest (headerBits p s.fmt s.freq t ++ s.codedWords xs) := by
  obtain ⟨u, h1, hu⟩ := commitBody_header p hgo ht hb
  obtain ⟨v, hv, h2⟩ := encodeBody_noEof (xs := xs) (s := u) (rest := rest) (by rw [h1.inp]; exact hin) hr
    (by rw [h1.inClosed]; exact hc) (by intro x hx; rw [h1.codeAt]; exact hcode x hx) (by rw [h1.codeAt]; exact heof)
  refine ⟨v, by rw [hu, Cmd.bind_of_error hv], ?_⟩
  have := h1.trans h2
  rwa [h1.codedWords, Nat.zero_add] at this

/-- The first field of a stream decides BAD_MAGIC (44_pipeline.md R241). -/
theorem readHeader_badMagic (p : StreamParams) {s : State} {m : BitVec 32} {rest : Bits}
    (hin : s.inp = bitsOfNat 32 m.toNat ++ rest) (hm : m ≠ p.magic) :
    ∃ u, readHeader p s = .error (.raise .badMagic) u ∧ Streamed s u 32 rest [] := by
  obtain ⟨u, hu, hst⟩ := readField_spec hin
  refine ⟨u, ?_, hst⟩
  rw [readHeader, Cmd.bind_of_ok hu]
  simp [hm]

/-- The second field decides BAD_TAG (44_pipeline.md R242). -/
theorem readHeader_badTag (p : StreamParams) {s : State} {g : BitVec 32} {rest : Bits}
    (hin : s.inp = bitsOfNat 32 p.magic.toNat ++ (bitsOfNat 32 g.toNat ++ rest)) (h1 : g ≠ p.tagScf) (h2 : g ≠ p.tagStf) :
    ∃ u, readHeader p s = .error (.raise .badTag) u ∧ Streamed s u 64 rest [] := by
  obtain ⟨u, hu, hst⟩ := readField_spec hin
  obtain ⟨v, hv, hst'⟩ := readField_spec hst.inp
  refine ⟨v, ?_, hst.trans hst'⟩
  rw [readHeader, Cmd.bind_of_ok hu]
  simp only [ne_eq, not_true_eq_false, if_false]
  rw [Cmd.bind_of_ok hv]
  simp [h1, h2]

/-- An SCF header becomes FREQ and the tree built from it (44_pipeline.md R243, R245). -/
theorem readHeader_scf (p : StreamParams) {s : State} {f : Table (BitVec 32) 256} {rest : Bits}
    (hin : s.inp = bitsOfNat 32 p.magic.toNat ++ (bitsOfNat 32 p.tagScf.toNat ++ (countBits f.rows ++ rest))) :
    ∃ ib ns root tb t v, readHeader p s = .ok () v ∧ v.Built t ∧ Holds64 ib (s.inBits.toNat + 8256) ∧
      v = { s with
        inp := rest, inBits := ib, freq := f, pq := [], nodes := ns, root := root, treeBits := tb
        treeValid := true } := by
  obtain ⟨u, hu, h1⟩ := readField_spec hin
  obtain ⟨v, hv, h2⟩ := readField_spec h1.inp
  obtain ⟨w, h3, hw⟩ := readCounts_spec h2.inp
  obtain ⟨hweq, hwi⟩ := ((h1.trans h2).trans h3).read_only
  obtain ⟨ns, root, tb, t, hbuild, hb⟩ := buildBody_built { w with freq := f }
  refine ⟨w.inBits, ns, root, tb, t, _, ?_, hb, hwi, ?_⟩
  · rw [readHeader, Cmd.bind_of_ok hu]
    simp only [ne_eq, not_true_eq_false, if_false]
    rw [Cmd.bind_of_ok hv]
    simp only [if_true]
    rw [Cmd.bind_of_ok hw, Cmd.bind_of_ok hbuild]
    rfl
  · conv => lhs; rw [hweq]

/-- An STF header becomes the tree parsed from it; its declared length is kept and compared (44_pipeline.md R244, R245). -/
theorem readHeader_stf (p : StreamParams) (hp : p.tagStf ≠ p.tagScf) {s : State} {d : BitVec 32} {t : Tree} {rest : Bits}
    (hin : s.inp = bitsOfNat 32 p.magic.toNat ++ (bitsOfNat 32 p.tagStf.toNat ++
      (bitsOfNat 32 d.toNat ++ (t.bits ++ rest)))) (hsz : t.size ≤ 513) (hib : s.inBits = 0) :
    ∃ v, readHeader p s = .ok () v ∧ Holds64 v.inBits (96 + t.bits.length) ∧
      v = { s with
        inp := rest, inBits := v.inBits, treeBitsDecl := d, nodes := t.records 0, root := 0
        treeBits := BitVec.ofNat 32 t.bits.length, treeValid := true
        lenMismatch := s.lenMismatch || BitVec.ofNat 32 t.bits.length != d } := by
  obtain ⟨u, hu, h1⟩ := readField_spec hin
  obtain ⟨v, hv, h2⟩ := readField_spec h1.inp
  obtain ⟨w, hw, h3⟩ := readField_spec h2.inp
  have h123 := (h1.trans h2).trans h3
  obtain ⟨hweq, hwi⟩ := h123.read_only
  have hw96 : w.inBits.toNat = 96 := by
    rw [hib] at hwi
    exact hwi.toNat (by simp)
  have hbits : t.bits.length ≤ 5130 := by
    have := t.size_leaves
    rw [Tree.bits_length]
    omega
  obtain ⟨x, hx, h4⟩ := parse_spec t 514 { w with treeBitsDecl := d, nodes := [] } rest h3.inp (by simp) (by simpa using hsz)
  obtain ⟨hxeq, hxi⟩ := h4.read_only
  simp only [hw96] at hxi
  have hxb : x.inBits.toNat = 96 + t.bits.length := hxi.toNat (by omega)
  have hparse : parseTree { w with treeBitsDecl := d } = .ok ()
      { x with nodes := t.records 0, root := 0, treeBits := BitVec.ofNat 32 t.bits.length } := by
    rw [parseTree, Cmd.assign_bind, Cmd.now_bind, Cmd.bind_of_ok (show parse (Config.maxNodes + 1) _ = _ from hx)]
    simp [hxb, hw96]
  refine ⟨{ x with
      nodes := t.records 0, root := 0, treeBits := BitVec.ofNat 32 t.bits.length, treeValid := true
      lenMismatch := s.lenMismatch || BitVec.ofNat 32 t.bits.length != d }, ?_, hxi, ?_⟩
  · rw [readHeader, Cmd.bind_of_ok hu]
    simp only [ne_eq, not_true_eq_false, if_false]
    rw [Cmd.bind_of_ok hv]
    simp only [hp, if_false, if_true, readStf]
    rw [Cmd.bind_of_ok (show (do
        let d ← readField
        assign fun s => { s with treeBitsDecl := d }
        parseTree
        assign fun s => { s with lenMismatch := s.lenMismatch || s.treeBits != d } : Cmd Unit) v = .ok ()
          { x with
            nodes := t.records 0, root := 0, treeBits := BitVec.ofNat 32 t.bits.length
            lenMismatch := s.lenMismatch || BitVec.ofNat 32 t.bits.length != d } by
      rw [Cmd.bind_of_ok hw, Cmd.assign_bind, Cmd.bind_of_ok hparse]
      have : x.lenMismatch = s.lenMismatch := by rw [hxeq, hweq]
      simp [this])]
    rfl
  · rw [hxeq, hweq]

/-- An STF header whose tree ends with an error leaves what the parse reached (42_serdes.md R194 to R198,
44_pipeline.md R244). -/
theorem readHeader_cutEnd (p : StreamParams) (hp : p.tagStf ≠ p.tagScf) {s : State} {d : BitVec 32} {c : Cut}
    {x rest : Bits} {e : ErrCode} {n : Nat}
    (hin : s.inp = bitsOfNat 32 p.magic.toNat ++ (bitsOfNat 32 p.tagStf.toNat ++
      (bitsOfNat 32 d.toNat ++ (c.bits ++ x)))) (hcap : c.size ≤ 513) (hend : CutEnd s.inClosed c x e n rest) :
    ∃ u, readHeader p s = .error (.raise e) u ∧
      Streamed { s with nodes := c.records 0, treeBitsDecl := d } u (96 + (c.bits.length + n)) rest [] := by
  obtain ⟨u, hu, h1⟩ := readField_spec hin
  obtain ⟨v, hv, h2⟩ := readField_spec h1.inp
  obtain ⟨w, hw, h3⟩ := readField_spec h2.inp
  have h123 := (h1.trans h2).trans h3
  obtain ⟨y, h4, hy⟩ := parse_cutEnd (s := { w with treeBitsDecl := d, nodes := [] }) (c := c) rfl
    (by simpa only [h123.inClosed] using hend) h3.inp hcap
  obtain ⟨z, h5, hz⟩ := parseTree_error (s := { w with treeBitsDecl := d }) hy h4
  obtain ⟨i1, o1, rfl, hi1, ho1⟩ := h123
  obtain ⟨i2, o2, rfl, hi2, ho2⟩ := h5
  refine ⟨_, ?_, i2, o2, rfl, (hi1.step hi2).of_eq (by simp only; omega), (ho1.step ho2).of_eq (by simp)⟩
  rw [readHeader, Cmd.bind_of_ok hu]
  simp only [ne_eq, not_true_eq_false, if_false]
  rw [Cmd.bind_of_ok hv]
  simp only [hp, if_false, if_true, readStf]
  refine (Cmd.bind_of_error ((Cmd.bind_of_ok hw).trans ((Cmd.assign_bind ..).trans (Cmd.bind_of_error hz)))).trans ?_
  simp

/-- The tree an STF header leaves. -/
theorem tree_of_records {s : State} {t : Tree} (hsz : t.size ≤ 513) (hn : s.nodes = t.records 0) (hr : s.root = 0) :
    s.tree = some t := by
  have := treeAt_records t [] [] (by simpa using hsz)
  rw [State.tree, hn, hr, Tree.records_length]
  simpa using this

theorem add_gap_ne (x : BitVec 32) (n : Nat) (h : n < 4294967295) : x + 1 + BitVec.ofNat 32 n ≠ x := by
  intro he
  have h1 := congrArg BitVec.toNat he
  have := x.isLt
  have h2 : (1 : BitVec 32).toNat = 1 := rfl
  simp only [BitVec.toNat_add, BitVec.toNat_ofNat, h2] at h1
  omega

/-- The two tags differ, whatever they are (00_scope.md R21). -/
theorem tags_distinct : Config.params.tagStf ≠ Config.params.tagScf := by
  have h : Config.params.tagStf = Config.tagScf + 1 + BitVec.ofNat 32 Config.tagGap.val := rfl
  have h' : Config.params.tagScf = Config.tagScf := rfl
  have hg : Config.tagGap.val < 4294967295 := Config.tagGap.isLt
  rw [h, h']
  exact add_gap_ne _ _ hg

/-- Estimate(F), term by term (44_pipeline.md R232). -/
theorem estimate_sum (s : State) (f : Fmt) :
    s.estimate f = 64 + headerLength f s.treeBits.toNat
      + ((∑ w : InWord, (s.freqAt w).toNat * codeLen (s.codeAt (symOfWord w))) + codeLen (s.codeAt Config.eof)) := by
  have := bodyEstimate_eq s
  simp only [← codeLen_codeBits] at this
  unfold State.estimate
  rw [this]
  cases f <;> simp only [headerLength, Config.alphabet]

/-- EST fits 64 bits: it is below 2^49 (44_pipeline.md R232). -/
theorem estimate_lt {s : State} {t : Tree} (h : s.Built t) (f : Fmt) : s.estimate f < 2 ^ 49 := by
  have hb := Built.bits_lt h
  have hc : ∀ c, codeLen c ≤ 511 := by
    intro c
    cases c with
    | none => simp [codeLen]
    | some c => have := c.len.isLt; simp only [codeLen]; omega
  have hs : (∑ w : InWord, (s.freqAt w).toNat * codeLen (s.codeAt (symOfWord w))) ≤ 256 * (2 ^ 32 * 511) := by
    refine (Finset.sum_le_card_nsmul _ _ (2 ^ 32 * 511) fun w _ => Nat.mul_le_mul (s.freqAt w).isLt.le (hc _)).trans ?_
    have : Fintype.card InWord = 256 := by rw [Fintype.card_congr wordEquiv]; simp
    rw [Finset.card_univ, this]
    simp
  have he := hc (s.codeAt Config.eof)
  have hh : headerLength f s.treeBits.toNat ≤ 8192 := by
    rw [h.treeBits]
    cases f
    · simp [headerLength]
    · simp only [headerLength]; omega
  rw [estimate_sum]
  omega

/-- The bits before the body (20_memory.md R90). -/
theorem headerBits_length (p : StreamParams) (f : Fmt) (fq : Table (BitVec 32) 256) (t : Tree) :
    (headerBits p f fq t).length = 64 + headerLength f t.bits.length := by
  have h := fq.size
  cases f with
  | scf => simp only [headerBits, headerLength, List.length_append, bitsOfNat_length, countBits_length, h]
  | stf => simp only [headerBits, headerLength, List.length_append, bitsOfNat_length]; omega

/-- `Built` reads FREQ, the node memory, ROOT and TREE_BITS alone. -/
theorem Built.congr {s u : State} {t : Tree} (h : s.Built t) (h1 : u.freq = s.freq) (h2 : u.nodes = s.nodes)
    (h3 : u.root = s.root) (h4 : u.treeBits = s.treeBits) : u.Built t := by
  have hl : u.leafList = s.leafList := by unfold State.leafList State.frequencies; rw [h1]
  refine ⟨?_, ?_, ?_, ?_, ?_, ?_, ?_⟩
  · unfold State.tree; rw [h2, h3]; exact h.tree
  · unfold State.huffman; rw [hl]; exact h.shape
  · rw [h2]; exact h.size
  · rw [hl]; exact h.leaves
  · rw [hl, h2]; exact h.records
  · rw [h2]; exact h.weights
  · rw [h4]; exact h.treeBits

/-- Every counted word and the sentinel have codes in the table of the built tree (41_tree.md R174). -/
theorem Built.coded {s : State} {t : Tree} {xs : List InWord} (hb : s.Built t) (hC : s.CodesOf t)
    (hf : ∀ w, (s.freqAt w).toNat = xs.count w) :
    (∀ w ∈ xs, (s.codeAt (symOfWord w)).isSome = true) ∧ (s.codeAt Config.eof).isSome = true := by
  constructor
  · intro w hw
    rw [hC.isSome, hb.leaves.mem_iff, mem_leafList]
    exact .inr ⟨w, rfl, (freqAt_ne_zero hf w).2 hw⟩
  · rw [hC.isSome, hb.leaves.mem_iff, mem_leafList]
    exact .inl rfl

end Sys2Proof.Machine
end

