-- ==== Sys2Proof/Laws/Ends.lean ====
section
/-! SUPPORT. No run of a command's pseudocode meets a broken node memory where the tree it walks is one, and it waits
only while IN is open (20_memory.md R84, 10_state.md R44). -/

namespace Sys2Proof.Machine

/-- A run of `x` from `s` ends, raises an error, or waits on an open input. -/
def Cmd.Ends {α : Type} (x : Cmd α) (s : State) : Prop :=
  ∀ e t, x s = .error e t → (∃ c, e = .raise c) ∨ (e = .wait ∧ s.inClosed = false)

theorem Cmd.Ends.of_ok {α : Type} {x : Cmd α} {s t : State} {a : α} (h : x s = .ok a t) : x.Ends s := by
  intro e u hu
  rw [h] at hu
  cases hu

theorem Cmd.Ends.of_raise {α : Type} {x : Cmd α} {s t : State} {c : ErrCode} (h : x s = .error (.raise c) t) :
    x.Ends s := by
  intro e u hu
  rw [h] at hu
  cases hu
  exact .inl ⟨c, rfl⟩

theorem Cmd.Ends.bind {α β : Type} {x : Cmd α} {f : α → Cmd β} {s : State} (hx : x.Ends s)
    (hf : ∀ a t, x s = .ok a t → t.inClosed = s.inClosed ∧ (f a).Ends t) : (x >>= f).Ends s := by
  intro e u h
  rcases Cmd.bind_error_inv h with h | ⟨a, t, h1, h2⟩
  · exact hx e u h
  · obtain ⟨hc, he⟩ := hf a t h1
    rcases he e u h2 with hr | ⟨hw, ho⟩
    · exact .inl hr
    · exact .inr ⟨hw, by rw [← hc]; exact ho⟩

theorem readBits_ends (n : Nat) (s : State) : (readBits n).Ends s := by
  intro e t h
  rcases readBits_cases n s with ⟨_, hr⟩ | ⟨_, _, hr⟩ | ⟨_, hc, hr⟩ <;> rw [hr] at h <;> cases h
  exact .inr ⟨rfl, hc⟩

/-- What a read that answers leaves. -/
theorem readBits_ok {n : Nat} {s t : State} {a : Option Nat} (h : readBits n s = .ok a t) :
    (∃ v, a = some v ∧ n ≤ s.inp.length ∧ v < 2 ^ n ∧ Streamed s t n (s.inp.drop n) []) ∨
      (a = none ∧ s.inp.length < n ∧ s.inClosed = true ∧ t = s) := by
  rcases readBits_cases n s with ⟨hl, hr⟩ | ⟨hl, hc, hr⟩ | ⟨_, _, hr⟩ <;> rw [hr] at h <;> cases h
  · refine .inl ⟨_, rfl, hl, ?_, Streamed.of_read⟩
    have := natOfBits_lt (s.inp.take n)
    rwa [List.length_take, Nat.min_eq_left hl] at this
  · exact .inr ⟨rfl, hl, hc, rfl⟩

theorem freqInc_cases (w : InWord) (s : State) :
    freqInc w s = .ok () (s.setFreq w (s.freqAt w + 1)) ∨ freqInc w s = .error (.raise .countOverflow) s := by
  by_cases h : s.freqAt w = BitVec.allOnes 32
  · exact .inr (freqInc_overflow h)
  · exact .inl (if_neg h)

theorem countLoop_ends : ∀ (fuel : Nat) (s : State), s.inp.length < fuel → (countLoop fuel).Ends s := by
  intro fuel
  induction fuel with
  | zero => intro s h; omega
  | succ k ih =>
    intro s h
    rw [countLoop]
    refine (readBits_ends _ s).bind fun a t ht => ?_
    rcases readBits_ok ht with ⟨v, rfl, hl, _, hst⟩ | ⟨rfl, _, _, rfl⟩
    · refine ⟨hst.inClosed, ?_⟩
      have hlen : t.inp.length < k := by
        simp only [Config.wordBits] at hl
        rw [hst.inp, List.length_drop, Config.wordBits]; omega
      show (do freqInc (BitVec.ofNat 8 v); _ : Cmd Unit).Ends t
      rcases freqInc_cases (BitVec.ofNat 8 v) t with hf | hf
      · refine (Cmd.Ends.of_ok hf).bind fun a u hu => ?_
        rw [hf] at hu
        cases hu
        exact ⟨rfl, ih _ hlen⟩
      · exact Cmd.Ends.of_raise (Cmd.bind_of_error hf)
    · exact ⟨rfl, Cmd.Ends.of_ok rfl⟩

theorem writeCode_cases (y : Sym) (s : State) :
    (∃ n, writeCode y s = .ok n (s.emit (s.codeBits y))) ∨ writeCode y s = .error (.raise .noCode) s := by
  cases hc : s.codeAt y with
  | none => exact .inr (writeCode_none hc)
  | some c => exact .inl ⟨_, by simp only [writeCode, Cmd.now_bind, hc, State.codeBits]; rfl⟩

theorem encodeLoop_ends : ∀ (fuel n : Nat) (s : State), s.inp.length < fuel → (encodeLoop fuel n).Ends s := by
  intro fuel
  induction fuel with
  | zero => intro n s h; omega
  | succ k ih =>
    intro n s h
    rw [encodeLoop]
    refine (readBits_ends _ s).bind fun a t ht => ?_
    rcases readBits_ok ht with ⟨v, rfl, hl, _, hst⟩ | ⟨rfl, _, _, rfl⟩
    · refine ⟨hst.inClosed, ?_⟩
      have hlen : t.inp.length < k := by
        simp only [Config.wordBits] at hl
        rw [hst.inp, List.length_drop, Config.wordBits]; omega
      show (do let len ← writeCode (symOfWord (BitVec.ofNat 8 v)); encodeLoop k (n + len) : Cmd Nat).Ends t
      rcases writeCode_cases (symOfWord (BitVec.ofNat 8 v)) t with ⟨m, hf⟩ | hf
      · refine (Cmd.Ends.of_ok hf).bind fun a u hu => ?_
        rw [hf] at hu
        cases hu
        exact ⟨rfl, ih _ _ hlen⟩
      · exact Cmd.Ends.of_raise (Cmd.bind_of_error hf)
    · exact ⟨rfl, Cmd.Ends.of_ok rfl⟩

/-- The walk from a record of the tree. -/
theorem decodeLoop_ends : ∀ (fuel n k : Nat) (s : State) (i : NodeIdx) (a b c d : Tree), s.inp.length < fuel →
    s.tree = some (.node a b) → treeAt s.nodes k i = some (.node c d) → (decodeLoop fuel i n).Ends s := by
  intro fuel
  induction fuel with
  | zero => intro n k s i a b c d h; omega
  | succ f ih =>
    intro n k s i a b c d h hroot hcur
    cases hs : s.inp with
    | nil =>
      intro e t he
      rw [decodeLoop] at he
      rcases readBits_cases 1 s with ⟨hl, _⟩ | ⟨_, _, hr⟩ | ⟨_, hc, hr⟩
      · simp [hs] at hl
      · rw [Cmd.bind_of_ok hr] at he
        cases he
        exact .inl ⟨_, rfl⟩
      · rw [Cmd.bind_of_error hr] at he
        cases he
        exact .inr ⟨rfl, hc⟩
    | cons x xs =>
      obtain ⟨j, u, hj, hst, hrun⟩ := decodeLoop_bit (f := f) (n := n) hcur hs
      have hju : treeAt u.nodes (k - 1) j = some (if x then d else c) := by rw [hst.nodes]; exact hj
      have hroot' : u.tree = some (.node a b) := by rw [State.tree, hst.nodes, hst.root]; exact hroot
      have hlen : u.inp.length < f := by rw [hst.inp]; simp [hs] at h; omega
      intro e t he
      rw [hrun] at he
      rw [← hst.inClosed]
      cases hsub : (if x then d else c) with
      | leaf y =>
        rw [hsub] at hju
        obtain ⟨w, hn⟩ := nodeAt_leaf hju
        rw [Cmd.bind_of_ok hn] at he
        simp only at he
        split at he
        · cases he
        · rw [Cmd.writeBits_bind, Cmd.now_bind] at he
          exact ih _ u.nodes.length (u.emit (bitsOfNat Config.wordBits y.val)) u.root a b a b hlen hroot' hroot' e t he
      | node p q =>
        rw [hsub] at hju
        obtain ⟨_, _, _, hn, _⟩ := nodeAt_int hju
        rw [Cmd.bind_of_ok hn] at he
        exact ih _ (k - 1) u j a b p q hlen hroot' hju e t he

theorem decodeBody_ends {s : State} {t : Tree} (h : s.tree = some t) : decodeBody.Ends s := by
  cases t with
  | leaf y =>
    by_cases hy : y = Config.eof
    · subst hy
      obtain ⟨w, hn⟩ := nodeAt_leaf h
      exact Cmd.Ends.of_ok (a := 0) (t := s) (by rw [decodeBody, Cmd.now_bind, Cmd.bind_of_ok hn]; simp)
    · exact Cmd.Ends.of_raise (decodeBody_badTree h hy)
  | node a b =>
    obtain ⟨_, _, _, hn, _⟩ := nodeAt_int h
    intro e u he
    rw [decodeBody, Cmd.now_bind, Cmd.bind_of_ok hn] at he
    exact decodeLoop_ends _ _ s.nodes.length s s.root a b a b (by omega) h h e u he

theorem countBody_ends (s : State) : countBody.Ends s := by
  intro e t he
  rw [countBody, Cmd.assign_bind, Cmd.now_bind] at he
  exact countLoop_ends _ { s with freq := Table.fill (BitVec 32) 256 0, inwords := 0 } (by simp) e t he

theorem encodeBody_ends (s : State) : encodeBody.Ends s := by
  intro e t he
  rw [encodeBody, Cmd.now_bind] at he
  refine ((encodeLoop_ends (s.inp.length + 1) 0 s (by omega)).bind fun a u hu => ?_) e t he
  refine ⟨?_, ?_⟩
  · have : (encodeLoop (s.inp.length + 1) 0).Invariant (fun v => v.inClosed = s.inClosed) :=
      Cmd.Invariant.encodeLoop (fun _ _ _ h => h) (fun _ _ _ _ h => h) _ _
    have h := this s rfl
    rwa [Cmd.after_of_ok hu] at h
  · show (do let len ← writeCode Config.eof; return a + len : Cmd Nat).Ends u
    rcases writeCode_cases Config.eof u with ⟨m, hf⟩ | hf
    · exact Cmd.Ends.of_ok (Cmd.bind_of_ok hf)
    · exact Cmd.Ends.of_raise (Cmd.bind_of_error hf)

theorem parse_ends' (s : State) (h : s.nodes = []) : (parse 514).Ends s := by
  intro e t he
  have hp := parse_ends 514 s (by simp) (by simp [h])
  rw [he] at hp
  cases hp with
  | stop _ u more n taken rest hin hcase hn hcap hu =>
    rcases hcase with ⟨rfl, _⟩ | rfl | rfl | ⟨rfl, hc⟩
    · exact .inl ⟨_, rfl⟩
    · exact .inl ⟨_, rfl⟩
    · exact .inl ⟨_, rfl⟩
    · exact .inr ⟨rfl, hc⟩

end Sys2Proof.Machine
end

