-- ==== Sys2Proof/Laws/Raises.lean ====
section
/-! SUPPORT. Which errors a command's pseudocode can raise (60_exceptions.md R261), and that a procedure that reads words
until the end of input has no successful end on an open IN (70_reset_and_hazards.md R303). -/

namespace Sys2Proof.Machine

/-- Every error a run of `x` raises is one of `es`. -/
def Cmd.Raises {α : Type} (es : List ErrCode) (x : Cmd α) : Prop := ∀ s e t, x s = .error (.raise e) t → e ∈ es

theorem Cmd.Raises.mono {α : Type} {es fs : List ErrCode} {x : Cmd α} (h : x.Raises es) (hs : es ⊆ fs) : x.Raises fs :=
  fun s e t hx => hs (h s e t hx)

theorem Cmd.Raises.pure {α : Type} {es : List ErrCode} (a : α) : (pure a : Cmd α).Raises es := by
  intro s e t h; simp at h

theorem Cmd.Raises.raise {α : Type} {es : List ErrCode} {c : ErrCode} (h : c ∈ es) : (raise c : Cmd α).Raises es := by
  intro s e t hx
  simp only [Machine.raise, EStateM.Result.error.injEq, Stop.raise.injEq] at hx
  exact hx.1 ▸ h

theorem Cmd.Raises.broken {α : Type} {es : List ErrCode} : (broken : Cmd α).Raises es := by
  intro s e t h; simp [Machine.broken] at h

theorem Cmd.Raises.assign {es : List ErrCode} (g : State → State) : (assign g).Raises es := by
  intro s e t h; simp [Machine.assign] at h

theorem Cmd.Raises.bind {α β : Type} {es : List ErrCode} {x : Cmd α} {f : α → Cmd β} (hx : x.Raises es)
    (hf : ∀ a, (f a).Raises es) : (x >>= f).Raises es := by
  intro s e t h
  rcases Cmd.bind_error_inv h with h | ⟨a, u, _, h⟩
  · exact hx s e t h
  · exact hf a u e t h

theorem Cmd.Raises.now {es : List ErrCode} : now.Raises es := by
  intro s e t h; simp [Machine.now] at h

theorem Cmd.Raises.nodeAt {es : List ErrCode} (i : NodeIdx) : (nodeAt i).Raises es := by
  intro s e t h
  simp only [Machine.nodeAt] at h
  split at h <;> simp at h

theorem Cmd.Raises.readBits {es : List ErrCode} (n : Nat) : (readBits n).Raises es := by
  intro s e t h
  rcases readBits_cases n s with ⟨_, h'⟩ | ⟨_, _, h'⟩ | ⟨_, _, h'⟩ <;> rw [h'] at h <;> simp at h

theorem Cmd.Raises.writeBits {es : List ErrCode} (n v : Nat) : (writeBits n v).Raises es := .assign _

theorem Cmd.Raises.alloc {es : List ErrCode} (n : Node) (h : .treeOverflow ∈ es) : (alloc n).Raises es := by
  intro s e t hx
  rcases alloc_cases n s with ⟨_, h'⟩ | ⟨_, h'⟩
  · rw [h'] at hx; simp at hx
  · rw [h'] at hx; simp at hx; exact hx.1 ▸ h

theorem Cmd.Raises.freqInc {es : List ErrCode} (w : InWord) (h : .countOverflow ∈ es) : (freqInc w).Raises es := by
  intro s e t hx
  rcases freqInc_cases w s with h' | h' <;> rw [h'] at hx <;> simp at hx
  exact hx.1 ▸ h

theorem Cmd.Raises.countLoop (fuel : Nat) : (countLoop fuel).Raises [.countOverflow] := by
  induction fuel with
  | zero => exact .broken
  | succ k ih =>
    refine (Cmd.Raises.readBits _).bind fun a => ?_
    cases a with
    | none => exact .pure _
    | some w => exact (Cmd.Raises.freqInc _ (by simp)).bind fun _ => (Cmd.Raises.assign _).bind fun _ => ih

theorem Cmd.Raises.countBody : countBody.Raises [.countOverflow] :=
  (Cmd.Raises.assign _).bind fun _ => Cmd.Raises.now.bind fun _ => .countLoop _

/-- BUILD raises nothing (41_tree.md R170). -/
theorem Cmd.Raises.buildBody : buildBody.Raises [] := by
  intro s e t h
  obtain ⟨ns, root, tb, u, hb, _⟩ := buildBody_built s
  rw [hb] at h
  simp at h

theorem Cmd.Raises.walk (fuel : Nat) : ∀ i d v, (walk fuel i d v).Raises [] := by
  induction fuel with
  | zero => intro i d v; exact .broken
  | succ k ih =>
    intro i d v
    refine (Cmd.Raises.nodeAt i).bind fun nd => ?_
    cases nd with
    | leaf y w => exact .assign _
    | int l r w => exact (ih _ _ _).bind fun _ => ih _ _ _

theorem Cmd.Raises.codegenBody : codegenBody.Raises [] :=
  (Cmd.Raises.assign _).bind fun _ => Cmd.Raises.now.bind fun _ => (Cmd.Raises.walk _ _ _ _).bind fun _ => .assign _

theorem Cmd.Raises.ser (fuel : Nat) : ∀ i, (ser fuel i).Raises [] := by
  induction fuel with
  | zero => intro i; exact .broken
  | succ k ih =>
    intro i
    refine (Cmd.Raises.nodeAt i).bind fun nd => ?_
    cases nd with
    | leaf y w => exact (Cmd.Raises.writeBits _ _).bind fun _ => (Cmd.Raises.writeBits _ _).bind fun _ => .pure _
    | int l r w =>
      exact (Cmd.Raises.writeBits _ _).bind fun _ => (ih _).bind fun _ => (ih _).bind fun _ => .pure _

theorem Cmd.Raises.serRoot : serRoot.Raises [] := Cmd.Raises.now.bind fun _ => .ser _ _

theorem Cmd.Raises.parse (fuel : Nat) : (parse fuel).Raises [.truncated, .badSymbol, .treeOverflow] := by
  induction fuel with
  | zero => exact .broken
  | succ k ih =>
    refine (Cmd.Raises.readBits _).bind fun a => ?_
    cases a with
    | none => exact .raise (by simp)
    | some b =>
      by_cases hb : b = 0
      · simp only [hb, if_true]
        exact (Cmd.Raises.alloc _ (by simp)).bind fun _ => ih.bind fun _ => ih.bind fun _ =>
          (Cmd.Raises.assign _).bind fun _ => .pure _
      · simp only [hb, if_false]
        refine (Cmd.Raises.readBits _).bind fun v => ?_
        cases v with
        | none => exact .raise (by simp)
        | some v =>
          by_cases hv : v < 257
          · simp only [hv, dif_pos]; exact .alloc _ (by simp)
          · simp only [hv, dif_neg, not_false_eq_true]; exact .raise (by simp)

theorem Cmd.Raises.parseTree : parseTree.Raises [.truncated, .badSymbol, .treeOverflow] :=
  (Cmd.Raises.assign _).bind fun _ => Cmd.Raises.now.bind fun _ => (Cmd.Raises.parse _).bind fun _ => .assign _

theorem Cmd.Raises.writeCode (y : Sym) : (writeCode y).Raises [.noCode] := by
  intro s e t h
  rcases writeCode_cases y s with ⟨n, h'⟩ | h' <;> rw [h'] at h <;> simp at h
  simp [h.1]

theorem Cmd.Raises.encodeLoop (fuel : Nat) : ∀ n, (encodeLoop fuel n).Raises [.noCode] := by
  induction fuel with
  | zero => intro n; exact .broken
  | succ k ih =>
    intro n
    refine (Cmd.Raises.readBits _).bind fun a => ?_
    cases a with
    | none => exact .pure _
    | some w => exact (Cmd.Raises.writeCode _).bind fun _ => ih _

theorem Cmd.Raises.encodeBody : encodeBody.Raises [.noCode] :=
  Cmd.Raises.now.bind fun _ => (Cmd.Raises.encodeLoop _ _).bind fun _ => (Cmd.Raises.writeCode _).bind fun _ => .pure _

theorem Cmd.Raises.childOf {es : List ErrCode} (nd : Node) (b : Nat) : (childOf nd b).Raises es := by
  cases nd with
  | leaf y w => exact .broken
  | int l r w => exact .pure _

theorem Cmd.Raises.decodeLoop (fuel : Nat) : ∀ i n, (decodeLoop fuel i n).Raises [.endOfInput, .badTree] := by
  induction fuel with
  | zero => intro i n; exact .broken
  | succ k ih =>
    intro i n
    refine (Cmd.Raises.readBits _).bind fun a => ?_
    cases a with
    | none => exact .raise (by simp)
    | some b =>
      refine (Cmd.Raises.nodeAt _).bind fun nd => (Cmd.Raises.childOf nd b).bind fun c =>
        (Cmd.Raises.nodeAt _).bind fun nd => ?_
      cases nd with
      | int l r w => exact ih _ _
      | leaf y w =>
        by_cases hy : y = Config.eof
        · simp only [hy, if_true]; exact .pure _
        · simp only [hy, if_false]
          exact (Cmd.Raises.writeBits _ _).bind fun _ => Cmd.Raises.now.bind fun _ => ih _ _

theorem Cmd.Raises.decodeBody : decodeBody.Raises [.endOfInput, .badTree] := by
  refine Cmd.Raises.now.bind fun s => (Cmd.Raises.nodeAt _).bind fun nd => ?_
  cases nd with
  | int l r w => exact .decodeLoop _ _ _
  | leaf y w =>
    by_cases hy : y = Config.eof
    · simp only [hy, if_true]; exact .pure _
    · simp only [hy, if_false]; exact .raise (by simp)

theorem Cmd.Raises.prepassBody (f : Fmt) : (prepassBody f).Raises [.countOverflow] :=
  Cmd.Raises.countBody.bind fun _ => (Cmd.Raises.buildBody.mono (by simp)).bind fun _ =>
    (Cmd.Raises.codegenBody.mono (by simp)).bind fun _ => Cmd.Raises.now.bind fun _ =>
      (Cmd.Raises.assign _).bind fun _ => .pure _

theorem Cmd.Raises.writeCounts (cs : List (BitVec 32)) : (writeCounts cs).Raises [] := by
  induction cs with
  | nil => exact .pure _
  | cons c cs ih => exact (Cmd.Raises.writeBits _ _).bind fun _ => ih

theorem Cmd.Raises.writeHeader (p : StreamParams) : (writeHeader p).Raises [] := by
  refine Cmd.Raises.now.bind fun s => ?_
  cases s.fmt with
  | scf => exact (Cmd.Raises.writeBits _ _).bind fun _ => .writeCounts _
  | stf =>
    exact (Cmd.Raises.writeBits _ _).bind fun _ => (Cmd.Raises.writeBits _ _).bind fun _ =>
      Cmd.Raises.serRoot.bind fun _ => .pure _

theorem Cmd.Raises.commitBody (p : StreamParams) (force : Bool) : (commitBody p force).Raises [.noCode] := by
  refine Cmd.Raises.now.bind fun s => ?_
  by_cases h : (!force && decide (s.saved.toInt ≤ 0)) = true
  · simp only [h, if_true]
    exact (Cmd.Raises.assign _).bind fun _ => .pure _
  · simp only [h]
    exact (Cmd.Raises.writeBits _ _).bind fun _ => ((Cmd.Raises.writeHeader p).mono (by simp)).bind fun _ =>
      Cmd.Raises.encodeBody.bind fun _ => Cmd.Raises.now.bind fun _ => .pure _

theorem Cmd.Raises.readField {es : List ErrCode} (h : .truncated ∈ es) : readField.Raises es := by
  refine (Cmd.Raises.readBits _).bind fun a => ?_
  cases a with
  | none => exact .raise h
  | some v => exact .pure _

theorem Cmd.Raises.readCounts {es : List ErrCode} (h : .truncated ∈ es) (ws : List InWord) : (readCounts ws).Raises es := by
  induction ws with
  | nil => exact .pure _
  | cons w ws ih => exact (Cmd.Raises.readField h).bind fun _ => (Cmd.Raises.assign _).bind fun _ => ih

theorem Cmd.Raises.readHeader (p : StreamParams) :
    (readHeader p).Raises [.truncated, .badSymbol, .treeOverflow, .badMagic, .badTag] := by
  refine (Cmd.Raises.readField (by simp)).bind fun m => ?_
  by_cases hm : m ≠ p.magic
  · simp only [hm, if_true, ne_eq, not_false_eq_true]; exact .raise (by simp)
  · simp only [hm, if_false]
    refine (Cmd.Raises.readField (by simp)).bind fun t => ?_
    by_cases h1 : t = p.tagScf
    · simp only [h1, if_true]
      exact (Cmd.Raises.readCounts (List.mem_cons_self ..) _).bind fun _ =>
        (Cmd.Raises.buildBody.mono (List.nil_subset _)).bind fun _ => .assign _
    · by_cases h2 : t = p.tagStf
      · have h3 : p.tagStf ≠ p.tagScf := h2 ▸ h1
        simp only [h2, h3, if_true, if_false]
        have h4 : readStf.Raises [.truncated, .badSymbol, .treeOverflow, .badMagic, .badTag] :=
          (Cmd.Raises.readField (by simp)).bind fun _ => (Cmd.Raises.assign _).bind fun _ =>
            (Cmd.Raises.parseTree.mono (by simp)).bind fun _ => .assign _
        exact h4.bind fun _ => .assign _
      · simp only [h1, h2, if_false]
        exact (Cmd.Raises.raise (by simp)).bind fun _ => .assign _

theorem Cmd.Raises.decompressBody (p : StreamParams) :
    (decompressBody p).Raises
      [.truncated, .badSymbol, .treeOverflow, .badMagic, .badTag, .endOfInput, .badTree] :=
  ((Cmd.Raises.readHeader p).mono (by simp)).bind fun _ => (Cmd.Raises.decodeBody.mono (by simp)).bind fun _ => .pure _

/-- On an open IN a run of `x` does not end successfully. -/
def Cmd.NeedsEnd {α : Type} (x : Cmd α) : Prop := ∀ s a t, s.inClosed = false → x s ≠ .ok a t

theorem Cmd.NeedsEnd.bind {α β : Type} {x : Cmd α} {f : α → Cmd β} (h : x.NeedsEnd) : (x >>= f).NeedsEnd := by
  intro s a t hs hx
  obtain ⟨b, u, hb, _⟩ := Cmd.bind_ok_inv hx
  exact h s b u hs hb

/-- What comes first may end, if it leaves IN open. -/
theorem Cmd.NeedsEnd.after {α β : Type} {x : Cmd α} {f : α → Cmd β}
    (hx : ∀ s a t, x s = .ok a t → t.inClosed = s.inClosed) (h : ∀ a, (f a).NeedsEnd) : (x >>= f).NeedsEnd := by
  intro s a t hs hx'
  obtain ⟨b, u, hb, hf⟩ := Cmd.bind_ok_inv hx'
  exact h b u a t ((hx s b u hb).trans hs) hf

/-- A loop that reads a word at a time and stops at the end of input. -/
theorem Cmd.NeedsEnd.words {α : Type} {f : Option Nat → Cmd α} (h : ∀ v, (f (some v)).NeedsEnd) :
    (readBits Config.wordBits >>= f).NeedsEnd := by
  intro s a t hs hx
  obtain ⟨b, u, hb, hf⟩ := Cmd.bind_ok_inv hx
  rcases readBits_ok hb with ⟨v, rfl, _, _, hu⟩ | ⟨_, _, hc, _⟩
  · exact h v u a t (hu.inClosed.trans hs) hf
  · rw [hc] at hs; cases hs

theorem Cmd.NeedsEnd.countLoop (fuel : Nat) : (countLoop fuel).NeedsEnd := by
  induction fuel with
  | zero => intro s a t _ h; simp [Machine.countLoop, broken] at h
  | succ k ih =>
    refine .words fun v => .after (fun s a t h => ?_) fun _ => .after (fun s a t h => ?_) fun _ => ih
    · rcases freqInc_cases (BitVec.ofNat 8 v) s with h' | h' <;> rw [h'] at h <;> simp at h
      rw [← h]; rfl
    · simp [assign] at h; rw [← h]

theorem Cmd.NeedsEnd.countBody : countBody.NeedsEnd := by
  refine .after (fun s a t h => ?_) fun _ => .after (fun s a t h => ?_) fun _ => .countLoop _
  · simp [assign] at h; rw [← h]
  · simp [now] at h; rw [h.2]

theorem Cmd.NeedsEnd.encodeLoop (fuel : Nat) : ∀ n, (encodeLoop fuel n).NeedsEnd := by
  induction fuel with
  | zero => intro n s a t _ h; simp [Machine.encodeLoop, broken] at h
  | succ k ih =>
    intro n
    refine .words fun v => .after (fun s a t h => ?_) fun _ => ih _
    rcases writeCode_cases (symOfWord (BitVec.ofNat 8 v)) s with ⟨m, h'⟩ | h' <;> rw [h'] at h <;> simp at h
    rw [← h.2]; rfl

theorem Cmd.NeedsEnd.encodeBody : encodeBody.NeedsEnd := by
  refine .after (fun s a t h => ?_) fun _ => (Cmd.NeedsEnd.encodeLoop _ _).bind
  simp [now] at h; rw [h.2]

end Sys2Proof.Machine
end

