-- ==== Sys2Proof/Laws/Commands.lean ====
section
/-! SUPPORT. The pseudocode of all commands at once: which state each can change (10_state.md R54), which errors it can
raise (60_exceptions.md R261), that it ends or waits (20_memory.md R84), and that neither later bits of IN nor the
state of OUT changes what it does. -/

namespace Sys2Proof.Machine

/-- A state with what ReadBits changes erased. -/
def State.eraseIn (s : State) : State := { s with inp := [], inBits := 0 }

/-- A state with what WriteBits changes erased. -/
def State.eraseOut (s : State) : State := { s with out := [], outEarly := 0, outBits := 0 }

/-- A state with what the counting changes erased. -/
def State.eraseCounts (s : State) : State := { s with freq := Table.fill (BitVec 32) 256 0, inwords := 0 }

/-- A state with what the tree builder changes erased. -/
def State.eraseTree (s : State) : State := { s with nodes := [], root := 0, treeBits := 0, treeValid := false }

/-- A state with what the code generator changes erased. -/
def State.eraseCodes (s : State) : State := { s with code := Table.fill (Option Code) 257 none, codesValid := false }

/-- A state with everything erased that a command's pseudocode may change; CLEAR may change all. -/
def eraseOf (i : Instr) (s : State) : State :=
  match i with
  | .clear       => State.reset
  | .pqClear     => { s with pq := [] }
  | .pqEnq       => { s with pq := [] }
  | .pqDeq       => { s with pq := [], pqKeyOut := 0, pqTagOut := 0 }
  | .count       => s.eraseIn.eraseCounts
  | .build       => { s.eraseTree with pq := [] }
  | .codegen     => s.eraseCodes
  | .serialize   => s.eraseOut
  | .deserialize => s.eraseIn.eraseTree
  | .encode      => s.eraseIn.eraseOut
  | .decode      => s.eraseIn.eraseOut
  | .prepass _   =>
    { s.eraseIn.eraseCounts.eraseTree.eraseCodes with
      pq := [], fmt := .scf, est := 0, saved := 0, prepassValid := false }
  | .commit force => { s.eraseIn.eraseOut with refused := force && s.refused }
  | .decompress  =>
    { s.eraseIn.eraseOut.eraseTree with
      pq := [], freq := Table.fill (BitVec 32) 256 0, treeBitsDecl := 0, lenMismatch := false }

theorem Cmd.Keeps.bind {α β γ : Type} {f : State → γ} {x : Cmd α} {g : α → Cmd β} (hx : x.Keeps f)
    (hg : ∀ a, (g a).Keeps f) : (x >>= g).Keeps f := fun s =>
  Cmd.Invariant.bind (P := fun u => f u = f s) (hx.invariant (f s)) (fun a => (hg a).invariant (f s)) s rfl

theorem Cmd.Keeps.of {α γ : Type} {f : State → γ} {x : Cmd α} (h : ∀ c, x.Invariant (fun u => f u = c)) : x.Keeps f :=
  fun s => h (f s) s rfl

theorem Cmd.Keeps.pure {α γ : Type} {f : State → γ} (a : α) : (pure a : Cmd α).Keeps f := fun _ => rfl

theorem Cmd.Keeps.now {γ : Type} {f : State → γ} : now.Keeps f := fun _ => rfl

theorem Cmd.Keeps.assign {γ : Type} {f : State → γ} {g : State → State} (h : ∀ s, f (g s) = f s) : (assign g).Keeps f := h

/-- The builder changes PQ, the node memory, ROOT, TREE_BITS and TREE_VALID (41_tree.md R170). -/
theorem Cmd.Keeps.buildBody {γ : Type} {f : State → γ}
    (h : ∀ s ns r tb, f { s with pq := [], nodes := ns, root := r, treeBits := tb, treeValid := true } = f s) :
    buildBody.Keeps f := by
  intro s
  obtain ⟨ns, r, tb, t, hb, -⟩ := buildBody_built s
  rw [Cmd.after_of_ok hb, h]

theorem Cmd.Keeps.codegenBody {γ : Type} {f : State → γ} (h : ∀ s c, f { s with code := c } = f s)
    (h' : ∀ s, f { s with codesValid := true } = f s) : codegenBody.Keeps f :=
  (Cmd.Keeps.assign fun s => h s _).bind fun _ => Cmd.Keeps.now.bind fun _ =>
    (Cmd.Keeps.of fun _ => Cmd.Invariant.walk (fun s c hs => (h s c).trans hs) _ _ _ _).bind fun _ => .assign h'

theorem Cmd.Keeps.alloc {γ : Type} {f : State → γ} (h : ∀ s ns, f { s with nodes := ns } = f s) (n : Node) :
    (alloc n).Keeps f := by
  intro s
  rcases alloc_cases n s with ⟨_, h'⟩ | ⟨_, h'⟩
  · rw [Cmd.after_of_ok h', h]
  · rw [Cmd.after_of_error h']

theorem Cmd.Keeps.readBits {γ : Type} {f : State → γ} (h : ∀ s r b, f { s with inp := r, inBits := b } = f s) (n : Nat) :
    (readBits n).Keeps f :=
  .of fun _ => Cmd.Invariant.readBits n fun s r b hs => (h s r b).trans hs

theorem Cmd.Keeps.writeBits {γ : Type} {f : State → γ}
    (h : ∀ s o e b, f { s with out := o, outEarly := e, outBits := b } = f s) (n v : Nat) : (writeBits n v).Keeps f :=
  .of fun _ => Cmd.Invariant.writeBits n v fun s o e b hs => (h s o e b).trans hs

theorem Cmd.Keeps.parse {γ : Type} {f : State → γ} (hr : ∀ s r b, f { s with inp := r, inBits := b } = f s)
    (hn : ∀ s ns, f { s with nodes := ns } = f s) (fuel : Nat) : (parse fuel).Keeps f := by
  induction fuel with
  | zero => exact fun _ => rfl
  | succ k ih =>
    refine (Cmd.Keeps.readBits hr _).bind fun a => ?_
    cases a with
    | none => exact fun _ => rfl
    | some b =>
      by_cases hb : b = 0
      · simp only [hb, if_true]
        exact (Cmd.Keeps.alloc hn _).bind fun _ => ih.bind fun _ => ih.bind fun _ =>
          (Cmd.Keeps.assign fun s => hn s _).bind fun _ => .pure _
      · simp only [hb, if_false]
        refine (Cmd.Keeps.readBits hr _).bind fun v => ?_
        cases v with
        | none => exact fun _ => rfl
        | some v =>
          by_cases hv : v < 257
          · simp only [hv, dif_pos]; exact .alloc hn _
          · simp only [hv, dif_neg, not_false_eq_true]; exact fun _ => rfl

theorem Cmd.Keeps.parseTree {γ : Type} {f : State → γ} (hr : ∀ s r b, f { s with inp := r, inBits := b } = f s)
    (hn : ∀ s ns, f { s with nodes := ns } = f s) (ht : ∀ s r b, f { s with root := r, treeBits := b } = f s) :
    parseTree.Keeps f :=
  (Cmd.Keeps.assign fun s => hn s _).bind fun _ => Cmd.Keeps.now.bind fun _ => (Cmd.Keeps.parse hr hn _).bind fun _ =>
    .assign fun s => ht s _ _

theorem Cmd.Keeps.readField {γ : Type} {f : State → γ} (hr : ∀ s r b, f { s with inp := r, inBits := b } = f s) :
    readField.Keeps f := .of fun _ => Cmd.Invariant.readField fun s r b hs => (hr s r b).trans hs

theorem Cmd.Keeps.decodeBody {γ : Type} {f : State → γ} (hr : ∀ s r b, f { s with inp := r, inBits := b } = f s)
    (hw : ∀ s o e b, f { s with out := o, outEarly := e, outBits := b } = f s) : decodeBody.Keeps f :=
  .of fun _ => Cmd.Invariant.decodeBody (fun s r b hs => (hr s r b).trans hs) fun s o e b hs => (hw s o e b).trans hs

theorem Cmd.Keeps.encodeBody {γ : Type} {f : State → γ} (hr : ∀ s r b, f { s with inp := r, inBits := b } = f s)
    (hw : ∀ s o e b, f { s with out := o, outEarly := e, outBits := b } = f s) : encodeBody.Keeps f :=
  .of fun _ => Cmd.Invariant.encodeBody (fun s r b hs => (hr s r b).trans hs) fun s o e b hs => (hw s o e b).trans hs

theorem Cmd.Keeps.countBody {γ : Type} {f : State → γ} (hr : ∀ s r b, f { s with inp := r, inBits := b } = f s)
    (hf : ∀ s q w, f { s with freq := q, inwords := w } = f s) : countBody.Keeps f :=
  .of fun _ => Cmd.Invariant.countBody (fun s r b hs => (hr s r b).trans hs) fun s q w hs => (hf s q w).trans hs

theorem Cmd.Keeps.serRoot {γ : Type} {f : State → γ}
    (hw : ∀ s o e b, f { s with out := o, outEarly := e, outBits := b } = f s) : serRoot.Keeps f :=
  Cmd.Keeps.now.bind fun _ => .of fun _ => Cmd.Invariant.ser (fun s o e b hs => (hw s o e b).trans hs) _ _

theorem Cmd.Keeps.writeHeader {γ : Type} {f : State → γ}
    (hw : ∀ s o e b, f { s with out := o, outEarly := e, outBits := b } = f s) (p : StreamParams) :
    (writeHeader p).Keeps f := by
  have hc : ∀ cs, (writeCounts cs).Keeps f := by
    intro cs
    induction cs with
    | nil => exact .pure _
    | cons c cs ih => exact (Cmd.Keeps.writeBits hw _ _).bind fun _ => ih
  refine Cmd.Keeps.now.bind fun s => ?_
  cases s.fmt with
  | scf => exact (Cmd.Keeps.writeBits hw _ _).bind fun _ => hc _
  | stf =>
    exact (Cmd.Keeps.writeBits hw _ _).bind fun _ => (Cmd.Keeps.writeBits hw _ _).bind fun _ =>
      (Cmd.Keeps.serRoot hw).bind fun _ => .pure _

theorem Cmd.Keeps.readHeader {γ : Type} {f : State → γ} (hr : ∀ s r b, f { s with inp := r, inBits := b } = f s)
    (hf : ∀ s q, f { s with freq := q } = f s)
    (hb : ∀ s ns r tb, f { s with pq := [], nodes := ns, root := r, treeBits := tb, treeValid := true } = f s)
    (hn : ∀ s ns, f { s with nodes := ns } = f s) (ht : ∀ s r b, f { s with root := r, treeBits := b } = f s)
    (hd : ∀ s d, f { s with treeBitsDecl := d } = f s) (hl : ∀ s l, f { s with lenMismatch := l } = f s)
    (hv : ∀ s, f { s with treeValid := true } = f s) (p : StreamParams) : (readHeader p).Keeps f := by
  refine (Cmd.Keeps.readField hr).bind fun m => ?_
  by_cases hm : m ≠ p.magic
  · simp only [hm, if_true, ne_eq, not_false_eq_true]; exact fun _ => rfl
  · simp only [hm, if_false]
    refine (Cmd.Keeps.readField hr).bind fun t => ?_
    have hc : ∀ ws, (readCounts ws).Keeps f := fun ws =>
      .of fun _ => Cmd.Invariant.readCounts (fun s r b hs => (hr s r b).trans hs) (fun s q hs => (hf s q).trans hs) ws
    by_cases h1 : t = p.tagScf
    · simp only [h1, if_true]
      exact (hc _).bind fun _ => (Cmd.Keeps.buildBody hb).bind fun _ => .assign hv
    · by_cases h2 : t = p.tagStf
      · have h3 : p.tagStf ≠ p.tagScf := h2 ▸ h1
        simp only [h2, h3, if_true, if_false]
        have h4 : readStf.Keeps f :=
          (Cmd.Keeps.readField hr).bind fun d => (Cmd.Keeps.assign fun s => hd s d).bind fun _ =>
            (Cmd.Keeps.parseTree hr hn ht).bind fun _ => .assign fun s => hl s _
        exact h4.bind fun _ => .assign hv
      · simp only [h1, h2, if_false]
        exact Cmd.Keeps.bind (fun _ => rfl) fun _ => .assign hv

/-- Wherever a command's pseudocode ends or stops, it has changed nothing but what `eraseOf` erases
(10_state.md R54). -/
theorem body_keeps (i : Instr) : (commandOf i).body.Keeps (eraseOf i) := by
  cases i with
  | clear => exact fun _ => rfl
  | pqClear => exact fun _ => rfl
  | pqEnq =>
    refine Cmd.Keeps.now.bind fun s => Cmd.Keeps.bind (fun u => ?_) fun _ => .pure _
    by_cases h : u.pq.length < 257
    · rw [Cmd.after_of_ok (enqueue_ok h)]; rfl
    · rw [Cmd.after_of_error (enqueue_full (by omega))]
  | pqDeq =>
    refine Cmd.Keeps.bind (fun u => ?_) fun _ => (Cmd.Keeps.assign (g := _) (by exact fun _ => rfl)).bind fun _ => .pure _
    cases h : u.pq with
    | nil => rw [Cmd.after_of_error (dequeue_nil h)]
    | cons e q => rw [Cmd.after_of_ok (dequeue_cons h)]; rfl
  | count => exact (Cmd.Keeps.countBody (fun _ _ _ => rfl) fun _ _ _ => rfl).bind fun _ => Cmd.Keeps.now.bind fun _ => .pure _
  | build => exact (Cmd.Keeps.buildBody fun _ _ _ _ => rfl).bind fun _ => Cmd.Keeps.now.bind fun _ => .pure _
  | codegen => exact (Cmd.Keeps.codegenBody (fun _ _ => rfl) fun _ => rfl).bind fun _ => Cmd.Keeps.now.bind fun _ => .pure _
  | serialize => exact (Cmd.Keeps.serRoot fun _ _ _ _ => rfl).bind fun _ => .pure _
  | deserialize =>
    exact (Cmd.Keeps.parseTree (fun _ _ _ => rfl) (fun _ _ => rfl) fun _ _ _ => rfl).bind fun _ =>
      (Cmd.Keeps.assign (g := _) (by exact fun _ => rfl)).bind fun _ => Cmd.Keeps.now.bind fun _ => .pure _
  | encode => exact (Cmd.Keeps.encodeBody (fun _ _ _ => rfl) fun _ _ _ _ => rfl).bind fun _ => .pure _
  | decode => exact (Cmd.Keeps.decodeBody (fun _ _ _ => rfl) fun _ _ _ _ => rfl).bind fun _ => .pure _
  | prepass f =>
    exact (Cmd.Keeps.countBody (fun _ _ _ => rfl) fun _ _ _ => rfl).bind fun _ =>
      (Cmd.Keeps.buildBody fun _ _ _ _ => rfl).bind fun _ =>
        (Cmd.Keeps.codegenBody (fun _ _ => rfl) fun _ => rfl).bind fun _ => Cmd.Keeps.now.bind fun _ =>
          (Cmd.Keeps.assign (g := _) (by exact fun _ => rfl)).bind fun _ => .pure _
  | commit force =>
    refine Cmd.Keeps.now.bind fun s => ?_
    cases force with
    | true =>
      exact (Cmd.Keeps.writeBits (fun _ _ _ _ => rfl) _ _).bind fun _ =>
        (Cmd.Keeps.writeHeader (fun _ _ _ _ => rfl) _).bind fun _ =>
          (Cmd.Keeps.encodeBody (fun _ _ _ => rfl) fun _ _ _ _ => rfl).bind fun _ => Cmd.Keeps.now.bind fun _ => .pure _
    | false =>
      by_cases h : s.saved.toInt ≤ 0
      · simp only [h, decide_true, Bool.not_false, Bool.and_true, if_true]
        exact (Cmd.Keeps.assign (g := _) (by exact fun _ => rfl)).bind fun _ => .pure _
      · simp only [h, decide_false, Bool.and_false]
        exact (Cmd.Keeps.writeBits (fun _ _ _ _ => rfl) _ _).bind fun _ =>
          (Cmd.Keeps.writeHeader (fun _ _ _ _ => rfl) _).bind fun _ =>
            (Cmd.Keeps.encodeBody (fun _ _ _ => rfl) fun _ _ _ _ => rfl).bind fun _ => Cmd.Keeps.now.bind fun _ => .pure _
  | decompress =>
    exact (Cmd.Keeps.readHeader (fun _ _ _ => rfl) (fun _ _ => rfl) (fun _ _ _ _ => rfl) (fun _ _ => rfl)
        (fun _ _ _ => rfl) (fun _ _ => rfl) (fun _ _ => rfl) (fun _ => rfl) _).bind fun _ =>
      (Cmd.Keeps.decodeBody (fun _ _ _ => rfl) fun _ _ _ _ => rfl).bind fun _ => .pure _

/-- The errors a command's pseudocode raises are among those of its row (60_exceptions.md R261). -/
theorem body_raises (i : Instr) : (commandOf i).body.Raises (raisedBy i) := by
  cases i with
  | clear => exact (Cmd.Raises.assign _).bind fun _ => .pure _
  | pqClear => exact (Cmd.Raises.assign _).bind fun _ => .pure _
  | pqEnq =>
    refine Cmd.Raises.now.bind fun s => Cmd.Raises.bind (fun u e t h => ?_) fun _ => .pure _
    by_cases hl : u.pq.length < 257
    · rw [enqueue_ok hl] at h; cases h
    · rw [enqueue_full (by omega)] at h; cases h; simp [raisedBy]
  | pqDeq =>
    refine Cmd.Raises.bind (fun u e t h => ?_) fun _ => (Cmd.Raises.assign _).bind fun _ => .pure _
    cases hq : u.pq with
    | nil => rw [dequeue_nil hq] at h; cases h; simp [raisedBy]
    | cons d q => rw [dequeue_cons hq] at h; cases h
  | count => exact (Cmd.Raises.countBody.mono (by simp [raisedBy])).bind fun _ => Cmd.Raises.now.bind fun _ => .pure _
  | build => exact Cmd.Raises.buildBody.bind fun _ => Cmd.Raises.now.bind fun _ => .pure _
  | codegen => exact (Cmd.Raises.codegenBody.mono (List.nil_subset _)).bind fun _ => Cmd.Raises.now.bind fun _ => .pure _
  | serialize => exact (Cmd.Raises.serRoot.mono (List.nil_subset _)).bind fun _ => .pure _
  | deserialize =>
    exact (Cmd.Raises.parseTree.mono (by simp [raisedBy])).bind fun _ =>
      (Cmd.Raises.assign _).bind fun _ => Cmd.Raises.now.bind fun _ => .pure _
  | encode => exact (Cmd.Raises.encodeBody.mono (by simp [raisedBy])).bind fun _ => .pure _
  | decode => exact (Cmd.Raises.decodeBody.mono (by simp [raisedBy])).bind fun _ => .pure _
  | prepass f => exact (Cmd.Raises.prepassBody f).mono (by simp [raisedBy])
  | commit force => exact (Cmd.Raises.commitBody _ force).mono (by simp [raisedBy])
  | decompress => exact (Cmd.Raises.decompressBody _).mono (by simp [raisedBy])

/-- No pseudocode raises an admission error (60_exceptions.md R262). -/
theorem body_raises_late (i : Instr) :
    (commandOf i).body.Raises ((raisedBy i).filter fun e => e ≠ .invalidArg ∧ e ≠ .sequence) := by
  intro s e t h
  have hm := body_raises i s e t h
  refine List.mem_filter.2 ⟨hm, ?_⟩
  have key : ∀ es : List ErrCode, (commandOf i).body.Raises es → .invalidArg ∉ es → .sequence ∉ es →
      decide (e ≠ .invalidArg ∧ e ≠ .sequence) = true := by
    intro es he h1 h2
    have := he s e t h
    simp only [decide_eq_true_eq]
    exact ⟨fun h' => h1 (h' ▸ this), fun h' => h2 (h' ▸ this)⟩
  cases i with
  | clear => exact key [] (body_raises .clear) (by simp) (by simp)
  | pqClear => exact key [] (body_raises .pqClear) (by simp) (by simp)
  | pqEnq => exact key [.pqFull] (body_raises .pqEnq) (by simp) (by simp)
  | pqDeq => exact key [.pqEmpty] (body_raises .pqDeq) (by simp) (by simp)
  | count =>
    exact key [.countOverflow] (Cmd.Raises.countBody.bind fun _ => Cmd.Raises.now.bind fun _ => .pure _) (by simp) (by simp)
  | build => exact key [] (body_raises .build) (by simp) (by simp)
  | codegen => exact key [] (Cmd.Raises.codegenBody.bind fun _ => Cmd.Raises.now.bind fun _ => .pure _) (by simp) (by simp)
  | serialize => exact key [] (Cmd.Raises.serRoot.bind fun _ => .pure _) (by simp) (by simp)
  | deserialize =>
    exact key _ (Cmd.Raises.parseTree.bind fun _ =>
      (Cmd.Raises.assign _).bind fun _ => Cmd.Raises.now.bind fun _ => .pure _) (by simp) (by simp)
  | encode => exact key _ (Cmd.Raises.encodeBody.bind fun _ => .pure _) (by simp) (by simp)
  | decode => exact key _ (Cmd.Raises.decodeBody.bind fun _ => .pure _) (by simp) (by simp)
  | prepass f => exact key _ (Cmd.Raises.prepassBody f) (by simp) (by simp)
  | commit force => exact key _ (Cmd.Raises.commitBody _ force) (by simp) (by simp)
  | decompress => exact key _ (Cmd.Raises.decompressBody _) (by simp) (by simp)

/-- Bits that arrive later only extend IN (20_memory.md R84). -/
theorem body_extends (i : Instr) : (commandOf i).body.Extends (commandOf i).body := by
  cases i with
  | clear => exact (Cmd.Extends.assign fun _ _ _ => rfl).bind fun _ => .pure _
  | pqClear => exact (Cmd.Extends.assign fun _ _ _ => rfl).bind fun _ => .pure _
  | pqEnq => exact .now_of_eq (fun _ _ _ => rfl) fun _ => (Cmd.Extends.enqueue _ _).bind fun _ => .pure _
  | pqDeq => exact Cmd.Extends.dequeue.bind fun _ => (Cmd.Extends.assign fun _ _ _ => rfl).bind fun _ => .pure _
  | count => exact Cmd.Extends.countBody.bind fun _ => .now_of_eq (fun _ _ _ => rfl) fun _ => .pure _
  | build => exact Cmd.Extends.buildBody.bind fun _ => .now_of_eq (fun _ _ _ => rfl) fun _ => .pure _
  | codegen => exact Cmd.Extends.codegenBody.bind fun _ => .now_of_eq (fun _ _ _ => rfl) fun _ => .pure _
  | serialize => exact Cmd.Extends.serRoot.bind fun _ => .pure _
  | deserialize =>
    exact Cmd.Extends.parseTree.bind fun _ => (Cmd.Extends.assign fun _ _ _ => rfl).bind fun _ =>
      .now_of_eq (fun _ _ _ => rfl) fun _ => .pure _
  | encode => exact Cmd.Extends.encodeBody.bind fun _ => .pure _
  | decode => exact Cmd.Extends.decodeBody.bind fun _ => .pure _
  | prepass f => exact .prepassBody f
  | commit force => exact .commitBody _ force
  | decompress => exact .decompressBody _

/-- No command but CLEAR, which puts the model's `outEarly` to its reset value, depends on or reads the output side
(20_memory.md R94). -/
theorem body_oblivious {i : Instr} (h : i ≠ .clear) : (commandOf i).body.Oblivious := by
  cases i with
  | clear => exact absurd rfl h
  | pqClear => exact (Cmd.Oblivious.assign fun _ _ _ _ _ => rfl).bind fun _ => .pure _
  | pqEnq => exact .now (fun _ _ _ _ _ => rfl) fun _ => (Cmd.Oblivious.enqueue _ _).bind fun _ => .pure _
  | pqDeq => exact Cmd.Oblivious.dequeue.bind fun _ => (Cmd.Oblivious.assign fun _ _ _ _ _ => rfl).bind fun _ => .pure _
  | count => exact Cmd.Oblivious.countBody.bind fun _ => .now (fun _ _ _ _ _ => rfl) fun _ => .pure _
  | build => exact Cmd.Oblivious.buildBody.bind fun _ => .now (fun _ _ _ _ _ => rfl) fun _ => .pure _
  | codegen => exact Cmd.Oblivious.codegenBody.bind fun _ => .now (fun _ _ _ _ _ => rfl) fun _ => .pure _
  | serialize => exact Cmd.Oblivious.serRoot.bind fun _ => .pure _
  | deserialize =>
    exact Cmd.Oblivious.parseTree.bind fun _ => (Cmd.Oblivious.assign fun _ _ _ _ _ => rfl).bind fun _ =>
      .now (fun _ _ _ _ _ => rfl) fun _ => .pure _
  | encode => exact Cmd.Oblivious.encodeBody.bind fun _ => .pure _
  | decode => exact Cmd.Oblivious.decodeBody.bind fun _ => .pure _
  | prepass f => exact .prepassBody f
  | commit force => exact .commitBody _ force
  | decompress => exact .decompressBody _

/-- A pseudocode that ends has changed nothing but what `eraseOf` erases. -/
theorem body_keeps_ok {i : Instr} {s u : State} {r : Int} (h : (commandOf i).body s = .ok r u) :
    eraseOf i u = eraseOf i s := by
  rw [← body_keeps i s, Cmd.after_of_ok h]

/-- A pseudocode that stops has changed nothing but what `eraseOf` erases. -/
theorem body_keeps_error {i : Instr} {s u : State} {e : Stop} (h : (commandOf i).body s = .error e u) :
    eraseOf i u = eraseOf i s := by
  rw [← body_keeps i s, Cmd.after_of_error h]

/-- Admission and the flags cleared there see neither IN nor the output side (60_exceptions.md R262). -/
theorem admission_push (i : Instr) (s : State) (m : Bits) (c : Bool) :
    (commandOf i).admission (s.push m c) = (commandOf i).admission s := by
  rw [admission_eq, admission_eq]; cases i <;> rfl

theorem clears_push (i : Instr) (s : State) (m : Bits) (c : Bool) :
    (commandOf i).clears (s.push m c) = ((commandOf i).clears s).push m c := by cases i <;> rfl

theorem admission_port (i : Instr) (s : State) (o : Bits) (e d : Nat) (k : Bits) :
    (commandOf i).admission (s.port o e d k) = (commandOf i).admission s := by
  rw [admission_eq, admission_eq]; cases i <;> rfl

theorem clears_port (i : Instr) (s : State) (o : Bits) (e d : Nat) (k : Bits) :
    (commandOf i).clears (s.port o e d k) = ((commandOf i).clears s).port o e d k := by cases i <;> rfl

/-- What a command has come to, whatever stands on the output side (20_memory.md R94). -/
theorem reached_port {i : Instr} (h : i ≠ .clear) (s : State) : ∃ b : Bits, ∀ o e d k,
    (commandOf i).reached (s.port o e d k) = ((commandOf i).reached s).port (o ++ b.drop e) (e - b.length) d k := by
  cases ha : (commandOf i).admission s with
  | some x => exact ⟨[], fun o e d k => by simp [Command.reached, admission_port, ha]⟩
  | none =>
    obtain ⟨b, hb⟩ := body_oblivious h ((commandOf i).clears s)
    refine ⟨b, fun o e d k => ?_⟩
    simp only [Command.reached, admission_port, ha, Command.run, clears_port, hb]
    cases (commandOf i).body ((commandOf i).clears s) <;> rfl

/-- Whether a command waits, whatever stands on the output side (20_memory.md R84). -/
theorem waits_port (i : Instr) (s : State) (o : Bits) (e d : Nat) (k : Bits) :
    (commandOf i).waits (s.port o e d k) = (commandOf i).waits s := by
  by_cases h : i = .clear
  · subst h; rfl
  · cases ha : (commandOf i).admission s with
    | some x => simp [Command.waits, admission_port, ha]
    | none =>
      obtain ⟨b, hb⟩ := body_oblivious h ((commandOf i).clears s)
      simp only [Command.waits, admission_port, ha, Command.run, clears_port, hb]
      cases (commandOf i).body ((commandOf i).clears s) with
      | ok r t => rfl
      | error x t => cases x <;> rfl

/-- The bits a running command would have read, whatever stands on the output side (70_reset_and_hazards.md R291). -/
theorem pendingIn_emitEarly (s : State) : s.emitEarly.pendingIn = s.pendingIn := by
  cases hs : s.seq with
  | idle => simp [State.emitEarly, hs]
  | busy c =>
    have he : s.emitEarly = s.port s.emitEarly.out s.emitEarly.outEarly s.emitEarly.draws s.taken := by
      simp [State.emitEarly, hs, State.port]
    rw [he]
    generalize s.emitEarly.out = o
    generalize s.emitEarly.outEarly = e
    generalize s.emitEarly.draws = d
    have hb : (s.port o e d s.taken).seq = .busy c := hs
    simp only [State.pendingIn, State.waiting, State.progress, hb, hs]
    cases hd : decode c with
    | error x => rfl
    | ok i =>
      simp only [waits_port]
      by_cases hi : i = .clear
      · subst hi; rfl
      · obtain ⟨b, hr⟩ := reached_port hi s
        rw [hr]; rfl

end Sys2Proof.Machine
end

