-- ==== Sys2Proof/Laws/Local.lean ====
section
/-! SUPPORT. The tree builder works on the node memory and the queue alone, so what BUILD makes is a function of FREQ
(41_tree.md R170, 44_pipeline.md R243). -/

namespace Sys2Proof.Machine

/-- A state with this node memory and this queue. -/
def State.place (s : State) (p : List Node × List Entry) : State := { s with nodes := p.1, pq := p.2 }

/-- A result over node memory and queue alone, in a state. -/
def placeResult {α : Type} (s : State) (r : EStateM.Result Stop (List Node × List Entry) α) :
    EStateM.Result Stop State α :=
  match r with
  | .ok a p    => .ok a (s.place p)
  | .error e p => .error e (s.place p)

/-- What `x` comes to depends on the node memory and the queue alone, and it changes nothing else. -/
def Cmd.Local {α : Type} (x : Cmd α) : Prop := ∀ p, ∃ r, ∀ s : State, x (s.place p) = placeResult s r

theorem Cmd.Local.pure {α : Type} (a : α) : (pure a : Cmd α).Local := fun p => ⟨.ok a p, fun _ => rfl⟩

theorem Cmd.Local.broken {α : Type} : (broken : Cmd α).Local := fun p => ⟨.error .broken p, fun _ => rfl⟩

theorem Cmd.Local.bind {α β : Type} {x : Cmd α} {f : α → Cmd β} (hx : x.Local) (hf : ∀ a, (f a).Local) :
    (x >>= f).Local := by
  intro p
  obtain ⟨r, hr⟩ := hx p
  cases r with
  | ok a q =>
    obtain ⟨r', hr'⟩ := hf a q
    exact ⟨r', fun s => by rw [Cmd.bind_of_ok (hr s)]; exact hr' s⟩
  | error e q => exact ⟨.error e q, fun s => Cmd.bind_of_error (hr s)⟩

theorem Cmd.Local.nodeAt (i : NodeIdx) : (nodeAt i).Local := by
  intro p
  cases h : p.1[i.toNat]? with
  | none => exact ⟨.error .broken p, fun s => by simp [Machine.nodeAt, State.place, h, placeResult]⟩
  | some n => exact ⟨.ok n p, fun s => by simp [Machine.nodeAt, State.place, h, placeResult]⟩

theorem Cmd.Local.alloc (n : Node) : (alloc n).Local := by
  intro p
  by_cases h : Config.maxNodes ≤ p.1.length
  · exact ⟨.error (.raise .treeOverflow) p, fun s => by simp [Machine.alloc, State.place, h, placeResult]⟩
  · exact ⟨.ok (BitVec.ofNat 10 p.1.length) (p.1 ++ [n], p.2), fun s => by
      simp [Machine.alloc, State.place, h, placeResult]⟩

theorem Cmd.Local.enqueue (k : BitVec 32) (t : BitVec 16) : (enqueue k t).Local := by
  intro p
  by_cases h : Config.pqCap ≤ p.2.length
  · exact ⟨.error (.raise .pqFull) p, fun s => by simp [Machine.enqueue, State.place, h, placeResult]⟩
  · exact ⟨.ok () (p.1, inserted p.2 ⟨k, t⟩), fun s => by simp [Machine.enqueue, State.place, h, placeResult]⟩

theorem Cmd.Local.dequeue : dequeue.Local := by
  rintro ⟨ns, q⟩
  cases q with
  | nil => exact ⟨.error (.raise .pqEmpty) (ns, []), fun s => rfl⟩
  | cons e es => exact ⟨.ok e (ns, es), fun s => rfl⟩

theorem Cmd.Local.addLeaf (y : Sym) (w : BitVec 32) : (addLeaf y w).Local :=
  (Cmd.Local.alloc _).bind fun _ => .enqueue _ _

theorem Cmd.Local.addLeaves (fs : List (InWord × BitVec 32)) : (addLeaves fs).Local := by
  induction fs with
  | nil => exact .pure _
  | cons p fs ih =>
    obtain ⟨w, f⟩ := p
    by_cases hf : f ≠ 0
    · simp only [Machine.addLeaves, hf, ne_eq, not_false_eq_true, if_true]
      exact (Cmd.Local.addLeaf _ _).bind fun _ => ih
    · simp only [Machine.addLeaves, hf, if_false]
      exact (Cmd.Local.pure ()).bind fun _ => ih

theorem Cmd.Local.mergeOnce : mergeOnce.Local :=
  Cmd.Local.dequeue.bind fun _ => Cmd.Local.dequeue.bind fun _ => (Cmd.Local.nodeAt _).bind fun _ =>
    (Cmd.Local.nodeAt _).bind fun _ => (Cmd.Local.alloc _).bind fun _ => .enqueue _ _

theorem Cmd.Local.mergeLoop (fuel : Nat) : (mergeLoop fuel).Local := by
  induction fuel with
  | zero => exact .broken
  | succ k ih =>
    intro p
    by_cases h : p.2.length ≠ 1
    · obtain ⟨r, hr⟩ := (Cmd.Local.mergeOnce.bind fun _ => ih) p
      exact ⟨r, fun s => by
        rw [← hr s]; simp only [Machine.mergeLoop, Cmd.now_bind, State.place, h, ne_eq, not_false_eq_true, if_true]⟩
    · exact ⟨.ok () p, fun s => by
        simp only [Machine.mergeLoop, Cmd.now_bind, State.place, h, if_false]; rfl⟩

/-- The leaves of FREQ and the merges, up to the last entry of the queue (41_tree.md R164, R166). -/
def grow (fs : List (InWord × BitVec 32)) : Cmd Entry := do
  addLeaves fs
  addLeaf Config.eof 1
  mergeLoop Config.pqCap
  dequeue

theorem Cmd.Local.grow (fs : List (InWord × BitVec 32)) : (grow fs).Local :=
  (Cmd.Local.addLeaves _).bind fun _ => (Cmd.Local.addLeaf _ _).bind fun _ => (Cmd.Local.mergeLoop _).bind fun _ => .dequeue

/-- What BUILD does with the last entry of the queue (41_tree.md R166, R169, R170). -/
def settle (r : Entry) : Cmd Unit := do
  assign fun s => { s with root := idxOfTag r.tag }
  sizeAccounting
  assign fun s => { s with treeValid := true }

theorem buildBody_grow (s : State) :
    buildBody s = (grow s.frequencies >>= settle) (s.place ([], [])) := by
  simp only [buildBody, grow, Cmd.assign_bind, Cmd.now_bind, bind_assoc]
  rfl

theorem settle_none {r : Entry} {s : State} (h : s.nodes[(idxOfTag r.tag).toNat]? = none) :
    ∃ u, settle r s = .error .broken u := by
  refine ⟨{ s with root := idxOfTag r.tag }, ?_⟩
  simp only [settle, Cmd.assign_bind, sizeAccounting, Cmd.now_bind, bind_assoc]
  exact Cmd.bind_of_error (by simp only [nodeAt, h])

theorem settle_some {r : Entry} {s : State} {nd : Node} (h : s.nodes[(idxOfTag r.tag).toNat]? = some nd) :
    settle r s = .ok ()
      { s with
        root := idxOfTag r.tag
        treeBits := BitVec.ofNat 32 ((weightOf nd).toNat + Config.symBits * (s.positives + 1)), treeValid := true } := by
  simp only [settle, Cmd.assign_bind, sizeAccounting, Cmd.now_bind, bind_assoc]
  rw [Cmd.bind_of_ok (t := { s with root := idxOfTag r.tag }) (a := nd) (by simp only [nodeAt, h])]
  rfl

/-- The builder makes the same records, ROOT and TREE_BITS of one FREQ from any state (44_pipeline.md R243). -/
theorem buildBody_of_freq (f : Table (BitVec 32) 256) :
    ∃ ns root tb, ∀ s : State, s.freq = f →
      buildBody s = .ok () { s with pq := [], nodes := ns, root := root, treeBits := tb, treeValid := true } := by
  obtain ⟨s0, h0⟩ : ∃ s0 : State, s0.freq = f := ⟨{ State.reset with freq := f }, rfl⟩
  obtain ⟨ns0, root0, tb0, t0, hb0, -⟩ := buildBody_built s0
  obtain ⟨r, hr⟩ := Cmd.Local.grow (ordinarySymbols.zip f.rows) ([], [])
  have hg : ∀ s : State, s.freq = f →
      buildBody s = (grow (ordinarySymbols.zip f.rows) >>= settle) (s.place ([], [])) := by
    intro s hs
    rw [buildBody_grow, State.frequencies, hs]
  have h1 := hg s0 h0
  rw [hb0] at h1
  cases r with
  | error e p => rw [Cmd.bind_of_error (hr s0)] at h1; cases h1
  | ok e p =>
    rw [Cmd.bind_of_ok (hr s0)] at h1
    cases hn : p.1[(idxOfTag e.tag).toNat]? with
    | none =>
      obtain ⟨u, hu⟩ := settle_none (r := e) (s := s0.place p) hn
      rw [hu] at h1; cases h1
    | some nd =>
      rw [settle_some (s := s0.place p) hn] at h1
      have hq : p.2 = [] := (congrArg (fun x => x.pq) (EStateM.Result.ok.inj h1).2).symm
      refine ⟨p.1, idxOfTag e.tag,
        BitVec.ofNat 32 ((weightOf nd).toNat + Config.symBits * (f.rows.countP (· ≠ 0) + 1)), fun s hs => ?_⟩
      rw [hg s hs, Cmd.bind_of_ok (hr s), settle_some (s := s.place p) hn]
      simp only [State.place, State.positives, hs, hq]

end Sys2Proof.Machine
end

