-- ==== Sys2Proof/Laws/PerInstr.lean ====
section
/-! SUPPORT. The family Encoding: what holds of the command word of every instruction, one lemma per constructor
(30_encoding.md R110 to R114). -/

namespace Sys2Proof.Laws.Encoding

/-- The instruction's word is legal, the decoder reads the instruction back from it, and no second row of the opcode map
selects it (R112, R113). -/
def Statement (i : Instr) : Prop :=
  i.wellFormed = true ∧ wordWellFormed (Sys2Proof.encode i) = true ∧ Sys2Proof.decode (Sys2Proof.encode i) = .ok i ∧
    (opRows.filter (·.selects (Sys2Proof.encode i))).length = 1

theorem clear : Statement .clear := ⟨rfl, by decide, rfl, rfl⟩

theorem pqClear : Statement .pqClear := ⟨rfl, by decide, rfl, rfl⟩

theorem pqEnq : Statement .pqEnq := ⟨rfl, by decide, rfl, rfl⟩

theorem pqDeq : Statement .pqDeq := ⟨rfl, by decide, rfl, rfl⟩

theorem count : Statement .count := ⟨rfl, by decide, rfl, rfl⟩

theorem build : Statement .build := ⟨rfl, by decide, rfl, rfl⟩

theorem codegen : Statement .codegen := ⟨rfl, by decide, rfl, rfl⟩

theorem serialize : Statement .serialize := ⟨rfl, by decide, rfl, rfl⟩

theorem deserialize : Statement .deserialize := ⟨rfl, by decide, rfl, rfl⟩

theorem encode : Statement .encode := ⟨rfl, by decide, rfl, rfl⟩

theorem decode : Statement .decode := ⟨rfl, by decide, rfl, rfl⟩

theorem prepass (f : Fmt) : Statement (.prepass f) := by
  cases f <;> exact ⟨rfl, by decide, rfl, rfl⟩

theorem commit (force : Bool) : Statement (.commit force) := by
  cases force <;> exact ⟨rfl, by decide, rfl, rfl⟩

theorem decompress : Statement .decompress := ⟨rfl, by decide, rfl, rfl⟩

end Sys2Proof.Laws.Encoding
end

