-- ==== Sys2Proof/Laws/Reset.lean ====
section
/-! SUPPORT. What `rst` does to the block and what can happen while it is asserted (70_reset_and_hazards.md R290). -/

namespace Sys2Proof.Machine

/-- The block's state is at its reset values, whatever stands on the ports, the reset input and the host's side. -/
theorem blockReset_of_parts {s t : State} (hb : s = s.blockReset) (h : { t with
      inp := s.inp, inClosed := s.inClosed, out := s.out, rstHeld := s.rstHeld
      draws := s.draws, agenda := s.agenda, reads := s.reads, taken := s.taken } = s) : t = t.blockReset := by
  rw [hb] at h
  obtain ⟨⟩ := t
  simp only [State.blockReset, State.mk.injEq] at h ⊢
  simp only [h, and_self]

/-- While IDLE no bit is early and none is lost, and a read is only recorded (20_memory.md R94, R291, 10_state.md R57). -/
theorem emitEarly_idle {s : State} (h : s.seq = .idle) : s.emitEarly = s := by simp [State.emitEarly, h]

theorem loseInput_idle {s : State} (h : s.seq = .idle) : s.loseInput = s := by simp [State.loseInput, h]

theorem hostRead_idle {s : State} (h : s.seq = .idle) (r : Reg) :
    s.hostRead r = { s with reads := s.reads ++ [s.readReg r] } := by simp [State.hostRead, h]

/-- Driving `rst` while it is asserted: the level changes and nothing else (R290). -/
theorem driveRst_held {s : State} (h : s.rstHeld = true) (hb : s = s.blockReset) (a : Bool) :
    s.driveRst a = { s with rstHeld := a } := by
  have hi : s.seq = .idle := by rw [hb]; rfl
  rw [State.driveRst, h, Bool.or_true, if_pos rfl, State.hardReset, emitEarly_idle hi, loseInput_idle hi, ← hb]

/-- While `rst` is asserted the host's actions leave the block at its reset values, and only a release ends it (R290). -/
theorem hostStep_held {a : HostAct} {s t : State} (h : s.rstHeld = true) (hb : s = s.blockReset)
    (ht : hostStep a s = .next t) : t = t.blockReset ∧ (t.rstHeld = true ∨ a = .rst false) := by
  have hi : s.seq = .idle := by rw [hb]; rfl
  cases a with
  | regWrite b o v =>
    simp only [hostStep, State.hostWrite, h, if_true] at ht
    split at ht <;> cases ht
    exact ⟨hb, .inl h⟩
  | regRead b o =>
    simp only [hostStep, hostRead_idle hi] at ht
    split at ht <;> cases ht
    exact ⟨blockReset_of_parts hb rfl, .inl h⟩
  | inLoad b =>
    simp only [hostStep] at ht
    split at ht <;> cases ht
    exact ⟨blockReset_of_parts hb rfl, .inl h⟩
  | inPush b =>
    simp only [hostStep] at ht
    split at ht <;> cases ht
    exact ⟨blockReset_of_parts hb rfl, .inl h⟩
  | inClose =>
    cases ht
    exact ⟨blockReset_of_parts hb rfl, .inl h⟩
  | outTake k =>
    simp only [hostStep, emitEarly_idle hi, State.takeOut] at ht
    cases ht
    exact ⟨blockReset_of_parts hb rfl, .inl h⟩
  | rst a =>
    simp only [hostStep, driveRst_held h hb] at ht
    cases ht
    exact ⟨blockReset_of_parts hb rfl, by cases a <;> simp⟩

end Sys2Proof.Machine
end

