-- ==== Sys2Proof/Tests/Slice0.lean ====
section
/-! SUPPORT. Tests, each expected value from the vector of spec/95_test_vectors.md or the rule its comment names, and
for every statement with hypotheses a witness that they can all be met. -/

open Sys2Proof Sys2Proof.Machine

/-! The tests run one after another: side by side, their evaluations hold a thread each. -/

section

set_option Elab.async false

/-! What can be ill-formed is refused: one term a check (30_encoding.md R110, R114; 20_memory.md R81). -/

theorem test_wf_refuses_unknown_op : wordOpKnown 0x02#32 = false ∧ wordWellFormed 0x02#32 = false := by decide

theorem test_wf_refuses_f_outside_prepass : wordFAllowed 0x131#32 = false ∧ wordWellFormed 0x131#32 = false := by decide

theorem test_wf_refuses_force_outside_commit :
    wordForceAllowed 0x330#32 = false ∧ wordWellFormed 0x330#32 = false := by decide

theorem test_wf_refuses_reserved_bits :
    wordReservedZero 0x80000001#32 = false ∧ wordWellFormed 0x80000001#32 = false := by decide

theorem test_wf_refuses_narrow_access : accessWide 2 = false ∧ accessWellFormed 2 0x008#12 = false := by decide

theorem test_wf_refuses_misaligned_access : accessAligned 0x00A#12 = false ∧ accessWellFormed 4 0x00A#12 = false := by
  decide

theorem test_wf_accepts : wordWellFormed 0x130#32 = true ∧ wordWellFormed 0x231#32 = true ∧
    accessWellFormed 4 0xFFC#12 = true ∧ (Instr.commit true).wellFormed = true := by decide

/-! Decoding: the words of 30_encoding.md R112, bit by bit as reserved(22) FORCE F OP(8). -/

theorem test_decode_control : decode 0b0000000000000000000000_0_0_00000001#32 = .ok .clear := by rfl

theorem test_decode_queue :
    decode 0b0000000000000000000000_0_0_00010000#32 = .ok .pqClear ∧
    decode 0b0000000000000000000000_0_0_00010001#32 = .ok .pqEnq ∧
    decode 0b0000000000000000000000_0_0_00010010#32 = .ok .pqDeq := by exact ⟨rfl, rfl, rfl⟩

theorem test_decode_tree :
    decode 0b0000000000000000000000_0_0_00100000#32 = .ok .count ∧
    decode 0b0000000000000000000000_0_0_00100001#32 = .ok .build ∧
    decode 0b0000000000000000000000_0_0_00100010#32 = .ok .codegen := by exact ⟨rfl, rfl, rfl⟩

theorem test_decode_serdes :
    decode 0b0000000000000000000000_0_0_00100011#32 = .ok .serialize ∧
    decode 0b0000000000000000000000_0_0_00100100#32 = .ok .deserialize := by exact ⟨rfl, rfl⟩

theorem test_decode_bitstream :
    decode 0b0000000000000000000000_0_0_00100101#32 = .ok .encode ∧
    decode 0b0000000000000000000000_0_0_00100110#32 = .ok .decode := by exact ⟨rfl, rfl⟩

theorem test_decode_pipeline :
    decode 0b0000000000000000000000_0_0_00110000#32 = .ok (.prepass .scf) ∧
    decode 0b0000000000000000000000_0_1_00110000#32 = .ok (.prepass .stf) ∧
    decode 0b0000000000000000000000_0_0_00110001#32 = .ok (.commit false) ∧
    decode 0b0000000000000000000000_1_0_00110001#32 = .ok (.commit true) ∧
    decode 0b0000000000000000000000_0_0_00110010#32 = .ok .decompress := by exact ⟨rfl, rfl, rfl, rfl, rfl⟩

/-- V-CTL-1. -/
theorem test_decode_illegal :
    decode 0x00000000#32 = .error .unknownOp ∧ decode 0x000000FF#32 = .error .unknownOp ∧
    decode 0x00000120#32 = .error .fNotAllowed ∧ decode 0x00000330#32 = .error .forceNotAllowed ∧
    decode 0x00000131#32 = .error .fNotAllowed ∧ decode 0x00000400#32 = .error .unknownOp ∧
    decode 0x80000001#32 = .error .reservedBits := by exact ⟨rfl, rfl, rfl, rfl, rfl, rfl, rfl⟩

theorem test_table_word : decodeTableWord 32 0x130 = some (.prepass .stf) := by rfl

/-! Small states. -/

/-- The outcome is a next state with the property. -/
def runsTo (o : Host.Outcome State Fault Refusal) (p : State → Bool) : Bool :=
  match o with
  | .next t    => p t
  | .fault _   => false
  | .refused _ => false

theorem runsTo_next {o : Host.Outcome State Fault Refusal} {p : State → Bool} (h : runsTo o p = true) :
    ∃ t : State, o = .next t ∧ p t = true := by
  cases o with
  | next t => exact ⟨t, rfl, h⟩
  | fault f => cases h
  | refused r => cases h

/-- Reset, CONFIG with both ports, a command word accepted, and bits on IN. -/
def running (c : Word) (b : Bits) (closed : Bool) : State :=
  { State.reset.accept c with config := ⟨true, true, false⟩, inp := b, inClosed := closed }

/-- The same, idle. -/
def ready (b : Bits) : State := { State.reset with config := ⟨true, true, false⟩, inp := b }

/-- FREQ with the pairs listed, every other entry 0. -/
def freqOf (l : List (InWord × BitVec 32)) : Table (BitVec 32) 256 :=
  l.foldl (fun t p => t.put p.1.toFin p.2) (Table.fill (BitVec 32) 256 0)

/-- CODE with the entries listed, every other entry NONE. -/
def codesOf (l : List (Sym × Code)) : Table (Option Code) 257 :=
  l.foldl (fun t p => t.put p.1 (some p.2)) (Table.fill (Option Code) 257 none)

/-- The input of V-CNT-1: h'6161616263'. -/
def abcInput : Bits := bitsOfNat 40 0x6161616263

/-- The records of V-TREE-2. -/
def abcNodes : List Node :=
  [.leaf 0x61 3, .leaf 0x62 1, .leaf 0x63 1, .leaf 256 1, .int 1 2 3, .int 3 0 3, .int 4 5 7]

/-- The codes of V-CG-1. -/
def abcCodes : Table (Option Code) 257 := codesOf [(0x62, ⟨2, 0⟩), (0x63, ⟨2, 1⟩), (256, ⟨2, 2⟩), (0x61, ⟨2, 3⟩)]

/-- The state after CODEGEN of V-CG-1. -/
def abc (b : Bits) : State :=
  { ready b with
    freq := freqOf [(0x61, 3), (0x62, 1), (0x63, 1)], nodes := abcNodes, root := 6, treeBits := 43
    treeValid := true, codesValid := true, code := abcCodes }

/-- The suggested constants of a stream, as 95_test_vectors.md section 0 uses them. -/
def vectorParams : StreamParams := { magic := 0xFACE8200, tagScf := 0x63743030, tagStf := 0x74723030 }

/-- The stream of V-PIPE-1 and its fill bit. -/
def abcStream : Bits := bitsOfNat 152 0xFACE8200747230300000002B26298D804C3F8C

/-! The commands. -/

/-- V-CTL-3. -/
theorem test_clear_keeps_config_and_ports : runsTo (exec .clear { abc abcInput with out := [true], overrun := true })
    (fun t => t.statusWord = 0x2 ∧ t.configWord = 0x3 ∧ t.out = [true] ∧ t.inp = abcInput ∧ t.treeInfo = 0 ∧
      t.freqAt 0x61 = 0 ∧ t.treeBits = 0 ∧ t.codeAt 0x61 = none) = true := by decide +kernel

/-- V-PQ-5. -/
theorem test_pqClear : runsTo (exec .pqClear { State.reset with pq := [⟨3, 2⟩, ⟨5, 1⟩] })
    (fun t => t.pq = [] ∧ t.result = 0 ∧ t.statusWord = 0x2) = true := by decide +kernel

/-- V-PQ-1: an equal key goes behind. -/
theorem test_pqEnq_behind_equal_keys : runsTo
    (exec .pqEnq { State.reset with pq := [⟨3, 0xB⟩, ⟨5, 0xA⟩, ⟨5, 0xC⟩], pqKeyIn := 3, pqTagIn := 0xD })
    (fun t => t.pq = [⟨3, 0xB⟩, ⟨3, 0xD⟩, ⟨5, 0xA⟩, ⟨5, 0xC⟩] ∧ t.result = 0) = true := by decide +kernel

/-- V-PQ-3 and V-PQ-4: the 258th entry; unsigned keys. -/
theorem test_pqEnq_full_and_unsigned :
    runsTo (exec .pqEnq { State.reset with pq := List.replicate 257 ⟨6, 0⟩ })
      (fun t => t.statusWord = 0x504 ∧ t.pq.length = 257 ∧ t.result = 0xFFFFFFFFFFFFFFFF) = true ∧
    runsTo (exec .pqEnq { State.reset with pq := [⟨0xFFFFFFFF, 1⟩], pqTagIn := 2 })
      (fun t => t.pq = [⟨0, 2⟩, ⟨0xFFFFFFFF, 1⟩]) = true := by decide +kernel

/-- V-PQ-4: the last dequeue. -/
theorem test_pqDeq_returns_head : runsTo (exec .pqDeq { State.reset with pq := [⟨0xFFFFFFFF, 1⟩, ⟨0xFFFFFFFF, 3⟩] })
    (fun t => t.result = 0x00000000FFFFFFFF ∧ t.pqKeyOut = 0xFFFFFFFF ∧ t.pqTagOut = 1 ∧ t.pq.length = 1) = true := by
  decide +kernel

/-- V-PQ-2. -/
theorem test_pqDeq_empty : runsTo (exec .pqDeq { State.reset with pqKeyOut := 5, pqTagOut := 0xC })
    (fun t => t.statusWord = 0x404 ∧ t.pqKeyOut = 5 ∧ t.pqTagOut = 0xC ∧ t.result = 0xFFFFFFFFFFFFFFFF) = true := by
  decide +kernel

/-- V-CNT-2: three bits are no word. -/
theorem test_count_leaves_partial_word :
    runsTo (exec .count { ready (abcInput ++ [true, false, true]) with freq := freqOf [(9, 9)] })
      (fun t => t.freq = freqOf [(0x61, 3), (0x62, 1), (0x63, 1)] ∧ t.inwords = 5 ∧ t.result = 5 ∧ t.inBits = 40 ∧
        t.inp = [true, false, true] ∧ t.statusWord = 0x2) = true := by decide +kernel

/-- V-CNT-5. -/
theorem test_count_without_port : runsTo (exec .count State.reset)
    (fun t => t.statusWord = 0x204 ∧ t.inBits = 0) = true := by decide +kernel

/-- V-TREE-3. -/
theorem test_build_abracadabra :
    runsTo (exec .build { State.reset with freq := freqOf [(0x61, 5), (0x62, 2), (0x63, 1), (0x64, 1), (0x72, 2)] })
      (fun t => t.nodes =
          [.leaf 0x61 5, .leaf 0x62 2, .leaf 0x63 1, .leaf 0x64 1, .leaf 0x72 2, .leaf 256 1, .int 2 3 3, .int 5 1 3,
            .int 4 6 5, .int 7 0 5, .int 8 9 11] ∧
        t.root = 10 ∧ t.treeBits = 65 ∧ t.result = 11 ∧ t.statusWord = 0x20002) = true := by decide +kernel

/-- V-TREE-7, the chain of four symbols, and V-TREE-5 with the largest frequency. -/
theorem test_build_chain :
    runsTo (exec .build { State.reset with freq := freqOf [(0, 2000), (1, 2000), (2, 2000), (3, 2000)] })
      (fun t => t.nodes =
          [.leaf 0 2000, .leaf 1 2000, .leaf 2 2000, .leaf 3 2000, .leaf 256 1, .int 4 0 3, .int 5 1 5, .int 6 2 7,
            .int 7 3 9] ∧ t.root = 8 ∧ t.treeBits = 54) = true ∧
    runsTo (exec .build { State.reset with freq := freqOf [(0x41, 0xFFFFFFFF)] })
      (fun t => t.nodes = [.leaf 0x41 0xFFFFFFFF, .leaf 256 1, .int 1 0 3] ∧ t.root = 2 ∧ t.result = 3) = true := by
  decide +kernel

/-- V-CG-1. -/
theorem test_codegen : runsTo (exec .codegen { abc [] with code := (ready []).code, codesValid := false, codeIdx := 0x61 })
    (fun t => t.code = abcCodes ∧ t.result = 4 ∧ t.readReg .codeInfo = 0x80000002 ∧ t.readReg (.codeVal 0) = 3 ∧
      t.readReg (.codeVal 1) = 0) = true := by decide +kernel

/-- V-CG-6: the later of two leaves of one symbol, and none for the sentinel. -/
theorem test_codegen_duplicate_symbol : runsTo
    (exec .codegen { ready [] with nodes := [.int 1 2 0, .leaf 0 0, .leaf 0 0], treeValid := true })
    (fun t => t.codeAt 0 = some ⟨1, 1⟩ ∧ t.codeAt 256 = none ∧ t.result = 1) = true := by decide +kernel

/-- V-SER-1. -/
theorem test_serialize : runsTo (exec .serialize (abc []))
    (fun t => t.out = bitsOfNat 43 0b0010011000101001100011011000000001001100001 ∧ t.result = 43 ∧ t.outBits = 43) = true := by
  decide +kernel

/-- V-SER-6: ports before sequence. -/
theorem test_serialize_admission :
    runsTo (exec .serialize State.reset) (fun t => t.statusWord = 0x204) = true ∧
    runsTo (exec .serialize (ready [])) (fun t => t.statusWord = 0x304) = true := by decide +kernel

/-- V-DES-1. -/
theorem test_deserialize : runsTo (exec .deserialize (ready (bitsOfNat 43 0b0010011000101001100011011000000001001100001)))
    (fun t => t.nodes =
        [.int 1 4 0, .int 2 3 0, .leaf 0x62 0, .leaf 0x63 0, .int 5 6 0, .leaf 256 0, .leaf 0x61 0] ∧
      t.treeInfo = 0x00070000 ∧ t.treeBits = 43 ∧ t.result = 43 ∧ t.statusWord = 0x20002) = true := by decide +kernel

/-- V-DES-5, V-DES-7, and an end in the right subtree (42_serdes.md R194, R197). -/
theorem test_deserialize_errors :
    runsTo (exec .deserialize (ready [true, true, false, false, false]))
      (fun t => t.statusWord = 0x904 ∧ t.inBits = 1 ∧ t.inp = [true, false, false, false] ∧ t.nodes = []) = true ∧
    runsTo (exec .deserialize (ready (List.replicate 514 false)))
      (fun t => t.statusWord = 0xC04 ∧ t.inBits = 514 ∧ t.nodes.length = 513) = true ∧
    runsTo (exec .deserialize (ready (bitsOfNat 16 0b0100110001010101)))
      (fun t => t.statusWord = 0x904 ∧ t.inBits = 12 ∧ t.inp = bitsOfNat 4 0b0101 ∧
        t.nodes = [.int 0x3FF 0x3FF 0, .leaf 0x62 0]) = true := by decide +kernel

/-- V-ENC-1. -/
theorem test_encode : runsTo (exec .encode (abc abcInput))
    (fun t => t.out = bitsOfNat 12 0b111111000110 ∧ t.result = 12 ∧ t.inBits = 40 ∧ t.outBits = 12) = true := by
  decide +kernel

/-- V-ENC-3. -/
theorem test_encode_no_code : runsTo (exec .encode (abc (bitsOfNat 16 0x6164)))
    (fun t => t.errcode = 0x0E ∧ t.inBits = 16 ∧ t.out = [true, true] ∧ t.outBits = 2) = true := by decide +kernel

/-- V-DEC-2. -/
theorem test_decode_abc : runsTo (exec .decode (abc (bitsOfNat 16 0b1111110001100101)))
    (fun t => t.out = abcInput ∧ t.result = 40 ∧ t.inBits = 12 ∧ t.inp = [false, true, false, true]) = true := by
  decide +kernel

/-- V-DEC-3. -/
theorem test_decode_end_of_input : runsTo (exec .decode { abc (bitsOfNat 4 0b0001) with codesValid := false })
    (fun t => t.statusWord = 0x20A04 ∧ t.out = bitsOfNat 16 0x6263 ∧ t.inBits = 4 ∧ t.outBits = 16) = true := by
  decide +kernel

/-- V-PIPE-1 and V-PIPE-2. -/
theorem test_prepass :
    runsTo (exec (.prepass .stf) (ready abcInput))
      (fun t => t.nodes = abcNodes ∧ t.code = abcCodes ∧ t.treeBits = 43 ∧ t.est = 151 ∧
        t.result = 0xFFFFFFFFFFFFFF91 ∧ t.saved = 0xFFFFFFFFFFFFFF91 ∧ t.statusWord = 0x000F0002) = true ∧
    runsTo (exec (.prepass .scf) (ready abcInput))
      (fun t => t.est = 8268 ∧ t.result = 0xFFFFFFFFFFFFDFDC ∧ t.statusWord = 0x00070002) = true := by decide +kernel

/-- V-PIPE-1, the second half, with the suggested constants. -/
theorem test_commit_writes_stream :
    runsTo ((commitCommand vectorParams true).exec { abc abcInput with fmt := .stf, est := 151, prepassValid := true })
      (fun t => t.out = abcStream.take 151 ∧ t.result = 151 ∧ t.inBits = 40 ∧ t.statusWord = 0x000E0002) = true := by
  decide +kernel

/-- V-PIPE-3. -/
theorem test_commit_refuses : runsTo
    (exec (.commit false) { abc abcInput with fmt := .stf, saved := 0xFFFFFFFFFFFFFF91, prepassValid := true })
    (fun t => t.result = 0 ∧ t.statusWord = 0x001E0002 ∧ t.inp = abcInput ∧ t.out = [] ∧ t.inBits = 0) = true := by
  decide +kernel

/-- V-DCMP-1, with the suggested constants. -/
theorem test_decompress : runsTo ((decompressCommand vectorParams).exec (ready abcStream))
    (fun t => t.out = abcInput ∧ t.result = 40 ∧ t.inBits = 151 ∧ t.inp = [false] ∧ t.treeBits = 43 ∧
      t.treeBitsDecl = 43 ∧ t.treeInfo = 0x00070000 ∧ t.statusWord = 0x20002) = true := by decide +kernel

/-- V-DCMP-5: the rows "first 100 bits" and BAD_TREE. -/
theorem test_decompress_errors :
    runsTo ((decompressCommand vectorParams).exec (ready (abcStream.take 100)))
      (fun t => t.statusWord = 0x904 ∧ t.inBits = 99 ∧ t.inp.length = 1 ∧ t.out = []) = true ∧
    runsTo ((decompressCommand vectorParams).exec (ready (abcStream.take 96 ++ bitsOfNat 18 0b100100000100000000)))
      (fun t => t.statusWord = 0x220D04 ∧ t.inBits = 106 ∧ t.out = []) = true := by decide +kernel

/-! The host and the step. -/

/-- V-CTL-4. -/
theorem test_status_write : ({ abc [] with prepassValid := true, fmt := .stf, done := true }.writeReg .status 0xFFFFFFFF).statusWord
    = 0x000F0000 := by decide +kernel

/-- V-TREE-2, the NODE window. -/
theorem test_node_window :
    { abc [] with nodeIdx := 4 }.nodeWindow = (0, 3, 0x00020001) ∧
    { abc [] with nodeIdx := 0 }.nodeWindow = (0x80000061, 3, 0x03FF03FF) ∧
    { abc [] with nodeIdx := 7 }.nodeWindow = (0, 0, 0) := by decide +kernel

/-- V-CTL-6: COUNT waits on an open IN, a CMD write then only sets OVERRUN, and InClose lets COUNT complete. -/
theorem test_overrun :
    runsTo (step (running 0x20 [] false)) (fun t => t = running 0x20 [] false) = true ∧
    runsTo (step { running 0x20 [] false with agenda := [.host (.regWrite 4 0x004 0x10)] })
      (fun t => t = { running 0x20 [] false with overrun := true }) = true ∧
    runsTo (step { running 0x20 [] true with overrun := true }) (fun t => t.statusWord = 0xA ∧ t.result = 0) = true := by
  decide +kernel

/-- A CMD write is lost while `rst` is asserted, and accepted when it is released (70_reset_and_hazards.md R290). -/
theorem test_rst_level :
    runsTo (step { running 0x20 [] false with overrun := true, agenda := [.host (.rst true)] })
      (fun t => t.statusWord = 0 ∧ t.configWord = 0 ∧ t.rstHeld = true) = true ∧
    runsTo (step { State.reset with rstHeld := true, agenda := [.host (.regWrite 4 0x004 0x21)] })
      (fun t => t.seq = .idle ∧ t.rstHeld = true ∧ t.agenda = []) = true ∧
    runsTo (step { State.reset with agenda := [.host (.regWrite 4 0x004 0x21)] }) (fun t => t.seq = .busy 0x21) = true := by
  decide +kernel

/-- The first command after reset, placed by `withFetchWord`, runs at the next step (V-TREE-1). -/
theorem test_step_runs_placed_word : runsTo (step (State.reset.withFetchWord 32 0x21))
    (fun t => t.statusWord = 0x20002 ∧ t.nodes = [.leaf 256 1] ∧ t.treeBits = 10) = true := by decide +kernel

/-! Witnesses: for each statement with hypotheses, a concrete state and operands that meet them, clause by clause. -/

/-- A property of a next state that some state has. -/
theorem next_with {o : Host.Outcome State Fault Refusal} (p : State → Bool) (h : runsTo o p = true) :
    ∃ t : State, o = .next t ∧ p t = true := runsTo_next h

/-- While a command runs from reset the invariant holds, whatever stands on IN and whatever moves are to come. -/
theorem running_with_inv (c : Word) (b : Bits) (closed : Bool) (ms : List Move) :
    ({ running c b closed with agenda := ms } : State).Inv where
  pqSize := Nat.zero_le _
  pqSorted := .nil
  nodeCount := Nat.zero_le _
  tree h := by cases h
  codes h := by cases h
  prepass h := by cases h
  codeFits y d h := by
    have hn : (running c b closed).codeAt y = none :=
      (List.getElem_replicate _ : (List.replicate 257 (none : Option Code))[y.val]'_ = none)
    exact absurd (hn.symm.trans h) nofun
  doneErr _ := rfl
  busy _ := ⟨rfl, rfl, rfl, rfl, rfl, rfl⟩
  held h := by cases h
  idle h := by cases h

theorem running_inv (c : Word) (b : Bits) (closed : Bool) : (running c b closed).Inv := running_with_inv c b closed []

/-- While `rst` is asserted the invariant holds of the reset values (70_reset_and_hazards.md R290). -/
theorem held_inv : ({ State.reset with rstHeld := true } : State).Inv where
  pqSize := Nat.zero_le _
  pqSorted := .nil
  nodeCount := Nat.zero_le _
  tree h := by cases h
  codes h := by cases h
  prepass h := by cases h
  codeFits y d h := by
    have hn : State.reset.codeAt y = none :=
      (List.getElem_replicate _ : (List.replicate 257 (none : Option Code))[y.val]'_ = none)
    exact absurd (hn.symm.trans h) nofun
  doneErr _ := rfl
  busy h := by cases h
  held _ := rfl
  idle _ := rfl

theorem witness_IllegalWords : ∃ (s : State) (c : Word), s.seq = .busy c ∧ s.rstHeld = false ∧ s.agenda = [] ∧
    ∃ e, decode c = .error e :=
  ⟨running 0x120 [] true, 0x120, rfl, rfl, rfl, .fNotAllowed, rfl⟩

theorem witness_StepRuns :
    (∃ (s : State) (c : Word) (i : Instr), s.seq = .busy c ∧ s.rstHeld = false ∧ decode c = .ok i ∧ s.agenda = []) ∧
    (∃ (s : State) (c : Word) (i : Instr) (ms : List Move), s.seq = .busy c ∧ s.rstHeld = false ∧ decode c = .ok i ∧
      s.agenda = .sequencer :: ms) ∧
    (∃ s : State, s.seq = .idle ∧ s.agenda = []) ∧ (∃ s : State, s.rstHeld = true ∧ s.agenda = []) ∧
    (∃ (s : State) (ms : List Move), s.seq = .idle ∧ s.agenda = .sequencer :: ms) ∧
    (∃ (s : State) (a : HostAct) (ms : List Move), s.agenda = .host a :: ms) ∧
    ∃ (w : Nat) (i : Instr), decodeTableWord 32 w = some i :=
  ⟨⟨running 0x20 [] true, 0x20, .count, rfl, rfl, rfl, rfl⟩,
    ⟨{ running 0x231 [] true with agenda := [.sequencer] }, 0x231, .commit true, [], rfl, rfl, rfl, rfl⟩,
    ⟨State.reset, rfl, rfl⟩, ⟨{ State.reset with rstHeld := true }, rfl, rfl⟩,
    ⟨{ State.reset with agenda := [.sequencer] }, [], rfl, rfl⟩,
    ⟨{ State.reset with agenda := [.host (.rst true)] }, .rst true, [], rfl⟩, ⟨0x130, .prepass .stf, rfl⟩⟩

theorem witness_AccessRefused :
    ¬(2 = 4 ∧ (0x000#12).toNat % 4 = 0) ∧ ¬(4 = 4 ∧ (0xFFF#12).toNat % 4 = 0) ∧ (4 = 4 ∧ (0xFFC#12).toNat % 4 = 0) := by
  decide

theorem witness_CmdAcceptance :
    (∃ s : State, s.seq = .idle ∧ s.rstHeld = false) ∧
    ∃ (t : State) (c : Word), t.seq = .busy c ∧ t.rstHeld = false ∧ ∃ e, decode c = .error e :=
  ⟨⟨State.reset, rfl, rfl⟩, running 0 [] true, 0, rfl, rfl, .unknownOp, rfl⟩

theorem witness_CmdOverrun : ∃ (s : State) (c : Word), s.seq = .busy c ∧ s.rstHeld = false :=
  ⟨running 0x20 [] false, 0x20, rfl, rfl⟩

theorem witness_BusyAccess :
    ∃ (s : State) (c : Word), s.seq = .busy c ∧
      (∃ off : BitVec 12, off.toNat % 4 = 0 ∧ off ≠ 0x004) ∧ (∃ off : BitVec 12, off.toNat % 4 = 0 ∧ off = 0x008) ∧
      ∃ off : BitVec 12, off.toNat % 4 = 0 ∧ off ≠ 0x008 :=
  ⟨running 0x20 [] false, 0x20, rfl, ⟨0xFFC, by decide⟩, ⟨0x008, by decide⟩, ⟨0x000, by decide⟩⟩

theorem witness_StatusRead :
    (∃ s : State, s.seq = .idle ∧ s.error = none) ∧ ∃ (s : State) (e : ErrCode), s.seq = .idle ∧ s.error = some e :=
  ⟨⟨State.reset, rfl, rfl⟩, { State.reset with error := some .noCode }, .noCode, rfl, rfl⟩

theorem witness_StatusConfigWrites : ∃ s : State, s.seq = .idle ∧ s.rstHeld = false := ⟨State.reset, rfl, rfl⟩

theorem witness_FreqWrite : ∃ s : State, s.seq = .idle ∧ s.rstHeld = false ∧ s.freqIdx = 0xFF ∧ s.prepassValid = true :=
  ⟨{ State.reset with freqIdx := 0xFF, prepassValid := true }, rfl, rfl, rfl, rfl⟩

theorem witness_IndexRegisters :
    (∃ s : State, s.seq = .idle ∧ s.rstHeld = false ∧ s.nodes.length ≤ s.nodeIdx.toNat) ∧
    ∃ s : State, s.seq = .idle ∧ s.rstHeld = false ∧ 256 < s.codeIdx.toNat :=
  ⟨⟨{ abc [] with nodeIdx := 7 }, rfl, rfl, by decide⟩, { abc [] with codeIdx := 257 }, rfl, rfl, by decide⟩

theorem witness_NodeWindow :
    (∃ (s : State) (y : Sym) (w : BitVec 32), s.seq = .idle ∧ s.rstHeld = false ∧
      s.nodes[s.nodeIdx.toNat]? = some (.leaf y w)) ∧
    (∃ (s : State) (l r : NodeIdx) (w : BitVec 32), s.seq = .idle ∧ s.rstHeld = false ∧
      s.nodes[s.nodeIdx.toNat]? = some (.int l r w)) ∧
    ∃ s : State, s.seq = .idle ∧ s.rstHeld = false ∧ s.nodes.length ≤ s.nodeIdx.toNat :=
  ⟨⟨{ abc [] with nodeIdx := 3 }, 256, 1, rfl, rfl, rfl⟩, ⟨{ abc [] with nodeIdx := 6 }, 4, 5, 7, rfl, rfl, rfl⟩,
    { abc [] with nodeIdx := 7 }, rfl, rfl, by decide⟩

theorem witness_CodeWindow :
    (∃ (s : State) (y : Sym) (c : Code), s.seq = .idle ∧ s.rstHeld = false ∧ s.codesValid = true ∧
      s.codeIdx.toNat = y.val ∧ s.codeAt y = some c) ∧
    (∃ s : State, s.seq = .idle ∧ s.rstHeld = false ∧ s.codesValid = false) ∧
    (∃ s : State, s.seq = .idle ∧ s.rstHeld = false ∧ 256 < s.codeIdx.toNat) ∧
    (∃ (s : State) (y : Sym), s.seq = .idle ∧ s.rstHeld = false ∧ s.codesValid = true ∧ s.codeIdx.toNat = y.val ∧
      s.codeAt y = none) ∧
    ∃ c : Code, 0 < c.len.toNat :=
  ⟨⟨{ abc [] with codeIdx := 256 }, 256, ⟨2, 2⟩, rfl, rfl, rfl, rfl, by decide +kernel⟩, ⟨State.reset, rfl, rfl, rfl⟩,
    ⟨{ abc [] with codeIdx := 257 }, rfl, rfl, by decide⟩,
    ⟨{ abc [] with codeIdx := 0x64 }, 0x64, rfl, rfl, rfl, rfl, by decide +kernel⟩, ⟨256, 1⟩, by decide⟩

theorem witness_ReadOnlyReserved :
    ∃ (s : State) (off : BitVec 12), s.seq = .idle ∧ off.toNat % 4 = 0 ∧ 0x0A0 ≤ off.toNat :=
  ⟨State.reset, 0x0A0, rfl, by decide, by decide⟩

theorem witness_Readback : ∃ s : State, s.seq = .idle ∧ s.rstHeld = false ∧ s.nodes.length ≤ 513 ∧ s.pq.length ≤ 257 :=
  ⟨{ abc [] with pq := List.replicate 257 ⟨0, 0⟩ }, rfl, rfl, by decide, List.length_replicate.le⟩

/-- A write to CMD, 0x004, among the writes; a step that ends the reset and one that does not. -/
theorem witness_HardReset :
    (∃ s : State, s.seq = .idle) ∧ (∃ s : State, s.rstHeld = false) ∧
    (∃ (s t : State) (off : BitVec 12), s.rstHeld = true ∧ s = s.blockReset ∧ off.toNat % 4 = 0 ∧ off = 0x004 ∧
      step s = .next t) ∧
    ∃ s t : State, s.rstHeld = true ∧ s = s.blockReset ∧ step s = .next t ∧ t.rstHeld = false :=
  ⟨⟨State.reset, rfl⟩, ⟨State.reset, rfl⟩, ⟨{ State.reset with rstHeld := true }, _, 0x004, rfl, rfl, by decide, rfl, rfl⟩,
    { State.reset with rstHeld := true, agenda := [.host (.rst false)] }, _, rfl, rfl, rfl, rfl⟩

theorem witness_PortActions :
    (∃ s : State, s.inClosed = false) ∧ (∃ s : State, s.inClosed = true) ∧ (∃ s : State, s.seq = .idle) ∧
    ∃ (s : State) (c : Word), s.seq = .busy c :=
  ⟨⟨running 0x20 [] false, rfl⟩, ⟨State.reset, rfl⟩, ⟨State.reset, rfl⟩, running 0x20 [] false, 0x20, rfl⟩

theorem witness_IrqLevel :
    (∃ (s t : State) (i : Instr), s.busy = true ∧ exec i s = .next t ∧ t.busy = false) ∧
    (∃ s t : State, s.seq = .idle ∧ s.rstHeld = false ∧ Writes s 0x008 0x00000006 t) ∧
    ∃ (s t : State) (c : Word), s.seq = .idle ∧ s.rstHeld = false ∧ Writes s 0x004 c t :=
  ⟨⟨running 0x10 [] true, _, .pqClear, rfl, rfl, rfl⟩, ⟨State.reset, _, rfl, rfl, rfl⟩, State.reset, _, 0x20, rfl, rfl, rfl⟩

/-- SERIALIZE runs on the tree of V-TREE-2; every k is one. -/
theorem witness_DrainDuringBusy : ∃ (s t : State) (c : Word) (i : Instr),
    s.seq = .busy c ∧ decode c = .ok i ∧ exec i s = .next t ∧ t.busy = false := by
  obtain ⟨t, h, hp⟩ := next_with (o := exec .serialize ((abc []).accept 0x23)) (fun t => !t.busy) (by decide +kernel)
  exact ⟨_, t, 0x23, .serialize, rfl, rfl, h, by simpa using hp⟩

/-- DESERIALIZE of one leaf with IN open. -/
theorem witness_LaterBits : ∃ (s t : State) (i : Instr),
    s.busy = true ∧ s.inClosed = false ∧ exec i s = .next t ∧ t.busy = false := by
  obtain ⟨t, h, hp⟩ := next_with (o := exec .deserialize (running 0x24 (bitsOfNat 10 0b1100000000) false))
    (fun t => !t.busy) (by decide +kernel)
  exact ⟨_, t, .deserialize, rfl, rfl, h, by simpa using hp⟩

/-- COUNT waits; every instruction the statement names runs into its next state. -/
theorem witness_OpenInputWaits :
    (∃ s t : State, s.inClosed = false ∧ s.done = false ∧ exec .count s = .next t) ∧
    (∃ s t : State, s.inClosed = false ∧ s.done = false ∧ exec .encode s = .next t) ∧
    (∃ s t : State, s.inClosed = false ∧ s.done = false ∧ exec (.prepass .scf) s = .next t) ∧
    (∃ s t : State, s.inClosed = false ∧ s.done = false ∧ exec (.commit true) s = .next t) ∧
    ∃ s t : State, s.inClosed = false ∧ s.done = false ∧ exec (.commit false) s = .next t ∧ 0 < s.saved.toInt := by
  obtain ⟨t1, h1, -⟩ := next_with (o := exec .count (running 0x20 abcInput false)) (fun _ => true) (by decide +kernel)
  obtain ⟨t2, h2, -⟩ := next_with (o := exec .encode { abc abcInput with inClosed := false }) (fun _ => true) (by decide +kernel)
  obtain ⟨t3, h3, -⟩ := next_with (o := exec (.prepass .scf) (running 0x30 abcInput false)) (fun _ => true) (by decide +kernel)
  obtain ⟨t4, h4, -⟩ := next_with (o := exec (.commit true) { abc abcInput with inClosed := false, prepassValid := true })
    (fun _ => true) (by decide +kernel)
  obtain ⟨t5, h5, -⟩ := next_with
    (o := exec (.commit false) { abc abcInput with inClosed := false, prepassValid := true, saved := 1 })
    (fun _ => true) (by decide +kernel)
  exact ⟨⟨_, t1, rfl, rfl, h1⟩, ⟨_, t2, rfl, rfl, h2⟩, ⟨_, t3, rfl, rfl, h3⟩, ⟨_, t4, rfl, rfl, h4⟩, _, t5, rfl, rfl, h5,
    by decide⟩

theorem witness_PortAdmission :
    (∃ s : State, s.config.inAttached = false) ∧ (∃ s : State, s.config.outAttached = false) ∧
    ∃ (i : Instr) (s t : State), s.error ≠ some .invalidArg ∧ exec i s = .next t ∧ t.error = some .invalidArg :=
  ⟨⟨State.reset, rfl⟩, ⟨State.reset, rfl⟩, .serialize, State.reset, _, nofun, rfl, rfl⟩

theorem witness_SequenceAdmission :
    (∃ s : State, s.treeValid = false ∧ s.config.outAttached = true) ∧
    (∃ s : State, s.config.inAttached = true ∧ s.config.outAttached = true ∧ s.treeValid = false ∧ s.codesValid = false ∧
      s.prepassValid = false) ∧
    ∃ (i : Instr) (s t : State), s.error ≠ some .sequence ∧ exec i s = .next t ∧ t.error = some .sequence :=
  ⟨⟨ready [], rfl, rfl⟩, ⟨ready [], rfl, rfl, rfl, rfl, rfl⟩, .codegen, State.reset, _, nofun, rfl, rfl⟩

theorem witness_Completion : ∃ (s t : State) (i : Instr), s.Inv ∧ s.busy = true ∧ exec i s = .next t ∧ t.busy = false :=
  ⟨running 0x12 [] true, _, .pqDeq, running_inv _ _ _, rfl, rfl, rfl⟩

/-- On a closed IN, and on an open one that makes COUNT wait. -/
theorem witness_CommandsEnd :
    (∃ s : State, s.Inv ∧ s.busy = true ∧ s.inClosed = true) ∧ ∃ s : State, s.Inv ∧ s.busy = true ∧ s.inClosed = false :=
  ⟨⟨running 0x20 [] true, running_inv _ _ _, rfl, rfl⟩, running 0x20 [] false, running_inv _ _ _, rfl, rfl⟩

/-- A success, a failed admission, and another error. -/
theorem witness_FlagTable :
    (∃ (s t : State) (i : Instr), s.Inv ∧ s.busy = true ∧ exec i s = .next t ∧ t.busy = false ∧ t.error = none) ∧
    (∃ (s t : State) (i : Instr), s.Inv ∧ s.busy = true ∧ exec i s = .next t ∧ t.busy = false ∧ t.error = some .sequence) ∧
    ∃ (s t : State) (i : Instr) (e : ErrCode), s.Inv ∧ s.busy = true ∧ exec i s = .next t ∧ t.busy = false ∧
      t.error = some e ∧ e ≠ .invalidArg ∧ e ≠ .sequence :=
  ⟨⟨running 0x10 [] true, _, .pqClear, running_inv _ _ _, rfl, rfl, rfl, rfl⟩,
    ⟨running 0x22 [] true, _, .codegen, running_inv _ _ _, rfl, rfl, rfl, rfl⟩,
    running 0x12 [] true, _, .pqDeq, .pqEmpty, running_inv _ _ _, rfl, rfl, rfl, rfl, nofun, nofun⟩

/-- A command of every side of the frame's cases: PQ_DEQ has none of the streams, ENCODE both. -/
theorem witness_CommandFrame :
    (∃ s t : State, exec .pqDeq s = .next t) ∧ ∃ s t : State, exec .encode s = .next t := by
  obtain ⟨t, h, -⟩ := next_with (o := exec .encode (abc abcInput)) (fun _ => true) (by decide +kernel)
  exact ⟨⟨State.reset, _, rfl⟩, _, t, h⟩

theorem witness_PqEnqRuns : (∃ s : State, s.pq.length < 257) ∧ ∃ s : State, 257 ≤ s.pq.length :=
  ⟨⟨{ State.reset with pq := List.replicate 256 ⟨0, 0⟩ }, Nat.lt_succ_of_le List.length_replicate.le⟩,
    { State.reset with pq := List.replicate 257 ⟨0, 0⟩ }, List.length_replicate.ge⟩

theorem witness_PqDeqRuns : (∃ (s : State) (e : Entry) (q : List Entry), s.pq = e :: q) ∧ ∃ s : State, s.pq = [] :=
  ⟨⟨{ State.reset with pq := [⟨1, 2⟩] }, ⟨1, 2⟩, [], rfl⟩, State.reset, rfl⟩

/-- 257 entries, the most the queue holds, with equal keys among them. -/
theorem witness_QueueStable : ∃ (s : State) (es : List Entry), s.pq = [] ∧ s.error = none ∧ es.length ≤ 257 ∧ es.length = 257 :=
  ⟨State.reset, (List.range 257).map fun n => ⟨BitVec.ofNat 32 (n % 7), BitVec.ofNat 16 n⟩, rfl, rfl, by simp, by simp⟩

/-- V-CNT-2. -/
theorem witness_CountRuns : ∃ (s : State) (xs : List InWord) (rest : Bits), s.config.inAttached = true ∧ s.inClosed = true ∧
    s.inp = wordBits xs ++ rest ∧ rest.length < 8 ∧ ∀ w, xs.count w < 2 ^ 32 :=
  ⟨ready (abcInput ++ [true, false, true]), [0x61, 0x61, 0x61, 0x62, 0x63], [true, false, true], rfl, rfl, rfl, by decide,
    fun _ => Nat.lt_of_le_of_lt (List.count_le_length) (by decide)⟩

/-- V-CNT-4. -/
theorem witness_CountOverflow : ∃ (s : State) (xs : List InWord) (w : InWord) (rest : Bits), s.config.inAttached = true ∧
    s.inp = wordBits xs ++ (bitsOfNat 8 w.toNat ++ rest) ∧ (∀ v, xs.count v < 2 ^ 32) ∧ xs.count w = 2 ^ 32 - 1 := by
  have h : ∀ n, ∃ (s : State) (xs : List InWord) (w : InWord) (rest : Bits), s.config.inAttached = true ∧
      s.inp = wordBits xs ++ (bitsOfNat 8 w.toNat ++ rest) ∧ (∀ v, xs.count v ≤ n) ∧ xs.count w = n := fun n =>
    ⟨ready (wordBits (List.replicate n 0) ++ (bitsOfNat 8 (0 : InWord).toNat ++ [])), List.replicate n 0, 0, [], rfl, rfl,
      fun v => (List.count_le_length).trans_eq List.length_replicate, List.count_replicate_self⟩
  obtain ⟨s, xs, w, rest, h1, h2, h3, h4⟩ := h (2 ^ 32 - 1)
  exact ⟨s, xs, w, rest, h1, h2, fun v => Nat.lt_of_le_of_lt (h3 v) (by norm_num), h4⟩

/-- One symbol counted: every other frequency is 0. -/
theorem one_symbol (w : InWord) (v : BitVec 32) :
    (∀ x, x ≠ w → (State.reset.setFreq w v).freqAt x = 0) ∧ (State.reset.setFreq w v).freqAt w = v := by
  have h0 : ∀ x, State.reset.freqAt x = 0 := fun x =>
    (List.getElem_replicate _ : (List.replicate 256 (0 : BitVec 32))[x.toFin.val]'_ = 0)
  exact ⟨fun x hx => by rw [freqAt_setFreq, if_neg (Ne.symm hx), h0], by rw [freqAt_setFreq, if_pos rfl]⟩

theorem witness_BuildCorners :
    (∃ s : State, ∀ w, s.freqAt w = 0) ∧
    (∃ (s : State) (w : InWord), (∀ x, x ≠ w → s.freqAt x = 0) ∧ s.freqAt w = 1) ∧
    (∃ (s : State) (w : InWord), (∀ x, x ≠ w → s.freqAt x = 0) ∧ s.freqAt w = 2) ∧
    ∃ (s : State) (w : InWord), (∀ x, x ≠ w → s.freqAt x = 0) ∧ s.freqAt w = 0xFFFFFFFF :=
  ⟨⟨State.reset, fun x => (List.getElem_replicate _ : (List.replicate 256 (0 : BitVec 32))[x.toFin.val]'_ = 0)⟩,
    ⟨_, 0x41, one_symbol 0x41 1⟩, ⟨_, 0, one_symbol 0 2⟩, _, 0xFF, one_symbol 0xFF 0xFFFFFFFF⟩

theorem witness_BuildOfFreqAlone : ∃ s u : State, s.freq = u.freq ∧ s.pq ≠ u.pq ∧ s.nodes ≠ u.nodes :=
  ⟨abc [], { State.reset with freq := (abc []).freq, pq := [⟨7, 7⟩] }, rfl, by decide, by decide⟩

/-- The tree of V-TREE-2. -/
def abcTree : Machine.Tree :=
  .node (.node (.leaf 0x62) (.leaf 0x63)) (.node (.leaf 256) (.leaf 0x61))

theorem abc_tree (b : Bits) : (abc b).tree = some abcTree := by rfl

theorem witness_CodegenRuns : ∃ (s : State) (t : Machine.Tree), s.treeValid = true ∧ s.tree = some t :=
  ⟨abc [], abcTree, rfl, abc_tree []⟩

theorem witness_SerializeRuns : ∃ (s : State) (t : Machine.Tree), s.config.outAttached = true ∧ s.treeValid = true ∧
    s.tree = some t := ⟨abc [], abcTree, rfl, rfl, abc_tree []⟩

/-- V-DES-2. -/
theorem witness_DeserializeRuns : ∃ (s : State) (t : Machine.Tree) (rest : Bits), s.config.inAttached = true ∧ s.inBits = 0 ∧
    s.inp = t.bits ++ rest ∧ t.size ≤ 513 :=
  ⟨ready (bitsOfNat 13 0b1100000000101), .leaf 256, [true, false, true], rfl, rfl, rfl, by decide⟩

/-- The place below `n` internal nodes, each on the left of the one above. -/
def leftSpine (n : Nat) : Cut :=
  match n with
  | 0     => .here
  | k + 1 => .left (leftSpine k)

theorem leftSpine_size (n : Nat) : (leftSpine n).size = n := by
  induction n with
  | zero => rfl
  | succ k ih => exact congrArg (· + 1) ih

/-- A state meets the premises about a tree that ends with an error at `c`, behind what `head` puts before it. -/
def EndsAt (head : Bits → Bits) (c : Cut) (b : Bits) (e : ErrCode) (n : Nat) (rest : Bits) : Prop :=
  ∃ s : State, s.config.inAttached = true ∧ s.config.outAttached = true ∧ s.inBits = 0 ∧ s.inClosed = true ∧
    s.inp = head (c.bits ++ b) ∧ c.size ≤ 513 ∧ CutEnd s.inClosed c b e n rest

theorem endsAt {head : Bits → Bits} {c : Cut} {b : Bits} {e : ErrCode} {n : Nat} {rest : Bits} (hc : c.size ≤ 513)
    (h : CutEnd true c b e n rest) : EndsAt head c b e n rest :=
  ⟨ready (head (c.bits ++ b)), rfl, rfl, rfl, rfl, rfl, hc, h⟩

/-- Each way to end, at its bounds, on the left spine and off it, and after more than 256 zero tags. -/
theorem cut_ends (head : Bits → Bits) :
    EndsAt head .here [] .truncated 0 [] ∧ EndsAt head (leftSpine 513) [] .truncated 0 [] ∧
    EndsAt head .here [true, true, false, false, false] .truncated 1 [true, false, false, false] ∧
    EndsAt head (.right (.leaf 0x62) .here) (true :: bitsOfNat 8 0xFF) .truncated 1 (bitsOfNat 8 0xFF) ∧
    EndsAt head (.right (.leaf 0x62) .here) (true :: (bitsOfNat 9 257 ++ [])) .badSymbol 10 [] ∧
    EndsAt head (leftSpine 513) (true :: (bitsOfNat 9 511 ++ [])) .badSymbol 10 [] ∧
    EndsAt head (leftSpine 513) (false :: []) .treeOverflow 1 [] ∧
    EndsAt head (.right (.leaf 0) (leftSpine 511)) (false :: []) .treeOverflow 1 [] ∧
    EndsAt head (leftSpine 513) (true :: (bitsOfNat 9 256 ++ [])) .treeOverflow 10 [] ∧
    EndsAt head (.right (.leaf 0) (leftSpine 511)) (true :: (bitsOfNat 9 0 ++ [])) .treeOverflow 10 [] := by
  have h1 := leftSpine_size 513
  have h2 : (Cut.right (.leaf 0) (leftSpine 511)).size = 513 := by simp [Cut.size, Machine.Tree.size, leftSpine_size]
  exact ⟨endsAt (by decide) (.noTag rfl), endsAt h1.le (.noTag rfl), endsAt (by decide) (.noSymbol rfl _ (by decide)),
    endsAt (by decide) (.noSymbol rfl _ (by decide)), endsAt (by decide) (.badSymbol 257 (by decide) (by decide) []),
    endsAt h1.le (.badSymbol 511 (by decide) (by decide) []), endsAt h1.le (.noInt h1 []), endsAt h2.le (.noInt h2 []),
    endsAt h1.le (.noLeaf h1 256 (by decide) []), endsAt h2.le (.noLeaf h2 0 (by decide) [])⟩

/-- V-DES-5 and its neighbours. The other ends are `cut_ends id`; the second clause's premises hold of any closed IN. -/
theorem witness_DeserializeErrors :
    EndsAt id .here [true, true, false, false, false] .truncated 1 [true, false, false, false] ∧
    EndsAt id (.right (.leaf 0x62) .here) (true :: (bitsOfNat 9 257 ++ [])) .badSymbol 10 [] ∧
    EndsAt id (.right (.leaf 0) (leftSpine 511)) (true :: (bitsOfNat 9 0 ++ [])) .treeOverflow 10 [] ∧
    ∃ s : State, s.config.inAttached = true ∧ s.inBits = 0 ∧ s.inClosed = true := by
  obtain ⟨-, -, h1, -, h2, -, -, -, -, h3⟩ := cut_ends id
  exact ⟨h1, h2, h3, ready [], rfl, rfl, rfl⟩

theorem witness_SerdesRoundTrip : ∃ (s v : State) (t : Machine.Tree) (rest : Bits),
    s.config.outAttached = true ∧ s.treeValid = true ∧ s.outEarly = 0 ∧ s.tree = some t ∧ t.size ≤ 513 ∧
    v.config.inAttached = true ∧ v.config.outAttached = true ∧ v.inBits = 0 ∧ v.inp = t.bits ++ rest :=
  ⟨abc [], ready (abcTree.bits ++ [true]), abcTree, [true], rfl, rfl, rfl, abc_tree [], by decide, rfl, rfl, rfl, rfl⟩

theorem witness_EncodeRuns : ∃ (s : State) (xs : List InWord) (rest : Bits),
    s.config.inAttached = true ∧ s.config.outAttached = true ∧ s.codesValid = true ∧ s.inClosed = true ∧
    s.inp = wordBits xs ++ rest ∧ rest.length < 8 ∧ (∀ w ∈ xs, (s.codeAt (symOfWord w)).isSome = true) ∧
    (s.codeAt Config.eof).isSome = true :=
  ⟨abc abcInput, [0x61, 0x61, 0x61, 0x62, 0x63], [], rfl, rfl, rfl, rfl, rfl, by decide, by decide +kernel, by decide +kernel⟩

/-- V-ENC-3 and V-ENC-5. -/
theorem witness_EncodeNoCode :
    (∃ (s : State) (xs : List InWord) (w : InWord) (rest : Bits), s.config.inAttached = true ∧ s.config.outAttached = true ∧
      s.codesValid = true ∧ (∀ w ∈ xs, (s.codeAt (symOfWord w)).isSome = true) ∧
      s.inp = wordBits xs ++ (bitsOfNat 8 w.toNat ++ rest) ∧ s.codeAt (symOfWord w) = none) ∧
    ∃ (s : State) (xs : List InWord) (rest : Bits), s.config.inAttached = true ∧ s.config.outAttached = true ∧
      s.codesValid = true ∧ (∀ w ∈ xs, (s.codeAt (symOfWord w)).isSome = true) ∧ s.inClosed = true ∧
      s.inp = wordBits xs ++ rest ∧ rest.length < 8 ∧ s.codeAt Config.eof = none :=
  ⟨⟨abc (bitsOfNat 16 0x6164), [0x61], 0x64, [], rfl, rfl, rfl, by decide +kernel, rfl, by decide +kernel⟩,
    { ready [] with codesValid := true, code := codesOf [(0, ⟨1, 1⟩)] }, [], [], rfl, rfl, rfl, by decide, rfl, rfl, by decide,
    by decide +kernel⟩

/-- V-DEC-2, and the tree of the sentinel's leaf alone (V-DEC-5). -/
theorem witness_DecodeRuns :
    (∃ (s : State) (t : Machine.Tree) (ps : List (InWord × Bits)) (e rest : Bits), s.config.inAttached = true ∧
      s.config.outAttached = true ∧ s.treeValid = true ∧ s.tree = some t ∧
      (∀ p ∈ ps, t.follow p.2 = some (.leaf (symOfWord p.1))) ∧ t.follow e = some (.leaf Config.eof) ∧
      s.inp = pathBits ps ++ e ++ rest ∧ ps.length = 5) ∧
    ∃ (s : State) (t : Machine.Tree) (ps : List (InWord × Bits)) (e rest : Bits), s.config.inAttached = true ∧
      s.config.outAttached = true ∧ s.treeValid = true ∧ s.tree = some t ∧
      (∀ p ∈ ps, t.follow p.2 = some (.leaf (symOfWord p.1))) ∧ t.follow e = some (.leaf Config.eof) ∧
      s.inp = pathBits ps ++ e ++ rest ∧ t = .leaf 256 :=
  ⟨⟨abc (bitsOfNat 16 0b1111110001100101), abcTree,
      [(0x61, [true, true]), (0x61, [true, true]), (0x61, [true, true]), (0x62, [false, false]), (0x63, [false, true])],
      [true, false], [false, true, false, true], rfl, rfl, rfl, abc_tree _, by decide, by decide, rfl, rfl⟩,
    { ready [true] with nodes := [.leaf 256 1], treeValid := true }, .leaf 256, [], [], [true], rfl, rfl, rfl, rfl,
    by decide, rfl, rfl, rfl⟩

/-- V-DEC-6 and V-DEC-3. -/
theorem witness_DecodeErrors :
    (∃ (s : State) (t : Machine.Tree) (y : Sym), s.config.inAttached = true ∧ s.config.outAttached = true ∧
      s.treeValid = true ∧ s.tree = some t ∧ t = .leaf y ∧ y ≠ Config.eof) ∧
    ∃ (s : State) (t : Machine.Tree) (ps : List (InWord × Bits)) (e : Bits) (a b : Machine.Tree), s.config.inAttached = true ∧
      s.config.outAttached = true ∧ s.treeValid = true ∧ s.tree = some t ∧
      (∀ p ∈ ps, t.follow p.2 = some (.leaf (symOfWord p.1))) ∧ t.follow e = some (.node a b) ∧
      s.inp = pathBits ps ++ e ∧ s.inClosed = true :=
  ⟨⟨{ ready [true] with nodes := [.leaf 0x41 0], treeValid := true }, .leaf 0x41, 0x41, rfl, rfl, rfl, rfl, rfl, by decide⟩,
    abc (bitsOfNat 5 0b00011), abcTree, [(0x62, [false, false]), (0x63, [false, true])], [true], .leaf 256, .leaf 0x61, rfl,
    rfl, rfl, abc_tree _, by decide, rfl, rfl, rfl⟩

theorem witness_EncodeDecode : ∃ (s v : State) (t : Machine.Tree) (xs : List InWord) (rest : Bits),
    s.config.inAttached = true ∧ s.config.outAttached = true ∧ s.codesValid = true ∧ s.inClosed = true ∧
    s.outEarly = 0 ∧ s.inp = wordBits xs ++ rest ∧ rest.length < 8 ∧ t.size ≤ 513 ∧
    (∀ y, s.codeAt y = (t.pathOf y).map codeOfPath) ∧ (∀ w ∈ xs, symOfWord w ∈ t.leaves) ∧ Config.eof ∈ t.leaves ∧
    v.config.inAttached = true ∧ v.config.outAttached = true ∧ v.treeValid = true ∧ v.tree = some t ∧ v.outEarly = 0 :=
  ⟨abc abcInput, abc [], abcTree, [0x61, 0x61, 0x61, 0x62, 0x63], [], rfl, rfl, rfl, rfl, rfl, rfl, by decide, by decide,
    by decide +kernel, by decide, by decide, rfl, rfl, rfl, abc_tree [], rfl⟩

/-- V-PIPE-1. -/
theorem witness_PrepassRuns : ∃ (s : State) (xs : List InWord) (rest : Bits), s.config.inAttached = true ∧ s.inClosed = true ∧
    s.inp = wordBits xs ++ rest ∧ rest.length < 8 ∧ ∀ w, xs.count w < 2 ^ 32 :=
  ⟨ready abcInput, [0x61, 0x61, 0x61, 0x62, 0x63], [], rfl, rfl, rfl, by decide,
    fun _ => Nat.lt_of_le_of_lt (List.count_le_length) (by decide)⟩

/-- SAVED at its bound, 0. -/
theorem witness_CommitRefuses : ∃ s : State, s.config.inAttached = true ∧ s.config.outAttached = true ∧
    s.prepassValid = true ∧ s.saved.toInt ≤ 0 := ⟨{ ready [] with prepassValid := true }, rfl, rfl, rfl, by decide⟩

/-- V-PIPE-1 forced, V-PIPE-9, and a table without the sentinel's code. -/
theorem witness_CommitRuns :
    (∃ (s : State) (force : Bool) (t : Machine.Tree) (xs : List InWord) (rest : Bits), s.config.inAttached = true ∧
      s.config.outAttached = true ∧ s.prepassValid = true ∧ (force = true ∨ 0 < s.saved.toInt) ∧ s.tree = some t ∧
      s.treeBits.toNat = t.bits.length ∧ (∀ w ∈ xs, (s.codeAt (symOfWord w)).isSome = true) ∧ s.inClosed = true ∧
      s.inp = wordBits xs ++ rest ∧ rest.length < 8 ∧ (s.codeAt Config.eof).isSome = true) ∧
    (∃ (s : State) (force : Bool) (t : Machine.Tree) (xs : List InWord) (w : InWord) (rest : Bits),
      s.config.inAttached = true ∧ s.config.outAttached = true ∧ s.prepassValid = true ∧
      (force = true ∨ 0 < s.saved.toInt) ∧ s.tree = some t ∧ s.treeBits.toNat = t.bits.length ∧
      (∀ w ∈ xs, (s.codeAt (symOfWord w)).isSome = true) ∧
      s.inp = wordBits xs ++ (bitsOfNat 8 w.toNat ++ rest) ∧ s.codeAt (symOfWord w) = none) ∧
    ∃ (s : State) (force : Bool) (t : Machine.Tree) (xs : List InWord) (rest : Bits), s.config.inAttached = true ∧
      s.config.outAttached = true ∧ s.prepassValid = true ∧ (force = true ∨ 0 < s.saved.toInt) ∧ s.tree = some t ∧
      s.treeBits.toNat = t.bits.length ∧ (∀ w ∈ xs, (s.codeAt (symOfWord w)).isSome = true) ∧ s.inClosed = true ∧
      s.inp = wordBits xs ++ rest ∧ rest.length < 8 ∧ s.codeAt Config.eof = none :=
  ⟨⟨{ abc abcInput with fmt := .stf, prepassValid := true }, true, abcTree, [0x61, 0x61, 0x61, 0x62, 0x63], [], rfl, rfl, rfl,
      .inl rfl, abc_tree abcInput, by decide, by decide +kernel, rfl, rfl, by decide, by decide +kernel⟩,
    ⟨{ abc (bitsOfNat 16 0x6164) with prepassValid := true, saved := 1 }, false, abcTree, [0x61], 0x64, [], rfl, rfl, rfl,
      .inr (by decide), abc_tree (bitsOfNat 16 0x6164), by decide, by decide +kernel, rfl, by decide +kernel⟩,
    { abc (bitsOfNat 15 0x3080) with prepassValid := true, saved := 1, code := codesOf [(0x61, ⟨2, 3⟩)] }, false, abcTree,
    [0x61], List.replicate 7 false, rfl, rfl, rfl, .inr (by decide), abc_tree (bitsOfNat 15 0x3080), by decide,
    by decide +kernel, rfl, rfl, by decide, by decide +kernel⟩

/-- COMMIT running after PREPASS.STF on twenty bytes 0x41: TREE_BITS 21, EST = 96 + 21 + 20 + 1, SAVED = 160 - 138
(44_pipeline.md R232, R233). -/
def twenty : State :=
  { running 0x31 (wordBits (List.replicate 20 0x41)) true with
    freq := freqOf [(0x41, 20)], inwords := 20, nodes := [.leaf 0x41 20, .leaf 256 1, .int 1 0 3], root := 2, treeBits := 21
    code := codesOf [(256, ⟨1, 0⟩), (0x41, ⟨1, 1⟩)], fmt := .stf, est := 138, saved := 22
    prepassValid := true, treeValid := true, codesValid := true }

theorem twenty_built : twenty.Built (.node (.leaf 256) (.leaf 0x41)) where
  tree := by rfl
  shape := by decide +kernel
  size := by decide
  leaves := by decide +kernel
  records := ⟨[.int 1 0 3], by decide +kernel, by decide +kernel, by simp⟩
  weights j l r w h := by
    have h3 : twenty.nodes = [.leaf 0x41 20, .leaf 256 1, .int 1 0 3] := rfl
    rw [h3] at h
    rcases j with - | - | - | j
    · cases h
    · cases h
    · cases h; exact ⟨.node (.leaf 256) (.leaf 0x41), rfl, rfl⟩
    · simp at h
  treeBits := by decide

theorem twenty_inv : twenty.Inv where
  pqSize := Nat.zero_le _
  pqSorted := .nil
  nodeCount := by decide
  tree _ := ⟨_, twenty_built.tree, twenty_built.size, twenty_built.treeBits⟩
  codes _ := ⟨rfl, _, twenty_built.tree, by decide +kernel⟩
  prepass _ := ⟨rfl, rfl, ⟨_, twenty_built⟩, by decide +kernel, by decide⟩
  codeFits := by
    have h : ∀ y c, twenty.codeAt y = some c → c = ⟨1, 0⟩ ∨ c = ⟨1, 1⟩ := by
      have h' : ∀ y, twenty.codeAt y = none ∨ twenty.codeAt y = some ⟨1, 0⟩ ∨ twenty.codeAt y = some ⟨1, 1⟩ := by
        decide +kernel
      intro y c hc
      rcases h' y with h | h | h <;> rw [h] at hc <;> cases hc
      · exact .inl rfl
      · exact .inr rfl
    intro y c hc
    rcases h y c hc with rfl | rfl <;> exact ⟨by decide, by decide⟩
  doneErr _ := rfl
  busy _ := ⟨rfl, rfl, rfl, rfl, rfl, rfl⟩
  held h := by cases h
  idle h := by cases h

/-- Not forced, with SAVED positive. -/
theorem witness_CommitEqualsEst : ∃ (s : State) (force : Bool) (xs : List InWord) (rest : Bits),
    s.Inv ∧ s.busy = true ∧ s.prepassValid = true ∧ s.config.inAttached = true ∧ s.config.outAttached = true ∧
    s.inClosed = true ∧ s.inp = wordBits xs ++ rest ∧ rest.length < 8 ∧ (∀ w, (s.freqAt w).toNat = xs.count w) ∧
    (force = true ∨ 0 < s.saved.toInt) :=
  ⟨twenty, false, List.replicate 20 0x41, [], twenty_inv, rfl, rfl, rfl, rfl, rfl, rfl, by decide, by decide +kernel,
    .inr (by decide)⟩

/-- The two headers, in front of the empty body of V-PIPE-6 and V-PIPE-7. -/
theorem witness_DecompressRuns :
    (∃ (s : State) (t : Machine.Tree) (ps : List (InWord × Bits)) (e rest : Bits) (f : Table (BitVec 32) 256),
      s.config.inAttached = true ∧ s.config.outAttached = true ∧ s.inBits = 0 ∧
      (∀ p ∈ ps, t.follow p.2 = some (.leaf (symOfWord p.1))) ∧ t.follow e = some (.leaf Config.eof) ∧
      State.huffman { s with freq := f } = some t ∧
      s.inp = bitsOfNat 32 Config.params.magic.toNat ++ (bitsOfNat 32 Config.params.tagScf.toNat ++
        (countBits f.rows ++ (pathBits ps ++ e ++ rest)))) ∧
    ∃ (s : State) (t : Machine.Tree) (ps : List (InWord × Bits)) (e rest : Bits) (d : BitVec 32),
      s.config.inAttached = true ∧ s.config.outAttached = true ∧ s.inBits = 0 ∧
      (∀ p ∈ ps, t.follow p.2 = some (.leaf (symOfWord p.1))) ∧ t.follow e = some (.leaf Config.eof) ∧ t.size ≤ 513 ∧
      s.inp = bitsOfNat 32 Config.params.magic.toNat ++ (bitsOfNat 32 Config.params.tagStf.toNat ++
        (bitsOfNat 32 d.toNat ++ (t.bits ++ (pathBits ps ++ e ++ rest)))) := by
  refine ⟨⟨ready (bitsOfNat 32 Config.params.magic.toNat ++ (bitsOfNat 32 Config.params.tagScf.toNat ++
      (countBits (freqOf [(0x41, 20)]).rows ++ (pathBits [(0x41, [true])] ++ [false] ++ [true])))),
      .node (.leaf 256) (.leaf 0x41), [(0x41, [true])], [false], [true], freqOf [(0x41, 20)], rfl, rfl, rfl, by decide, rfl,
      ?_, rfl⟩,
    ready (bitsOfNat 32 Config.params.magic.toNat ++ (bitsOfNat 32 Config.params.tagStf.toNat ++
      (bitsOfNat 32 (43 : BitVec 32).toNat ++ (abcTree.bits ++ (pathBits [(0x61, [true, true])] ++ [true, false] ++ []))))),
    abcTree, [(0x61, [true, true])], [true, false], [], 43, rfl, rfl, rfl, by decide, rfl, by decide, rfl⟩
  exact (show State.huffman { ready [] with freq := freqOf [(0x41, 20)] } = _ by decide +kernel)

/-- Two values are not all values: a third tag. -/
theorem third_value (a b : BitVec 32) : ∃ g, g ≠ a ∧ g ≠ b := by
  by_cases h0 : (0 : BitVec 32) ≠ a ∧ (0 : BitVec 32) ≠ b
  · exact ⟨0, h0⟩
  by_cases h1 : (1 : BitVec 32) ≠ a ∧ (1 : BitVec 32) ≠ b
  · exact ⟨1, h1⟩
  · exact ⟨2, by bv_omega⟩

/-- The constants of the hardware are opaque, so these streams are written with them. -/
def magicBits : Bits := bitsOfNat 32 Config.params.magic.toNat

/-- The STF tag, a declared length of 43, and `b`. -/
def stfHead (b : Bits) : Bits := bitsOfNat 32 Config.params.tagStf.toNat ++ (bitsOfNat 32 (43 : BitVec 32).toNat ++ b)

/-- Another magic number, an end inside each field at 31 bits of it, another tag, and the last count cut off. -/
theorem witness_DecompressRejects :
    (∃ (s : State) (m : BitVec 32) (rest : Bits), s.config.inAttached = true ∧ s.config.outAttached = true ∧
      m ≠ Config.params.magic ∧ s.inp = bitsOfNat 32 m.toNat ++ rest) ∧
    (∃ s : State, s.config.inAttached = true ∧ s.config.outAttached = true ∧ s.inClosed = true ∧ s.inp.length < 32) ∧
    (∃ (s : State) (b : Bits), s.config.inAttached = true ∧ s.config.outAttached = true ∧ s.inClosed = true ∧
      b.length < 32 ∧ s.inp = magicBits ++ b) ∧
    (∃ (s : State) (g : BitVec 32) (b rest : Bits), s.config.inAttached = true ∧ s.config.outAttached = true ∧
      g ≠ Config.params.tagScf ∧ g ≠ Config.params.tagStf ∧ b = bitsOfNat 32 g.toNat ++ rest ∧ s.inp = magicBits ++ b) ∧
    (∃ (s : State) (cs : List (BitVec 32)) (b rest : Bits), s.config.inAttached = true ∧ s.config.outAttached = true ∧
      s.inClosed = true ∧ cs.length < 256 ∧ rest.length < 32 ∧
      b = bitsOfNat 32 Config.params.tagScf.toNat ++ (countBits cs ++ rest) ∧ s.inp = magicBits ++ b) ∧
    ∃ (s : State) (b rest : Bits), s.config.inAttached = true ∧ s.config.outAttached = true ∧ s.inClosed = true ∧
      rest.length < 32 ∧ b = bitsOfNat 32 Config.params.tagStf.toNat ++ rest ∧ s.inp = magicBits ++ b := by
  obtain ⟨m, hm, -⟩ := third_value Config.params.magic 0
  obtain ⟨g, hg, hg'⟩ := third_value Config.params.tagScf Config.params.tagStf
  exact ⟨⟨ready (bitsOfNat 32 m.toNat ++ [true]), m, [true], rfl, rfl, hm, rfl⟩,
    ⟨ready (List.replicate 31 true), rfl, rfl, rfl, by decide⟩,
    ⟨ready (magicBits ++ List.replicate 31 true), List.replicate 31 true, rfl, rfl, rfl, by decide, rfl⟩,
    ⟨ready (magicBits ++ (bitsOfNat 32 g.toNat ++ [])), g, _, [], rfl, rfl, hg, hg', rfl, rfl⟩,
    ⟨ready (magicBits ++ (bitsOfNat 32 Config.params.tagScf.toNat ++
        (countBits (List.replicate 255 7) ++ List.replicate 31 true))),
      List.replicate 255 7, _, List.replicate 31 true, rfl, rfl, rfl,
      Nat.lt_succ_of_le List.length_replicate.le, by decide, rfl, rfl⟩,
    ready (magicBits ++ (bitsOfNat 32 Config.params.tagStf.toNat ++ [true])), _, [true], rfl, rfl, rfl, by decide, rfl, rfl⟩

/-- Ends of a tree behind an STF header (the others are in `cut_ends`); a lone leaf 0x41; the first bit of a code after
two decoded words, the declared length, 43, being right; the start of the body, the declared length being wrong; and the
start of a code after a word of an SCF stream. -/
theorem witness_DecompressTreeErrors :
    (EndsAt (magicBits ++ stfHead ·) (.right (.leaf 0x62) .here) (true :: bitsOfNat 8 0xFF) .truncated 1 (bitsOfNat 8 0xFF) ∧
      EndsAt (magicBits ++ stfHead ·) (.right (.leaf 0x62) .here) (true :: (bitsOfNat 9 257 ++ [])) .badSymbol 10 [] ∧
      EndsAt (magicBits ++ stfHead ·) (.right (.leaf 0) (leftSpine 511)) (true :: (bitsOfNat 9 0 ++ [])) .treeOverflow 10 []) ∧
    (∃ (s : State) (t : Machine.Tree) (y : Sym) (rest : Bits), s.config.inAttached = true ∧ s.config.outAttached = true ∧
      s.inBits = 0 ∧ t.size ≤ 513 ∧ t = .leaf y ∧ y ≠ Config.eof ∧ s.inp = magicBits ++ stfHead (t.bits ++ rest)) ∧
    (∃ (s : State) (t x y : Machine.Tree) (ps : List (InWord × Bits)) (e : Bits), s.config.inAttached = true ∧
      s.config.outAttached = true ∧ s.inBits = 0 ∧ t.size ≤ 513 ∧
      (∀ p ∈ ps, t.follow p.2 = some (.leaf (symOfWord p.1))) ∧ t.follow e = some (.node x y) ∧ s.inClosed = true ∧
      s.inp = magicBits ++ stfHead (t.bits ++ (pathBits ps ++ e)) ∧ t.bits.length = 43 ∧ ps.length = 2) ∧
    (∃ (s : State) (t x y : Machine.Tree) (ps : List (InWord × Bits)) (e : Bits), s.config.inAttached = true ∧
      s.config.outAttached = true ∧ s.inBits = 0 ∧ t.size ≤ 513 ∧
      (∀ p ∈ ps, t.follow p.2 = some (.leaf (symOfWord p.1))) ∧ t.follow e = some (.node x y) ∧ s.inClosed = true ∧
      s.inp = magicBits ++ stfHead (t.bits ++ (pathBits ps ++ e)) ∧ t.bits.length ≠ 43 ∧ ps = []) ∧
    ∃ (s : State) (f : Table (BitVec 32) 256) (t x y : Machine.Tree) (ps : List (InWord × Bits)) (e : Bits),
      s.config.inAttached = true ∧ s.config.outAttached = true ∧ s.inBits = 0 ∧
      State.huffman { s with freq := f } = some t ∧
      (∀ p ∈ ps, t.follow p.2 = some (.leaf (symOfWord p.1))) ∧ t.follow e = some (.node x y) ∧ s.inClosed = true ∧
      ps.length = 1 ∧
      s.inp = magicBits ++ (bitsOfNat 32 Config.params.tagScf.toNat ++ (countBits f.rows ++ (pathBits ps ++ e))) := by
  refine ⟨?_,
    ⟨ready (magicBits ++ stfHead ((Machine.Tree.leaf 0x41).bits ++ [])), .leaf 0x41, 0x41, [], rfl, rfl, rfl, by decide, rfl,
      by decide, rfl⟩,
    ⟨ready (magicBits ++ stfHead (abcTree.bits ++ (pathBits [(0x62, [false, false]), (0x63, [false, true])] ++ [true]))),
      abcTree, .leaf 256, .leaf 0x61, [(0x62, [false, false]), (0x63, [false, true])], [true], rfl, rfl, rfl, by decide,
      by decide, rfl, rfl, rfl, by decide, rfl⟩,
    ⟨ready (magicBits ++ stfHead ((Machine.Tree.node (.leaf 256) (.leaf 0x41)).bits ++ (pathBits [] ++ []))),
      .node (.leaf 256) (.leaf 0x41), .leaf 256, .leaf 0x41, [], [], rfl, rfl, rfl, by decide, by decide, rfl, rfl, rfl,
      by decide, rfl⟩,
    ready (magicBits ++ (bitsOfNat 32 Config.params.tagScf.toNat ++ (countBits (freqOf [(0x41, 20)]).rows ++
      (pathBits [(0x41, [true])] ++ [])))), freqOf [(0x41, 20)], .node (.leaf 256) (.leaf 0x41), .leaf 256, .leaf 0x41,
    [(0x41, [true])], [], rfl, rfl, rfl, ?_, by decide, rfl, rfl, rfl, rfl⟩
  · obtain ⟨-, -, -, h1, h2, -, -, -, -, h3⟩ := cut_ends (magicBits ++ stfHead ·)
    exact ⟨h1, h2, h3⟩
  · exact (show State.huffman { ready [] with freq := freqOf [(0x41, 20)] } = _ by decide +kernel)

theorem witness_PipelineRoundTrip : ∃ (s v : State) (xs : List InWord), s.agenda = [] ∧ s.rstHeld = false ∧
    s.config.inAttached = true ∧ s.config.outAttached = true ∧ (∀ w, xs.count w < 2 ^ 32) ∧ v.agenda = [] ∧
    v.rstHeld = false ∧ v.config.inAttached = true ∧ v.config.outAttached = true :=
  ⟨ready [], ready [], [0x61, 0x61, 0x61, 0x62, 0x63], rfl, rfl, rfl, rfl,
    fun _ => Nat.lt_of_le_of_lt (List.count_le_length) (by decide), rfl, rfl, rfl, rfl⟩

/-- A command's step, a host's, and one while `rst` is asserted. -/
theorem witness_InvStep : (∃ s t : State, s.Inv ∧ s.busy = true ∧ step s = .next t) ∧
    (∃ (s t : State) (a : HostAct) (ms : List Move), s.Inv ∧ s.agenda = .host a :: ms ∧ step s = .next t) ∧
    ∃ s t : State, s.Inv ∧ s.rstHeld = true ∧ step s = .next t :=
  ⟨⟨running 0x10 [] true, _, running_inv _ _ _, rfl, rfl⟩,
    ⟨{ running 0x20 [] false with agenda := [.host .inClose] }, _, .inClose, [],
      running_with_inv 0x20 [] false _, rfl, rfl⟩,
    { State.reset with rstHeld := true }, _, held_inv, rfl, rfl⟩

end
end

section
/-! PROOFS. One step of the machine: what the agenda's next move makes of it, what the sequencer does at each state of
SEQ and `rst`, and what a word of the opcode table decodes to (00_scope.md R29, 20_memory.md R84, 30_encoding.md R113). -/

namespace Sys2Proof

@[simp] theorem decodeTableWord_eq_some {n w : Nat} {i : Instr} :
    decodeTableWord n w = some i ↔ decode (BitVec.ofNat 32 (w % 2 ^ n)) = .ok i := by
  unfold decodeTableWord
  cases decode (BitVec.ofNat 32 (w % 2 ^ n)) <;> simp

end Sys2Proof

namespace Sys2Proof.Machine

theorem step_agenda_nil {s : State} (h : s.agenda = []) : step s = sequencerStep s := by
  rw [step, h]

theorem step_agenda_sequencer {s : State} {ms : List Move} (h : s.agenda = .sequencer :: ms) :
    step s = sequencerStep { s with agenda := ms } := by
  rw [step, h]

theorem step_agenda_host {s : State} {a : HostAct} {ms : List Move} (h : s.agenda = .host a :: ms) :
    step s = hostStep a { s with agenda := ms } := by
  rw [step, h]

theorem sequencerStep_busy {s : State} {c : Word} {i : Instr} (hs : s.seq = .busy c) (hr : s.rstHeld = false)
    (hc : decode c = .ok i) : sequencerStep s = exec i s := by
  simp [sequencerStep, hr, hs, hc]

theorem sequencerStep_inert {s : State} (h : s.seq = .idle ∨ s.rstHeld = true) : sequencerStep s = .next s := by
  obtain hs | hr := h
  · simp [sequencerStep, hs]
  · simp [sequencerStep, hr]

/-- Settles O4: the agenda's head says who moves, and then the sequencer's own two cases. -/
theorem stepRuns : Obligations.StepRuns := by
  unfold Obligations.StepRuns
  refine ⟨fun s c i ms hs hr hc => ⟨fun ha => ?_, fun ha => ?_⟩, fun s ms h => ⟨fun ha => ?_, fun ha => ?_⟩,
    fun s a ms => step_agenda_host, fun s w i hw => ?_⟩
  · exact (step_agenda_nil ha).trans (sequencerStep_busy hs hr hc)
  · exact (step_agenda_sequencer ha).trans (sequencerStep_busy hs hr hc)
  · exact (step_agenda_nil ha).trans (sequencerStep_inert h)
  · exact (step_agenda_sequencer ha).trans (sequencerStep_inert h)
  · have hc := decodeTableWord_eq_some.mp hw
    exact (step_agenda_nil rfl).trans (sequencerStep_busy rfl rfl hc)

end Sys2Proof.Machine
end

section
/-! PROOFS. What the invariant says of the queue and the tables (10_state.md R44 to R47, R53), what each way of
changing them keeps of it, and how the whole invariant follows from it and the control fields. -/

namespace Sys2Proof.Machine

/-- The part of the invariant that speaks of PQ, NODE, CODE and the validity flags alone. -/
structure State.Sound (s : State) : Prop where
  pqSize    : s.pq.length ≤ 257
  pqSorted  : s.pq.Pairwise fun a b => a.key ≤ b.key
  nodeCount : s.nodes.length ≤ 513
  tree      : s.treeValid = true →
    ∃ t, s.tree = some t ∧ t.size = s.nodes.length ∧ s.treeBits.toNat = t.bits.length
  codes     : s.codesValid = true → s.treeValid = true ∧ ∃ t, s.tree = some t ∧ s.CodesOf t
  prepass   : s.prepassValid = true →
    s.treeValid = true ∧ s.codesValid = true ∧ (∃ t, s.Built t) ∧ s.est.toNat = s.estimate s.fmt ∧
      s.saved.toInt = (s.inwords.toNat : Int) * 8 - s.est.toNat
  codeFits  : ∀ y c, s.codeAt y = some c → c.fits

theorem State.Inv.sound {s : State} (h : s.Inv) : s.Sound :=
  ⟨h.pqSize, h.pqSorted, h.nodeCount, h.tree, h.codes, h.prepass, h.codeFits⟩

/-- The fields `Sound` speaks of, all others at their reset values. -/
def State.stored (s : State) : State :=
  { State.reset with
    prepassValid := s.prepassValid, treeValid := s.treeValid, codesValid := s.codesValid, fmt := s.fmt
    saved := s.saved, est := s.est, inwords := s.inwords, treeBits := s.treeBits, root := s.root, nodes := s.nodes
    pq := s.pq, freq := s.freq, code := s.code }

theorem built_stored (s : State) (t : Tree) : s.stored.Built t ↔ s.Built t :=
  ⟨fun h => Built.congr h rfl rfl rfl rfl, fun h => Built.congr h rfl rfl rfl rfl⟩

theorem sound_stored (s : State) : s.stored.Sound ↔ s.Sound := by
  constructor
  · exact fun h => ⟨h.pqSize, h.pqSorted, h.nodeCount, h.tree, h.codes, fun hp =>
      (h.prepass hp).imp_right (And.imp_right (And.imp_left (Exists.imp fun t => (built_stored s t).1))), h.codeFits⟩
  · exact fun h => ⟨h.pqSize, h.pqSorted, h.nodeCount, h.tree, h.codes, fun hp =>
      (h.prepass hp).imp_right (And.imp_right (And.imp_left (Exists.imp fun t => (built_stored s t).2))), h.codeFits⟩

theorem State.Sound.of_stored {s u : State} (h : s.Sound) (e : u.stored = s.stored) : u.Sound :=
  (sound_stored u).1 (e ▸ (sound_stored s).2 h)

theorem State.Sound.setQueue {s : State} (h : s.Sound) {q : List Entry} (hl : q.length ≤ 257)
    (hs : q.Pairwise fun a b => a.key ≤ b.key) : ({ s with pq := q } : State).Sound := by
  refine ⟨hl, hs, h.nodeCount, h.tree, h.codes, fun hp => ?_, h.codeFits⟩
  obtain ⟨ht, hc, ⟨t, hb⟩, he⟩ := h.prepass hp
  exact ⟨ht, hc, ⟨t, Built.congr hb rfl rfl rfl rfl⟩, he⟩

/-- FREQ and INWORDS change with PREPASS_VALID clear (10_state.md R53, R58). -/
theorem State.Sound.setCounts {s : State} (h : s.Sound) (hp : s.prepassValid = false) (f : Table (BitVec 32) 256)
    (w : BitVec 64) : ({ s with freq := f, inwords := w } : State).Sound :=
  ⟨h.pqSize, h.pqSorted, h.nodeCount, h.tree, h.codes, fun hp' => absurd (hp.symm.trans hp') nofun, h.codeFits⟩

/-- `Sound` with the validity flags `f`. -/
def State.SoundWith (s : State) (f : ValidFlags) : Prop := s.Sound ∧ s.flags = f

/-- `Sound` with no validity flag set. -/
def State.Bare (s : State) : Prop := s.SoundWith ⟨false, false, false⟩

/-- `Sound` with TREE_VALID set alone. -/
def State.Planted (s : State) : Prop := s.SoundWith ⟨false, true, false⟩

theorem State.SoundWith.of_stored {s u : State} {f : ValidFlags} (h : s.SoundWith f) (e : u.stored = s.stored) :
    u.SoundWith f := ⟨h.1.of_stored e, (congrArg State.flags e).trans h.2⟩

theorem State.SoundWith.setCounts {s : State} {f : ValidFlags} (h : s.SoundWith f) (hf : f.prepass = false)
    (q : Table (BitVec 32) 256) (w : BitVec 64) : ({ s with freq := q, inwords := w } : State).SoundWith f :=
  ⟨h.1.setCounts ((congrArg ValidFlags.prepass h.2).trans hf) q w, h.2⟩

theorem State.Sound.clearPrepass {s : State} (h : s.Sound) : s.clearPrepass.Sound :=
  ⟨h.pqSize, h.pqSorted, h.nodeCount, h.tree, h.codes, nofun, h.codeFits⟩

theorem State.Sound.clearAllValid {s : State} (h : s.Sound) : s.clearAllValid.Bare :=
  ⟨⟨h.pqSize, h.pqSorted, h.nodeCount, nofun, nofun, nofun, h.codeFits⟩, rfl⟩

theorem State.Bare.prepassValid {s : State} (h : s.Bare) : s.prepassValid = false := congrArg ValidFlags.prepass h.2

theorem State.Bare.treeValid {s : State} (h : s.Bare) : s.treeValid = false := congrArg ValidFlags.tree h.2

theorem State.Bare.codesValid {s : State} (h : s.Bare) : s.codesValid = false := congrArg ValidFlags.codes h.2

/-- With no flag set the node memory may hold anything that fits it (10_state.md R44). -/
theorem State.Bare.setRecords {s : State} (h : s.Bare) {ns : List Node} (hn : ns.length ≤ 513) (r : NodeIdx)
    (tb : BitVec 32) : ({ s with nodes := ns, root := r, treeBits := tb } : State).Bare := by
  refine ⟨⟨h.1.pqSize, h.1.pqSorted, hn, fun hv => ?_, fun hv => ?_, fun hv => ?_, h.1.codeFits⟩, h.2⟩
  · exact absurd (h.treeValid.symm.trans hv) nofun
  · exact absurd (h.codesValid.symm.trans hv) nofun
  · exact absurd (h.prepassValid.symm.trans hv) nofun

/-- No flag is set, and a complete tree of all records stands in the node memory (10_state.md R44). -/
def State.TreeStands (s : State) : Prop :=
  s.Bare ∧ ∃ t, s.tree = some t ∧ t.size = s.nodes.length ∧ s.treeBits.toNat = t.bits.length

/-- TREE_VALID may be set where a complete tree stands (10_state.md R35). -/
theorem State.TreeStands.setTreeValid {s : State} (h : s.TreeStands) :
    ({ s with treeValid := true } : State).Planted := by
  obtain ⟨hb, ht⟩ := h
  have hf : ({ s with treeValid := true } : State).flags = ⟨false, true, false⟩ := by
    rw [State.flags, hb.prepassValid, hb.codesValid]
  refine ⟨⟨hb.1.pqSize, hb.1.pqSorted, hb.1.nodeCount, fun _ => ht, fun hv => ?_, fun hv => ?_, hb.1.codeFits⟩, hf⟩
  · exact absurd (hb.codesValid.symm.trans hv) nofun
  · exact absurd (hb.prepassValid.symm.trans hv) nofun

/-- The codes of a tree that fits the node memory fit their lengths (10_state.md R47). -/
theorem State.CodesOf.fits {s : State} {t : Tree} (h : s.CodesOf t) (hsz : t.size ≤ 513) :
    ∀ y c, s.codeAt y = some c → c.fits := by
  intro y c hc
  rw [h y] at hc
  obtain ⟨p, hp, rfl⟩ := Option.map_eq_some_iff.1 hc
  exact codeOfPath_fits (Tree.pathOf_length hp hsz)

/-- The seven fields the invariant speaks of besides `stored`, `rstHeld` and `outEarly`. -/
def State.control (s : State) : Seq × Bool × Option ErrCode × Bool × Bool × BitVec 64 × BitVec 64 :=
  (s.seq, s.done, s.error, s.refused, s.lenMismatch, s.inBits, s.outBits)

/-- With `rst` released, a step that leaves the tables and the control fields keeps the invariant. -/
theorem State.Inv.of_same {s u : State} (h : s.Inv) (hs : u.stored = s.stored) (hc : u.control = s.control)
    (hr : u.rstHeld = false) (ho : u.busy = false → u.outEarly = 0) : u.Inv := by
  obtain ⟨h1, h2, h3, h4, h5, h6, h7⟩ := h.sound.of_stored hs
  simp only [State.control, Prod.mk.injEq] at hc
  obtain ⟨hseq, hd, he, hre, hl, hi, hob⟩ := hc
  have hb : u.busy = s.busy := by rw [State.busy, State.busy, hseq]
  refine ⟨h1, h2, h3, h4, h5, h6, h7, ?_, ?_, fun hh => absurd (hr.symm.trans hh) nofun, ho⟩
  · rw [hd, he]; exact h.doneErr
  · rw [hb, hd, he, hre, hl, hi, hob]; exact h.busy

/-- With `rst` released and SEQ = IDLE the invariant is that of the tables and the two facts about completion. -/
theorem State.Sound.inv_idle {u : State} (h : u.Sound) (hi : u.seq = .idle) (hr : u.rstHeld = false)
    (hd : u.done = true → u.error = none) (ho : u.outEarly = 0) : u.Inv := by
  have hb : u.busy = false := by rw [State.busy, hi]
  exact ⟨h.pqSize, h.pqSorted, h.nodeCount, h.tree, h.codes, h.prepass, h.codeFits, hd,
    fun hb' => absurd (hb.symm.trans hb') nofun, fun hh => absurd (hr.symm.trans hh) nofun, fun _ => ho⟩

theorem sound_reset : State.reset.Sound := by
  refine ⟨Nat.zero_le _, .nil, Nat.zero_le _, nofun, nofun, nofun, fun y c hc => ?_⟩
  exact absurd ((Table.get_fill none y).symm.trans hc) nofun

/-- The block at its reset values meets the invariant, `rst` asserted or not (70_reset_and_hazards.md R290). -/
theorem inv_of_blockReset {t : State} (h : t = t.blockReset) : t.Inv := by
  have hs : t.Sound := sound_reset.of_stored (by rw [h]; rfl)
  have hb : t.busy = false := by rw [h]; rfl
  have hd : t.done = false := by rw [h]; rfl
  have ho : t.outEarly = 0 := by rw [h]; rfl
  exact ⟨hs.pqSize, hs.pqSorted, hs.nodeCount, hs.tree, hs.codes, hs.prepass, hs.codeFits,
    fun hd' => absurd (hd.symm.trans hd') nofun, fun hb' => absurd (hb.symm.trans hb') nofun, fun _ => h, fun _ => ho⟩

/-- Settles O59: the reset state is its own block reset. -/
theorem invReset : Obligations.InvReset := inv_of_blockReset rfl

end Sys2Proof.Machine
end

section
/-! PROOFS. Wherever a command's pseudocode ends or stops, the queue and the tables are sound, and the validity flags
are those of its row of 10_state.md R53 (R44 to R47; 44_pipeline.md R236, R245). -/

namespace Sys2Proof.Machine

/-- Run on `s`, `x` ends in a state of `P`, or stops in a state of `Q`, which may depend on the stop. -/
def Cmd.Leaves {α : Type} (x : Cmd α) (s : State) (P : State → Prop) (Q : Stop → State → Prop) : Prop :=
  match x s with
  | .ok _ t    => P t
  | .error e t => Q e t

section
variable {α β : Type} {P R : State → Prop} {Q : Stop → State → Prop} {x : Cmd α} {f : α → Cmd β} {s t : State}

theorem Cmd.Leaves.of_ok {a : α} (h : x s = .ok a t) (ht : P t) : x.Leaves s P Q := by rwa [Cmd.Leaves, h]

theorem Cmd.Leaves.of_error {e : Stop} (h : x s = .error e t) (ht : Q e t) : x.Leaves s P Q := by rwa [Cmd.Leaves, h]

theorem Cmd.Leaves.ok (h : x.Leaves s P Q) {a : α} (hx : x s = .ok a t) : P t := by rwa [Cmd.Leaves, hx] at h

theorem Cmd.Leaves.error (h : x.Leaves s P Q) {e : Stop} (hx : x s = .error e t) : Q e t := by
  rwa [Cmd.Leaves, hx] at h

/-- In sequence; the second part may use what the first part answered. -/
theorem Cmd.Leaves.bind_of (hx : x.Leaves s R Q) (hf : ∀ a t, x s = .ok a t → R t → (f a).Leaves t P Q) :
    (x >>= f).Leaves s P Q := by
  cases h : x s with
  | ok a t =>
    rw [Cmd.Leaves, Cmd.bind_of_ok h]
    exact hf a t h (hx.ok h)
  | error e t => exact .of_error (Cmd.bind_of_error h) (hx.error h)

theorem Cmd.Leaves.bind (hx : x.Leaves s R Q) (hf : ∀ a t, R t → (f a).Leaves t P Q) : (x >>= f).Leaves s P Q :=
  hx.bind_of fun a t _ => hf a t

theorem Cmd.Leaves.mono {P' : State → Prop} {Q' : Stop → State → Prop} (h : x.Leaves s P Q) (hp : ∀ t, P t → P' t)
    (hq : ∀ e t, x s = .error e t → Q e t → Q' e t) : x.Leaves s P' Q' := by
  cases hx : x s with
  | ok a t => exact .of_ok hx (hp t (h.ok hx))
  | error e t => exact .of_error hx (hq e t hx (h.error hx))

theorem Cmd.Invariant.leaves (h : x.Invariant P) (hs : P s) : x.Leaves s P fun _ => P := by
  have ha := h s hs
  cases hx : x s with
  | ok a t => exact .of_ok hx (Cmd.after_of_ok hx ▸ ha)
  | error e t => exact .of_error hx (Cmd.after_of_error hx ▸ ha)

end

theorem enqueue_sound (k : BitVec 32) (t : BitVec 16) (f : ValidFlags) : (enqueue k t).Invariant (·.SoundWith f) := by
  intro s h
  by_cases hl : s.pq.length < 257
  · rw [Cmd.after_of_ok (enqueue_ok hl)]
    exact ⟨h.1.setQueue (by rw [inserted_length]; omega) (inserted_sorted _ h.1.pqSorted), h.2⟩
  · rw [Cmd.after_of_error (enqueue_full (by omega))]
    exact h

theorem dequeue_sound (f : ValidFlags) : dequeue.Invariant (·.SoundWith f) := by
  intro s h
  cases hq : s.pq with
  | nil => rw [Cmd.after_of_error (dequeue_nil hq)]; exact h
  | cons e q =>
    have hl := h.1.pqSize
    have hs := h.1.pqSorted
    rw [hq] at hl hs
    rw [Cmd.after_of_ok (dequeue_cons hq)]
    exact ⟨h.1.setQueue (Nat.le_of_succ_le hl) hs.of_cons, h.2⟩

theorem countBody_sound {f : ValidFlags} (hf : f.prepass = false) : countBody.Invariant (·.SoundWith f) :=
  Cmd.Invariant.countBody (fun _ _ _ h => h.of_stored rfl) fun _ q w h => h.setCounts hf q w

theorem decodeBody_planted : decodeBody.Invariant State.Planted :=
  Cmd.Invariant.decodeBody (fun _ _ _ h => h.of_stored rfl) fun _ _ _ _ h => h.of_stored rfl

theorem readField_bare : readField.Invariant State.Bare := Cmd.Invariant.readField fun _ _ _ h => h.of_stored rfl

theorem readCounts_bare (ws : List InWord) : (readCounts ws).Invariant State.Bare :=
  Cmd.Invariant.readCounts (fun _ _ _ h => h.of_stored rfl) (fun s q h => h.setCounts rfl q s.inwords) ws

/-- The builder leaves the tree of FREQ, and sets TREE_VALID alone (41_tree.md R170). -/
theorem buildBody_planted {s : State} (h : s.Bare) (Q : Stop → State → Prop) : buildBody.Leaves s State.Planted Q := by
  obtain ⟨ns, r, tb, t, hrun, hb⟩ := buildBody_built s
  have hq : ({ s with pq := [] } : State).Bare := ⟨h.1.setQueue (Nat.zero_le _) .nil, h.2⟩
  have hs : ({ s with pq := [], nodes := ns, root := r, treeBits := tb } : State).TreeStands :=
    ⟨hq.setRecords (Built.nodes_le hb) r tb, t, hb.tree, hb.size, hb.treeBits⟩
  exact .of_ok hrun hs.setTreeValid

/-- Reads and writes of the ports leave the tables (20_memory.md R87, R88). -/
theorem Streamed.stored {s t : State} {n : Nat} {r b : Bits} (h : Streamed s t n r b) : t.stored = s.stored := by
  obtain ⟨ib, ob, rfl, -, -⟩ := h
  rfl

/-- The tree part of DESERIALIZE and DECOMPRESS leaves a complete tree, or records that fit (42_serdes.md R197). -/
theorem parseTree_stands {s : State} (h : s.Bare) (hib : s.inBits.toNat < 2 ^ 63) :
    parseTree.Leaves s State.TreeStands fun _ => State.Bare := by
  have hp := parse_ends 514 { s with nodes := [] } (by simp) (by simp)
  cases hr : parse 514 { s with nodes := [] } with
  | ok i v =>
    rw [hr] at hp
    cases hp with
    | tree t rest u hin hcap hu =>
      have hsz : t.size ≤ 513 := by simpa using hcap
      have hbits : t.bits.length < 2 ^ 32 := by
        have := t.size_leaves
        rw [Tree.bits_length]
        omega
      obtain ⟨w, hw, hrun⟩ := parseTree_spec hib hin hsz
      refine .of_ok hrun ⟨?_, t, tree_of_records hsz rfl rfl, (Tree.records_length t 0).symm, ?_⟩
      · exact State.Bare.setRecords (h.of_stored hw.stored) ((Tree.records_length t 0).trans_le hsz) _ _
      · exact (BitVec.toNat_ofNat _ _).trans (Nat.mod_eq_of_lt hbits)
  | error e v =>
    rw [hr] at hp
    cases hp with
    | stop _ u more n taken rest hin he hn hcap hu =>
      obtain ⟨w, hw, hrun⟩ := parseTree_error hr hu
      exact .of_error hrun (State.Bare.setRecords (h.of_stored hw.stored) (by simpa using hcap) _ _)

/-- A header field read advances IN_BITS by 32 (10_state.md R50). -/
theorem readField_inBits {s u : State} {v : BitVec 32} (h : readField s = .ok v u) {n : Nat}
    (hn : s.inBits.toNat = n) (hlt : n + 32 < 2 ^ 64) : u.inBits.toNat = n + 32 := by
  obtain ⟨v', r, u', -, hu, hst⟩ | ⟨-, -, hu⟩ | ⟨-, -, hu⟩ := readField_cases s
  · rw [hu] at h
    cases h
    exact (hn ▸ hst.read_only.2).toNat hlt
  · rw [hu] at h; cases h
  · rw [hu] at h; cases h

/-- An STF header leaves a complete tree, or records that fit (44_pipeline.md R244). -/
theorem readStf_stands {s : State} (h : s.Bare) (hib : s.inBits.toNat = 64) :
    readStf.Leaves s State.TreeStands fun _ => State.Bare := by
  refine (readField_bare.leaves h).bind_of fun d w hd hw => ?_
  have hwi : w.inBits.toNat = 96 := readField_inBits hd hib (by decide)
  have hp := parseTree_stands (s := { w with treeBitsDecl := d }) (hw.of_stored rfl)
    (by show w.inBits.toNat < _; omega)
  exact hp.bind fun _ u hu => ⟨hu.1.of_stored rfl, hu.2⟩

/-- The header of a stream leaves the tree of its counts or the tree parsed, or it fails with no flag set
(44_pipeline.md R243 to R245). -/
theorem readHeader_planted (p : StreamParams) {s : State} (h : s.Bare) (hib : s.inBits = 0) :
    (readHeader p).Leaves s State.Planted fun _ => State.Bare := by
  refine (readField_bare.leaves h).bind_of fun m u hu hub => ?_
  by_cases hm : m ≠ p.magic
  · simp only [hm, if_true, ne_eq, not_false_eq_true]
    exact hub
  simp only [hm, if_false]
  refine (readField_bare.leaves hub).bind_of fun g w hw hwb => ?_
  by_cases h1 : g = p.tagScf
  · simp only [h1, if_true]
    refine ((readCounts_bare _).leaves hwb).bind fun _ x hx => (buildBody_planted hx _).bind fun _ y hy => ?_
    have ht : y.treeValid = true := congrArg ValidFlags.tree hy.2
    have hy' : ({ y with treeValid := true } : State) = y := by rw [← ht]
    exact hy'.symm ▸ hy
  by_cases h2 : g = p.tagStf
  · have h3 : p.tagStf ≠ p.tagScf := h2 ▸ h1
    simp only [h2, h3, if_true, if_false]
    have hui : u.inBits.toNat = 32 := readField_inBits hu (by rw [hib]; rfl) (by decide)
    have hwi : w.inBits.toNat = 64 := readField_inBits hw hui (by decide)
    exact (readStf_stands hwb hwi).bind fun _ v hv => hv.setTreeValid
  · simp only [h1, h2, if_false]
    exact hwb

/-- CODEGEN derives the codes of the current tree; those of a retained PREPASS are the same again (41_tree.md R172). -/
theorem codegenBody_sound {s : State} (h : s.Sound) (hv : s.treeValid = true) :
    ∃ cd, codegenBody s.clearCodes = .ok () { s with code := cd, codesValid := true } ∧
      ({ s with code := cd, codesValid := true } : State).Sound := by
  obtain ⟨t, ht, hsz, htb⟩ := h.tree hv
  obtain ⟨cd, hrun, hcd⟩ := codegenBody_spec (s := s.clearCodes) ht
  have hC : ({ s with code := cd, codesValid := true } : State).CodesOf t := hcd
  refine ⟨cd, hrun, h.pqSize, h.pqSorted, h.nodeCount, h.tree, fun _ => ⟨hv, t, ht, hC⟩, fun hp => ?_,
    hC.fits (hsz ▸ h.nodeCount)⟩
  obtain ⟨-, hc, ⟨b, hb⟩, hest, hsaved⟩ := h.prepass hp
  obtain ⟨-, t', ht', hC'⟩ := h.codes hc
  obtain rfl : t = t' := Option.some.inj (ht.symm.trans ht')
  have hcode : cd = s.code := Table.ext_get fun y => (hcd y).trans (hC' y).symm
  refine ⟨hv, rfl, ⟨b, Built.congr hb rfl rfl rfl rfl⟩, ?_, hsaved⟩
  exact hest.trans (estimate_congr s.fmt rfl rfl hcode.symm)

theorem toInt_int64 {r : Int} (h1 : -(2 ^ 63) ≤ r) (h2 : r < 2 ^ 63) : (int64 r).toInt = r := by
  rw [int64_of_fits ⟨h1, by omega⟩, BitVec.toInt_ofInt]
  exact Int.bmod_eq_of_le (by omega) (by omega)

/-- PREPASS over a closed input whose counts fit leaves a sound retained state (44_pipeline.md R231 to R236). -/
theorem prepassBody_retained (f : Fmt) {xs : List InWord} {s : State} {rest : Bits} (hin : s.inp = wordBits xs ++ rest)
    (hr : rest.length < 8) (hc : s.inClosed = true) (hcnt : ∀ w, xs.count w < 2 ^ 32) (Q : Stop → State → Prop) :
    (prepassBody f).Leaves s (·.SoundWith ⟨true, true, true⟩) Q := by
  obtain ⟨v, t, hrun, hv, -, -, hb, hC⟩ := prepassBody_spec f hin hr hc hcnt
  have hlen := length_lt_of_counts hcnt
  have hest := estimate_lt hb f
  have hflags : v.flags = ⟨true, true, true⟩ := congrArg State.flags hv
  have htree : v.treeValid = true := congrArg ValidFlags.tree hflags
  have hcodes : v.codesValid = true := congrArg ValidFlags.codes hflags
  have hpq : v.pq = [] := congrArg State.pq hv
  have hfmt : v.fmt = f := congrArg State.fmt hv
  have hwords : v.inwords.toNat = xs.length := by
    rw [show v.inwords = BitVec.ofNat 64 xs.length from congrArg State.inwords hv, BitVec.toNat_ofNat]
    exact Nat.mod_eq_of_lt (by omega)
  have hestEq : v.est.toNat = v.estimate f := by
    rw [show v.est = count64 (v.estimate f) from congrArg State.est hv, count64_toNat (by omega)]
  have hsaved : v.saved.toInt = ((xs.length * 8 : Nat) : Int) - (v.estimate f : Int) := by
    rw [show v.saved = int64 (((xs.length * 8 : Nat) : Int) - (v.estimate f : Int)) from congrArg State.saved hv,
      toInt_int64 (by omega) (by omega)]
  refine .of_ok hrun ⟨⟨by rw [hpq]; exact Nat.zero_le _, by rw [hpq]; exact .nil, Built.nodes_le hb,
    fun _ => ⟨t, hb.tree, hb.size, hb.treeBits⟩, fun _ => ⟨htree, t, hb.tree, hC⟩,
    fun _ => ⟨htree, hcodes, ⟨t, hb⟩, by rw [hfmt, hestEq], ?_⟩, hC.fits (Built.size_le hb)⟩, hflags⟩
  rw [hsaved, hwords, hestEq]
  push_cast
  ring

/-- PREPASS ends with all three flags set, or stops in the counting with none (44_pipeline.md R231, R262). -/
theorem prepassBody_sound (f : Fmt) {s : State} (h : s.Bare) :
    (prepassBody f).Leaves s (·.SoundWith ⟨true, true, true⟩) fun _ => State.Bare := by
  cases hrun : countBody s with
  | error e t => exact .of_error (Cmd.bind_of_error hrun) (((countBody_sound rfl).leaves h).error hrun)
  | ok a t =>
    have hc : s.inClosed = true := by
      cases hc : s.inClosed with
      | true => rfl
      | false => exact absurd hrun (Cmd.NeedsEnd.countBody s a t hc)
    obtain ⟨xs, rest, hin, hr⟩ := words_split s.inp
    obtain hcnt | ⟨ys, w, zs, rfl, hcnt, hmax⟩ := counts_fit_or_overflow xs
    · exact prepassBody_retained f hin hr hc hcnt _
    · obtain ⟨ib, fq, hover, -⟩ := countBody_overflow (w := w) (rest := wordBits zs ++ rest)
        (hin.trans (by simp [wordBits])) hcnt hmax
      rw [hover] at hrun
      cases hrun

theorem stored_eraseOf {i : Instr} (hi : i ∈ [.serialize, .encode, .decode, .commit false, .commit true]) (s : State) :
    (eraseOf i s).stored = s.stored := by
  simp only [List.mem_cons, List.not_mem_nil, or_false] at hi
  obtain rfl | rfl | rfl | rfl | rfl := hi <;> rfl

/-- SERIALIZE, ENCODE, DECODE and COMMIT leave the tables (10_state.md R54). -/
theorem portBody_sound {i : Instr} (hi : i ∈ [.serialize, .encode, .decode, .commit false, .commit true])
    (f : ValidFlags) : (commandOf i).body.Invariant (·.SoundWith f) := by
  intro s h
  refine h.of_stored ?_
  rw [← stored_eraseOf hi, body_keeps i s, stored_eraseOf hi]

theorem pqDeqBody_sound (f : ValidFlags) : pqDeqCommand.body.Invariant (·.SoundWith f) :=
  (dequeue_sound f).bind fun _ =>
    (Cmd.Invariant.assign (g := _) (by exact fun _ h => h.of_stored rfl)).bind fun _ => .pure _

/-- What a command's row of 10_state.md R53 clears. -/
theorem clears_flags (i : Instr) (s : State) :
    ((commandOf i).clears s).flags = s.flags.after (clearsFlags i) ⟨false, false, false⟩ := by
  cases i <;>
    simp [commandOf, ValidFlags.after, clearsFlags, State.flags, clearCommand, pqClearCommand, pqEnqCommand,
      pqDeqCommand, countCommand, buildCommand, codegenCommand, serializeCommand, deserializeCommand, encodeCommand, decodeCommand,
      prepassCommand, commitCommand, decompressCommand]

/-- The flags an error of the pseudocode sets: none, but that the tree of a DECOMPRESS whose walk fails stays valid
(44_pipeline.md R245). -/
def failFlags (i : Instr) (e : ErrCode) : ValidFlags :=
  ⟨false, i = .decompress ∧ (e = .badTree ∨ e = .endOfInput), false⟩

theorem failFlags_of_ne {i : Instr} (hi : i ≠ .decompress) (e : ErrCode) : failFlags i e = ⟨false, false, false⟩ := by
  simp [failFlags, hi]

@[simp] theorem ValidFlags.after_all (f sets : ValidFlags) : f.after ⟨true, true, true⟩ sets = sets := by
  simp [ValidFlags.after]

theorem State.SoundWith.after_all {u : State} {g : ValidFlags} (h : u.SoundWith g) (f : ValidFlags) :
    u.SoundWith (f.after ⟨true, true, true⟩ g) := ⟨h.1, h.2.trans (ValidFlags.after_all f g).symm⟩

/-- The states where the pseudocode of `i`, admitted in `s`, may stop. -/
def StopsSound (i : Instr) (s : State) (e : Stop) (u : State) : Prop :=
  u.Sound ∧ ∀ c, e = .raise c → u.flags = s.flags.after (clearsFlags i) (failFlags i c)

theorem StopsSound.of_cleared {i : Instr} {s u : State} {e : Stop} (hi : i ≠ .decompress)
    (h : u.SoundWith (s.flags.after (clearsFlags i) ⟨false, false, false⟩)) : StopsSound i s e u :=
  ⟨h.1, fun c _ => by rw [h.2, failFlags_of_ne hi]⟩

/-- A command that sets no flag leaves the flags its admission left. -/
theorem body_leaves_cleared {i : Instr} {s : State} (hi : i ≠ .decompress) (hset : setsFlags i = ⟨false, false, false⟩)
    (hc : ((commandOf i).clears s).Sound)
    (hb : (commandOf i).body.Invariant (·.SoundWith (s.flags.after (clearsFlags i) ⟨false, false, false⟩))) :
    (commandOf i).body.Leaves ((commandOf i).clears s) (·.SoundWith (s.flags.after (clearsFlags i) (setsFlags i)))
      (StopsSound i s) := by
  rw [hset]
  exact (hb.leaves ⟨hc, clears_flags i s⟩).mono (fun _ h => h) fun _ _ _ h => .of_cleared hi h

/-- DECOMPRESS: an error of the header leaves no flag set, one of the walk leaves the tree valid (44_pipeline.md R245). -/
theorem decompressBody_leaves {s : State} (h : s.Sound) (hib : s.inBits = 0) :
    (decompressBody Config.params).Leaves s.clearAllValid State.Planted (StopsSound .decompress s) := by
  refine ((readHeader_planted Config.params h.clearAllValid hib).mono (fun _ hu => hu) fun e u hx hu => ?_).bind
    fun _ u hu => ((decodeBody_planted.leaves hu).mono (fun _ hw => hw) fun e w hx hw => ?_).bind fun _ w hw => hw
  · refine ⟨hu.1, fun c hc => ?_⟩
    have hr := Cmd.Raises.readHeader Config.params _ c u (hc ▸ hx)
    have hne : ¬(c = .badTree ∨ c = .endOfInput) := by rintro (rfl | rfl) <;> simp at hr
    rw [hu.2, failFlags]
    simp [hne, clearsFlags]
  · refine ⟨hw.1, fun c hc => ?_⟩
    have hr := Cmd.Raises.decodeBody u c w (hc ▸ hx)
    have hwalk : c = .badTree ∨ c = .endOfInput := by simpa [or_comm] using hr
    rw [hw.2, failFlags]
    simp [hwalk, clearsFlags]

/-- Every command's pseudocode, run from its admission: the tables are sound wherever it ends or stops, and the flags
are those its row sets, or those an error leaves. -/
theorem body_leaves (i : Instr) {s : State} (h : s.Sound) (ha : (commandOf i).admission s = none) (hib : s.inBits = 0) :
    (commandOf i).body.Leaves ((commandOf i).clears s) (·.SoundWith (s.flags.after (clearsFlags i) (setsFlags i)))
      (StopsSound i s) := by
  have hbare := h.clearAllValid
  cases i with
  | clear => exact ⟨sound_reset.of_stored rfl, (ValidFlags.after_all _ _).symm⟩
  | pqClear =>
    exact body_leaves_cleared nofun rfl h fun s hs => ⟨hs.1.setQueue (Nat.zero_le _) .nil, hs.2⟩
  | pqEnq =>
    exact body_leaves_cleared nofun rfl h <|
      Cmd.Invariant.now.bind fun s => (enqueue_sound _ _ _).bind fun _ => .pure _
  | pqDeq => exact body_leaves_cleared nofun rfl h (pqDeqBody_sound _)
  | count =>
    exact body_leaves_cleared nofun rfl h.clearPrepass <|
      (countBody_sound (by simp [ValidFlags.after, clearsFlags])).bind fun _ => Cmd.Invariant.now.bind fun _ => .pure _
  | build =>
    have hb := buildBody_planted hbare (StopsSound .build s)
    exact hb.bind fun _ u hu => hu.after_all s.flags
  | codegen =>
    have hv : s.treeValid = true := by
      rw [admission_eq] at ha
      simpa [needsIn, needsOut, neededFlag] using ha
    obtain ⟨cd, hrun, hs⟩ := codegenBody_sound h hv
    refine .of_ok (Cmd.bind_of_ok hrun) ⟨hs, ?_⟩
    simp [ValidFlags.after, State.flags, clearsFlags, setsFlags]
  | serialize => exact body_leaves_cleared nofun rfl h (portBody_sound (by simp) _)
  | deserialize =>
    refine ((parseTree_stands hbare (by rw [State.clearAllValid, hib]; decide)).mono (fun _ hu => hu)
      fun e u _ hu => ?_).bind fun _ u hu => ?_
    · exact StopsSound.of_cleared nofun (hu.after_all s.flags)
    · exact hu.setTreeValid.after_all s.flags
  | encode => exact body_leaves_cleared nofun rfl h (portBody_sound (by simp) _)
  | decode => exact body_leaves_cleared nofun rfl h (portBody_sound (by simp) _)
  | prepass f =>
    exact (prepassBody_sound f hbare).mono (fun u hu => hu.after_all s.flags) fun e u _ hu =>
      StopsSound.of_cleared nofun (hu.after_all s.flags)
  | commit force =>
    exact body_leaves_cleared nofun rfl h.clearPrepass (portBody_sound (by cases force <;> simp) _)
  | decompress => exact (decompressBody_leaves h hib).mono (fun u hu => hu.after_all s.flags) fun _ _ _ hu => hu

end Sys2Proof.Machine
end

section
/-! PROOFS. Every step keeps the invariant (20_memory.md R81 to R86, 70_reset_and_hazards.md R290): the sequencer's by
what a command can do, the host's action by action. -/

namespace Sys2Proof.Machine

theorem clears_control (i : Instr) (s : State) :
    ((commandOf i).clears s).control = s.control ∧ ((commandOf i).clears s).rstHeld = s.rstHeld := by
  cases i <;> exact ⟨rfl, rfl⟩

/-- No pseudocode but CLEAR's changes DONE, ERR or the level of `rst` (60_exceptions.md R265, R266). -/
theorem body_completion {i : Instr} (hi : i ≠ .clear) (s : State) :
    ((commandOf i).body.after s).done = s.done ∧ ((commandOf i).body.after s).error = s.error ∧
      ((commandOf i).body.after s).rstHeld = s.rstHeld := by
  have key : ∀ u : State, (eraseOf i u).done = u.done ∧ (eraseOf i u).error = u.error ∧
      (eraseOf i u).rstHeld = u.rstHeld := by
    intro u
    cases i with
    | clear => exact absurd rfl hi
    | _ =>
      simp only [eraseOf, State.eraseIn, State.eraseOut, State.eraseCounts, State.eraseTree, State.eraseCodes, and_self]
  obtain ⟨hd, he, hr⟩ := key ((commandOf i).body.after s)
  obtain ⟨hd', he', hr'⟩ := key s
  rw [body_keeps i s] at hd he hr
  exact ⟨hd.symm.trans hd', he.symm.trans he', hr.symm.trans hr'⟩

/-- Where a running command's pseudocode ends or stops, neither DONE nor ERR is set yet (20_memory.md R82). -/
theorem body_running {s : State} (h : s.Inv) (hb : s.busy = true) (i : Instr) :
    ((commandOf i).body.after ((commandOf i).clears s)).done = false ∧
      ((commandOf i).body.after ((commandOf i).clears s)).error = none ∧
      ((commandOf i).body.after ((commandOf i).clears s)).rstHeld = s.rstHeld := by
  obtain ⟨hd, he, -⟩ := h.busy hb
  by_cases hi : i = .clear
  · subst hi
    exact ⟨rfl, rfl, rfl⟩
  · obtain ⟨h1, h2, h3⟩ := body_completion hi ((commandOf i).clears s)
    obtain ⟨hc, hrc⟩ := clears_control i s
    have hdc : ((commandOf i).clears s).done = s.done := congrArg (fun c => c.2.1) hc
    have hec : ((commandOf i).clears s).error = s.error := congrArg (fun c => c.2.2.1) hc
    exact ⟨h1.trans (hdc.trans hd), h2.trans (hec.trans he), h3.trans hrc⟩

/-- Completion with an error keeps the invariant where DONE is clear (60_exceptions.md R266). -/
theorem failedWith_inv {u : State} (h : u.Sound) (hd : u.done = false) (hr : u.rstHeld = false) (e : ErrCode) :
    (u.failedWith e).Inv :=
  State.Sound.inv_idle (h.of_stored rfl) rfl hr (fun hd' => absurd (hd.symm.trans hd') nofun) rfl

/-- Successful completion keeps the invariant where ERR is clear (60_exceptions.md R265). -/
theorem doneWith_inv {u : State} (h : u.Sound) (he : u.error = none) (hr : u.rstHeld = false) (r : BitVec 64) :
    (u.doneWith r).Inv :=
  State.Sound.inv_idle (h.of_stored rfl) rfl hr (fun _ => he) rfl

/-- A command's step keeps the invariant, however the command ends (20_memory.md R84). -/
theorem exec_inv {s t : State} {i : Instr} (h : s.Inv) (hb : s.busy = true) (hr : s.rstHeld = false)
    (ht : exec i s = .next t) : t.Inv := by
  obtain ⟨hd, -, -, -, hib, -⟩ := h.busy hb
  obtain ⟨e, -, rfl⟩ | ⟨ha, hrun⟩ := exec_next ht
  · exact failedWith_inv h.sound hd hr e
  have hs := body_leaves i h.sound ha hib
  obtain ⟨hbd, hbe, hbr⟩ := body_running h hb i
  obtain ⟨r, u, hu, rfl⟩ | ⟨e, u, hu, rfl⟩ | ⟨u, -, rfl⟩ := hrun
  · rw [Cmd.after_of_ok hu] at hbe hbr
    exact doneWith_inv (hs.ok hu).1 hbe (hbr.trans hr) _
  · rw [Cmd.after_of_error hu] at hbd hbr
    exact failedWith_inv (hs.error hu).1 hbd (hbr.trans hr) e
  · exact h

theorem sequencerStep_inv {s t : State} (h : s.Inv) (ht : sequencerStep s = .next t) : t.Inv := by
  by_cases hin : s.seq = .idle ∨ s.rstHeld = true
  · rw [sequencerStep_inert hin] at ht
    cases ht
    exact h
  obtain ⟨hs, hr⟩ := not_or.1 hin
  rw [Bool.not_eq_true] at hr
  cases hc : s.seq with
  | idle => exact absurd hc hs
  | busy c =>
    have hb : s.busy = true := by rw [State.busy, hc]
    cases hd : decode c with
    | ok i => exact exec_inv h hb hr ((sequencerStep_busy hc hr hd).symm.trans ht)
    | error e =>
      have hill : sequencerStep s = .next (s.completeError .illegalCmd) := by simp [sequencerStep, hr, hc, hd]
      rw [hill] at ht
      cases ht
      exact failedWith_inv h.sound (h.busy hb).1 hr .illegalCmd

/-- A register write while IDLE keeps the invariant (10_state.md R34 to R36, R41, R58). -/
theorem writeReg_inv {s : State} (h : s.Inv) (hi : s.seq = .idle) (hr : s.rstHeld = false) (r : Reg) (v : Word) :
    (s.writeReg r v).Inv := by
  have hb : s.busy = false := by rw [State.busy, hi]
  have ho := h.idle hb
  cases r with
  | cmd =>
    obtain ⟨h1, h2, h3, h4, h5, h6, h7⟩ : (s.accept v).Sound := h.sound.of_stored rfl
    exact ⟨h1, h2, h3, h4, h5, h6, h7, nofun, fun _ => ⟨rfl, rfl, rfl, rfl, rfl, rfl⟩,
      fun hh => absurd (hr.symm.trans hh) nofun, nofun⟩
  | status =>
    refine State.Sound.inv_idle (h.sound.of_stored rfl) hi hr (fun hd => ?_) ho
    obtain ⟨hd', -⟩ := Bool.and_eq_true_iff.1 hd
    show (if v.getLsbD 2 then none else s.error) = none
    rw [h.doneErr hd', ite_self]
  | freqData =>
    refine State.Sound.inv_idle ?_ hi hr h.doneErr ho
    exact (h.sound.clearPrepass.setCounts rfl (s.freq.put s.freqIdx.toFin v) s.inwords).of_stored rfl
  | config | pqKeyIn | pqTagIn | freqIdx | nodeIdx | codeIdx => exact h.of_same rfl rfl hr fun _ => ho
  | _ => exact h

theorem hostWrite_inv {s : State} (h : s.Inv) (hr : s.rstHeld = false) (r : Reg) (v : Word) :
    (s.hostWrite r v).Inv := by
  cases hs : s.seq with
  | idle =>
    have hw : s.hostWrite r v = s.writeReg r v := by simp [State.hostWrite, hr, hs]
    exact hw ▸ writeReg_inv h hs hr r v
  | busy c =>
    by_cases hc : r = .cmd
    · have hw : s.hostWrite r v = { s with overrun := true } := by simp [State.hostWrite, hr, hs, hc]
      exact hw ▸ h.of_same rfl rfl hr h.idle
    · have hw : s.hostWrite r v = s := by simp [State.hostWrite, hr, hs, hc]
      exact hw.symm ▸ h

theorem hostRead_inv {s : State} (h : s.Inv) (hr : s.rstHeld = false) (r : Reg) : (s.hostRead r).Inv := by
  cases hs : s.seq with
  | idle => exact hostRead_idle hs r ▸ h.of_same rfl rfl hr h.idle
  | busy c =>
    have hw : s.hostRead r =
        { s with reads := s.reads ++ [busyRead r (Config.anyWord s.draws)], draws := s.draws + 1 } := by
      simp [State.hostRead, hs]
    exact hw ▸ h.of_same rfl rfl hr h.idle

/-- Output drawn early only moves the ports and the model's own counts (20_memory.md R94). -/
theorem emitEarly_inv {s : State} (h : s.Inv) (hr : s.rstHeld = false) : s.emitEarly.Inv := by
  cases hs : s.seq with
  | idle => exact (emitEarly_idle hs).symm ▸ h
  | busy c =>
    have hw : s.emitEarly = { s with
        out := s.emitEarly.out, outEarly := s.emitEarly.outEarly, draws := s.emitEarly.draws } := by
      simp [State.emitEarly, hs]
    have hb : s.busy = true := by rw [State.busy, hs]
    exact hw ▸ h.of_same rfl rfl hr fun hi => absurd (hb.symm.trans hi) nofun

theorem emitEarly_rstHeld (s : State) : s.emitEarly.rstHeld = s.rstHeld := by
  cases hs : s.seq <;> simp [State.emitEarly, hs]

/-- With `rst` released, an action of the host keeps the invariant (20_memory.md R86). -/
theorem hostStep_released_inv {s t : State} {a : HostAct} (h : s.Inv) (hr : s.rstHeld = false)
    (ht : hostStep a s = .next t) : t.Inv := by
  cases a with
  | regWrite n off v =>
    simp only [hostStep] at ht
    split at ht <;> cases ht
    exact hostWrite_inv h hr _ v
  | regRead n off =>
    simp only [hostStep] at ht
    split at ht <;> cases ht
    exact hostRead_inv h hr _
  | inLoad b =>
    simp only [hostStep] at ht
    split at ht <;> cases ht
    exact h.of_same rfl rfl hr h.idle
  | inPush b =>
    simp only [hostStep] at ht
    split at ht <;> cases ht
    exact h.of_same rfl rfl hr h.idle
  | inClose =>
    cases ht
    exact h.of_same rfl rfl hr h.idle
  | outTake k =>
    cases ht
    have he := emitEarly_inv h hr
    exact he.of_same rfl rfl ((emitEarly_rstHeld s).trans hr) he.idle
  | rst asserted =>
    cases ht
    cases asserted with
    | true => exact inv_of_blockReset rfl
    | false =>
      have hd : s.driveRst false = s := by simp [State.driveRst, hr]
      exact hd.symm ▸ h

theorem hostStep_inv {s t : State} {a : HostAct} (h : s.Inv) (ht : hostStep a s = .next t) : t.Inv := by
  obtain hr | hr := Bool.eq_false_or_eq_true s.rstHeld
  · exact inv_of_blockReset (hostStep_held hr (h.held hr) ht).1
  · exact hostStep_released_inv h hr ht

theorem State.Inv.setAgenda {s : State} (h : s.Inv) (ms : List Move) : ({ s with agenda := ms } : State).Inv := by
  obtain hr | hr := Bool.eq_false_or_eq_true s.rstHeld
  · exact inv_of_blockReset (blockReset_of_parts (h.held hr) rfl)
  · exact h.of_same rfl rfl hr h.idle

/-- Settles O60: the agenda's head says who moves; a command keeps the invariant however it ends, a host
action does with `rst` released, and while it is asserted the block stays at its reset values. -/
theorem invStep : Obligations.InvStep := by
  intro s t h ht
  cases ha : s.agenda with
  | nil => exact sequencerStep_inv h ((step_agenda_nil ha).symm.trans ht)
  | cons m ms =>
    cases m with
    | sequencer => exact sequencerStep_inv (h.setAgenda ms) ((step_agenda_sequencer ha).symm.trans ht)
    | host a => exact hostStep_inv (h.setAgenda ms) ((step_agenda_host ha).symm.trans ht)

end Sys2Proof.Machine
end

section
/-! PROOFS. The validity flags after each command (10_state.md R53), and what each command leaves unchanged on every
path (10_state.md R54, 40_pqueue.md R149, 43_bitstream.md R224, 20_memory.md R92). -/

namespace Sys2Proof.Machine

/-- Admission fails with INVALID_ARG or SEQUENCE alone (60_exceptions.md R262). -/
theorem admission_error {i : Instr} {s : State} {e : ErrCode} (h : (commandOf i).admission s = some e) :
    e = .invalidArg ∨ e = .sequence := by
  rw [admission_eq] at h
  split at h
  · exact .inl (Option.some.inj h).symm
  · split at h
    · exact .inr (Option.some.inj h).symm
    · cases h

/-- Settles O28: a failed admission changes no flag, and the pseudocode leaves those of its row, whether it ends or
raises an error. -/
theorem flagTable : Obligations.FlagTable := by
  intro s t i h hb ht hidle
  obtain ⟨-, -, -, -, hib, -⟩ := h.busy hb
  obtain ⟨e, ha, rfl⟩ | ⟨ha, hrun⟩ := exec_next ht
  · refine ⟨nofun, fun _ => rfl, fun c hc h1 h2 => ?_⟩
    obtain rfl := Option.some.inj hc
    exact ((admission_error ha).elim h1 h2).elim
  have hs := body_leaves i h.sound ha hib
  obtain ⟨r, u, hu, rfl⟩ | ⟨e, u, hu, rfl⟩ | ⟨u, -, rfl⟩ := hrun
  · have herr : u.error = none := Cmd.after_of_ok hu ▸ (body_running h hb i).2.1
    have hno : ∀ {e}, (u.doneWith (int64 r)).error ≠ some e := fun he => absurd (herr.symm.trans he) nofun
    exact ⟨fun _ => (hs.ok hu).2, fun he => (he.elim hno hno).elim, fun e he => (hno he).elim⟩
  · have hlate := (List.mem_filter.1 (body_raises_late i _ e u hu)).2
    simp only [decide_eq_true_eq] at hlate
    refine ⟨nofun, fun he => ?_, fun c hc _ _ => ?_⟩
    · exact (he.elim (fun he => hlate.1 (Option.some.inj he)) fun he => hlate.2 (Option.some.inj he)).elim
    · exact (hs.error hu).2 c (congrArg Stop.raise (Option.some.inj hc))
  · exact absurd (hb.symm.trans hidle) nofun

/-- A state with everything erased that the command `i` may change, field by field. -/
def frameOf (i : Instr) (s : State) : State :=
  { State.reset with
    config := s.config, rstHeld := s.rstHeld, inClosed := s.inClosed, agenda := s.agenda, reads := s.reads
    taken := s.taken, draws := s.draws
    pqKeyIn := if i = .clear then 0 else s.pqKeyIn
    pqTagIn := if i = .clear then 0 else s.pqTagIn
    freqIdx := if i = .clear then 0 else s.freqIdx
    nodeIdx := if i = .clear then 0 else s.nodeIdx
    codeIdx := if i = .clear then 0 else s.codeIdx
    overrun := if i = .clear then false else s.overrun
    inp := if needsIn i then [] else s.inp
    inBits := if needsIn i || i = .clear then 0 else s.inBits
    out := if needsOut i then [] else s.out
    outBits := if needsOut i || i = .clear then 0 else s.outBits
    pq := if i ∈ [.clear, .pqClear, .pqEnq, .pqDeq, .build, .prepass .scf, .prepass .stf, .decompress] then [] else s.pq
    pqKeyOut := if i ∈ [.clear, .pqDeq] then 0 else s.pqKeyOut
    pqTagOut := if i ∈ [.clear, .pqDeq] then 0 else s.pqTagOut
    freq := if i ∈ [.clear, .count, .prepass .scf, .prepass .stf, .decompress] then State.reset.freq else s.freq
    inwords := if i ∈ [.clear, .count, .prepass .scf, .prepass .stf] then 0 else s.inwords
    nodes := if i ∈ [.clear, .build, .deserialize, .prepass .scf, .prepass .stf, .decompress] then [] else s.nodes
    root := if i ∈ [.clear, .build, .deserialize, .prepass .scf, .prepass .stf, .decompress] then 0 else s.root
    treeBits := if i ∈ [.clear, .build, .deserialize, .prepass .scf, .prepass .stf, .decompress] then 0 else s.treeBits
    code := if i ∈ [.clear, .codegen, .prepass .scf, .prepass .stf] then State.reset.code else s.code
    fmt := if i ∈ [.clear, .prepass .scf, .prepass .stf] then .scf else s.fmt
    est := if i ∈ [.clear, .prepass .scf, .prepass .stf] then 0 else s.est
    saved := if i ∈ [.clear, .prepass .scf, .prepass .stf] then 0 else s.saved
    treeBitsDecl := if i ∈ [.clear, .decompress] then 0 else s.treeBitsDecl
    lenMismatch := if i ∈ [.clear, .decompress] then false else s.lenMismatch
    refused := if i ∈ [.clear, .commit false] then false else s.refused }

/-- What `eraseOf` erases, `frameOf` erases too. -/
theorem frameOf_eraseOf {i : Instr} (hi : i ≠ .clear) (s : State) : frameOf i (eraseOf i s) = frameOf i s := by
  cases i with
  | clear => exact absurd rfl hi
  | prepass f =>
    cases f <;>
      simp [frameOf, eraseOf, needsIn, needsOut, State.eraseIn, State.eraseCounts, State.eraseTree, State.eraseCodes]
  | commit force => cases force <;> simp [frameOf, eraseOf, needsIn, needsOut, State.eraseIn, State.eraseOut]
  | _ =>
    simp [frameOf, eraseOf, needsIn, needsOut, State.eraseIn, State.eraseOut, State.eraseCounts, State.eraseTree,
      State.eraseCodes]

/-- The flags cleared at admission are in no frame. -/
theorem frameOf_clears (i : Instr) (s : State) : frameOf i ((commandOf i).clears s) = frameOf i s := by
  cases i <;> rfl

theorem frameOf_clear_reset (s : State) :
    frameOf .clear { s.clearAllValid.blockReset with seq := s.seq, config := s.config } = frameOf .clear s := by
  simp [frameOf, needsIn, needsOut]

theorem frameOf_after (i : Instr) (s : State) :
    frameOf i ((commandOf i).body.after ((commandOf i).clears s)) = frameOf i s := by
  by_cases hi : i = .clear
  · subst hi
    exact frameOf_clear_reset s
  · calc frameOf i ((commandOf i).body.after ((commandOf i).clears s))
        = frameOf i (eraseOf i ((commandOf i).body.after ((commandOf i).clears s))) := (frameOf_eraseOf hi _).symm
      _ = frameOf i (eraseOf i ((commandOf i).clears s)) := by rw [body_keeps i]
      _ = frameOf i s := (frameOf_eraseOf hi _).trans (frameOf_clears i s)

/-- A command changes nothing of its frame, however it ends, and if it waits (20_memory.md R84,
60_exceptions.md R266). -/
theorem exec_frame {s t : State} {i : Instr} (h : exec i s = .next t) : frameOf i t = frameOf i s := by
  obtain ⟨e, -, rfl⟩ | ⟨-, ⟨r, u, hu, rfl⟩ | ⟨e, u, hu, rfl⟩ | ⟨u, -, rfl⟩⟩ := exec_next h
  · rfl
  · exact (show frameOf i (u.doneWith (int64 r)) = frameOf i u from rfl).trans (Cmd.after_of_ok hu ▸ frameOf_after i s)
  · exact (show frameOf i (u.failedWith e) = frameOf i u from rfl).trans (Cmd.after_of_error hu ▸ frameOf_after i s)
  · rfl

/-- Settles O29: each clause reads its fields off the frame, which shows them unless the command may write them. -/
theorem commandFrame : Obligations.CommandFrame := by
  intro s t i ht
  have keeps {γ : Type} (g : State → γ) (hg : ∀ u, g (frameOf i u) = g u) : g t = g s := by
    rw [← hg t, exec_frame ht, hg s]
  exact ⟨⟨keeps (·.config) fun _ => rfl, keeps (·.rstHeld) fun _ => rfl, keeps (·.inClosed) fun _ => rfl,
      keeps (·.agenda) fun _ => rfl, keeps (·.reads) fun _ => rfl, keeps (·.taken) fun _ => rfl,
      keeps (·.draws) fun _ => rfl⟩,
    fun hi => ⟨keeps (·.pqKeyIn) fun _ => if_neg hi, keeps (·.pqTagIn) fun _ => if_neg hi,
      keeps (·.freqIdx) fun _ => if_neg hi, keeps (·.nodeIdx) fun _ => if_neg hi, keeps (·.codeIdx) fun _ => if_neg hi,
      keeps (·.overrun) fun _ => if_neg hi⟩,
    fun hi => ⟨keeps (·.inp) fun _ => if_neg (by simp [hi]),
      fun hc => keeps (·.inBits) fun _ => if_neg (by simp [hi, hc])⟩,
    fun hi => ⟨keeps (·.out) fun _ => if_neg (by simp [hi]),
      fun hc => keeps (·.outBits) fun _ => if_neg (by simp [hi, hc])⟩,
    fun hi => keeps (·.pq) fun _ => if_neg hi,
    fun hi => ⟨keeps (·.pqKeyOut) fun _ => if_neg hi, keeps (·.pqTagOut) fun _ => if_neg hi⟩,
    fun hi => keeps (·.freq) fun _ => if_neg hi,
    fun hi => keeps (·.inwords) fun _ => if_neg hi,
    fun hi => ⟨keeps (·.nodes) fun _ => if_neg hi, keeps (·.root) fun _ => if_neg hi,
      keeps (·.treeBits) fun _ => if_neg hi⟩,
    fun hi => keeps (·.code) fun _ => if_neg hi,
    fun hi => ⟨keeps (·.fmt) fun _ => if_neg hi, keeps (·.est) fun _ => if_neg hi, keeps (·.saved) fun _ => if_neg hi⟩,
    fun hi => ⟨keeps (·.treeBitsDecl) fun _ => if_neg hi, keeps (·.lenMismatch) fun _ => if_neg hi⟩,
    fun hi => keeps (·.refused) fun _ => if_neg hi⟩

end Sys2Proof.Machine
end

section
/-! PROOFS. Register accesses (20_memory.md R81, 10_state.md R32, R57): which register an offset names, and what a read
returns and a write leaves in either state of the sequencer. -/

namespace Sys2Proof.Machine

theorem accessWellFormed_aligned {off : BitVec 12} (h : off.toNat % 4 = 0) : accessWellFormed 4 off = true := by
  simp [accessWellFormed, accessWide, accessAligned, h]

theorem hostStep_write {off : BitVec 12} (h : off.toNat % 4 = 0) (s : State) (v : Word) :
    hostStep (.regWrite 4 off v) s = .next (s.hostWrite (regAt off) v) := by
  rw [hostStep, accessWellFormed_aligned h, if_pos rfl]

theorem hostStep_read {off : BitVec 12} (h : off.toNat % 4 = 0) (s : State) :
    hostStep (.regRead 4 off) s = .next (s.hostRead (regAt off)) := by
  rw [hostStep, accessWellFormed_aligned h, if_pos rfl]

theorem hostWrite_idle {s : State} (hs : s.seq = .idle) (hr : s.rstHeld = false) (r : Reg) (v : Word) :
    s.hostWrite r v = s.writeReg r v := by
  simp [State.hostWrite, hr, hs]

/-- While BUSY a write to any register but CMD is ignored (10_state.md R57). -/
theorem hostWrite_busy {s : State} {c : Word} (hs : s.seq = .busy c) {r : Reg} (h : r ≠ .cmd) (v : Word) :
    s.hostWrite r v = s := by
  simp [State.hostWrite, hs, h]

theorem hostRead_busy {s : State} {c : Word} (hs : s.seq = .busy c) (r : Reg) : s.hostRead r =
    { s with reads := s.reads ++ [busyRead r (Config.anyWord s.draws)], draws := s.draws + 1 } := by
  simp [State.hostRead, hs]

/-- A write while IDLE, `rst` released. -/
theorem writes_idle {s : State} (hs : s.seq = .idle) (hr : s.rstHeld = false) {off : BitVec 12}
    (h : off.toNat % 4 = 0) (v : Word) : Writes s off v (s.writeReg (regAt off) v) := by
  rw [Writes, hostStep_write h, hostWrite_idle hs hr]

/-- A read while IDLE. -/
theorem readsAs_idle {s : State} (hs : s.seq = .idle) {off : BitVec 12} (h : off.toNat % 4 = 0) :
    ReadsAs s off (s.readReg (regAt off)) := by
  rw [ReadsAs, hostStep_read h, hostRead_idle hs]

theorem readsAs_of_reg {s : State} (hs : s.seq = .idle) {off : BitVec 12} {w : Word} (hoff : off.toNat % 4 = 0)
    (hw : s.readReg (regAt off) = w) : ReadsAs s off w := hw ▸ readsAs_idle hs hoff

/-- No register but the reserved ones has two offsets (10_state.md R32). -/
theorem offset_of_regAt {off : BitVec 12} {k : Nat} {r : Reg} (h : regAt off = r) (hk : regMap[k]? = some r)
    (hr : r ≠ .reserved) : off.toNat / 4 = k := by
  have hoff : regMap[off.toNat / 4]? = some r := by
    cases hx : regMap[off.toNat / 4]? with
    | none => rw [regAt, hx] at h; exact absurd h.symm hr
    | some x => rw [regAt, hx] at h; exact congrArg some h
  have hlt : k < regMap.length := (List.getElem?_eq_some_iff.1 hk).1
  exact ((List.getElem?_inj hlt (by decide)).1 (hk.trans hoff.symm)).symm

theorem regAt_reserved {off : BitVec 12} (h : 0x0A0 ≤ off.toNat) : regAt off = .reserved := by
  have hl : regMap.length ≤ off.toNat / 4 := by
    rw [show regMap.length = 40 from rfl]
    omega
  rw [regAt, List.getElem?_eq_none hl, Option.getD_none]

/-- The eight words of the CODE window stand one after another (10_state.md R48). -/
theorem codeVal_offset (k : Fin 8) : (BitVec.ofNat 12 (0x070 + 4 * k.val)).toNat % 4 = 0 ∧
    regAt (BitVec.ofNat 12 (0x070 + 4 * k.val)) = .codeVal k := by
  revert k
  decide

/-- Settles O8: of the registers, only CMD takes a write while BUSY, and only STATUS has a fixed bit. -/
theorem busyAccess : Obligations.BusyAccess := by
  intro s c v off hs hoff
  refine ⟨fun h => ?_, fun h => ?_, fun h => ?_⟩
  · have hr : regAt off ≠ .cmd := by
      intro hc
      have hk := offset_of_regAt (k := 1) hc rfl nofun
      exact h (BitVec.eq_of_toNat_eq (by show off.toNat = 4; omega))
    rw [Writes, hostStep_write hoff, hostWrite_busy hs hr]
  · subst h
    refine ⟨by simp, ?_⟩
    rw [hostStep_read hoff, hostRead_busy hs]
    rfl
  · have hr : regAt off ≠ .status := by
      intro hc
      have hk := offset_of_regAt (k := 2) hc rfl nofun
      exact h (BitVec.eq_of_toNat_eq (by show off.toNat = 8; omega))
    rw [hostStep_read hoff, hostRead_busy hs, busyRead, if_neg hr]

end Sys2Proof.Machine
end

section
/-! PROOFS. The fields of the register words, bit by bit (10_state.md R35, R36, R43, R45, R48). -/

namespace Sys2Proof.Machine

theorem flagBit_getLsbD (b : Bool) (k j : Nat) :
    (flagBit b k).getLsbD j = (b && (decide (k < 32) && decide (k = j))) := by
  cases b with
  | false => simp [flagBit]
  | true => rw [flagBit, if_pos rfl, ← BitVec.twoPow_eq, BitVec.getLsbD_twoPow, Bool.true_and]

theorem field_getLsbD {n : Nat} (x : BitVec n) (k j : Nat) :
    (x.setWidth 32 <<< k : Word).getLsbD j = (decide (j < 32) && (decide (k ≤ j) && x.getLsbD (j - k))) := by
  rw [BitVec.getLsbD_shiftLeft, BitVec.getLsbD_setWidth]
  by_cases hj : j < 32
  · have hi : j - k < 32 := by omega
    by_cases hk : j < k
    · simp [hk]
    · simp [hk, hj, hi, Nat.le_of_not_lt hk]
  · simp [hj]

/-- A word has no bit in common with a mask when each of its fields has none. -/
theorem or_and_eq_zero {a b m : Word} (ha : a &&& m = 0) (hb : b &&& m = 0) : (a ||| b) &&& m = 0 := by
  rw [BitVec.and_or_distrib_right, ha, hb]
  rfl

theorem flagBit_and_eq_zero (b : Bool) {k : Nat} {m : Word} (hm : m.getLsbD k = false) : flagBit b k &&& m = 0 := by
  refine BitVec.eq_of_getLsbD_eq fun j hj => ?_
  rw [BitVec.getLsbD_and, flagBit_getLsbD]
  by_cases h : k = j
  · simp [← h, hm]
  · simp [h]

theorem field_and_eq_zero {n : Nat} (x : BitVec n) (k : Nat) {m : Word} (hm : ∀ j < n, m.getLsbD (k + j) = false) :
    (x.setWidth 32 <<< k : Word) &&& m = 0 := by
  refine BitVec.eq_of_getLsbD_eq fun j hj => ?_
  rw [BitVec.getLsbD_and, field_getLsbD]
  by_cases hk : k ≤ j ∧ j - k < n
  · have hmj := hm (j - k) hk.2
    rw [Nat.add_sub_cancel' hk.1] at hmj
    simp [hmj]
  · have hx : (decide (k ≤ j) && x.getLsbD (j - k)) = false := by
      by_cases h : k ≤ j
      · rw [BitVec.getLsbD_of_ge _ _ (Nat.le_of_not_lt fun hn => hk ⟨h, hn⟩), Bool.and_false]
      · simp [h]
    simp [hx]

theorem setWidth_and_eq_zero {n : Nat} (x : BitVec n) {m : Word} (hm : ∀ j < n, m.getLsbD j = false) :
    (x.setWidth 32 : Word) &&& m = 0 := by
  have h := field_and_eq_zero x 0 (m := m) (by simpa using hm)
  rwa [BitVec.shiftLeft_zero] at h

theorem getLsbD_and_not (v : Word) {m : Word} {j : Nat} (hm : m.getLsbD j = false) :
    (v &&& ~~~m).getLsbD j = v.getLsbD j := by
  rw [BitVec.getLsbD_and, BitVec.getLsbD_not, hm, Bool.not_false, Bool.and_true]
  by_cases hj : j < 32
  · rw [decide_eq_true hj, Bool.and_true]
  · rw [BitVec.getLsbD_of_ge v j (Nat.le_of_not_lt hj), Bool.false_and]

/-- A field outside a mask does not see the bits under it. -/
theorem setWidth_and_not {n : Nat} (v : Word) {m : Word} (hm : ∀ j < n, m.getLsbD j = false) :
    (v &&& ~~~m).setWidth n = v.setWidth n := by
  refine BitVec.eq_of_getLsbD_eq fun j hj => ?_
  rw [BitVec.getLsbD_setWidth, BitVec.getLsbD_setWidth, getLsbD_and_not v (hm j hj)]

theorem errcode_eq {s : State} {e : ErrCode} (h : s.error = some e) : s.errcode = errNumber e := by
  rw [State.errcode, h]

theorem busy_idle {s : State} (h : s.seq = .idle) : s.busy = false := by rw [State.busy, h]

/-- The bits of STATUS (10_state.md R35). -/
theorem statusWord_getLsbD (s : State) (j : Nat) (hj : j < 32) : s.statusWord.getLsbD j =
    ((s.busy && decide (0 = j)) || (s.done && decide (1 = j)) || (s.error.isSome && decide (2 = j)) ||
      (s.overrun && decide (3 = j)) || (decide (8 ≤ j) && s.errcode.getLsbD (j - 8)) ||
      (s.prepassValid && decide (16 = j)) || (s.treeValid && decide (17 = j)) || (s.codesValid && decide (18 = j)) ||
      ((s.fmt == .stf) && decide (19 = j)) || (s.refused && decide (20 = j)) ||
      (s.lenMismatch && decide (21 = j))) := by
  simp only [State.statusWord, BitVec.getLsbD_or, flagBit_getLsbD, field_getLsbD, hj, Nat.reduceLT, decide_true,
    Bool.true_and]

theorem statusWord_errcode (s : State) : s.statusWord.extractLsb' 8 8 = s.errcode := by
  refine BitVec.eq_of_getLsbD_eq fun j hj => ?_
  rw [BitVec.getLsbD_extractLsb', statusWord_getLsbD s _ (by omega)]
  interval_cases j <;> simp

theorem statusWord_reserved (s : State) : s.statusWord &&& 0xFFC000F0#32 = 0 := by
  unfold State.statusWord
  refine or_and_eq_zero (or_and_eq_zero (or_and_eq_zero (or_and_eq_zero (or_and_eq_zero (or_and_eq_zero
    (or_and_eq_zero (or_and_eq_zero (or_and_eq_zero (or_and_eq_zero ?_ ?_) ?_) ?_) ?_) ?_) ?_) ?_) ?_) ?_) ?_
  case refine_5 => exact field_and_eq_zero s.errcode 8 (by decide)
  all_goals exact flagBit_and_eq_zero _ (by decide)

/-- What a word has nothing of under a mask, it has nothing of in a field under the mask. -/
theorem extract_of_and_eq_zero {w m : Word} {i n : Nat} (h : w &&& m = 0) (hm : ∀ j < n, m.getLsbD (i + j) = true) :
    w.extractLsb' i n = 0 := by
  refine BitVec.eq_of_getLsbD_eq fun j hj => ?_
  have hw := congrArg (fun x => x.getLsbD (i + j)) h
  simpa [BitVec.getLsbD_extractLsb', hm j hj, hj] using hw

/-- Settles O9: each bit of STATUS is one field; the reserved ones are where no field is. -/
theorem statusRead : Obligations.StatusRead := by
  refine ⟨fun s hs => ⟨s.statusWord, readsAs_idle hs (by decide), ?_⟩, rfl⟩
  have hres := statusWord_reserved s
  have hbit := statusWord_getLsbD s
  refine ⟨?_, ?_, ?_, ?_, extract_of_and_eq_zero hres (by decide), fun he => ?_, fun e he => ?_, ?_, ?_, ?_, ?_, ?_, ?_,
    extract_of_and_eq_zero hres (by decide)⟩
  case refine_5 => rw [statusWord_errcode, State.errcode, he]
  case refine_6 => rw [statusWord_errcode, errcode_eq he]
  all_goals
    rw [hbit _ (by decide)]
    simp [busy_idle hs]

theorem configWord_reserved (s : State) : s.configWord &&& 0xFFFFFFF8#32 = 0 :=
  or_and_eq_zero (or_and_eq_zero (flagBit_and_eq_zero _ (by decide)) (flagBit_and_eq_zero _ (by decide)))
    (flagBit_and_eq_zero _ (by decide))

/-- Settles O10: the two writes are the model's own updates, and CONFIG's three bits are its three fields. -/
theorem statusConfigWrites : Obligations.StatusConfigWrites := by
  intro s v hs hr
  refine ⟨writes_idle hs hr (by decide) v, writes_idle hs hr (by decide) v, s.configWord,
    readsAs_idle hs (by decide), ?_, ?_, ?_, extract_of_and_eq_zero (configWord_reserved s) (by decide)⟩
  all_goals
    simp only [State.configWord, BitVec.getLsbD_or, flagBit_getLsbD]
    simp

end Sys2Proof.Machine
end

section
/-! PROOFS. The windows of FREQ, NODE and CODE, the registers that only read, and the reserved bits (10_state.md R41 to
R49, R55, R56, R58, R59). -/

namespace Sys2Proof.Machine

/-- Settles O11: the write is FREQ's entry put, whose other entries stay. -/
theorem freqWrite : Obligations.FreqWrite := by
  intro s v hs hr
  refine ⟨(s.setFreq s.freqIdx v).freq, writes_idle hs hr (by decide) v, fun w => ?_⟩
  exact (freqAt_setFreq s s.freqIdx w v).trans (if_congr eq_comm rfl rfl)

/-- Writing an index register keeps the low bits, the ones that count (10_state.md R59). -/
theorem writes_freqIdx {s : State} (hs : s.seq = .idle) (hr : s.rstHeld = false) (v : Word) :
    Writes s 0x050 v { s with freqIdx := v.extractLsb' 0 8 } :=
  BitVec.setWidth_eq_extractLsb' (x := v) (w := 8) (by decide) ▸ writes_idle hs hr (by decide) v

theorem writes_nodeIdx {s : State} (hs : s.seq = .idle) (hr : s.rstHeld = false) (v : Word) :
    Writes s 0x058 v { s with nodeIdx := v.extractLsb' 0 10 } :=
  BitVec.setWidth_eq_extractLsb' (x := v) (w := 10) (by decide) ▸ writes_idle hs hr (by decide) v

theorem writes_codeIdx {s : State} (hs : s.seq = .idle) (hr : s.rstHeld = false) (v : Word) :
    Writes s 0x068 v { s with codeIdx := v.extractLsb' 0 9 } :=
  BitVec.setWidth_eq_extractLsb' (x := v) (w := 9) (by decide) ▸ writes_idle hs hr (by decide) v

/-- The three words of the NODE window (10_state.md R45). -/
theorem readsAs_nodeWindow {s : State} (hs : s.seq = .idle) {a b c : Word} (h : s.nodeWindow = (a, b, c)) :
    ReadsAs s 0x05C a ∧ ReadsAs s 0x060 b ∧ ReadsAs s 0x064 c := by
  have h0 : ReadsAs s 0x05C s.nodeWindow.1 := readsAs_idle hs (by decide)
  have h1 : ReadsAs s 0x060 s.nodeWindow.2.1 := readsAs_idle hs (by decide)
  have h2 : ReadsAs s 0x064 s.nodeWindow.2.2 := readsAs_idle hs (by decide)
  rw [h] at h0 h1 h2
  exact ⟨h0, h1, h2⟩

/-- At or beyond NODE_COUNT the NODE window shows no record (10_state.md R45). -/
theorem nodeWindow_beyond {s : State} (h : s.nodes.length ≤ s.nodeIdx.toNat) : s.nodeWindow = (0, 0, 0) := by
  rw [State.nodeWindow, List.getElem?_eq_none h, nodeWords]

/-- The nine words of the CODE window (10_state.md R48). -/
theorem readsAs_codeWindow {s : State} (hs : s.seq = .idle) {o : Option Code} (h : s.codeWindow = o) :
    ReadsAs s 0x06C (codeInfo o) ∧ ∀ k : Fin 8, ReadsAs s (BitVec.ofNat 12 (0x070 + 4 * k.val)) (codeVal o k) := by
  refine ⟨h ▸ readsAs_idle hs (by decide), fun k => ?_⟩
  obtain ⟨hoff, hreg⟩ := codeVal_offset k
  have hread := readsAs_idle hs hoff
  rwa [hreg, State.readReg, h] at hread

theorem codeWindow_beyond {s : State} (h : 256 < s.codeIdx.toNat) : s.codeWindow = none := by
  have hlen : s.code.rows.length ≤ s.codeIdx.toNat := s.code.size.trans_le h
  rw [State.codeWindow, List.getElem?_eq_none hlen, Option.join_none, ite_self]

/-- Within the table the CODE window shows the entry of its symbol while CODES_VALID (10_state.md R48). -/
theorem codeWindow_entry {s : State} (hv : s.codesValid = true) {y : Sym} (hy : s.codeIdx.toNat = y.val) :
    s.codeWindow = s.codeAt y := by
  have hlt : y.val < s.code.rows.length := s.code.size.symm ▸ y.isLt
  rw [State.codeWindow, hv, if_pos rfl, hy, List.getElem?_eq_getElem hlt]
  rfl

/-- Settles O12: the three index registers, the windows beyond their tables, and that every read is only recorded. -/
theorem indexRegisters : Obligations.IndexRegisters := by
  intro s v hs hr
  exact ⟨writes_freqIdx hs hr v, readsAs_idle hs (by decide), writes_nodeIdx hs hr v, readsAs_idle hs (by decide),
    writes_codeIdx hs hr v, readsAs_idle hs (by decide), readsAs_idle hs (by decide),
    fun h => readsAs_nodeWindow hs (nodeWindow_beyond h), fun h => readsAs_codeWindow hs (codeWindow_beyond h),
    fun off hoff => ⟨_, readsAs_idle hs hoff⟩⟩

/-- Settles O13: the window shows the words of the record at NODE_IDX, and its registers take no write. -/
theorem nodeWindow : Obligations.NodeWindow := by
  intro s hs hr
  refine ⟨writes_nodeIdx hs hr, readsAs_idle hs (by decide), fun y w hn => readsAs_nodeWindow hs ?_,
    fun l r w hn => readsAs_nodeWindow hs ?_, fun h => readsAs_nodeWindow hs (nodeWindow_beyond h), fun v =>
      ⟨writes_idle hs hr (by decide) v, writes_idle hs hr (by decide) v, writes_idle hs hr (by decide) v⟩⟩
  · rw [State.nodeWindow, hn]
    rfl
  · rw [State.nodeWindow, hn]
    rfl

/-- The first bit of a pattern on the wire is its most significant one (20_memory.md R88). -/
theorem code_bits_head (c : Code) (h : 0 < c.len.toNat) : c.bits.head? = some (c.val.getLsbD (c.len.toNat - 1)) := by
  obtain ⟨k, hk⟩ := Nat.exists_eq_add_one_of_ne_zero h.ne'
  rw [Code.bits, hk]
  rfl

/-- Settles O14: the window shows the code of CODE_IDX's symbol, none where there is none, and takes no write. -/
theorem codeWindow : Obligations.CodeWindow := by
  refine ⟨fun s hs hr => ⟨writes_codeIdx hs hr, readsAs_idle hs (by decide), fun y c hv hy hc => ?_, fun h => ?_,
    fun v => ⟨writes_idle hs hr (by decide) v, fun k => ?_⟩⟩, code_bits_head⟩
  · exact readsAs_codeWindow hs ((codeWindow_entry hv hy).trans hc)
  · refine readsAs_codeWindow hs (o := none) ?_
    cases hv : s.codesValid with
    | false => rw [State.codeWindow, hv]; rfl
    | true =>
      obtain h | h | ⟨y, hy, hc⟩ := h
      · exact absurd (hv.symm.trans h) nofun
      · exact codeWindow_beyond h
      · exact (codeWindow_entry hv hy).trans hc
  · obtain ⟨hoff, hreg⟩ := codeVal_offset k
    have hw := writes_idle hs hr hoff v
    rwa [hreg] at hw

/-- The registers that no host write changes (10_state.md R33 to R50, R56). -/
def Reg.readOnly (r : Reg) : Bool :=
  match r with
  | .cmd | .status | .config | .pqKeyIn | .pqTagIn | .freqIdx | .freqData | .nodeIdx | .codeIdx => false
  | _ => true

theorem writeReg_readOnly {r : Reg} (h : r.readOnly = true) (s : State) (v : Word) : s.writeReg r v = s := by
  cases r with
  | cmd | status | config | pqKeyIn | pqTagIn | freqIdx | freqData | nodeIdx | codeIdx => cases h
  | _ => rfl

/-- While IDLE a write has the effect of its register, or none while `rst` is asserted. -/
theorem hostWrite_congr {s : State} (hs : s.seq = .idle) {r : Reg} {v w : Word} (h : s.writeReg r v = s.writeReg r w) :
    s.hostWrite r v = s.hostWrite r w := by
  simp [State.hostWrite, hs, h]

theorem writes_readOnly {s : State} (hs : s.seq = .idle) {off : BitVec 12} (hoff : off.toNat % 4 = 0)
    (hreg : (regAt off).readOnly = true) (v : Word) : Writes s off v s := by
  rw [Writes, hostStep_write hoff]
  simp [State.hostWrite, hs, writeReg_readOnly hreg]

/-- A register's bits under a mask read 0 and ignore writes (10_state.md R56). -/
theorem reserved_bits {s : State} (hs : s.seq = .idle) {off : BitVec 12} (hoff : off.toNat % 4 = 0) {m : Word}
    (v : Word) (hread : s.readReg (regAt off) &&& m = 0)
    (hwrite : s.writeReg (regAt off) v = s.writeReg (regAt off) (v &&& ~~~m)) :
    (∃ w, ReadsAs s off w ∧ w &&& m = 0) ∧
      hostStep (.regWrite 4 off v) s = hostStep (.regWrite 4 off (v &&& ~~~m)) s := by
  refine ⟨⟨_, readsAs_idle hs hoff, hread⟩, ?_⟩
  rw [hostStep_write hoff, hostStep_write hoff, hostWrite_congr hs hwrite]

/-- The reserved bits of a read-only register. -/
theorem reserved_bits_readOnly {s : State} (hs : s.seq = .idle) {off : BitVec 12} (hoff : off.toNat % 4 = 0)
    (hreg : (regAt off).readOnly = true) {m : Word} (v : Word) (hread : s.readReg (regAt off) &&& m = 0) :
    (∃ w, ReadsAs s off w ∧ w &&& m = 0) ∧
      hostStep (.regWrite 4 off v) s = hostStep (.regWrite 4 off (v &&& ~~~m)) s :=
  reserved_bits hs hoff v hread ((writeReg_readOnly hreg s v).trans (writeReg_readOnly hreg s _).symm)

/-- A symbol has nine bits (10_state.md R45). -/
theorem symbol_and_eq_zero (y : Sym) {m : Word} (hm : ∀ j < 9, m.getLsbD j = false) :
    BitVec.ofNat 32 y.val &&& m = 0 := by
  have hy : BitVec.ofNat 32 y.val = (BitVec.ofNat 9 y.val).setWidth 32 := by
    apply BitVec.eq_of_toNat_eq
    have := y.isLt
    simp only [BitVec.toNat_ofNat, BitVec.toNat_setWidth]
    omega
  rw [hy]
  exact setWidth_and_eq_zero _ hm

theorem nodeWords_reserved (n : Option Node) :
    (nodeWords n).1 &&& 0x7FFFFE00#32 = 0 ∧ (nodeWords n).2.2 &&& 0xFC00FC00#32 = 0 := by
  match n with
  | none => exact ⟨rfl, rfl⟩
  | some (.leaf y w) =>
    exact ⟨or_and_eq_zero rfl (symbol_and_eq_zero y (by decide)), show 0x03FF03FF#32 &&& 0xFC00FC00#32 = 0 from rfl⟩
  | some (.int l r w) =>
    exact ⟨show 0#32 &&& 0x7FFFFE00#32 = 0 from rfl,
      or_and_eq_zero (field_and_eq_zero r 16 (by decide)) (setWidth_and_eq_zero l (by decide))⟩

theorem codeInfo_reserved (c : Option Code) : codeInfo c &&& 0x7FFFFE00#32 = 0 := by
  cases c with
  | none => rfl
  | some c => exact or_and_eq_zero rfl (setWidth_and_eq_zero c.len (by decide))

theorem treeInfo_reserved (s : State) : s.treeInfo &&& 0xFC00FC00#32 = 0 :=
  or_and_eq_zero (field_and_eq_zero _ 16 (by decide)) (setWidth_and_eq_zero s.root (by decide))

theorem writeStatus_reserved (s : State) (v : Word) : s.writeStatus v = s.writeStatus (v &&& ~~~0xFFC000F0#32) := by
  have h1 := getLsbD_and_not v (m := 0xFFC000F0#32) (j := 1) rfl
  have h2 := getLsbD_and_not v (m := 0xFFC000F0#32) (j := 2) rfl
  have h3 := getLsbD_and_not v (m := 0xFFC000F0#32) (j := 3) rfl
  rw [State.writeStatus, State.writeStatus, h1, h2, h3]

theorem writeConfig_reserved (s : State) (v : Word) : s.writeConfig v = s.writeConfig (v &&& ~~~0xFFFFFFF8#32) := by
  have h0 := getLsbD_and_not v (m := 0xFFFFFFF8#32) (j := 0) rfl
  have h1 := getLsbD_and_not v (m := 0xFFFFFFF8#32) (j := 1) rfl
  have h2 := getLsbD_and_not v (m := 0xFFFFFFF8#32) (j := 2) rfl
  rw [State.writeConfig, State.writeConfig, h0, h1, h2]

/-- Settles O15: the offsets from 0x0A0 on are the reserved register, the reserved bits are those of no field, and the
registers listed are read-only. -/
theorem readOnlyReserved : Obligations.ReadOnlyReserved := by
  intro s v hs
  refine ⟨fun off hoff hge => ?_, fun p hp => ?_, fun off hoff => ?_⟩
  · have hreg := regAt_reserved hge
    have hread := readsAs_idle hs hoff
    rw [hreg] at hread
    exact ⟨hread, writes_readOnly hs hoff (by rw [hreg]; rfl) v⟩
  · simp only [List.mem_cons, List.not_mem_nil, or_false] at hp
    obtain rfl | rfl | rfl | rfl | rfl | rfl | rfl | rfl | rfl | rfl | rfl | rfl := hp
    · exact reserved_bits hs (by decide) v (statusWord_reserved s) (writeStatus_reserved s v)
    · exact reserved_bits hs (by decide) v (configWord_reserved s) (writeConfig_reserved s v)
    · exact reserved_bits_readOnly hs (by decide) rfl v (treeInfo_reserved s)
    · exact reserved_bits_readOnly hs (by decide) rfl v (setWidth_and_eq_zero _ (by decide))
    · exact reserved_bits hs (by decide) v (setWidth_and_eq_zero s.pqTagIn (by decide))
        (congrArg (fun t => { s with pqTagIn := t }) (setWidth_and_not v (by decide)).symm)
    · exact reserved_bits_readOnly hs (by decide) rfl v (setWidth_and_eq_zero s.pqTagOut (by decide))
    · exact reserved_bits hs (by decide) v (setWidth_and_eq_zero s.freqIdx (by decide))
        (congrArg (fun t => { s with freqIdx := t }) (setWidth_and_not v (by decide)).symm)
    · exact reserved_bits hs (by decide) v (setWidth_and_eq_zero s.nodeIdx (by decide))
        (congrArg (fun t => { s with nodeIdx := t }) (setWidth_and_not v (by decide)).symm)
    · exact reserved_bits_readOnly hs (by decide) rfl v (nodeWords_reserved s.nodes[s.nodeIdx.toNat]?).1
    · exact reserved_bits_readOnly hs (by decide) rfl v (nodeWords_reserved s.nodes[s.nodeIdx.toNat]?).2
    · exact reserved_bits hs (by decide) v (setWidth_and_eq_zero s.codeIdx (by decide))
        (congrArg (fun t => { s with codeIdx := t }) (setWidth_and_not v (by decide)).symm)
    · exact reserved_bits_readOnly hs (by decide) rfl v (codeInfo_reserved s.codeWindow)
  · have hall : ∀ off ∈ [0x000#12, 0x010#12, 0x014#12, 0x018#12, 0x01C#12, 0x020#12, 0x024#12, 0x028#12, 0x02C#12,
        0x030#12, 0x034#12, 0x038#12, 0x03C#12, 0x048#12, 0x04C#12, 0x05C#12, 0x060#12, 0x064#12, 0x06C#12, 0x070#12,
        0x074#12, 0x078#12, 0x07C#12, 0x080#12, 0x084#12, 0x088#12, 0x08C#12, 0x090#12, 0x094#12, 0x098#12, 0x09C#12],
        off.toNat % 4 = 0 ∧ (regAt off).readOnly = true := by
      simp only [List.forall_mem_cons, List.not_mem_nil, false_implies, implies_true, and_true]
      and_intros <;> rfl
    obtain ⟨h4, hreg⟩ := hall off hoff
    exact writes_readOnly hs h4 hreg v

theorem treeInfo_root (s : State) : s.treeInfo.extractLsb' 0 10 = s.root := by
  refine BitVec.eq_of_getLsbD_eq fun j hj => ?_
  have h16 : ¬ 16 ≤ j := by omega
  have h32 : j < 32 := by omega
  simp only [State.treeInfo, BitVec.getLsbD_extractLsb', BitVec.getLsbD_or, field_getLsbD, BitVec.getLsbD_setWidth, hj,
    h16, h32, Nat.zero_add, decide_true, decide_false, Bool.true_and, Bool.false_and, Bool.false_or]

theorem treeInfo_count (s : State) : s.treeInfo.extractLsb' 16 10 = BitVec.ofNat 10 s.nodes.length := by
  refine BitVec.eq_of_getLsbD_eq fun j hj => ?_
  have h32 : 16 + j < 32 := by omega
  have hroot : s.root.getLsbD (16 + j) = false := BitVec.getLsbD_of_ge _ _ (by omega)
  simp only [State.treeInfo, BitVec.getLsbD_extractLsb', BitVec.getLsbD_or, field_getLsbD, BitVec.getLsbD_setWidth, hj,
    h32, hroot, Nat.le_add_right, Nat.add_sub_cancel_left, decide_true, Bool.true_and, Bool.and_false, Bool.or_false]

/-- Settles O16: each register reads its own field; TREEINFO and PQ_SIZE hold the counts, which fit their fields. -/
theorem readback : Obligations.Readback := by
  intro s v hs hr
  refine ⟨readsAs_idle hs (by decide), readsAs_idle hs (by decide), fun p hp => ?_, readsAs_idle hs (by decide),
    readsAs_idle hs (by decide), fun hn => ⟨_, readsAs_idle hs (by decide), treeInfo_root s, ?_⟩,
    fun hq => ⟨_, readsAs_idle hs (by decide), ?_⟩, writes_idle hs hr (by decide) v, readsAs_idle hs (by decide),
    ?_, readsAs_idle hs (by decide), readsAs_idle hs (by decide), readsAs_idle hs (by decide)⟩
  · simp only [List.mem_cons, List.not_mem_nil, or_false] at hp
    obtain rfl | rfl | rfl | rfl | rfl | rfl := hp
    all_goals
      dsimp only
      exact ⟨readsAs_of_reg hs (by decide) rfl, readsAs_of_reg hs (by decide) rfl⟩
  · show (s.treeInfo.extractLsb' 16 10).toNat = s.nodes.length
    rw [treeInfo_count, BitVec.toNat_ofNat]
    omega
  · show ((BitVec.ofNat 9 s.pq.length).setWidth 32).toNat = s.pq.length
    rw [BitVec.toNat_setWidth, BitVec.toNat_ofNat]
    omega
  · exact BitVec.setWidth_eq_extractLsb' (x := v) (w := 16) (by decide) ▸ writes_idle hs hr (by decide) v

/-- Settles O17: every piece of block state is written out in `State.reset`. -/
theorem resetState : Obligations.ResetState := by
  have hfreq : ∀ w, State.reset.freqAt w = 0 := fun w => Table.get_fill 0 w.toFin
  have hcode : ∀ y, State.reset.codeAt y = none := fun y => Table.get_fill none y
  exact ⟨rfl, rfl, rfl, rfl, rfl, rfl, rfl, rfl, rfl, rfl, rfl, rfl, rfl, rfl, rfl, rfl, rfl, rfl, rfl, hfreq, rfl, rfl,
    rfl, hcode, rfl⟩

end Sys2Proof.Machine
end

section
/-! PROOFS. What the other end of a port does while a command runs makes no difference to it: bits that arrive on IN
later (20_memory.md R84), and bits the host takes from OUT early (20_memory.md R94). -/

namespace Sys2Proof.Machine

theorem clears_inClosed (i : Instr) (s : State) : ((commandOf i).clears s).inClosed = s.inClosed := by
  cases i <;> rfl

/-- A command that completes on an open IN completes in the same way when more bits stand on IN (20_memory.md R84). -/
theorem exec_push {s t : State} {i : Instr} (m : Bits) (c : Bool) (hb : s.busy = true) (ho : s.inClosed = false)
    (h : exec i s = .next t) (ht : t.busy = false) : exec i (s.push m c) = .next (t.push m c) := by
  have hadm := admission_push i s m c
  have hext := body_extends i ((commandOf i).clears s) m c ((clears_inClosed i s).trans ho)
  rw [← clears_push] at hext
  obtain ⟨e, ha, rfl⟩ | ⟨ha, hrun⟩ := exec_next h
  · exact exec_of_admission (hadm.trans ha)
  obtain ⟨r, u, hu, rfl⟩ | ⟨e, u, hu, rfl⟩ | ⟨u, -, rfl⟩ := hrun
  · rw [hu] at hext
    exact exec_of_ok (hadm.trans ha) hext.2
  · rw [hu] at hext
    exact exec_of_raise (hadm.trans ha) hext
  · exact absurd (hb.symm.trans ht) nofun

/-- Settles O22: every pseudocode's run on an open IN extends to a run with more bits behind it. -/
theorem laterBits : Obligations.LaterBits := fun _ _ _ more closed hb ho h ht => exec_push more closed hb ho h ht

theorem port_self (s : State) : s.port s.out s.outEarly s.draws s.taken = s := rfl

theorem Command.reached_admitted {c : Command} {s : State} (h : c.admission s = none) :
    c.reached s = c.body.after (c.clears s) := by
  simp only [Command.reached, h, Command.run, Cmd.after]
  cases c.body (c.clears s) <;> rfl

/-- Admitted, a command's pseudocode writes the same bits and does the same whatever stands on the output side
(20_memory.md R94). -/
theorem body_port {i : Instr} (hi : i ≠ .clear) (s : State) : ∃ b : Bits,
    ((commandOf i).body.after ((commandOf i).clears s)).out = s.out ++ b.drop s.outEarly ∧
      ∀ o e d k, (commandOf i).body ((commandOf i).clears (s.port o e d k)) =
        onState (fun t => t.port (o ++ b.drop e) (e - b.length) d k) ((commandOf i).body ((commandOf i).clears s)) := by
  obtain ⟨b, hb⟩ := body_oblivious hi ((commandOf i).clears s)
  simp only [← clears_port] at hb
  refine ⟨b, ?_, hb⟩
  have hself := hb s.out s.outEarly s.draws s.taken
  rw [port_self] at hself
  cases hr : (commandOf i).body ((commandOf i).clears s) with
  | ok r u =>
    rw [hr] at hself
    rw [Cmd.after_of_ok hr]
    exact congrArg State.out (EStateM.Result.ok.inj hself).2
  | error e u =>
    rw [hr] at hself
    rw [Cmd.after_of_error hr]
    exact congrArg State.out (EStateM.Result.error.inj hself).2

/-- A command that completes writes some bits, the same whatever stands on OUT: OUT gets those that it did not receive
early, and everything else is the same (20_memory.md R94). -/
theorem exec_port {s t : State} {i : Instr} (hb : s.busy = true) (h : exec i s = .next t) (ht : t.busy = false) :
    ∃ b : Bits, ((commandOf i).reached s).out = s.out ++ b.drop s.outEarly ∧
      ∀ o e d k, exec i (s.port o e d k) = .next (t.port (o ++ b.drop e) 0 d k) := by
  by_cases hi : i = .clear
  · subst hi
    cases h
    refine ⟨[], ?_, fun o e d k => ?_⟩
    · rw [List.drop_nil, List.append_nil]
      rfl
    · rw [List.drop_nil, List.append_nil]
      rfl
  have hadm := admission_port i s
  obtain ⟨e, ha, rfl⟩ | ⟨ha, hrun⟩ := exec_next h
  · refine ⟨[], by simp [Command.reached, ha], fun o e d k => ?_⟩
    rw [List.drop_nil, List.append_nil]
    exact exec_of_admission ((hadm o e d k).trans ha)
  obtain ⟨b, hout, hbody⟩ := body_port hi s
  refine ⟨b, Command.reached_admitted ha ▸ hout, fun o e d k => ?_⟩
  have hrunp := hbody o e d k
  obtain ⟨r, u, hu, rfl⟩ | ⟨c, u, hu, rfl⟩ | ⟨u, -, rfl⟩ := hrun
  · rw [hu] at hrunp
    exact exec_of_ok ((hadm o e d k).trans ha) hrunp
  · rw [hu] at hrunp
    exact exec_of_raise ((hadm o e d k).trans ha) hrunp
  · exact absurd (hb.symm.trans ht) nofun

/-- An OutTake while BUSY: first some of the bits pending are put out, then the host takes (20_memory.md R86, R94). -/
theorem outTake_busy {s : State} {c : Word} {i : Instr} (hs : s.seq = .busy c) (hc : decode c = .ok i) (k : Nat) :
    ∃ (n : Nat) (early : Bits), early = (((commandOf i).reached s).out.drop s.out.length).take n ∧
      hostStep (.outTake k) s = .next (s.port ((s.out ++ early).drop k) (s.outEarly + early.length) (s.draws + 1)
        (s.taken ++ (s.out ++ early).take k)) := by
  have hpend : s.pendingOut = ((commandOf i).reached s).out.drop s.out.length := by
    simp only [State.pendingOut, State.progress, hs, hc]
  refine ⟨drawUpTo s.draws s.pendingOut.length, _, rfl, ?_⟩
  rw [← hpend]
  simp [hostStep, State.emitEarly, State.takeOut, State.port, hs]

/-- Bits taken early, bits put out early and the rest are the output, whole and in order. -/
theorem take_drop_output (out b : Bits) (n m k : Nat) :
    (out ++ (b.drop m).take n).take k ++
      ((out ++ (b.drop m).take n).drop k ++ b.drop (m + ((b.drop m).take n).length)) = out ++ b.drop m := by
  rw [← List.append_assoc, List.take_append_drop, List.append_assoc, ← List.drop_drop]
  congr 1
  conv_rhs => rw [← List.take_append_drop n (b.drop m)]
  by_cases h : n ≤ (b.drop m).length
  · rw [List.length_take_of_le h]
  · rw [List.take_of_length_le (Nat.le_of_not_le h), List.drop_length, List.drop_of_length_le (Nat.le_of_not_le h)]

/-- Settles O21: what the command puts out early starts its output, and its completion appends the rest. -/
theorem drainDuringBusy : Obligations.DrainDuringBusy := by
  intro s t c i k hs hc h ht
  have hb : s.busy = true := by rw [State.busy, hs]
  obtain ⟨b, hreached, hport⟩ := exec_port hb h ht
  obtain ⟨n, early, hearly, hu⟩ := outTake_busy hs hc k
  rw [hreached, List.drop_left] at hearly
  have hself : t = t.port (s.out ++ b.drop s.outEarly) 0 s.draws s.taken :=
    Host.Outcome.next.inj (h.symm.trans (hport s.out s.outEarly s.draws s.taken))
  refine ⟨_, _, hu, hport _ _ _ _, ?_, by rw [hself]; rfl⟩
  calc (s.taken ++ (s.out ++ early).take k) ++ ((s.out ++ early).drop k ++ b.drop (s.outEarly + early.length))
      = s.taken ++ (s.out ++ b.drop s.outEarly) := by rw [List.append_assoc, hearly, take_drop_output]
    _ = t.taken ++ t.out := by rw [hself]; rfl

end Sys2Proof.Machine
end

section
/-! PROOFS. Every command ends: from a state of the invariant no pseudocode meets a broken node memory, and it waits
only while IN is open (20_memory.md R84, 60_exceptions.md R280, 10_state.md R44). -/

namespace Sys2Proof.Machine

/-- In sequence after a part that leaves IN open or closed as it is. -/
theorem Cmd.Ends.bind_keeps {α β : Type} {x : Cmd α} {f : α → Cmd β} {s : State} (hx : x.Ends s)
    (hk : x.Keeps State.inClosed) (hf : ∀ a t, x s = .ok a t → (f a).Ends t) : (x >>= f).Ends s :=
  hx.bind fun a t h => ⟨Cmd.after_of_ok h ▸ hk s, hf a t h⟩

theorem Cmd.Ends.map_pure {α β : Type} {x : Cmd α} {s : State} (hx : x.Ends s) (g : α → β) :
    (x >>= fun a => pure (g a)).Ends s := by
  intro e t h
  obtain h | ⟨a, u, -, h⟩ := Cmd.bind_error_inv h
  · exact hx e t h
  · cases h

/-- In sequence after a part that ends in a known way. -/
theorem Cmd.Ends.after_ok {α β : Type} {x : Cmd α} {f : α → Cmd β} {s t : State} {a : α} (hx : x s = .ok a t)
    (hc : t.inClosed = s.inClosed) (hf : (f a).Ends t) : (x >>= f).Ends s := by
  intro e u h
  rw [Cmd.bind_of_ok hx] at h
  exact hc ▸ hf e u h

theorem enqueue_ends (k : BitVec 32) (t : BitVec 16) (s : State) : (enqueue k t).Ends s := by
  by_cases h : s.pq.length < 257
  · exact .of_ok (enqueue_ok h)
  · exact .of_raise (enqueue_full (Nat.le_of_not_lt h))

theorem dequeue_ends (s : State) : dequeue.Ends s := by
  cases h : s.pq with
  | nil => exact .of_raise (dequeue_nil h)
  | cons e q => exact .of_ok (dequeue_cons h)

theorem dequeue_keeps_inClosed : dequeue.Keeps State.inClosed := by
  intro s
  cases h : s.pq with
  | nil => rw [Cmd.after_of_error (dequeue_nil h)]
  | cons e q => rw [Cmd.after_of_ok (dequeue_cons h)]

theorem parseTree_ends (s : State) : parseTree.Ends s := by
  refine Cmd.Ends.after_ok (assign_apply _ s) rfl (Cmd.Ends.after_ok (now_apply _) rfl ?_)
  refine (parse_ends' _ rfl).bind_keeps (.parse (fun _ _ _ => rfl) (fun _ _ => rfl) _) fun r t _ => ?_
  exact .of_ok rfl

theorem readField_ends (s : State) : readField.Ends s := by
  obtain ⟨v, r, u, -, h, -⟩ | ⟨-, -, h⟩ | ⟨-, hc, h⟩ := readField_cases s
  · exact .of_ok h
  · exact .of_raise h
  · intro e t he
    rw [h] at he
    cases he
    exact .inr ⟨rfl, hc⟩

theorem readField_keeps_inClosed : readField.Keeps State.inClosed := .readField fun _ _ _ => rfl

theorem readCounts_ends (ws : List InWord) : ∀ s, (readCounts ws).Ends s := by
  induction ws with
  | nil => exact fun s => .of_ok rfl
  | cons w ws ih =>
    exact fun s => (readField_ends s).bind_keeps readField_keeps_inClosed fun c t _ =>
      .after_ok (assign_apply _ t) rfl (ih _)

theorem readCounts_keeps_inClosed (ws : List InWord) : (readCounts ws).Keeps State.inClosed :=
  .of fun _ => Cmd.Invariant.readCounts (fun _ _ _ h => h) (fun _ _ h => h) ws

theorem countBody_keeps_inClosed : countBody.Keeps State.inClosed := .countBody (fun _ _ _ => rfl) fun _ _ _ => rfl

/-- What follows the builder ends where it ends on a tree built from FREQ (41_tree.md R170). -/
theorem buildBody_bind_ends {β : Type} {f : Unit → Cmd β} (s : State)
    (hf : ∀ u t, u.Built t → (f ()).Ends u) : (buildBody >>= f).Ends s := by
  obtain ⟨ns, root, tb, t, hrun, hb⟩ := buildBody_built s
  exact .after_ok hrun rfl (hf _ t hb)

/-- What follows the code generator ends where it ends on any code table (41_tree.md R172). -/
theorem codegenBody_bind_ends {β : Type} {f : Unit → Cmd β} {s : State} {t : Tree} (h : s.tree = some t)
    (hf : ∀ u, (f ()).Ends u) : (codegenBody >>= f).Ends s := by
  obtain ⟨cd, hrun, -⟩ := codegenBody_spec h
  exact .after_ok hrun rfl (hf _)

theorem serRoot_ends {s : State} {t : Tree} (h : s.tree = some t) : serRoot.Ends s := by
  obtain ⟨u, hrun, -⟩ := ser_spec h
  exact .of_ok hrun

theorem prepassBody_ends (f : Fmt) (s : State) : (prepassBody f).Ends s :=
  (countBody_ends s).bind_keeps countBody_keeps_inClosed fun _ t _ =>
    buildBody_bind_ends t fun _ _ hb => codegenBody_bind_ends hb.tree fun _ => .of_ok rfl

/-- COMMIT refuses, or writes the header of a tree that stands and goes on with the body (44_pipeline.md R235, R237). -/
theorem commitBody_ends (p : StreamParams) (force : Bool) {s : State} {t : Tree} (ht : s.tree = some t)
    (hb : s.treeBits.toNat = t.bits.length) : (commitBody p force).Ends s := by
  by_cases hgo : force = true ∨ 0 < s.saved.toInt
  · obtain ⟨u, hst, hrun⟩ := commitBody_header p hgo ht hb
    intro e v h
    rw [hrun] at h
    have hbody := (encodeBody_ends u).bind_keeps (.encodeBody (fun _ _ _ => rfl) fun _ _ _ _ => rfl)
      fun _ w _ => Cmd.Ends.of_ok (x := now >>= fun s => pure (s.outBits.toNat : Int)) rfl
    exact hst.inClosed ▸ hbody e v h
  · obtain ⟨hf, hs⟩ := not_or.1 hgo
    rw [Bool.not_eq_true] at hf
    exact hf ▸ .of_ok (commitBody_refuses p (Int.not_lt.1 hs))

theorem readStf_ends (s : State) : readStf.Ends s :=
  (readField_ends s).bind_keeps readField_keeps_inClosed fun _ t _ => .after_ok (assign_apply _ t) rfl <|
    (parseTree_ends _).bind_keeps (.parseTree (fun _ _ _ => rfl) (fun _ _ => rfl) fun _ _ _ => rfl)
      fun _ _ _ => .of_ok rfl

theorem readStf_keeps_inClosed : readStf.Keeps State.inClosed :=
  readField_keeps_inClosed.bind fun _ => (Cmd.Keeps.assign (g := _) (by exact fun _ => rfl)).bind fun _ =>
    (Cmd.Keeps.parseTree (fun _ _ _ => rfl) (fun _ _ => rfl) fun _ _ _ => rfl).bind fun _ =>
      .assign (g := _) (by exact fun _ => rfl)

theorem readHeader_ends (p : StreamParams) (s : State) : (readHeader p).Ends s := by
  refine (readField_ends s).bind_keeps readField_keeps_inClosed fun m t _ => ?_
  by_cases hm : m ≠ p.magic
  · simp only [hm, if_true, ne_eq, not_false_eq_true]
    exact .of_raise rfl
  simp only [hm, if_false]
  refine (readField_ends t).bind_keeps readField_keeps_inClosed fun g u _ => ?_
  by_cases h1 : g = p.tagScf
  · simp only [h1, if_true]
    exact (readCounts_ends _ u).bind_keeps (readCounts_keeps_inClosed _) fun _ v _ =>
      buildBody_bind_ends v fun _ _ _ => .of_ok rfl
  by_cases h2 : g = p.tagStf
  · have h3 : p.tagStf ≠ p.tagScf := h2 ▸ h1
    simp only [h2, h3, if_true, if_false]
    exact (readStf_ends u).bind_keeps readStf_keeps_inClosed fun _ _ _ => .of_ok rfl
  · simp only [h1, h2, if_false]
    exact .of_raise rfl

/-- DECOMPRESS walks the tree its header left (44_pipeline.md R243 to R245). -/
theorem decompressBody_ends (p : StreamParams) {s : State} (h : s.Bare) (hib : s.inBits = 0) :
    (decompressBody p).Ends s := by
  refine (readHeader_ends p s).bind_keeps (.readHeader (fun _ _ _ => rfl) (fun _ _ => rfl) (fun _ _ _ _ => rfl)
    (fun _ _ => rfl) (fun _ _ _ => rfl) (fun _ _ => rfl) (fun _ _ => rfl) (fun _ => rfl) p) fun _ u hu => ?_
  obtain ⟨hsound, hflags⟩ := (readHeader_planted p h hib).ok hu
  obtain ⟨t, ht, -, -⟩ := hsound.tree (congrArg ValidFlags.tree hflags)
  exact (decodeBody_ends ht).map_pure _

/-- A command that is admitted has the flag it needs (60_exceptions.md R264). -/
theorem neededFlag_of_admitted {i : Instr} {s : State} (h : (commandOf i).admission s = none) :
    neededFlag i s = true := by
  rw [admission_eq] at h
  split at h
  · cases h
  · split at h
    · cases h
    · next hn => simpa using hn

/-- Admitted in a state of the invariant, every command's pseudocode ends, raises an error, or waits on an open IN. -/
theorem body_ends (i : Instr) {s : State} (h : s.Inv) (hib : s.inBits = 0) (ha : (commandOf i).admission s = none) :
    (commandOf i).body.Ends ((commandOf i).clears s) := by
  have hflag := neededFlag_of_admitted ha
  cases i with
  | clear => exact .of_ok rfl
  | pqClear => exact .of_ok rfl
  | pqEnq => exact .after_ok (now_apply _) rfl ((enqueue_ends _ _ s).map_pure _)
  | pqDeq => exact (dequeue_ends s).bind_keeps dequeue_keeps_inClosed fun _ _ _ => .of_ok rfl
  | count => exact (countBody_ends _).bind_keeps countBody_keeps_inClosed fun _ _ _ => .of_ok rfl
  | build => exact buildBody_bind_ends _ fun _ _ _ => .of_ok rfl
  | codegen =>
    obtain ⟨t, ht, -, -⟩ := h.tree hflag
    exact codegenBody_bind_ends (s := s.clearCodes) ht fun _ => .of_ok rfl
  | serialize =>
    obtain ⟨t, ht, -, -⟩ := h.tree hflag
    exact (serRoot_ends ht).map_pure _
  | deserialize =>
    exact (parseTree_ends _).bind_keeps (.parseTree (fun _ _ _ => rfl) (fun _ _ => rfl) fun _ _ _ => rfl)
      fun _ _ _ => .of_ok rfl
  | encode => exact (encodeBody_ends _).map_pure _
  | decode =>
    obtain ⟨t, ht, -, -⟩ := h.tree hflag
    exact (decodeBody_ends ht).map_pure _
  | prepass f => exact prepassBody_ends f _
  | commit force =>
    obtain ⟨-, -, ⟨t, hb⟩, -, -⟩ := h.prepass hflag
    exact commitBody_ends Config.params force (s := s.clearPrepass) hb.tree hb.treeBits
  | decompress => exact decompressBody_ends Config.params h.sound.clearAllValid hib

/-- Settles O27: a failed admission completes, and so does a pseudocode that ends or raises an error; one that waits
leaves the state as it is, with IN open. -/
theorem commandsEnd : Obligations.CommandsEnd := by
  intro s i h hb
  obtain ⟨-, -, -, -, hib, -⟩ := h.busy hb
  cases ha : (commandOf i).admission s with
  | some e => exact ⟨_, exec_of_admission ha, .inl rfl⟩
  | none =>
    have hends := body_ends i h hib ha
    cases hrun : (commandOf i).body ((commandOf i).clears s) with
    | ok r u => exact ⟨_, exec_of_ok ha hrun, .inl rfl⟩
    | error e u =>
      obtain ⟨c, rfl⟩ | ⟨rfl, hopen⟩ := hends e u hrun
      · exact ⟨_, exec_of_raise ha hrun, .inl rfl⟩
      · refine ⟨s, (exec_eq i s).trans (Command.exec_of_wait ha hrun), .inr ⟨rfl, ?_⟩⟩
        exact (clears_inClosed i s).symm.trans hopen

end Sys2Proof.Machine
end

section
/-! PROOFS. COUNT, COMMIT and the round trip of a stream: PREPASS and COMMIT write what DECOMPRESS reads back
(20_memory.md R90, R93, 41_tree.md R161, 44_pipeline.md R235 to R247). -/

namespace Sys2Proof.Machine

/-- Settles O35: the words are counted from an empty FREQ, and what is read of IN is whole words. -/
theorem countRuns : Obligations.CountRuns := by
  intro s xs rest hat hc hin hr hcnt
  obtain ⟨u, fq, hrun, hst, hfq⟩ := countBody_spec (s := s.clearPrepass) hin hr hc hcnt
  obtain ⟨hu, hi⟩ := hst.read_only
  have ha : (commandOf .count).admission s = none := admitted (fun _ => hat) nofun rfl
  refine ⟨u.inBits, fq, ?_, hi, hfq⟩
  have hex := exec_of_ok (i := .count) ha (Cmd.bind_of_ok hrun)
  rw [int64_toNat, hu] at hex
  exact hex

/-- COMMIT is admitted with both ports and a retained PREPASS (60_exceptions.md R263, R264). -/
theorem commit_admitted {s : State} (hi : s.config.inAttached = true) (ho : s.config.outAttached = true)
    (hp : s.prepassValid = true) (force : Bool) : (commandOf (.commit force)).admission s = none :=
  admitted (fun _ => hi) (fun _ => ho) hp

/-- Settles O53: header and body, and the two ways a code can be missing. -/
theorem commitRuns : Obligations.CommitRuns := by
  intro s force t xs rest hi ho hp hgo ht htb hcode
  have ha := commit_admitted hi ho hp force
  refine ⟨fun hc hin hr heof => ?_, fun w hin hw => ?_, fun hc hin hr heof => ?_⟩
  · obtain ⟨u, hrun, hst⟩ := commitBody_writes Config.params (s := s.clearPrepass) hgo ht htb hin hr hc hcode heof
    exact ⟨u, hst, int64_toNat u.outBits ▸ exec_of_ok ha hrun⟩
  · obtain ⟨u, hrun, hst⟩ := commitBody_noCode Config.params (s := s.clearPrepass) hgo ht htb hin hcode hw
    exact ⟨u, hst, exec_of_raise ha hrun⟩
  · obtain ⟨u, hrun, hst⟩ := commitBody_noEof Config.params (s := s.clearPrepass) hgo ht htb hin hr hc hcode heof
    exact ⟨u, hst, exec_of_raise ha hrun⟩

/-- The decoder reads back the word of every command (30_encoding.md R112, R113). -/
theorem decode_encode (i : Instr) : decode (encode i) = .ok i := by
  have read : ∀ {j}, Laws.Encoding.Statement j → decode (encode j) = .ok j := fun ⟨_, _, h, _⟩ => h
  cases i with
  | clear => exact read Laws.Encoding.clear
  | pqClear => exact read Laws.Encoding.pqClear
  | pqEnq => exact read Laws.Encoding.pqEnq
  | pqDeq => exact read Laws.Encoding.pqDeq
  | count => exact read Laws.Encoding.count
  | build => exact read Laws.Encoding.build
  | codegen => exact read Laws.Encoding.codegen
  | serialize => exact read Laws.Encoding.serialize
  | deserialize => exact read Laws.Encoding.deserialize
  | encode => exact read Laws.Encoding.encode
  | decode => exact read Laws.Encoding.decode
  | prepass f => exact read (Laws.Encoding.prepass f)
  | commit force => exact read (Laws.Encoding.commit force)
  | decompress => exact read Laws.Encoding.decompress

/-- With no other move pending and `rst` released, an accepted command runs at the next step (20_memory.md R82, R84). -/
theorem step_accept {s : State} (ha : s.agenda = []) (hr : s.rstHeld = false) (i : Instr) :
    step (s.accept (encode i)) = exec i (s.accept (encode i)) :=
  (step_agenda_nil (s := s.accept (encode i)) ha).trans (sequencerStep_busy rfl hr (decode_encode i))

/-- What PREPASS in format `f` retains of the words `xs`, whose tree is `t` (44_pipeline.md R236). -/
structure State.Retains (s : State) (f : Fmt) (xs : List InWord) (t : Tree) : Prop where
  prepass : s.prepassValid = true
  fmt     : s.fmt = f
  freq    : ∀ w, (s.freqAt w).toNat = xs.count w
  built   : s.Built t
  codes   : s.CodesOf t
  est     : s.est = count64 (s.estimate f)

/-- PREPASS over words whose counts fit retains what COMMIT needs (44_pipeline.md R231 to R236). -/
theorem exec_prepass {s : State} (f : Fmt) {xs : List InWord} (hi : s.config.inAttached = true)
    (hc : s.inClosed = true) (hin : s.inp = wordBits xs) (hcnt : ∀ w, xs.count w < 2 ^ 32) :
    ∃ p t, exec (.prepass f) s = .next p ∧ p.Retains f xs t ∧ p.done = true ∧ p.result = p.saved := by
  obtain ⟨v, t, hrun, hv, -, hfq, hb, hC⟩ :=
    prepassBody_spec f (s := s.clearAllValid) (rest := []) (hin.trans (List.append_nil _).symm) (by decide) hc hcnt
  have ha : (commandOf (.prepass f)).admission s = none := admitted (fun _ => hi) nofun rfl
  refine ⟨_, t, exec_of_ok ha hrun, ⟨?_, ?_, hfq, ?_, hC, ?_⟩, rfl, ?_⟩
  · exact congrArg State.prepassValid hv
  · exact congrArg State.fmt hv
  · exact Built.congr hb rfl rfl rfl rfl
  · exact congrArg State.est hv
  · exact (congrArg State.saved hv).symm

/-- The stream COMMIT writes for the words `xs` (44_pipeline.md R235, R238). -/
def State.stream (s : State) (xs : List InWord) (t : Tree) : Bits :=
  headerBits Config.params s.fmt s.freq t ++ (s.codedWords xs ++ s.codeBits Config.eof)

@[simp] theorem doneWith_result (s : State) (r : BitVec 64) : (s.doneWith r).result = r := rfl

/-- A stream has EST bits (44_pipeline.md R239). -/
theorem State.Retains.stream_length {s : State} {f : Fmt} {xs : List InWord} {t : Tree} (h : s.Retains f xs t) :
    (s.stream xs t).length = s.estimate f := by
  rw [State.stream, List.length_append, headerBits_length, h.fmt, estimate_eq h.freq f, h.built.treeBits]

/-- COMMIT on the words PREPASS counted writes their stream, of EST bits (44_pipeline.md R235, R239). -/
theorem exec_commit {s : State} {f : Fmt} {xs : List InWord} {t : Tree} {force : Bool} (h : s.Retains f xs t)
    (hi : s.config.inAttached = true) (ho : s.config.outAttached = true) (hc : s.inClosed = true)
    (hin : s.inp = wordBits xs) (hgo : force = true ∨ 0 < s.saved.toInt) (hob : s.outBits = 0) (hoe : s.outEarly = 0) :
    ∃ q, exec (.commit force) s = .next q ∧ q.done = true ∧ q.out = s.out ++ s.stream xs t ∧ q.result = s.est ∧
      (s.stream xs t).length = s.est.toNat := by
  obtain ⟨hcode, heof⟩ := Built.coded h.built h.codes h.freq
  obtain ⟨u, hrun, hst⟩ := commitBody_writes Config.params (force := force) (s := s.clearPrepass) (rest := []) hgo
    h.built.tree h.built.treeBits (hin.trans (List.append_nil _).symm) (by decide) hc hcode heof
  have hlen := h.stream_length
  have hlt : s.estimate f < 2 ^ 64 := (estimate_lt h.built f).trans (by decide)
  obtain ⟨ib, ob, rfl, -, hbits⟩ := hst
  have hzero : s.outBits.toNat + (s.stream xs t).length = s.estimate f := by
    rw [hob, hlen]
    exact Nat.zero_add _
  have hcount : Holds64 ob (s.estimate f) := hbits.of_eq hzero
  refine ⟨_, exec_of_ok (commit_admitted hi ho h.prepass force) hrun, rfl, ?_, ?_, ?_⟩
  · show s.out ++ (s.stream xs t).drop s.outEarly = _
    rw [hoe, List.drop_zero]
  · refine (doneWith_result _ _).trans ?_
    rw [int64_toNat, h.est, count64_of_lt hlt]
    exact hcount hlt
  · rw [hlen, h.est, count64_toNat hlt]

theorem huffman_congr {s u : State} (h : s.freq = u.freq) : s.huffman = u.huffman := by
  unfold State.huffman State.leafList State.frequencies
  rw [h]

/-- DECOMPRESS's header reader takes the header COMMIT wrote, in either format, and leaves the tree it stands for
(44_pipeline.md R240 to R245). -/
theorem readHeader_headerBits (p : StreamParams) (hp : p.tagStf ≠ p.tagScf) (f : Fmt) {s u : State} {t : Tree}
    {rest : Bits} (hb : u.Built t) (hib : s.inBits = 0) (hin : s.inp = headerBits p f u.freq t ++ rest) :
    ∃ v, readHeader p s = .ok () v ∧ v.tree = some t ∧ v.inp = rest ∧ v.out = s.out ∧ v.outEarly = s.outEarly ∧
      v.error = s.error ∧ v.lenMismatch = s.lenMismatch := by
  cases f with
  | scf =>
    obtain ⟨ib, ns, root, tb, t', v, hrun, hbuilt, -, rfl⟩ :=
      readHeader_scf p (s := s) (f := u.freq) (rest := rest) (by simpa [headerBits] using hin)
    have ht : t' = t := Option.some.inj (hbuilt.shape.symm.trans ((huffman_congr rfl).trans hb.shape))
    exact ⟨_, hrun, ht ▸ hbuilt.tree, rfl, rfl, rfl, rfl, rfl⟩
  | stf =>
    have hlen : (BitVec.ofNat 32 t.bits.length).toNat = t.bits.length := by
      rw [BitVec.toNat_ofNat]
      exact Nat.mod_eq_of_lt ((Built.bits_lt hb).trans_lt (by decide))
    obtain ⟨v, hrun, -, hv⟩ := readHeader_stf p hp (s := s) (d := BitVec.ofNat 32 t.bits.length) (t := t) (rest := rest)
      (by simpa [headerBits, hlen] using hin) (Built.size_le hb) hib
    have htree : v.tree = some t :=
      tree_of_records (Built.size_le hb) (congrArg State.nodes hv) (congrArg State.root hv)
    have hmis : v.lenMismatch = s.lenMismatch := (congrArg State.lenMismatch hv).trans (by simp)
    exact ⟨v, hrun, htree, by rw [hv], by rw [hv], by rw [hv], by rw [hv], hmis⟩

/-- DECOMPRESS of a stream writes its words and takes exactly its bits (44_pipeline.md R240, R246, R247). -/
theorem exec_decompress {s p : State} {f : Fmt} {xs : List InWord} {t : Tree} {rest : Bits} (h : p.Retains f xs t)
    (hi : s.config.inAttached = true) (ho : s.config.outAttached = true) (hin : s.inp = p.stream xs t ++ rest)
    (hib : s.inBits = 0) (hoe : s.outEarly = 0) :
    ∃ w, exec .decompress s = .next w ∧ w.done = true ∧ w.error = s.error ∧ w.out = s.out ++ wordBits xs ∧
      w.inp = rest ∧ w.lenMismatch = s.lenMismatch ∧ w.result = BitVec.ofNat 64 (8 * xs.length) := by
  obtain ⟨hcode, heof⟩ := Built.coded h.built h.codes h.freq
  have hsz := Built.size_le h.built
  obtain ⟨v, hhead, htree, hvin, hvout, hve, hverr, hvmis⟩ := readHeader_headerBits Config.params tags_distinct p.fmt
    (s := s.clearAllValid) h.built hib (rest := p.codedWords xs ++ p.codeBits Config.eof ++ rest)
    (by simpa [State.stream] using hin)
  have hfollow : ∀ q ∈ p.codedPairs xs, t.follow q.2 = some (.leaf (symOfWord q.1)) := by
    intro q hq
    obtain ⟨w, hw, rfl⟩ := List.mem_map.1 hq
    exact h.codes.follow hsz (hcode w hw)
  obtain ⟨u, hbody, ib, ob, rfl, -, -⟩ := decodeBody_spec htree hfollow (h.codes.follow hsz heof)
    (by rw [hvin, pathBits_codedPairs])
  have hrun : decompressBody Config.params s.clearAllValid = _ := (Cmd.bind_of_ok hhead).trans (Cmd.bind_of_ok hbody)
  have hlen : (p.codedPairs xs).length * 8 = 8 * xs.length := by rw [State.codedPairs, List.length_map, Nat.mul_comm]
  have hcnt : ∀ w, xs.count w < 2 ^ 32 := fun w => h.freq w ▸ (p.freqAt w).isLt
  have hlt := length_lt_of_counts hcnt
  have ha : (commandOf .decompress).admission s = none := admitted (fun _ => hi) (fun _ => ho) rfl
  refine ⟨_, exec_of_ok ha hrun, rfl, hverr, ?_, rfl, hvmis, ?_⟩
  · show v.out ++ (wordBits ((p.codedPairs xs).map Prod.fst)).drop v.outEarly = _
    rw [hvout, hve.trans hoe, codedPairs_fst, List.drop_zero]
    rfl
  · refine (doneWith_result _ _).trans ?_
    rw [Config.wordBits, hlen, int64_natCast (by omega)]

/-- Settles O58: PREPASS retains the tree and codes of the words, COMMIT writes their stream with them, and DECOMPRESS
finds the same tree in its header. -/
theorem pipelineRoundTrip : Obligations.PipelineRoundTrip := by
  intro s v f force xs fill hsa hsr hsi hso hcnt hva hvr hvi hvo
  obtain ⟨p, t, hp, hret, hdone, hres⟩ := exec_prepass
    (s := State.accept { s with inp := wordBits xs, inClosed := true } (encode (.prepass f))) f hsi rfl rfl hcnt
  obtain ⟨⟨hconf, hrst, -, hag, -⟩, -, -, hout, -⟩ := commandFrame _ _ _ hp
  refine ⟨p, (step_accept (s := { s with inp := wordBits xs, inClosed := true }) hsa hsr _).trans hp, hdone, hres,
    fun hgo => ?_⟩
  have hret' : (State.accept { p with inp := wordBits xs, inClosed := true } (encode (.commit force))).Retains f xs t :=
    ⟨hret.prepass, hret.fmt, hret.freq, Built.congr hret.built rfl rfl rfl rfl, hret.codes, hret.est⟩
  obtain ⟨q, hq, hqdone, hqout, hqres, hqlen⟩ := exec_commit (force := force) hret'
    ((congrArg PortConfig.inAttached hconf).trans hsi) ((congrArg PortConfig.outAttached hconf).trans hso) rfl rfl hgo
    rfl rfl
  obtain ⟨w, hw, hwdone, hwerr, hwout, hwin, hwmis, hwres⟩ := exec_decompress
    (s := State.accept { v with inp := p.stream xs t ++ fill, inClosed := true } (encode .decompress)) hret hvi hvo rfl
    rfl rfl
  have hqout' : q.out = s.out ++ p.stream xs t := hqout.trans (congrArg (· ++ p.stream xs t) (hout rfl).1)
  exact ⟨q, p.stream xs t,
    (step_accept (s := { p with inp := wordBits xs, inClosed := true }) (hag.trans hsa) (hrst.trans hsr) _).trans hq,
    hqdone, hqout', hqres, hqlen, w,
    (step_accept (s := { v with inp := p.stream xs t ++ fill, inClosed := true }) hva hvr _).trans hw,
    hwdone, hwerr, hwout, hwin, hwmis, hwres⟩

end Sys2Proof.Machine
end

section
/-! PROOFS. The host's accesses and actions: which are refused, command acceptance, and the ports (20_memory.md R81 to
R83, R86). -/

namespace Sys2Proof.Machine

theorem accessWellFormed_iff {bytes : Nat} {off : BitVec 12} :
    accessWellFormed bytes off = true ↔ bytes = 4 ∧ off.toNat % 4 = 0 := by
  simp [accessWellFormed, accessWide, accessAligned]

theorem seq_cases (s : State) : s.seq = .idle ∨ ∃ c, s.seq = .busy c := by
  cases s.seq with
  | idle => exact .inl rfl
  | busy c => exact .inr ⟨c, rfl⟩

/-- A read changes nothing but what the host was handed, and the draw while BUSY (10_state.md R57). -/
theorem hostRead_eq (s : State) (r : Reg) : ∃ w d, s.hostRead r = { s with reads := s.reads ++ [w], draws := d } := by
  obtain hs | ⟨c, hs⟩ := seq_cases s
  · exact ⟨s.readReg r, s.draws, hostRead_idle hs r⟩
  · exact ⟨_, _, hostRead_busy hs r⟩

/-- Settles O5: the check comes before the access, and a read is `hostRead`. -/
theorem accessRefused : Obligations.AccessRefused := by
  intro s bytes off v
  refine ⟨fun h => ?_, fun ⟨hb, hoff⟩ => ?_⟩
  · have hbad : ¬accessWellFormed bytes off = true := fun hw => h (accessWellFormed_iff.1 hw)
    exact ⟨if_neg hbad, if_neg hbad⟩
  · subst hb
    obtain ⟨w, d, hread⟩ := hostRead_eq s (regAt off)
    exact ⟨⟨_, hostStep_write hoff s v⟩, w, d, hread ▸ hostStep_read hoff s⟩

/-- An illegal word completes with ILLEGAL_CMD (30_encoding.md R114, 60_exceptions.md R262). -/
theorem sequencerStep_illegal {s : State} {c : Word} {e : DecodeError} (hs : s.seq = .busy c) (hr : s.rstHeld = false)
    (hc : decode c = .error e) : sequencerStep s = .next (s.failedWith .illegalCmd) := by
  simp only [sequencerStep, hr, hs, hc]
  rfl

/-- Settles O6: a write to CMD while IDLE is acceptance, and the sequencer decodes the word at its step. -/
theorem cmdAcceptance : Obligations.CmdAcceptance := by
  intro s c hs hr
  exact ⟨writes_idle hs hr (by decide) c, fun t ht htr ⟨e, he⟩ => sequencerStep_illegal ht htr he⟩

/-- While BUSY a write to CMD sets OVERRUN and does nothing else (20_memory.md R83). -/
theorem hostWrite_busy_cmd {s : State} {c : Word} (hs : s.seq = .busy c) (hr : s.rstHeld = false) (v : Word) :
    s.hostWrite .cmd v = { s with overrun := true } := by
  simp [State.hostWrite, hr, hs]

/-- Settles O7: offset 0x004 is CMD's. -/
theorem cmdOverrun : Obligations.CmdOverrun := fun s _ v hs hr =>
  (hostStep_write (off := 0x004) (by decide) s v).trans (congrArg Host.Outcome.next (hostWrite_busy_cmd hs hr v))

/-- Settles O19: each action by IN's `closed` and SEQ; while IDLE no output is put out early. -/
theorem portActions : Obligations.PortActions := by
  intro s b k
  refine ⟨fun hc => ?_, fun hc => ?_, rfl, fun hs => ?_, fun c hs => ?_, fun hs => ?_⟩
  · simp [hostStep, hc]
  · simp [hostStep, hc]
  · simp [hostStep, busy_idle hs]
  · have hb : s.busy = true := by rw [State.busy, hs]
    simp [hostStep, hb]
  · rw [hostStep, emitEarly_idle hs, State.takeOut]

end Sys2Proof.Machine
end

section
/-! PROOFS. The command word (30_encoding.md R110 to R114): a row of the opcode map selects exactly the words of its
command, and the legal words are the words of commands. -/

namespace Sys2Proof.Machine

theorem fieldBit_eq_and (c : Word) (k : Nat) : fieldBit (c.getLsbD k) k = c &&& BitVec.twoPow 32 k := by
  rw [BitVec.and_twoPow, BitVec.twoPow_eq]
  rfl

/-- Bits 9:8 of a word are FORCE and F (30_encoding.md R110). -/
theorem and_operand_bits (c : Word) : c &&& 0x300#32 = fieldBit (fBit c) 8 ||| fieldBit (forceBit c) 9 := by
  rw [fBit, forceBit, fieldBit_eq_and, fieldBit_eq_and, ← BitVec.and_or_distrib_left]
  rfl

/-- A row's mask leaves out no bits but F's and FORCE's. -/
theorem opRow_compl_mask : ∀ r ∈ opRows, ~~~r.mask = 0x300#32 &&& ~~~r.mask := by decide

/-- The word of a row's command is the row's word with F and FORCE where the mask leaves them out. -/
theorem encode_opRow : ∀ r ∈ opRows, ∀ f force : Bool,
    encode (r.instr f force) = r.word ||| (fieldBit f 8 ||| fieldBit force 9) &&& ~~~r.mask := by decide

/-- A word that a row selects is the word of the row's command, with F and FORCE read from it. -/
theorem encode_of_selects {r : OpRow} (hr : r ∈ opRows) {c : Word} (h : r.selects c = true) :
    encode (r.instr (fBit c) (forceBit c)) = c := by
  have hword : c &&& r.mask = r.word := eq_of_beq h
  calc encode (r.instr (fBit c) (forceBit c))
      = c &&& r.mask ||| c &&& (0x300#32 &&& ~~~r.mask) := by
        rw [encode_opRow r hr, ← and_operand_bits, hword, BitVec.and_assoc]
    _ = c := by rw [← opRow_compl_mask r hr, ← BitVec.and_or_distrib_left, BitVec.or_not_self, BitVec.and_allOnes]

theorem decode_ok_row {c : Word} {i : Instr} (h : decode c = .ok i) :
    ∃ r ∈ opRows, r.selects c = true ∧ r.instr (fBit c) (forceBit c) = i := by
  unfold decode at h
  split at h
  next r hr =>
    cases h
    exact ⟨r, List.mem_of_find?_eq_some hr, List.find?_some (p := (OpRow.selects · c)) hr, rfl⟩
  next => cases h

theorem encode_of_decode {c : Word} {i : Instr} (h : decode c = .ok i) : encode i = c := by
  obtain ⟨r, hr, hsel, rfl⟩ := decode_ok_row h
  exact encode_of_selects hr hsel

/-- Settles O1: the row that selects a word gives it back, and every command is read back from its word. -/
theorem decodeExact : Obligations.DecodeExact := fun _ i =>
  ⟨fun h => (encode_of_decode h).symm, fun h => h ▸ decode_encode i⟩

/-- Settles O2: each is the word of its command. -/
theorem wordsDecode : Obligations.WordsDecode :=
  ⟨decode_encode .clear, decode_encode .pqClear, decode_encode .pqEnq, decode_encode .pqDeq, decode_encode .count,
    decode_encode .build, decode_encode .codegen, decode_encode .serialize, decode_encode .deserialize,
    decode_encode .encode, decode_encode .decode, decode_encode (.prepass .scf), decode_encode (.prepass .stf),
    decode_encode (.commit false), decode_encode (.commit true), decode_encode .decompress⟩

theorem wordWellFormed_iff {c : Word} : wordWellFormed c = true ↔
    opOf c ∈ opValues ∧ (fBit c = true → opOf c = 0x30#8) ∧ (forceBit c = true → opOf c = 0x31#8) ∧
      c.extractLsb' 10 22 = 0#22 := by
  simp [wordWellFormed, wordOpKnown, wordFAllowed, wordForceAllowed, wordReservedZero, and_assoc, imp_iff_not_or]

/-- The words of a row's command are legal. -/
theorem wordWellFormed_opRow : ∀ r ∈ opRows, ∀ f force : Bool, wordWellFormed (encode (r.instr f force)) = true := by
  decide

theorem wordWellFormed_of_decode {c : Word} {i : Instr} (h : decode c = .ok i) : wordWellFormed c = true := by
  obtain ⟨r, hr, hsel, -⟩ := decode_ok_row h
  exact encode_of_selects hr hsel ▸ wordWellFormed_opRow r hr _ _

/-- A word whose bits 31:10 are 0 is OP, F and FORCE in their places (30_encoding.md R110). -/
theorem word_eq_fields {c : Word} (h : c.extractLsb' 10 22 = 0#22) :
    c = (opOf c).setWidth 32 ||| (fieldBit (fBit c) 8 ||| fieldBit (forceBit c) 9) := by
  have hres (j : Nat) (hj : j < 22) : c.getLsbD (10 + j) = false := by
    simpa [hj] using congrArg (BitVec.getLsbD · j) h
  rw [← and_operand_bits]
  refine BitVec.eq_of_getLsbD_eq fun j hj => ?_
  obtain hlow | rfl | rfl | hhigh : j < 8 ∨ j = 8 ∨ j = 9 ∨ 10 ≤ j := by omega
  · simp +contextual [opOf, hlow, hj]
  · simp [opOf]
  · simp [opOf]
  · obtain ⟨k, rfl⟩ := Nat.exists_eq_add_of_le hhigh
    simp [opOf, show ¬10 + k < 8 by omega, hres k (by omega)]

/-- Every OP is the word of a command with F = 0 and FORCE = 0 (30_encoding.md R112). -/
theorem exists_encode_eq_op {op : BitVec 8} (h : op ∈ opValues) : ∃ i, encode i = op.setWidth 32 := by
  simp only [opValues, List.mem_cons, List.not_mem_nil, or_false] at h
  obtain rfl | rfl | rfl | rfl | rfl | rfl | rfl | rfl | rfl | rfl | rfl | rfl | rfl | rfl := h
  exacts [⟨.clear, rfl⟩, ⟨.pqClear, rfl⟩, ⟨.pqEnq, rfl⟩, ⟨.pqDeq, rfl⟩, ⟨.count, rfl⟩, ⟨.build, rfl⟩, ⟨.codegen, rfl⟩,
    ⟨.serialize, rfl⟩, ⟨.deserialize, rfl⟩, ⟨.encode, rfl⟩, ⟨.decode, rfl⟩, ⟨.prepass .scf, rfl⟩, ⟨.commit false, rfl⟩,
    ⟨.decompress, rfl⟩]

/-- A legal word is the word of a command: F stands only in PREPASS's, FORCE only in COMMIT's. -/
theorem exists_encode_of_wordWellFormed {c : Word} (h : wordWellFormed c = true) : ∃ i, encode i = c := by
  obtain ⟨hop, hf, hforce, hres⟩ := wordWellFormed_iff.1 h
  rw [word_eq_fields hres]
  cases hF : fBit c with
  | true =>
    cases hC : forceBit c with
    | true => exact absurd ((hf hF).symm.trans (hforce hC)) (by decide)
    | false => exact ⟨.prepass .stf, by rw [hf hF]; rfl⟩
  | false =>
    cases hC : forceBit c with
    | true => exact ⟨.commit true, by rw [hforce hC]; rfl⟩
    | false =>
      obtain ⟨i, hi⟩ := exists_encode_eq_op hop
      exact ⟨i, hi.trans (BitVec.or_zero).symm⟩

theorem decode_error_iff {c : Word} : (∃ e, decode c = .error e) ↔ ¬wordWellFormed c = true := by
  cases hd : decode c with
  | ok i => simp [wordWellFormed_of_decode hd]
  | error e =>
    refine iff_of_true ⟨e, rfl⟩ fun hw => ?_
    obtain ⟨i, rfl⟩ := exists_encode_of_wordWellFormed hw
    cases hd.symm.trans (decode_encode i)

/-- Settles O3: the illegal words are those that are not well formed, and the sequencer completes them. -/
theorem illegalWords : Obligations.IllegalWords := by
  refine fun c => ⟨?_, fun s hs hr ha ⟨e, he⟩ => (step_agenda_nil ha).trans (sequencerStep_illegal hs hr he)⟩
  rw [decode_error_iff, wordWellFormed_iff]
  simp only [not_and_or, Classical.not_imp]
  rfl

end Sys2Proof.Machine
end

section
/-! PROOFS. The priority queue's commands, the queue's order and stability, and BUILD, which uses the queue but no
content of it (40_pqueue.md R140 to R149, 44_pipeline.md R243). -/

namespace Sys2Proof.Machine

/-- Settles O31: PQ_CLEAR's pseudocode is one assignment. -/
theorem pqClearRuns : Obligations.PqClearRuns :=
  ⟨decode_encode .pqClear, fun _ => int64_zero ▸ exec_of_ok (i := .pqClear) rfl rfl⟩

/-- PQ_ENQ on a queue that is not full (40_pqueue.md R145). -/
theorem exec_pqEnq {s : State} (h : s.pq.length < 257) :
    exec .pqEnq s = .next ({ s with pq := inserted s.pq ⟨s.pqKeyIn, s.pqTagIn⟩ }.doneWith 0) :=
  int64_zero ▸ exec_of_ok (i := .pqEnq) rfl ((Cmd.now_bind _ s).trans (Cmd.bind_of_ok (enqueue_ok h)))

/-- PQ_DEQ on a queue with a head (40_pqueue.md R148). -/
theorem exec_pqDeq {s : State} {e : Entry} {q : List Entry} (h : s.pq = e :: q) :
    exec .pqDeq s = .next ({ s with pq := q, pqKeyOut := e.key, pqTagOut := e.tag }.doneWith (e.key.setWidth 64)) := by
  have hkey : int64 (e.key.toNat : Int) = e.key.setWidth 64 := by
    rw [int64_natCast (e.key.isLt.trans (by decide)), BitVec.ofNat_toNat]
  exact hkey ▸ exec_of_ok (i := .pqDeq) rfl (Cmd.bind_of_ok (dequeue_cons h))

/-- Settles O33: PQ_DEQ is the primitive Dequeue and one assignment. -/
theorem pqDeqRuns : Obligations.PqDeqRuns :=
  ⟨decode_encode .pqDeq, fun _ => ⟨fun _ _ h => exec_pqDeq h, fun h =>
    exec_of_raise (i := .pqDeq) rfl (Cmd.bind_of_error (dequeue_nil h))⟩⟩

/-- Settles O32: the queue is cut at the insertion position of the new key. -/
theorem pqEnqRuns : Obligations.PqEnqRuns := by
  refine ⟨decode_encode .pqEnq, fun s => ?_⟩
  have hsplit := List.take_append_drop (insPos s.pq s.pqKeyIn) s.pq
  refine ⟨_, _, hsplit.symm, insPos_before _ _, fun e he => ?_, fun hl => ?_, fun hl => ?_⟩
  · exact insPos_at _ _ e (List.head?_drop ▸ he)
  · rw [exec_pqEnq hl, inserted, List.append_assoc, List.singleton_append]
  · exact exec_of_raise (i := .pqEnq) rfl ((Cmd.now_bind _ s).trans (Cmd.bind_of_error (enqueue_full hl)))

theorem foldl_inserted_perm (es q : List Entry) : (es.foldl inserted q).Perm (q ++ es) := by
  induction es generalizing q with
  | nil => simp
  | cons e es ih => exact (ih _).trans (((inserted_perm q e).append_right es).trans List.perm_middle.symm)

theorem foldl_inserted_sorted (es : List Entry) {q : List Entry} (h : q.Pairwise fun a b => a.key ≤ b.key) :
    (es.foldl inserted q).Pairwise fun a b => a.key ≤ b.key := by
  induction es generalizing q with
  | nil => exact h
  | cons e es ih => exact ih (inserted_sorted e h)

/-- Entries enqueued in turn stand behind those of their own key, in the order they came (40_pqueue.md R146). -/
theorem foldl_inserted_stable (es : List Entry) {q : List Entry} (k : BitVec 32)
    (h : q.Pairwise fun a b => a.key ≤ b.key) :
    (es.foldl inserted q).filter (fun x => x.key = k) =
      q.filter (fun x => x.key = k) ++ es.filter (fun x => x.key = k) := by
  induction es generalizing q with
  | nil => simp
  | cons e es ih =>
    rw [List.foldl_cons, ih (inserted_sorted e h), inserted_stable e k h, List.append_assoc]
    by_cases hk : e.key = k <;> simp [hk]

/-- While the queue does not pass its capacity, every PQ_ENQ in turn succeeds (40_pqueue.md R145). -/
theorem enqueueAll_eq_next (es : List Entry) {s : State} (hl : s.pq.length + es.length ≤ 257) :
    ∃ t, enqueueAll es s = .next t ∧ t.pq = es.foldl inserted s.pq ∧ t.error = s.error := by
  induction es generalizing s with
  | nil => exact ⟨s, rfl, rfl, rfl⟩
  | cons e es ih =>
    rw [List.length_cons] at hl
    have hx := exec_pqEnq (s := { s with pqKeyIn := e.key, pqTagIn := e.tag }) (show s.pq.length < 257 by omega)
    obtain ⟨t, ht, hpq, herr⟩ := ih
      (s := { s with pqKeyIn := e.key, pqTagIn := e.tag, pq := inserted s.pq e }.doneWith 0)
      (show (inserted s.pq e).length + es.length ≤ 257 by rw [inserted_length]; omega)
    exact ⟨t, by rw [enqueueAll, hx]; exact ht, hpq, herr⟩

/-- As many PQ_DEQ as there are entries give the queue from its head on and empty it (40_pqueue.md R148). -/
theorem dequeues_pq {q : List Entry} {s : State} (hq : s.pq = q) (he : s.error = none) :
    ∃ u, Dequeues s q u ∧ u.pq = [] := by
  induction q generalizing s with
  | nil => exact ⟨s, rfl, hq⟩
  | cons e q ih =>
    obtain ⟨u, hd, hu⟩ := ih
      (s := { s with pq := q, pqKeyOut := e.key, pqTagOut := e.tag }.doneWith (e.key.setWidth 64)) rfl he
    exact ⟨u, ⟨_, exec_pqDeq hq, he, rfl, hd⟩, hu⟩

/-- Settles O34: the entries come out as the insertions order them. -/
theorem queueStable : Obligations.QueueStable := by
  intro s es hq he hl
  obtain ⟨t, ht, hpq, herr⟩ := enqueueAll_eq_next es (s := s) (by rw [hq, List.length_nil]; omega)
  rw [hq] at hpq
  have hperm : t.pq.Perm es := hpq ▸ foldl_inserted_perm es []
  obtain ⟨u, hd, hu⟩ := dequeues_pq (s := t) rfl (herr.trans he)
  refine ⟨t, u, t.pq, ht, hperm.length_eq, hd, hu, hperm, ?_, fun k => ?_⟩
  · exact hpq ▸ foldl_inserted_sorted es .nil
  · exact hpq ▸ foldl_inserted_stable es k .nil

/-- BUILD, on every state with this FREQ (41_tree.md R170, 44_pipeline.md R243). -/
theorem exec_build_of_freq (f : Table (BitVec 32) 256) : ∃ ns root tb, ∀ s : State, s.freq = f →
    exec .build s = .next ({ s.clearAllValid with
      pq := [], nodes := ns, root := root, treeBits := tb, treeValid := true }.doneWith (int64 (ns.length : Int))) := by
  obtain ⟨ns, root, tb, hrun⟩ := buildBody_of_freq f
  exact ⟨ns, root, tb, fun s hs => exec_of_ok (i := .build) rfl (Cmd.bind_of_ok (hrun s.clearAllValid hs))⟩

/-- Settles O39: the builder works from FREQ on an emptied queue and node memory. -/
theorem buildOfFreqAlone : Obligations.BuildOfFreqAlone := by
  intro s u hfreq
  obtain ⟨ns, root, tb, hbuild⟩ := exec_build_of_freq u.freq
  exact ⟨_, _, hbuild s hfreq, hbuild u rfl, rfl, rfl, rfl, rfl⟩

end Sys2Proof.Machine
end

section
/-! PROOFS. COUNT's overflow, and how BUILD and CODEGEN complete (41_tree.md R162 to R173, 44_pipeline.md R231). -/

namespace Sys2Proof.Machine

/-- Settles O36: COUNT's body raises at that word, and PREPASS begins with it. -/
theorem countOverflow : Obligations.CountOverflow := by
  intro s f xs w rest hat hin hcnt hmax
  refine ⟨?_, ?_⟩
  · obtain ⟨ib, fq, hrun, hib, hfq⟩ := countBody_overflow (s := s.clearPrepass) hin hcnt hmax
    have ha : (commandOf .count).admission s = none := admitted (fun _ => hat) nofun rfl
    exact ⟨ib, fq, exec_of_raise ha (Cmd.bind_of_error hrun), hib, hfq⟩
  · obtain ⟨ib, fq, hrun, hib, hfq⟩ := countBody_overflow (s := s.clearAllValid) hin hcnt hmax
    have ha : (commandOf (.prepass f)).admission s = none := admitted (fun _ => hat) nofun rfl
    exact ⟨ib, fq, exec_of_raise ha (Cmd.bind_of_error hrun), hib, hfq⟩

/-- `s` with the records `ns`, ROOT `r` and TREE_BITS `tb`, the queue empty and TREE_VALID set alone: what BUILD leaves
(41_tree.md R170, 10_state.md R53). -/
def State.builtWith (s : State) (ns : List Node) (r : NodeIdx) (tb : BitVec 32) : State :=
  { s with
    pq := [], nodes := ns, root := r, treeBits := tb, prepassValid := false, treeValid := true, codesValid := false }

/-- BUILD completes as its body ends, and RESULT is NODE_COUNT (41_tree.md R170). -/
theorem exec_build_of_run {s : State} {ns : List Node} {r : NodeIdx} {tb : BitVec 32}
    (hrun : buildBody s.clearAllValid = .ok () (s.builtWith ns r tb)) (hlen : ns.length < 2 ^ 64) :
    exec .build s = .next ((s.builtWith ns r tb).doneWith (BitVec.ofNat 64 ns.length)) := by
  rw [← int64_natCast hlen]
  exact exec_of_ok (i := .build) rfl (Cmd.bind_of_ok hrun)

/-- BUILD completes with the tree of FREQ (41_tree.md R163 to R170). -/
theorem exec_build (s : State) : ∃ ns r tb t, (s.builtWith ns r tb).Built t ∧
    exec .build s = .next ((s.builtWith ns r tb).doneWith (BitVec.ofNat 64 ns.length)) := by
  obtain ⟨ns, r, tb, t, hrun, hb⟩ := buildBody_built s.clearAllValid
  have hcount : ns.length ≤ 513 := Built.nodes_le hb
  exact ⟨ns, r, tb, t, hb, exec_build_of_run hrun (Nat.lt_of_le_of_lt hcount (by norm_num))⟩

/-- Settles O37: what BUILD leaves is `Built`, its body's own invariant over the merges. -/
theorem buildRuns : Obligations.BuildRuns := by
  intro s
  obtain ⟨ns, r, tb, t, hb, hex⟩ := exec_build s
  exact ⟨s.builtWith ns r tb, t, ⟨ns, r, tb, rfl⟩, hb, hex⟩

/-- CODEGEN over a valid tree completes with that tree's codes, and RESULT counts the coded symbols (41_tree.md R172). -/
theorem exec_codegen {s : State} {t : Tree} (hv : s.treeValid = true) (ht : s.tree = some t) :
    ∃ cd : Table (Option Code) 257,
      exec .codegen s = .next
        ({ s with code := cd, codesValid := true }.doneWith (BitVec.ofNat 64 t.leaves.dedup.length)) ∧
      ∀ y, cd.get y = (t.pathOf y).map codeOfPath := by
  obtain ⟨cd, hrun, hcd⟩ := codegenBody_spec (s := s.clearCodes) ht
  have hcodes : State.CodesOf { s with code := cd, codesValid := true } t := hcd
  have hcount : t.leaves.dedup.length ≤ 257 := by
    have h := t.leaves.nodup_dedup.length_le_card
    rwa [Fintype.card_fin] at h
  have hex := exec_of_ok (i := .codegen) (s := s) (admitted nofun nofun hv) (Cmd.bind_of_ok hrun)
  refine ⟨cd, hex.trans ?_, hcd⟩
  rw [← int64_natCast (Nat.lt_of_le_of_lt hcount (by norm_num)), ← codeCount_eq hcodes]
  rfl

/-- Settles O40: the walk writes each leaf's path in its symbol's entry, left to right. -/
theorem codegenRuns : Obligations.CodegenRuns := fun _ _ => exec_codegen

end Sys2Proof.Machine
end

section
/-! PROOFS. The words FREQ counts, which are the leaves besides the sentinel's (41_tree.md R163, R164, R169). -/

namespace Sys2Proof.Machine

/-- FREQ lists every word with its frequency (41_tree.md R164). -/
theorem frequencies_eq (s : State) : s.frequencies = ordinarySymbols.map fun w => (w, s.freqAt w) := by
  refine List.ext_getElem ?_ fun i h1 h2 => ?_
  · rw [State.frequencies, List.length_zip, List.length_map, s.freq.size, ordinarySymbols_length, min_self]
  · rw [List.length_map, ordinarySymbols_length] at h2
    simp [State.frequencies, ordinarySymbols, State.freqAt, Table.get, Nat.mod_eq_of_lt h2]

theorem mem_ordinarySymbols (w : InWord) : w ∈ ordinarySymbols :=
  List.mem_map.2 ⟨w.toNat, List.mem_range.2 w.isLt, by rw [BitVec.ofNat_toNat, BitVec.setWidth_eq]⟩

/-- The words with a positive frequency, in ascending order (41_tree.md R163, R164). -/
def State.counted (s : State) : List (InWord × BitVec 32) := s.frequencies.filter fun p => p.2 ≠ 0

theorem mem_counted {s : State} {p : InWord × BitVec 32} : p ∈ s.counted ↔ p.2 = s.freqAt p.1 ∧ p.2 ≠ 0 := by
  obtain ⟨w, f⟩ := p
  simp only [State.counted, frequencies_eq, List.mem_filter, List.mem_map, Prod.mk.injEq, decide_eq_true_eq]
  constructor
  · rintro ⟨⟨x, -, rfl, rfl⟩, hf⟩
    exact ⟨rfl, hf⟩
  · rintro ⟨rfl, hf⟩
    exact ⟨⟨w, mem_ordinarySymbols w, rfl, rfl⟩, hf⟩

theorem leafList_eq (s : State) :
    s.leafList = s.counted.map (fun p => (symOfWord p.1, p.2)) ++ [(Config.eof, 1)] := rfl

theorem counted_nodup (s : State) : s.counted.Nodup := by
  have h := (leafList_nodup s).of_map
  rw [leafList_eq] at h
  exact h.of_append_left.of_map

theorem counted_nil {s : State} (h : ∀ w, s.freqAt w = 0) : s.counted = [] :=
  List.eq_nil_iff_forall_not_mem.2 fun p hp => by
    obtain ⟨hf, hne⟩ := mem_counted.1 hp
    exact hne (hf.trans (h p.1))

theorem counted_singleton {s : State} {w : InWord} (h : ∀ x, x ≠ w → s.freqAt x = 0) (hw : s.freqAt w ≠ 0) :
    s.counted = [(w, s.freqAt w)] := by
  have hmem : ∀ p, p ∈ s.counted ↔ p = (w, s.freqAt w) := by
    refine fun p => mem_counted.trans ⟨fun ⟨hf, hne⟩ => ?_, ?_⟩
    · have hp : p.1 = w := not_not.1 fun hp => hne (hf.trans (h p.1 hp))
      rw [← hp, ← hf]
    · rintro rfl
      exact ⟨rfl, hw⟩
  refine List.perm_singleton.1 ((List.perm_ext_iff_of_nodup (counted_nodup s) (List.nodup_singleton _)).2 fun p => ?_)
  rw [hmem, List.mem_singleton]

theorem positives_eq (s : State) : s.positives = s.counted.length := by
  have h := leafList_length s
  rw [leafList_eq, List.length_append, List.length_map] at h
  exact (Nat.succ.inj h).symm

end Sys2Proof.Machine
end

section
/-! PROOFS. The smallest trees: BUILD of a FREQ that counts at most one word (41_tree.md R171). -/

namespace Sys2Proof.Machine

/-- The leaves of the counted words, created and enqueued (41_tree.md R163, R164). -/
theorem addLeaves_counted (s : State) {ls : List (Sym × BitVec 32)}
    (h : s.counted.map (fun p => (symOfWord p.1, p.2)) = ls) :
    addLeaves s.frequencies (s.place ([], [])) =
      .ok () (s.place (leafRecords ls, (leafEntries 0 ls).foldl inserted [])) := by
  have hlen : ls.length ≤ 256 := by
    rw [← h, List.length_map, ← positives_eq]
    exact positives_le s
  exact addLeaves_spec s.frequencies (s.place ([], [])) ls h.symm
    (by show 0 + ls.length ≤ 513; omega) (by show 0 + ls.length ≤ 257; omega)

theorem dequeue_place (s : State) (ns : List Node) (e : Entry) (q : List Entry) :
    dequeue (s.place (ns, e :: q)) = .ok e (s.place (ns, q)) := rfl

/-- The merge loop ends with one entry (41_tree.md R166). -/
theorem mergeLoop_end (k : Nat) {s : State} (h : s.pq.length = 1) : mergeLoop (k + 1) s = .ok () s := by
  rw [mergeLoop, Cmd.now_bind, if_neg (not_not.2 h)]
  rfl

theorem mergeLoop_step (k : Nat) {s t : State} (h : s.pq.length ≠ 1) (hm : mergeOnce s = .ok () t) :
    mergeLoop (k + 1) s = mergeLoop k t := by
  rw [mergeLoop, Cmd.now_bind, if_pos h, Cmd.bind_of_ok hm]

/-- The merge of a queue's only two entries, which name leaves (41_tree.md R166, R167). -/
theorem mergeOnce_leaves (s : State) {ns : List Node} {a b : Entry} {x y : Sym} {v w : BitVec 32} (hlen : ns.length = 2)
    (ha : ns[(idxOfTag a.tag).toNat]? = some (.leaf x v)) (hb : ns[(idxOfTag b.tag).toNat]? = some (.leaf y w)) :
    mergeOnce (s.place (ns, [a, b])) =
      .ok () (s.place (ns ++ [.int (idxOfTag a.tag) (idxOfTag b.tag) 3], [⟨3, 2⟩])) := by
  have halloc : alloc (.int (idxOfTag a.tag) (idxOfTag b.tag) 3) (s.place (ns, [])) =
      .ok 2 (s.place (ns ++ [.int (idxOfTag a.tag) (idxOfTag b.tag) 3], [])) := by
    have h := alloc_ok (.int (idxOfTag a.tag) (idxOfTag b.tag) 3) (s := s.place (ns, [])) (by show ns.length < 513; omega)
    rwa [show (s.place (ns, [])).nodes.length = 2 from hlen] at h
  rw [mergeOnce, Cmd.bind_of_ok (dequeue_place s ns a [b]), Cmd.bind_of_ok (dequeue_place s ns b []),
    Cmd.bind_of_ok (nodeAt_of_some (s := s.place (ns, [])) ha), Cmd.bind_of_ok (nodeAt_of_some (s := s.place (ns, [])) hb)]
  exact (Cmd.bind_of_ok halloc).trans (enqueue_ok (Nat.zero_lt_succ 256))

/-- From two leaves on, the builder's last entry names their join (41_tree.md R166, R167). -/
theorem mergeLoop_leaves (s : State) {ns : List Node} {a b : Entry} {x y : Sym} {v w : BitVec 32} (hlen : ns.length = 2)
    (ha : ns[(idxOfTag a.tag).toNat]? = some (.leaf x v)) (hb : ns[(idxOfTag b.tag).toNat]? = some (.leaf y w)) :
    (mergeLoop Config.pqCap >>= fun _ => dequeue) (s.place (ns, [a, b])) =
      .ok ⟨3, 2⟩ (s.place (ns ++ [.int (idxOfTag a.tag) (idxOfTag b.tag) 3], [])) := by
  have hloop := (mergeLoop_step 256 (by show 2 ≠ 1; decide) (mergeOnce_leaves s hlen ha hb)).trans (mergeLoop_end 255 rfl)
  exact (Cmd.bind_of_ok hloop).trans (dequeue_place ..)

theorem grow_counted_nil {s : State} (h : s.counted = []) :
    grow s.frequencies (s.place ([], [])) = .ok ⟨1, 0⟩ (s.place ([.leaf 256 1], [])) := by
  have heof : addLeaf Config.eof 1 (s.place ([], [])) = .ok () (s.place ([.leaf 256 1], [⟨1, 0⟩])) :=
    addLeaf_ok (Nat.zero_lt_succ 512) (Nat.zero_lt_succ 256)
  rw [grow, Cmd.bind_of_ok (addLeaves_counted s (ls := []) (by rw [h]; rfl))]
  refine (Cmd.bind_of_ok heof).trans ?_
  exact (Cmd.bind_of_ok (mergeLoop_end 256 rfl)).trans (dequeue_place ..)

/-- The lighter leaf is the left child, the word's where both weigh 1 (41_tree.md R166, R171). -/
theorem grow_counted_pair {s : State} {w : InWord} {f : BitVec 32} (h : s.counted = [(w, f)]) :
    grow s.frequencies (s.place ([], [])) = .ok ⟨3, 2⟩ (s.place
      ([.leaf (symOfWord w) f, .leaf 256 1, if 1 < f then .int 1 0 3 else .int 0 1 3], [])) := by
  have heof : addLeaf Config.eof 1 (s.place ([.leaf (symOfWord w) f], [⟨f, 0⟩])) = .ok () (s.place
      ([.leaf (symOfWord w) f, .leaf 256 1], inserted [⟨f, 0⟩] ⟨1, 1⟩)) :=
    addLeaf_ok (Nat.succ_lt_succ (Nat.zero_lt_succ 511)) (Nat.succ_lt_succ (Nat.zero_lt_succ 255))
  rw [grow, Cmd.bind_of_ok (addLeaves_counted s (ls := [(symOfWord w, f)]) (by rw [h]; rfl))]
  refine (Cmd.bind_of_ok heof).trans ?_
  by_cases hf : 1 < f
  · have hq : inserted [⟨f, 0⟩] ⟨1, 1⟩ = [⟨1, 1⟩, ⟨f, 0⟩] :=
      inserted_split (a := []) nofun fun x hx => by cases hx; exact hf
    rw [hq, if_pos hf]
    exact mergeLoop_leaves s rfl rfl rfl
  · have hq : inserted [⟨f, 0⟩] ⟨1, 1⟩ = [⟨f, 0⟩, ⟨1, 1⟩] :=
      inserted_split (a := [⟨f, 0⟩]) (b := []) (e := ⟨1, 1⟩)
        (fun x hx => by rw [List.mem_singleton.1 hx]; exact BitVec.not_lt.1 hf) nofun
    rw [hq, if_neg hf]
    exact mergeLoop_leaves s rfl rfl rfl

/-- BUILD, given the records grown and the one the last entry names (41_tree.md R169, R170). -/
theorem exec_build_of_grow (s : State) {r : Entry} {ns : List Node} {nd : Node} {p : Nat}
    (hg : grow s.clearAllValid.frequencies (s.clearAllValid.place ([], [])) = .ok r (s.clearAllValid.place (ns, [])))
    (hn : ns[(idxOfTag r.tag).toNat]? = some nd) (hp : s.counted.length = p) (hlen : ns.length < 2 ^ 64) :
    exec .build s = .next ((s.builtWith ns (idxOfTag r.tag)
      (BitVec.ofNat 32 ((weightOf nd).toNat + 9 * (p + 1)))).doneWith (BitVec.ofNat 64 ns.length)) := by
  refine exec_build_of_run ?_ hlen
  rw [buildBody_grow, ← hp, ← positives_eq]
  exact (Cmd.bind_of_ok hg).trans (settle_some (s := s.clearAllValid.place (ns, [])) hn)

/-- BUILD of one counted word (41_tree.md R171, cases 2 and 3). -/
theorem exec_build_counted_pair {s : State} {w : InWord} {f : BitVec 32} (h : s.counted = [(w, f)]) :
    exec .build s = .next ((s.builtWith
      [.leaf (symOfWord w) f, .leaf 256 1, if 1 < f then .int 1 0 3 else .int 0 1 3] 2 21).doneWith 3) := by
  have hg := grow_counted_pair (s := s.clearAllValid) h
  have hlen : 3 < 2 ^ 64 := by norm_num
  by_cases hf : 1 < f
  · rw [if_pos hf] at hg ⊢
    exact exec_build_of_grow s hg rfl (congrArg List.length h) hlen
  · rw [if_neg hf] at hg ⊢
    exact exec_build_of_grow s hg rfl (congrArg List.length h) hlen

/-- Settles O38: the queue's one or two leaves, by their weights. -/
theorem buildCorners : Obligations.BuildCorners := by
  intro s
  refine ⟨fun hz => ?_, fun w hw => ⟨fun h1 => ?_, fun h2 => ?_⟩⟩
  · have hc : s.counted = [] := counted_nil hz
    exact exec_build_of_grow s (grow_counted_nil (s := s.clearAllValid) hc) rfl (congrArg List.length hc) (by decide)
  · have hc := counted_singleton hw (by rw [h1]; decide)
    rw [h1] at hc
    exact exec_build_counted_pair hc
  · have hlt : 1 < s.freqAt w := by rw [BitVec.lt_def]; exact h2
    have h := exec_build_counted_pair (counted_singleton hw fun h0 => by rw [h0] at h2; exact absurd h2 (by decide))
    rwa [if_pos hlt] at h

end Sys2Proof.Machine
end

section
/-! PROOFS. The code table after BUILD and CODEGEN (41_tree.md R174). -/

namespace Sys2Proof.Machine

/-- A code of a built tree is the path of a leaf, of at most 256 bits (41_tree.md R173, R174). -/
theorem State.CodesOf.path {s : State} {t : Tree} (h : s.CodesOf t) (hsz : t.size ≤ 513) {y : Sym} {c : Code}
    (hc : s.codeAt y = some c) :
    ∃ p, t.follow p = some (.leaf y) ∧ c = codeOfPath p ∧ c.len.toNat = p.length ∧ p.length ≤ 256 := by
  rw [h y] at hc
  obtain ⟨p, hp, rfl⟩ := Option.map_eq_some_iff.1 hc
  have hlen := Tree.pathOf_length hp hsz
  exact ⟨p, Tree.follow_of_mem (Tree.mem_of_pathOf hp), rfl, codeOfPath_len hlen, hlen⟩

/-- The bits of a symbol's code on the wire (43_bitstream.md R211). -/
theorem codeBits_of_some {s : State} {y : Sym} {c : Code} (h : s.codeAt y = some c) : s.codeBits y = c.bits := by
  rw [State.codeBits, h]

/-- The code lengths of a tree with one leaf a symbol fill the code space (41_tree.md R174). -/
theorem State.CodesOf.kraft {s : State} {t : Tree} (h : s.CodesOf t) (hsz : t.size ≤ 513) (hnd : t.leaves.Nodup) :
    (∑ y : Sym, (match s.codeAt y with
      | none   => 0
      | some c => 2 ^ (256 - c.len.toNat))) = 2 ^ 256 := by
  have hpaths : ∀ p ∈ t.paths, p.2.length ≤ 256 := fun p hp => by
    have := Tree.path_length (Tree.follow_of_mem hp)
    omega
  rw [← Tree.kraft_symbols hnd 256 hpaths]
  refine Finset.sum_congr rfl fun y _ => ?_
  rw [h y]
  cases hp : t.pathOf y with
  | none => rfl
  | some p => simp only [Option.map_some, codeOfPath_len (Tree.pathOf_length hp hsz)]

/-- A code without bits is a lone leaf's (41_tree.md R174). -/
theorem Tree.leaves_of_follow_nil {t : Tree} {y : Sym} (h : t.follow [] = some (.leaf y)) : t.leaves = [y] := by
  cases t with
  | leaf z => cases h; rfl
  | node l r => cases h

theorem Built.mem_leaves {s : State} {t : Tree} (h : s.Built t) {y : Sym} :
    y ∈ t.leaves ↔ y = Config.eof ∨ ∃ w : InWord, symOfWord w = y ∧ s.freqAt w ≠ 0 :=
  h.leaves.mem_iff.trans mem_leafList

/-- A counted word's leaf and the sentinel's are two, so neither is the root (41_tree.md R174). -/
theorem Built.path_ne_nil {s : State} {t : Tree} (h : s.Built t) {w : InWord} (hw : s.freqAt w ≠ 0) {y : Sym} {p : Bits}
    (hp : t.follow p = some (.leaf y)) : p ≠ [] := by
  rintro rfl
  have hone : ∀ z ∈ t.leaves, z = y := fun z hz => by rwa [Tree.leaves_of_follow_nil hp, List.mem_singleton] at hz
  have heof := hone _ ((Built.mem_leaves h).2 (.inl rfl))
  have hword := hone _ ((Built.mem_leaves h).2 (.inr ⟨w, rfl, hw⟩))
  exact symOfWord_ne_eof w (hword.trans heof.symm)

/-- With an all-zero FREQ the sentinel's leaf is the root (41_tree.md R171). -/
theorem Built.size_of_zero {s : State} {t : Tree} (h : s.Built t) (hz : ∀ w, s.freqAt w = 0) : t.size = 1 := by
  have hleaves : t.leaves.length = 1 := by
    rw [h.leaves.length_eq, List.length_map, leafList_length, positives_eq, counted_nil hz, List.length_nil]
  have hsize := t.size_leaves
  omega

/-- Settles O41: the codes are the leaves' paths in the built tree, a full binary tree with one leaf a symbol. -/
theorem builtCodes : Obligations.BuiltCodes := by
  intro s
  obtain ⟨ns, r, tb, t, hb, hbuild⟩ := exec_build s
  obtain ⟨cd, hgen, hcd⟩ := exec_codegen (s := (s.builtWith ns r tb).doneWith (BitVec.ofNat 64 ns.length)) rfl hb.tree
  refine ⟨_, _, hbuild, hgen, ?_⟩
  generalize hu : State.doneWith _ (BitVec.ofNat 64 t.leaves.dedup.length) = u
  have hC : u.CodesOf t := hu ▸ hcd
  have hsz := Built.size_le hb
  refine ⟨fun y => (hC.isSome y).trans (Built.mem_leaves hb), fun y z c d hne hc hd => ?_, fun ⟨w, hw⟩ y c hc => ?_,
    fun hz => ?_, hC.kraft hsz (Built.leaves_nodup hb), fun y c hc => ?_⟩
  · rw [← codeBits_of_some hc, ← codeBits_of_some hd]
    exact hC.prefix_free hsz (Option.isSome_of_eq_some hc) (Option.isSome_of_eq_some hd) hne
  · obtain ⟨p, hp, -, hlen, -⟩ := hC.path hsz hc
    rw [hlen]
    exact List.length_pos_of_ne_nil (Built.path_ne_nil hb hw hp)
  · obtain ⟨c, hc⟩ := Option.isSome_iff_exists.1 ((hC.isSome Config.eof).2 ((Built.mem_leaves hb).2 (.inl rfl)))
    obtain ⟨p, hp, rfl, -, -⟩ := hC.path hsz hc
    have hlen := Tree.path_length hp
    rw [Built.size_of_zero hb hz] at hlen
    have hnil : p = [] := List.length_eq_zero_iff.1 (by omega)
    rw [hc, hnil]
    rfl
  · obtain ⟨p, -, -, hlen, hle⟩ := hC.path hsz hc
    exact hlen.trans_le hle

end Sys2Proof.Machine
end

section
/-! PROOFS. SERIALIZE and DESERIALIZE: the tree written, the tree read, the errors of a parse, and the round trip
(42_serdes.md R190 to R200). -/

namespace Sys2Proof.Machine

/-- A tree that fits the node memory has at most 513 tags and 257 symbols (42_serdes.md R193). -/
theorem Tree.bits_length_le {t : Tree} (h : t.size ≤ 513) : t.bits.length ≤ 2826 := by
  have hleaves := t.size_leaves
  rw [Tree.bits_length]
  omega

/-- The serialized length of a tree that fits the node memory fits its registers (10_state.md R42, R50). -/
theorem Tree.toNat_ofNat_bits_length {t : Tree} {w : Nat} (h : t.size ≤ 513) (hw : 12 ≤ w) :
    (BitVec.ofNat w t.bits.length).toNat = t.bits.length := by
  have hpow : 2 ^ 12 ≤ 2 ^ w := Nat.pow_le_pow_right (by decide) hw
  have hlen := t.bits_length_le h
  rw [BitVec.toNat_ofNat, Nat.mod_eq_of_lt (by omega)]

/-- SERIALIZE over a valid tree writes its bits and returns their number (42_serdes.md R192). -/
theorem exec_serialize {s : State} {t : Tree} (ho : s.config.outAttached = true) (hv : s.treeValid = true)
    (ht : s.tree = some t) :
    ∃ u, Streamed s u 0 s.inp t.bits ∧ exec .serialize s = .next (u.doneWith (int64 t.bits.length)) := by
  obtain ⟨u, hrun, hst⟩ := ser_spec ht
  exact ⟨u, hst, exec_of_ok (i := .serialize) (admitted nofun (fun _ => ho) hv) (Cmd.bind_of_ok hrun)⟩

/-- Settles O42: the walk of the node memory writes the tree it holds. -/
theorem serializeRuns : Obligations.SerializeRuns := by
  intro s t ho hv ht
  obtain ⟨u, hst, hex⟩ := exec_serialize ho hv ht
  exact ⟨t.bits_length, u, int64 t.bits.length, hst, hex, int64_natCast⟩

/-- IN_BITS after a read from IN_BITS = 0, when the bits read fit the register (10_state.md R50). -/
theorem Streamed.eq_of_inBits_zero {s u : State} {n : Nat} {rest : Bits} (h : Streamed s u n rest [])
    (hib : s.inBits = 0) (hn : n < 2 ^ 64) : u = { s with inp := rest, inBits := BitVec.ofNat 64 n } := by
  obtain ⟨hu, hi⟩ := h.read_only
  have hzero : s.inBits.toNat + n = n := by rw [hib]; exact Nat.zero_add n
  rw [← hi.of_eq hzero hn]
  exact hu

/-- `s` after DESERIALIZE of the tree `t` (42_serdes.md R195, R197, R199). -/
def State.deserialized (s : State) (t : Tree) (rest : Bits) : State :=
  { s with
    inp := rest, inBits := BitVec.ofNat 64 t.bits.length, nodes := t.records 0, root := 0
    treeBits := BitVec.ofNat 32 t.bits.length, prepassValid := false, treeValid := true, codesValid := false }.doneWith
    (BitVec.ofNat 64 t.bits.length)

/-- DESERIALIZE's pseudocode is the parse of a whole tree, and TREE_VALID set (42_serdes.md R197). -/
theorem exec_deserialize {s : State} {t : Tree} {rest : Bits} (hat : s.config.inAttached = true) (hib : s.inBits = 0)
    (hin : s.inp = t.bits ++ rest) (hsz : t.size ≤ 513) : exec .deserialize s = .next (s.deserialized t rest) := by
  have hlen := t.bits_length_le hsz
  obtain ⟨u, hst, hrun⟩ := parseTree_spec (s := s.clearAllValid) (by rw [clearAllValid_inBits, hib]; decide) hin hsz
  have ha : (commandOf .deserialize).admission s = none := admitted (fun _ => hat) nofun rfl
  have hex := exec_of_ok ha (Cmd.bind_of_ok hrun)
  rw [t.toNat_ofNat_bits_length hsz (by decide), int64_natCast (by omega), hst.eq_of_inBits_zero hib (by omega)] at hex
  exact hex

/-- Settles O43: the state `exec_deserialize` gives, written out. -/
theorem deserializeRuns : Obligations.DeserializeRuns := fun _ _ _ => exec_deserialize

/-- DESERIALIZE at a place inside a tree where the parse ends with an error (42_serdes.md R194 to R198). -/
theorem exec_deserialize_cutEnd {s : State} {c : Cut} {b rest : Bits} {e : ErrCode} {n : Nat}
    (hat : s.config.inAttached = true) (hib : s.inBits = 0) (hin : s.inp = c.bits ++ b) (hcap : c.size ≤ 513)
    (hend : CutEnd s.inClosed c b e n rest) :
    exec .deserialize s = .next
      ({ s with
          inp := rest, inBits := BitVec.ofNat 64 (c.bits.length + n), nodes := c.records 0
          prepassValid := false, treeValid := false, codesValid := false }.failedWith e) := by
  obtain ⟨u, hu, hparse⟩ := parse_cutEnd (s := { s.clearAllValid with nodes := [] }) rfl hend hin hcap
  obtain ⟨v, hv, hrun⟩ := parseTree_error hparse hu
  have ha : (commandOf .deserialize).admission s = none := admitted (fun _ => hat) nofun rfl
  have hlen := c.bits_length
  have hn := hend.taken_le
  rw [exec_of_raise ha (Cmd.bind_of_error hrun), hv.eq_of_inBits_zero hib (by omega)]
  rfl

/-- On a closed IN every bit string starts with a tree that fits, or ends in one of the errors' ways at a place inside
one (42_serdes.md R194 to R198). -/
theorem tree_or_cutEnd (b : Bits) :
    (∃ (t : Tree) (rest : Bits), t.size ≤ 513 ∧ b = t.bits ++ rest) ∨
    ∃ (c : Cut) (x rest : Bits) (e : ErrCode) (n : Nat), b = c.bits ++ x ∧ c.size ≤ 513 ∧ CutEnd true c x e n rest := by
  obtain ht | ⟨c, x, hc, hb, hx⟩ := tree_or_cut 513 b
  · exact .inl ht
  refine .inr ⟨c, x, ?_⟩
  obtain rfl | ⟨r, rfl, hr⟩ | ⟨v, r, h1, h2, rfl⟩ | ⟨hfull, ⟨r, rfl⟩ | ⟨v, r, hv, rfl⟩⟩ := hx
  · exact ⟨_, _, _, hb, hc, .noTag rfl⟩
  · exact ⟨_, _, _, hb, hc, .noSymbol rfl r hr⟩
  · exact ⟨_, _, _, hb, hc, .badSymbol v h1 h2 r⟩
  · exact ⟨_, _, _, hb, hc, .noInt hfull r⟩
  · exact ⟨_, _, _, hb, hc, .noLeaf hfull v hv r⟩

/-- Settles O44: the parse ends where the place says, and there is no other way to end. -/
theorem deserializeErrors : Obligations.DeserializeErrors := by
  intro s hat hib
  refine ⟨fun c b rest e n hin hcap hend => exec_deserialize_cutEnd hat hib hin hcap hend, fun hc => ?_⟩
  rw [hc]
  exact tree_or_cutEnd s.inp

/-- SERIALIZE with no bits of its output out early (42_serdes.md R192, 20_memory.md R94). -/
theorem exec_serialize_out {s : State} {t : Tree} (ho : s.config.outAttached = true) (hv : s.treeValid = true)
    (ht : s.tree = some t) (hoe : s.outEarly = 0) : ∃ u, exec .serialize s = .next u ∧ u.out = s.out ++ t.bits := by
  obtain ⟨u, hst, hex⟩ := exec_serialize ho hv ht
  refine ⟨_, hex, ?_⟩
  have hout : u.out = s.out ++ t.bits.drop s.outEarly := congrArg State.out hst.write_only.1
  rwa [hoe, List.drop_zero] at hout

/-- Settles O45: what DESERIALIZE leaves holds the tree SERIALIZE walked, and codes and bits are functions of the
tree. -/
theorem serdesRoundTrip : Obligations.SerdesRoundTrip := by
  intro s v t rest hso hsv hse hst hsz hvi hvo hvb
  obtain ⟨u, hser, hout⟩ := exec_serialize_out hso hsv hst hse
  refine ⟨u, t.bits, hser, hout, fun hin => ?_⟩
  have htree : (v.deserialized t rest).tree = some t := tree_of_records hsz rfl rfl
  obtain ⟨cd, hy, hcd⟩ := exec_codegen hsv hst
  obtain ⟨cd', hz, hcd'⟩ := exec_codegen (s := v.deserialized t rest) rfl htree
  obtain ⟨x, hx, hxout⟩ := exec_serialize_out (s := v.deserialized t rest) hvo rfl htree rfl
  have hcode : cd' = cd := Table.ext_get fun y => (hcd' y).trans (hcd y).symm
  exact ⟨_, x, _, _, exec_deserialize hvi hvb hin hsz, htree, rfl, rfl, t.toNat_ofNat_bits_length hsz (by decide),
    t.toNat_ofNat_bits_length hsz (by decide), hy, hz, hcode, hx, hxout⟩

end Sys2Proof.Machine
end

section
/-! PROOFS. DECOMPRESS's errors behind the fields of its header: in the tree of an STF header, and in the walk
(42_serdes.md R194 to R198, 43_bitstream.md R220, R221, 44_pipeline.md R243 to R245). -/

namespace Sys2Proof.Machine

/-- `s` as DECOMPRESS finds it behind an STF header with the declared length `d` and the tree `t`, the ports aside: the
tree valid, and LEN_MISMATCH judged (44_pipeline.md R244, R245). -/
def State.stfWith (s : State) (t : Tree) (d : BitVec 32) : State :=
  { s with
    nodes := t.records 0, root := 0, treeBits := BitVec.ofNat 32 t.bits.length, treeBitsDecl := d
    lenMismatch := s.lenMismatch || decide (d.toNat ≠ t.bits.length)
    prepassValid := false, treeValid := true, codesValid := false }

/-- The two lengths differ as words where they differ as numbers (44_pipeline.md R244). -/
theorem ofNat_bne_eq_decide {n : Nat} (h : n < 2 ^ 32) (d : BitVec 32) :
    (BitVec.ofNat 32 n != d) = decide (d.toNat ≠ n) := by
  have hiff : BitVec.ofNat 32 n = d ↔ d.toNat = n := by
    rw [← BitVec.toNat_inj, BitVec.toNat_ofNat, Nat.mod_eq_of_lt h, eq_comm]
  by_cases hd : d.toNat = n <;> simp [hiff, hd]

/-- The header reader over an STF header, from its admission (44_pipeline.md R244, R245). -/
theorem readHeader_stfWith {s : State} {d : BitVec 32} {t : Tree} {rest : Bits}
    (hin : s.inp = bitsOfNat 32 Config.params.magic.toNat ++ (bitsOfNat 32 Config.params.tagStf.toNat ++
      (bitsOfNat 32 d.toNat ++ (t.bits ++ rest)))) (hsz : t.size ≤ 513) (hib : s.inBits = 0) :
    ∃ u, readHeader Config.params s.clearAllValid = .ok () u ∧ u.tree = some t ∧
      Streamed (s.stfWith t d) u (96 + t.bits.length) rest [] := by
  have hlen := t.bits_length_le hsz
  obtain ⟨u, hrun, hi, hu⟩ := readHeader_stf Config.params tags_distinct (s := s.clearAllValid) hin hsz hib
  have hzero : (s.stfWith t d).inBits.toNat + (96 + t.bits.length) = 96 + t.bits.length := by
    rw [show (s.stfWith t d).inBits = 0 from hib]
    exact Nat.zero_add _
  refine ⟨u, hrun, tree_of_records hsz (congrArg State.nodes hu) (congrArg State.root hu),
    u.inBits, s.outBits, ?_, hi.of_eq hzero.symm, Holds64.self _⟩
  rw [ofNat_bne_eq_decide (by omega)] at hu
  rw [List.drop_nil, List.append_nil]
  exact hu

/-- The header reader over an SCF header, from its admission, for the tree of its counts (44_pipeline.md R243, R245). -/
theorem readHeader_builtWith {s : State} {f : Table (BitVec 32) 256} {t : Tree} {rest : Bits}
    (ht : State.huffman { s with freq := f } = some t)
    (hin : s.inp = bitsOfNat 32 Config.params.magic.toNat ++ (bitsOfNat 32 Config.params.tagScf.toNat ++
      (countBits f.rows ++ rest))) :
    ∃ u ns root tb, readHeader Config.params s.clearAllValid = .ok () u ∧
      (State.builtWith { s with freq := f } ns root tb).Built t ∧
      Streamed (State.builtWith { s with freq := f } ns root tb) u 8256 rest [] := by
  obtain ⟨ib, ns, root, tb, t', u, hrun, hb, hi, rfl⟩ := readHeader_scf Config.params (s := s.clearAllValid) hin
  obtain rfl : t' = t := Option.some.inj (hb.shape.symm.trans ((huffman_congr rfl).trans ht))
  refine ⟨_, ns, root, tb, hrun, Built.congr hb rfl rfl rfl rfl, ib, s.outBits, ?_, hi, Holds64.self _⟩
  rw [List.drop_nil, List.append_nil]
  rfl

section
variable {s : State} (hi : s.config.inAttached = true) (ho : s.config.outAttached = true)
include hi ho

/-- DECOMPRESS is admitted with both ports (60_exceptions.md R263, R264). -/
theorem decompress_admitted : (commandOf .decompress).admission s = none := admitted (fun _ => hi) (fun _ => ho) rfl

/-- An error of the walk behind a header read is DECOMPRESS's (44_pipeline.md R245). -/
theorem exec_decompress_walk_error {v u w : State} {e : ErrCode} {n m : Nat} {r rest b : Bits}
    (hhead : readHeader Config.params s.clearAllValid = .ok () u) (hu : Streamed v u n r [])
    (hbody : decodeBody u = .error (.raise e) w) (hw : Streamed u w m rest b) :
    ∃ w, Streamed v w (n + m) rest b ∧ exec .decompress s = .next (w.failedWith e) :=
  ⟨w, hu.trans hw, exec_of_raise (decompress_admitted hi ho) ((Cmd.bind_of_ok hhead).trans (Cmd.bind_of_error hbody))⟩

/-- A closed IN that ends inside the body, between codes or within one, behind a header read (43_bitstream.md R221). -/
theorem exec_decompress_endOfInput {v u : State} {t x y : Tree} {ps : List (InWord × Bits)} {e : Bits} {n : Nat}
    (hhead : readHeader Config.params s.clearAllValid = .ok () u) (hu : Streamed v u n (pathBits ps ++ e) [])
    (htree : u.tree = some t) (hps : ∀ p ∈ ps, t.follow p.2 = some (.leaf (symOfWord p.1)))
    (he : t.follow e = some (.node x y)) (hc : v.inClosed = true) :
    ∃ w, Streamed v w (n + ((pathBits ps).length + e.length)) [] (wordBits (ps.map Prod.fst)) ∧
      exec .decompress s = .next (w.failedWith .endOfInput) := by
  obtain ⟨w, hbody, hw⟩ := decodeBody_endOfInput htree hps he hu.inp (hu.inClosed.trans hc)
  exact exec_decompress_walk_error hi ho hhead hu hbody hw

end

/-- Settles O57: the header's parse ends with an error, or it leaves a tree whose walk does. -/
theorem decompressTreeErrors : Obligations.DecompressTreeErrors := by
  intro s hi ho hib
  refine ⟨fun d b hin => ⟨fun c x rest e n hb hcap hend => ?_, fun t v hsz hv => ⟨fun y rest ht hy hb => ?_,
    fun ps e x y hps he hb hc => ?_⟩⟩, fun f t ps e x y ht hps he hin hc => ?_⟩
  · obtain ⟨u, hrun, hst⟩ := readHeader_cutEnd Config.params tags_distinct (s := s.clearAllValid) (hb ▸ hin) hcap hend
    exact ⟨u, hst, exec_of_raise (decompress_admitted hi ho) (Cmd.bind_of_error hrun)⟩
  · obtain ⟨u, hhead, htree, hst⟩ := readHeader_stfWith (hb ▸ hin) hsz hib
    subst hv
    exact exec_decompress_walk_error hi ho (m := 0) hhead hst (decodeBody_badTree (ht ▸ htree) hy)
      (Streamed.refl_of hst.inp)
  · obtain ⟨u, hhead, htree, hst⟩ := readHeader_stfWith (hb ▸ hin) hsz hib
    subst hv
    exact exec_decompress_endOfInput hi ho hhead hst htree hps he hc
  · obtain ⟨u, ns, root, tb, hhead, hbuilt, hst⟩ := readHeader_builtWith ht hin
    have htree : u.tree = some t := by rw [State.tree, hst.nodes, hst.root]; exact hbuilt.tree
    obtain ⟨w, hw, hex⟩ := exec_decompress_endOfInput hi ho hhead hst htree hps he hc
    exact ⟨_, w, ⟨ns, root, tb, rfl⟩, hbuilt, hw, hex⟩

end Sys2Proof.Machine
end

section
/-! PROOFS. ENCODE and DECODE: the codes written, the paths followed, the errors of both, and the round trip
(43_bitstream.md R210 to R223). -/

namespace Sys2Proof.Machine

/-- The codes of a word sequence have as many bits as its words' code lengths together (43_bitstream.md R214). -/
theorem codedWords_length (s : State) (xs : List InWord) :
    (s.codedWords xs).length = ∑ w : InWord, xs.count w * codeLen (s.codeAt (symOfWord w)) := by
  simp only [codeLen_codeBits]
  rw [← sum_words]
  exact List.length_flatMap

/-- RESULT after a count (00_scope.md R24, 60_exceptions.md R265). -/
theorem holds64_int64 (n : Nat) : Holds64 (int64 n) n := int64_natCast

/-- OUT behind output no part of which is out early (20_memory.md R88, R94). -/
theorem Streamed.out {s u : State} {n : Nat} {rest b : Bits} (h : Streamed s u n rest b) (he : s.outEarly = 0) :
    u.out = s.out ++ b := by
  obtain ⟨ib, ob, rfl, -, -⟩ := h
  show s.out ++ b.drop s.outEarly = _
  rw [he, List.drop_zero]

/-- IN_BITS counts the bits taken (10_state.md R50). -/
theorem Streamed.inBits {s u : State} {n : Nat} {rest b : Bits} (h : Streamed s u n rest b) :
    Holds64 u.inBits (s.inBits.toNat + n) := by
  obtain ⟨ib, ob, rfl, hi, -⟩ := h
  exact hi

section
variable {s : State} (hi : s.config.inAttached = true) (ho : s.config.outAttached = true)
include hi ho

/-- ENCODE is admitted with both ports and a valid code table (60_exceptions.md R263, R264). -/
theorem encode_admitted (hv : s.codesValid = true) : (commandOf .encode).admission s = none :=
  admitted (fun _ => hi) (fun _ => ho) hv

/-- DECODE is admitted with both ports and a valid tree (60_exceptions.md R263, R264). -/
theorem decode_admitted (hv : s.treeValid = true) : (commandOf .decode).admission s = none :=
  admitted (fun _ => hi) (fun _ => ho) hv

/-- ENCODE writes the codes of a closed IN's words and the sentinel's, and returns their length
(43_bitstream.md R211, R212). -/
theorem exec_encode {xs : List InWord} {rest : Bits} (hv : s.codesValid = true) (hc : s.inClosed = true)
    (hin : s.inp = wordBits xs ++ rest) (hr : rest.length < 8)
    (hcode : ∀ w ∈ xs, (s.codeAt (symOfWord w)).isSome = true) (heof : (s.codeAt Config.eof).isSome = true) :
    ∃ u, Streamed s u (8 * xs.length) rest (s.codedWords xs ++ s.codeBits Config.eof) ∧
      exec .encode s = .next (u.doneWith (int64 (s.codedWords xs ++ s.codeBits Config.eof).length)) := by
  obtain ⟨u, hrun, hst⟩ := encodeBody_spec hin hr hc hcode heof
  exact ⟨u, hst, exec_of_ok (encode_admitted hi ho hv) (Cmd.bind_of_ok hrun)⟩

/-- DECODE writes the words whose paths stand on IN before the sentinel's, and returns their bits
(43_bitstream.md R218, R219). -/
theorem exec_decode {t : Tree} {ps : List (InWord × Bits)} {e rest : Bits} (hv : s.treeValid = true)
    (ht : s.tree = some t) (hps : ∀ p ∈ ps, t.follow p.2 = some (.leaf (symOfWord p.1)))
    (he : t.follow e = some (.leaf Config.eof)) (hin : s.inp = pathBits ps ++ e ++ rest) :
    ∃ u, Streamed s u ((pathBits ps).length + e.length) rest (wordBits (ps.map Prod.fst)) ∧
      exec .decode s = .next (u.doneWith (int64 (8 * ps.length : Nat))) := by
  obtain ⟨u, hrun, hst⟩ := decodeBody_spec ht hps he hin
  refine ⟨u, hst, ?_⟩
  rw [Nat.mul_comm 8]
  exact exec_of_ok (decode_admitted hi ho hv) (Cmd.bind_of_ok hrun)

/-- DECODE of words coded with the table of another machine `c`, whose tree stands in the node memory here
(43_bitstream.md R223). -/
theorem exec_decode_coded {c : State} {t : Tree} {xs : List InWord} {rest : Bits} (hv : s.treeValid = true)
    (ht : s.tree = some t) (hsz : t.size ≤ 513) (hC : c.CodesOf t) (hxs : ∀ w ∈ xs, symOfWord w ∈ t.leaves)
    (heof : Config.eof ∈ t.leaves) (hin : s.inp = c.codedWords xs ++ c.codeBits Config.eof ++ rest) :
    ∃ u, Streamed s u (c.codedWords xs ++ c.codeBits Config.eof).length rest (wordBits xs) ∧
      exec .decode s = .next (u.doneWith (int64 (8 * xs.length : Nat))) := by
  have hfollow : ∀ p ∈ c.codedPairs xs, t.follow p.2 = some (.leaf (symOfWord p.1)) := by
    intro p hp
    obtain ⟨w, hw, rfl⟩ := List.mem_map.1 hp
    exact hC.follow hsz ((hC.isSome _).2 (hxs w hw))
  rw [← pathBits_codedPairs] at hin
  obtain ⟨u, hst, hex⟩ := exec_decode hi ho hv ht hfollow (hC.follow hsz ((hC.isSome _).2 heof)) hin
  rw [pathBits_codedPairs, codedPairs_fst, ← List.length_append] at hst
  rw [State.codedPairs, List.length_map] at hex
  exact ⟨u, hst, hex⟩

end

/-- Settles O46: the encode loop over the words, then the sentinel's code. -/
theorem encodeRuns : Obligations.EncodeRuns := by
  intro s xs rest hi ho hv hc hin hr hcode heof
  obtain ⟨u, hst, hex⟩ := exec_encode hi ho hv hc hin hr hcode heof
  refine ⟨⟨u, _, hst, hex, holds64_int64 _⟩, ?_⟩
  rw [List.length_append, codedWords_length, codeLen_codeBits s Config.eof]

/-- Settles O47: the body raises at the word without a code, or at the sentinel behind the last word. -/
theorem encodeNoCode : Obligations.EncodeNoCode := by
  intro s xs rest hi ho hv hcode
  have ha := encode_admitted hi ho hv
  refine ⟨fun w hin hw => ?_, fun hc hin hr heof => ?_⟩
  · obtain ⟨u, hrun, hst⟩ := encodeBody_noCode hin hcode hw
    exact ⟨u, hst, exec_of_raise ha (Cmd.bind_of_error hrun)⟩
  · obtain ⟨u, hrun, hst⟩ := encodeBody_noEof hin hr hc hcode heof
    exact ⟨u, hst, exec_of_raise ha (Cmd.bind_of_error hrun)⟩

/-- Settles O48: the walk along each path, or a root that is the sentinel's leaf. -/
theorem decodeRuns : Obligations.DecodeRuns := by
  intro s t ps e rest hi ho hv ht hps he hin
  obtain ⟨u, hst, hex⟩ := exec_decode hi ho hv ht hps he hin
  exact ⟨u, _, hst, hex, holds64_int64 _⟩

/-- Settles O49: the root is looked at before any read, and a walk that stands at an internal record needs a bit. -/
theorem decodeErrors : Obligations.DecodeErrors := by
  intro s t hi ho hv ht
  have ha := decode_admitted hi ho hv
  refine ⟨fun y hleaf hy => ?_, fun ps e a b hps he hin hc => ?_⟩
  · exact exec_of_raise ha (Cmd.bind_of_error (decodeBody_badTree (hleaf ▸ ht) hy))
  · obtain ⟨u, hrun, hst⟩ := decodeBody_endOfInput ht hps he hin hc
    exact ⟨u, hst, exec_of_raise ha (Cmd.bind_of_error hrun)⟩

/-- Settles O50: ENCODE writes the paths of the words' leaves and of the sentinel's, which DECODE follows. -/
theorem encodeDecode : Obligations.EncodeDecode := by
  intro s v t xs rest more hsi hso hsv hsc hse hin hr hsz hC hxs heof hvi hvo hvv hvt hve
  have hcodes : s.CodesOf t := hC
  obtain ⟨u, hst, hex⟩ := exec_encode hsi hso hsv hsc hin hr (fun w hw => (hcodes.isSome _).2 (hxs w hw))
    ((hcodes.isSome _).2 heof)
  refine ⟨_, _, hex, hst.out hse, fun hvin => ?_⟩
  obtain ⟨w, hwst, hwex⟩ := exec_decode_coded hvi hvo hvv hvt hsz hcodes hxs heof hvin
  refine ⟨_, hwex, rfl, hwst.out hve, hwst.inp, hwst.inBits, ?_⟩
  rw [doneWith_result]
  exact holds64_int64 _

end Sys2Proof.Machine
end

section
/-! PROOFS. The pipeline's commands and CLEAR: what PREPASS retains, what COMMIT of it writes, and how DECOMPRESS goes
through a stream or rejects it (44_pipeline.md R230 to R250). -/

namespace Sys2Proof.Machine

/-- OUT_BITS counts the bits written (10_state.md R50). -/
theorem Streamed.outBits {s u : State} {n : Nat} {rest b : Bits} (h : Streamed s u n rest b) :
    Holds64 u.outBits (s.outBits.toNat + b.length) := by
  obtain ⟨ib, ob, rfl, -, ho⟩ := h
  exact ho

theorem Streamed.error {s u : State} {n : Nat} {rest b : Bits} (h : Streamed s u n rest b) : u.error = s.error := by
  obtain ⟨ib, ob, rfl, -, -⟩ := h
  rfl

theorem Streamed.freq {s u : State} {n : Nat} {rest b : Bits} (h : Streamed s u n rest b) : u.freq = s.freq := by
  obtain ⟨ib, ob, rfl, -, -⟩ := h
  rfl

/-- A run of reads and writes is one whatever FREQ holds. -/
theorem Streamed.setFreq {s u : State} {n : Nat} {rest b : Bits} (h : Streamed s u n rest b)
    (f : Table (BitVec 32) 256) : Streamed { s with freq := f } { u with freq := f } n rest b := by
  obtain ⟨ib, ob, rfl, hi, ho⟩ := h
  exact ⟨ib, ob, rfl, hi, ho⟩

/-- A header field that the bits left behind a run do not hold (44_pipeline.md R240, R241). -/
theorem Streamed.readField_truncated {s u : State} {n : Nat} {rest b : Bits} (h : Streamed s u n rest b)
    (hr : rest.length < 32) (hc : s.inClosed = true) : readField u = .error (.raise .truncated) u :=
  Machine.readField_truncated (h.inp.symm ▸ hr) (h.inClosed.trans hc)

/-- CLEAR completes with the block at its reset values, but for CONFIG and DONE (44_pipeline.md R250). -/
theorem exec_clear (s : State) :
    exec .clear s = .next ({ s.blockReset with seq := s.seq, config := s.config }.doneWith 0) :=
  int64_zero ▸ exec_of_ok (i := .clear) rfl rfl

/-- Settles O30: of the state CLEAR leaves, STATUS shows DONE alone. -/
theorem clearRuns : Obligations.ClearRuns := by
  refine ⟨decode_encode .clear, fun s => ⟨_, exec_clear s, rfl, ?_, Bool.and_true s.config.irqEn⟩⟩
  show ({ State.reset with done := true } : State).statusWord = 2
  decide

/-- Settles O52: COMMIT looks at FORCE and SAVED before it moves a bit. -/
theorem commitRefuses : Obligations.CommitRefuses := fun s hi ho hp hs =>
  int64_zero ▸ exec_of_ok (commit_admitted hi ho hp false) (commitBody_refuses Config.params (s := s.clearPrepass) hs)

/-- Settles O51: the body counts, builds and derives the codes, and in the sound state it leaves EST and SAVED are the
estimate and the bits saved. -/
theorem prepassRuns : Obligations.PrepassRuns := by
  intro s f xs rest hat hc hin hr hcnt
  obtain ⟨u, t, hrun, hu, hib, hfreq, hbuilt, hcodes⟩ := prepassBody_spec f (s := s.clearAllValid) hin hr hc hcnt
  have hsound := ((prepassBody_retained f (s := s.clearAllValid) hin hr hc hcnt fun _ _ => True).ok hrun).1
  obtain ⟨-, -, -, hest, hsaved⟩ := hsound.prepass (congrArg State.prepassValid hu)
  have hfmt : u.fmt = f := congrArg State.fmt hu
  have hwords : u.inwords.toNat = xs.length := by
    rw [show u.inwords = BitVec.ofNat 64 xs.length from congrArg State.inwords hu, BitVec.toNat_ofNat]
    exact Nat.mod_eq_of_lt ((length_lt_of_counts hcnt).trans (by decide))
  refine ⟨u, t, ⟨_, _, _, _, _, _, _, _, hu⟩, hib, hfreq, hbuilt, hcodes, ?_, ?_, ?_⟩
  · rw [hest, hfmt, estimate_sum]
  · rw [hsaved, hwords, Int.mul_comm]
  · have hresult := congrArg State.saved hu
    exact hresult ▸ exec_of_ok (i := .prepass f) (admitted (fun _ => hat) nofun rfl) hrun

/-- While PREPASS_VALID the invariant retains whatever input FREQ counts (44_pipeline.md R236). -/
theorem State.Inv.retains {s : State} (h : s.Inv) (hp : s.prepassValid = true) {xs : List InWord}
    (hfreq : ∀ w, (s.freqAt w).toNat = xs.count w) : ∃ t, s.Retains s.fmt xs t := by
  obtain ⟨-, hv, ⟨t, hbuilt⟩, hest, -⟩ := h.prepass hp
  obtain ⟨-, t', ht', hcodes⟩ := h.codes hv
  obtain rfl : t' = t := Option.some.inj (ht'.symm.trans hbuilt.tree)
  exact ⟨t', hp, rfl, hfreq, hbuilt, hcodes, by rw [← hest, count64_toNat_self]⟩

/-- Settles O54: COMMIT writes the stream of the words retained, and OUT_BITS, 0 at acceptance, counts its bits. -/
theorem commitEqualsEst : Obligations.CommitEqualsEst := by
  intro s force xs rest hinv hbusy hp hi ho hc hin hr hfreq hgo
  obtain ⟨t, hret⟩ := hinv.retains hp hfreq
  obtain ⟨hcode, heof⟩ := Built.coded hret.built hret.codes hfreq
  obtain ⟨hrun, -, -⟩ := commitRuns s force t xs rest hi ho hp hgo hret.built.tree hret.built.treeBits hcode
  obtain ⟨u, hst, hex⟩ := hrun hc hin hr heof
  obtain ⟨-, herr, -, -, -, hob⟩ := hinv.busy hbusy
  have hout : u.outBits = s.est := by
    have hlt : s.estimate s.fmt < 2 ^ 64 := (estimate_lt hret.built s.fmt).trans (by decide)
    have hcount : s.outBits.toNat + (s.stream xs t).length = s.estimate s.fmt := by
      rw [hob, hret.stream_length]
      exact Nat.zero_add _
    rw [hret.est, count64_of_lt hlt]
    exact hst.outBits.of_eq hcount hlt
  exact ⟨_, hex, rfl, hst.error.trans herr, hout, hout⟩

/-- DECOMPRESS behind a header read: it writes the words whose paths stand on IN before the sentinel's, and returns their
bits (44_pipeline.md R245, R246). -/
theorem exec_decompress_walk {s v u : State} {t : Tree} {ps : List (InWord × Bits)} {e rest : Bits} {n : Nat}
    (hi : s.config.inAttached = true) (ho : s.config.outAttached = true)
    (hhead : readHeader Config.params s.clearAllValid = .ok () u) (hu : Streamed v u n (pathBits ps ++ e ++ rest) [])
    (htree : u.tree = some t) (hps : ∀ p ∈ ps, t.follow p.2 = some (.leaf (symOfWord p.1)))
    (he : t.follow e = some (.leaf Config.eof)) :
    ∃ w r, Streamed v w (n + ((pathBits ps).length + e.length)) rest (wordBits (ps.map Prod.fst)) ∧
      exec .decompress s = .next (w.doneWith r) ∧ Holds64 r (8 * ps.length) := by
  obtain ⟨w, hbody, hw⟩ := decodeBody_spec htree hps he hu.inp
  have hrun : (commandOf .decompress).body s.clearAllValid = .ok ((ps.length * 8 : Nat) : Int) w :=
    (Cmd.bind_of_ok hhead).trans (Cmd.bind_of_ok hbody)
  refine ⟨w, _, hu.trans hw, exec_of_ok (decompress_admitted hi ho) hrun, ?_⟩
  rw [Nat.mul_comm 8]
  exact holds64_int64 _

/-- Settles O55: the header leaves the tree of its counts, or the tree it holds, and the walk goes on from it. -/
theorem decompressRuns : Obligations.DecompressRuns := by
  intro s t ps e rest hi ho hib hps he
  refine ⟨fun f ht hin => ?_, fun d hsz hin => ?_⟩
  · obtain ⟨u, ns, root, tb, hhead, hbuilt, hst⟩ := readHeader_builtWith ht hin
    have htree : u.tree = some t := by rw [State.tree, hst.nodes, hst.root]; exact hbuilt.tree
    obtain ⟨w, r, hw, hex, hr⟩ := exec_decompress_walk hi ho hhead hst htree hps he
    exact ⟨_, w, r, ⟨ns, root, tb, rfl⟩, hbuilt, hw, hex, hr⟩
  · obtain ⟨u, hhead, htree, hst⟩ := readHeader_stfWith hin hsz hib
    exact exec_decompress_walk hi ho hhead hst htree hps he

section
variable {p : StreamParams} {s u v w : State} {e : Stop}

/-- The header reader stops where the read of the magic number does (44_pipeline.md R241). -/
theorem readHeader_error_magic (h : readField s = .error e u) : readHeader p s = .error e u := Cmd.bind_of_error h

/-- The header reader behind its magic number stops where the read of the tag does (44_pipeline.md R242). -/
theorem readHeader_error_tag (hm : readField s = .ok p.magic u) (h : readField u = .error e v) :
    readHeader p s = .error e v := by
  rw [readHeader, Cmd.bind_of_ok hm, if_neg (not_not.2 rfl), Cmd.bind_of_error h]

/-- The header reader behind the tag of SCF stops where the read of the counts does (44_pipeline.md R243). -/
theorem readHeader_error_counts (hm : readField s = .ok p.magic u) (ht : readField u = .ok p.tagScf v)
    (h : readCounts ordinarySymbols v = .error e w) : readHeader p s = .error e w := by
  rw [readHeader, Cmd.bind_of_ok hm, if_neg (not_not.2 rfl), Cmd.bind_of_ok ht,
    if_pos rfl, Cmd.bind_of_error h]

/-- The header reader behind the tag of STF stops where `readStf` does (44_pipeline.md R244). -/
theorem readHeader_error_stf (hp : p.tagStf ≠ p.tagScf) (hm : readField s = .ok p.magic u)
    (ht : readField u = .ok p.tagStf v) (h : readStf v = .error e w) : readHeader p s = .error e w := by
  rw [readHeader, Cmd.bind_of_ok hm, if_neg (not_not.2 rfl), Cmd.bind_of_ok ht,
    if_neg hp, if_pos rfl, Cmd.bind_of_error h]

/-- An error of the header reader is DECOMPRESS's (60_exceptions.md R266). -/
theorem exec_decompress_header_error {c : ErrCode} (hi : s.config.inAttached = true)
    (ho : s.config.outAttached = true) (h : readHeader Config.params s.clearAllValid = .error (.raise c) u) :
    exec .decompress s = .next (u.failedWith c) :=
  exec_of_raise (decompress_admitted hi ho) (Cmd.bind_of_error h)

end

/-- Settles O56: the header reader raises the error at the field that is wrong or missing, the fields before it read. -/
theorem decompressRejects : Obligations.DecompressRejects := by
  intro s v rest hi ho hv
  obtain rfl : v = s.clearAllValid := hv
  refine ⟨fun m hm hin => ?_, fun hc hlen => ?_, fun b hin => ?_⟩
  · obtain ⟨u, hrun, hst⟩ := readHeader_badMagic Config.params (s := s.clearAllValid) hin hm
    exact ⟨u, hst, exec_decompress_header_error hi ho hrun⟩
  · exact exec_decompress_header_error hi ho
      (readHeader_error_magic (readField_truncated (s := s.clearAllValid) hlen hc))
  · obtain ⟨u, hmagic, hu⟩ := readField_spec (s := s.clearAllValid) hin
    refine ⟨fun hc hlen => ?_, fun g hscf hstf hb => ?_, fun cs hc hcs hr hb => ?_, fun hc hr hb => ?_⟩
    · have htag := hu.readField_truncated hlen hc
      exact ⟨u, hu, exec_decompress_header_error hi ho (readHeader_error_tag hmagic htag)⟩
    · obtain ⟨w, hrun, hst⟩ := readHeader_badTag Config.params (s := s.clearAllValid) (hb ▸ hin) hscf hstf
      exact ⟨w, hst, exec_decompress_header_error hi ho hrun⟩
    · obtain ⟨w, htag, hw⟩ := readField_spec (hu.inp.trans hb)
      have huw := hu.trans hw
      obtain ⟨x, f, hx, hf, hcounts⟩ := readCounts_truncated huw.inp hcs hr (huw.inClosed.trans hc)
      have hrows : f.rows = cs ++ s.freq.rows.drop cs.length := huw.freq ▸ hf
      exact ⟨_, f, (huw.trans hx).setFreq f, hrows,
        exec_decompress_header_error hi ho (readHeader_error_counts hmagic htag hcounts)⟩
    · obtain ⟨w, htag, hw⟩ := readField_spec (hu.inp.trans hb)
      have huw := hu.trans hw
      have hdecl : readStf w = .error (.raise .truncated) w := Cmd.bind_of_error (huw.readField_truncated hr hc)
      exact ⟨w, huw, exec_decompress_header_error hi ho (readHeader_error_stf tags_distinct hmagic htag hdecl)⟩

end Sys2Proof.Machine
end

section
/-! PROOFS. Admission, the completion of a command and the irq output: the ports and the flag a command needs, the
errors it completes with, and the level they drive (60_exceptions.md R261 to R266, R270). -/

namespace Sys2Proof.Machine

/-- The commands of the column IN (60_exceptions.md R263). -/
theorem needsIn_iff (i : Instr) : needsIn i = true ↔
    i ∈ [.count, .deserialize, .encode, .decode, .prepass .scf, .prepass .stf, .commit false, .commit true,
      .decompress] := by
  cases i with
  | prepass f => cases f <;> simp [needsIn]
  | commit b => cases b <;> simp [needsIn]
  | _ => simp [needsIn]

/-- The commands of the column OUT (60_exceptions.md R263). -/
theorem needsOut_iff (i : Instr) : needsOut i = true ↔
    i ∈ [.serialize, .encode, .decode, .commit false, .commit true, .decompress] := by
  cases i with
  | commit b => cases b <;> simp [needsOut]
  | _ => simp [needsOut]

section
variable {i : Instr} {s t : State}

/-- The ports are checked first (60_exceptions.md R262, R263). -/
theorem admission_invalidArg_iff : (commandOf i).admission s = some .invalidArg ↔
    (needsIn i = true ∧ s.config.inAttached = false) ∨ (needsOut i = true ∧ s.config.outAttached = false) := by
  rw [admission_eq]
  split
  · next hport => simpa using hport
  · next hport =>
    have hno : ¬((needsIn i = true ∧ s.config.inAttached = false) ∨
        (needsOut i = true ∧ s.config.outAttached = false)) := by simpa using hport
    refine iff_of_false (fun h => ?_) hno
    split at h <;> cases h

/-- A failed sequence check is the needed flag's (60_exceptions.md R264). -/
theorem neededFlag_of_sequence (h : (commandOf i).admission s = some .sequence) : neededFlag i s = false := by
  rw [admission_eq] at h
  split at h
  · cases h
  · split at h
    · next hflag => simpa using hflag
    · cases h

/-- A command whose port is not attached (60_exceptions.md R262, R263). -/
theorem exec_of_port (h : (needsIn i = true ∧ s.config.inAttached = false) ∨
    (needsOut i = true ∧ s.config.outAttached = false)) : exec i s = .next (s.failedWith .invalidArg) :=
  exec_of_admission (admission_invalidArg_iff.2 h)

/-- A command whose ports are attached and whose flag is 0 (60_exceptions.md R262, R264). -/
theorem exec_of_flag (hi : needsIn i = true → s.config.inAttached = true)
    (ho : needsOut i = true → s.config.outAttached = true) (hf : neededFlag i s = false) :
    exec i s = .next (s.failedWith .sequence) := by
  refine exec_of_admission ?_
  have hport : ¬((needsIn i && !s.config.inAttached) || (needsOut i && !s.config.outAttached)) = true := by
    simpa using ⟨hi, ho⟩
  rw [admission_eq, if_neg hport, hf]
  rfl

/-- An admission error is one of the command's row (60_exceptions.md R261). -/
theorem admission_raisedBy {e : ErrCode} (h : (commandOf i).admission s = some e) : e ∈ raisedBy i := by
  obtain rfl | rfl := admission_error h
  · have hport : needsIn i = true ∨ needsOut i = true := (admission_invalidArg_iff.1 h).imp And.left And.left
    cases i <;> simp [needsIn, needsOut, raisedBy] at hport ⊢
  · have hflag := neededFlag_of_sequence h
    cases i <;> simp [neededFlag, raisedBy] at hflag ⊢

/-- Where a command's pseudocode ends or stops, ERR is as it was before, or CLEAR has cleared it. -/
theorem body_error_of_some {e : ErrCode}
    (h : ((commandOf i).body.after ((commandOf i).clears s)).error = some e) : s.error = some e := by
  by_cases hi : i = .clear
  · subst hi
    cases h
  · obtain ⟨-, he, -⟩ := body_completion hi ((commandOf i).clears s)
    have hc : ((commandOf i).clears s).error = s.error := congrArg (fun c => c.2.2.1) (clears_control i s).1
    exact (he.trans hc).symm.trans h

/-- An admission error that a command newly shows comes from its admission: no pseudocode raises one
(60_exceptions.md R262). -/
theorem admission_of_exec_error {e : ErrCode} (he : e = .invalidArg ∨ e = .sequence) (hs : s.error ≠ some e)
    (ht : exec i s = .next t) (hte : t.error = some e) : (commandOf i).admission s = some e := by
  obtain ⟨e', ha, rfl⟩ | ⟨-, ⟨r, u, hu, rfl⟩ | ⟨e', u, hu, rfl⟩ | ⟨u, -, rfl⟩⟩ := exec_next ht
  · exact ha.trans hte
  · exact absurd (body_error_of_some ((congrArg State.error (Cmd.after_of_ok hu)).trans hte)) hs
  · obtain rfl := Option.some.inj hte
    have hlate := (List.mem_filter.1 (body_raises_late i _ e' u hu)).2
    simp only [decide_eq_true_eq] at hlate
    exact (he.elim hlate.1 hlate.2).elim
  · exact absurd hte hs

/-- The states a running command completes in: its pseudocode's end with DONE, or, with an error of its row, the state
at admission or the one the pseudocode has reached (60_exceptions.md R262, R265, R266). -/
theorem exec_completed (hb : s.busy = true) (ht : exec i s = .next t) (hidle : t.busy = false) :
    (∃ r, t = ((commandOf i).body.after ((commandOf i).clears s)).doneWith r) ∨
    ∃ e ∈ raisedBy i, t = s.failedWith e ∨ t = ((commandOf i).body.after ((commandOf i).clears s)).failedWith e := by
  obtain ⟨e, ha, rfl⟩ | ⟨-, ⟨r, u, hu, rfl⟩ | ⟨e, u, hu, rfl⟩ | ⟨u, -, rfl⟩⟩ := exec_next ht
  · exact .inr ⟨e, admission_raisedBy ha, .inl rfl⟩
  · exact .inl ⟨int64 r, by rw [Cmd.after_of_ok hu]⟩
  · exact .inr ⟨e, body_raises i _ e u hu, .inr (by rw [Cmd.after_of_error hu])⟩
  · exact absurd (hb.symm.trans hidle) nofun

/-- With DONE or ERR set, irq is IRQ_EN (60_exceptions.md R270). -/
theorem irq_doneWith (u : State) (r : BitVec 64) : (u.doneWith r).irq = u.config.irqEn := Bool.and_true _

theorem irq_failedWith (u : State) (e : ErrCode) : (u.failedWith e).irq = u.config.irqEn := by
  simp [State.irq, State.failedWith]

/-- With DONE and ERR clear, irq is 0 (60_exceptions.md R270). -/
theorem irq_eq_false (hd : t.done = false) (he : t.error = none) : t.irq = false := by
  simp [State.irq, hd, he]

/-- What an aligned write leaves while IDLE, `rst` released (20_memory.md R81). -/
theorem eq_writeReg_of_writes {off : BitVec 12} {v : Word} (hs : s.seq = .idle) (hr : s.rstHeld = false)
    (hoff : off.toNat % 4 = 0) (h : Writes s off v t) : t = s.writeReg (regAt off) v :=
  Host.Outcome.next.inj (h.symm.trans (writes_idle hs hr hoff v))

end

/-- Settles O24: admission answers INVALID_ARG exactly for the commands of the two columns, and nothing else does. -/
theorem portAdmission : Obligations.PortAdmission := by
  intro s f b
  refine ⟨fun hin i hi => ?_, fun hout i hi => ?_, fun i t hs ht hte => ?_⟩
  · have hneeds : needsIn i = true := by revert i; simp [needsIn]
    exact exec_of_port (.inl ⟨hneeds, hin⟩)
  · have hneeds : needsOut i = true := by revert i; simp [needsOut]
    exact exec_of_port (.inr ⟨hneeds, hout⟩)
  · have hport := admission_invalidArg_iff.1 (admission_of_exec_error (.inl rfl) hs ht hte)
    rw [needsIn_iff, needsOut_iff] at hport
    exact hport.imp And.symm And.symm

/-- Settles O25: behind the port check the needed flag decides, and nothing but admission answers SEQUENCE. -/
theorem sequenceAdmission : Obligations.SequenceAdmission := by
  intro s b
  refine ⟨fun hf => exec_of_flag nofun nofun hf, fun hf ho => exec_of_flag nofun (fun _ => ho) hf,
    fun hi ho => ?_, fun i t hs ht hte => ?_⟩
  · have needs {j : Instr} (hf : neededFlag j s = false) : exec j s = .next (s.failedWith .sequence) :=
      exec_of_flag (fun _ => hi) (fun _ => ho) hf
    exact ⟨fun hf => needs hf, fun hf => needs hf, fun hf => needs hf⟩
  · have hflag := neededFlag_of_sequence (admission_of_exec_error (.inr rfl) hs ht hte)
    cases i with
    | codegen => exact .inl ⟨rfl, hflag⟩
    | serialize => exact .inr (.inl ⟨rfl, hflag⟩)
    | decode => exact .inr (.inr (.inl ⟨rfl, hflag⟩))
    | encode => exact .inr (.inr (.inr (.inl ⟨rfl, hflag⟩)))
    | commit force => exact .inr (.inr (.inr (.inr ⟨⟨force, rfl⟩, hflag⟩)))
    | _ => cases hflag

/-- Settles O26: neither DONE nor ERR is set while the command runs, so the completion alone says which one is. -/
theorem completion : Obligations.Completion := by
  intro s t i h hb ht hidle
  obtain ⟨hdone, herr, -⟩ := body_running h hb i
  obtain ⟨r, rfl⟩ | ⟨e, he, rfl | rfl⟩ := exec_completed hb ht hidle
  · exact .inl ⟨rfl, herr⟩
  · exact .inr ⟨(h.busy hb).1, rfl, e, he, rfl⟩
  · exact .inr ⟨hdone, rfl, e, he, rfl⟩

/-- Settles O20: a completion sets DONE or ERR and leaves CONFIG, and the two writes leave both clear. -/
theorem irqLevel : Obligations.IrqLevel := by
  refine ⟨fun _ => rfl, fun s t i hb ht hidle => ?_, fun s t hs hr hw => ?_, fun s t c hs hr hw => ?_⟩
  · obtain ⟨⟨hconfig, -⟩, -⟩ := commandFrame s t i ht
    rw [← hconfig]
    obtain ⟨r, rfl⟩ | ⟨e, -, rfl | rfl⟩ := exec_completed hb ht hidle
    · exact irq_doneWith _ r
    · exact irq_failedWith _ e
    · exact irq_failedWith _ e
  · obtain rfl := eq_writeReg_of_writes hs hr (by decide) hw
    exact irq_eq_false (Bool.and_false _) rfl
  · obtain rfl := eq_writeReg_of_writes hs hr (by decide) hw
    exact irq_eq_false rfl rfl

end Sys2Proof.Machine
end

section
/-! PROOFS. A command that reads words until the end of input waits while IN is open, whatever the host has pushed
(70_reset_and_hazards.md R303). -/

namespace Sys2Proof.Machine

/-- What comes first may end, if it never touches IN's `closed`. -/
theorem Cmd.NeedsEnd.after_keeps {α β : Type} {x : Cmd α} {f : α → Cmd β} (hx : x.Keeps State.inClosed)
    (h : ∀ a, (f a).NeedsEnd) : (x >>= f).NeedsEnd :=
  .after (fun s a t hrun => by rw [← hx s, Cmd.after_of_ok hrun]) h

/-- A COMMIT that does not refuse writes its header and then reads the body's words (44_pipeline.md R235, R238). -/
theorem commitBody_ne_ok (p : StreamParams) {force : Bool} {s t : State} {r : Int}
    (hgo : force = true ∨ 0 < s.saved.toInt) (ho : s.inClosed = false) : commitBody p force s ≠ .ok r t := by
  have hwrite : (writeBits 32 p.magic.toNat >>= fun _ => writeHeader p >>= fun _ => encodeBody >>= fun _ =>
      now >>= fun u => pure (u.outBits.toNat : Int) : Cmd Int).NeedsEnd :=
    .after_keeps (.writeBits (fun _ _ _ _ => rfl) _ _) fun _ => .after_keeps (.writeHeader (fun _ _ _ _ => rfl) p)
      fun _ => Cmd.NeedsEnd.encodeBody.bind
  have hgo' : ¬(!force && decide (s.saved.toInt ≤ 0)) = true := by
    obtain rfl | h := hgo
    · simp
    · simp [h]
  rw [commitBody, Cmd.now_bind, if_neg hgo']
  exact hwrite s r t ho

/-- Where a command's pseudocode ends or stops, DONE is still clear: only completion sets it (60_exceptions.md R265). -/
theorem body_done_clear (i : Instr) {s : State} (h : s.done = false) :
    ((commandOf i).body.after ((commandOf i).clears s)).done = false := by
  by_cases hi : i = .clear
  · subst hi
    rfl
  · obtain ⟨hbody, -, -⟩ := body_completion hi ((commandOf i).clears s)
    have hclears : ((commandOf i).clears s).done = s.done := congrArg (fun c => c.2.1) (clears_control i s).1
    exact hbody.trans (hclears.trans h)

/-- A command whose pseudocode has no successful end does not set DONE: it fails or waits (60_exceptions.md
R265, R266). -/
theorem exec_done_clear {i : Instr} {s t : State} (hd : s.done = false)
    (hbody : ∀ r u, (commandOf i).body ((commandOf i).clears s) ≠ .ok r u) (ht : exec i s = .next t) :
    t.done = false := by
  obtain ⟨e, -, rfl⟩ | ⟨-, ⟨r, u, hu, -⟩ | ⟨e, u, hu, rfl⟩ | ⟨u, -, rfl⟩⟩ := exec_next ht
  · exact hd
  · exact absurd hu (hbody r u)
  · exact Cmd.after_of_error hu ▸ body_done_clear i hd
  · exact hd

/-- Settles O23: each of the four pseudocodes runs into a loop that only the end of input ends. -/
theorem openInputWaits : Obligations.OpenInputWaits := by
  intro s t i ho hd ht hi
  have hopen : ((commandOf i).clears s).inClosed = false := (clears_inClosed i s).trans ho
  refine exec_done_clear hd (fun r u => ?_) ht
  obtain rfl | rfl | ⟨f, rfl⟩ | rfl | ⟨rfl, hsaved⟩ := hi
  · exact Cmd.NeedsEnd.countBody.bind _ _ _ hopen
  · exact Cmd.NeedsEnd.encodeBody.bind _ _ _ hopen
  · exact Cmd.NeedsEnd.countBody.bind _ _ _ hopen
  · exact commitBody_ne_ok Config.params (.inl rfl) hopen
  · exact commitBody_ne_ok Config.params (s := s.clearPrepass) (.inr hsaved) hopen

end Sys2Proof.Machine
end

section
/-! PROOFS. The reset input: what asserting it leaves of the block and of the ports, and that the block stays at its
reset values until a release (70_reset_and_hazards.md R290, R291). -/

namespace Sys2Proof.Machine

theorem drawUpTo_le (k n : Nat) : drawUpTo k n ≤ n := Nat.le_of_lt_succ (Nat.mod_lt _ n.succ_pos)

/-- While BUSY a drawn number of the first pending output bits goes on OUT (20_memory.md R94). -/
theorem emitEarly_busy {s : State} {c : Word} (hs : s.seq = .busy c) : s.emitEarly = { s with
    out := s.out ++ s.pendingOut.take (drawUpTo s.draws s.pendingOut.length)
    outEarly := s.outEarly + (s.pendingOut.take (drawUpTo s.draws s.pendingOut.length)).length
    draws := s.draws + 1 } := by
  simp only [State.emitEarly, hs]

/-- A reset while BUSY takes a drawn number of the first pending input bits (R291). -/
theorem loseInput_busy {s : State} {c : Word} (hs : s.seq = .busy c) : s.loseInput = { s with
    inp := s.inp.drop (drawUpTo s.draws s.pendingIn), draws := s.draws + 1 } := by
  simp only [State.loseInput, hs]

/-- A reset while IDLE leaves the ports as they are (R291). -/
theorem hardReset_idle {s : State} (hs : s.seq = .idle) : s.hardReset = s.blockReset := by
  rw [State.hardReset, emitEarly_idle hs, loseInput_idle hs]

/-- A reset while BUSY: the first bits of the pending output are on OUT, those of the pending input gone (R291). -/
theorem hardReset_busy {s : State} {c : Word} (hs : s.seq = .busy c) : s.hardReset =
    State.blockReset { s with
      inp := s.inp.drop (drawUpTo (s.draws + 1) s.pendingIn)
      out := s.out ++ s.pendingOut.take (drawUpTo s.draws s.pendingOut.length), draws := s.draws + 1 + 1 } := by
  have hbusy : s.emitEarly.seq = .busy c := by rw [emitEarly_busy hs, hs]
  rw [State.hardReset, loseInput_busy hbusy, pendingIn_emitEarly, emitEarly_busy hs]
  rfl

/-- What a reset takes from IN and puts on OUT are the first bits of what the running command would have read and
written, and none while IDLE (R290, R291). -/
theorem hardReset_eq_blockReset (s : State) : ∃ n m d,
    n ≤ s.pendingIn ∧ m ≤ s.pendingOut.length ∧ (s.seq = .idle → n = 0 ∧ m = 0) ∧
    s.hardReset = State.blockReset { s with inp := s.inp.drop n, out := s.out ++ s.pendingOut.take m, draws := d } := by
  obtain hs | ⟨c, hs⟩ := seq_cases s
  · refine ⟨0, 0, s.draws, Nat.zero_le _, Nat.zero_le _, fun _ => ⟨rfl, rfl⟩, ?_⟩
    rw [hardReset_idle hs, List.drop_zero, List.take_zero, List.append_nil]
  · exact ⟨_, _, _, drawUpTo_le _ _, drawUpTo_le _ _, fun hi => absurd (hi.symm.trans hs) nofun, hardReset_busy hs⟩

theorem driveRst_released {s : State} (h : s.rstHeld = false) : s.driveRst false = s := by
  simp [State.driveRst, h]

theorem hostWrite_held {s : State} (h : s.rstHeld = true) (r : Reg) (v : Word) : s.hostWrite r v = s := if_pos h

/-- A read of the block at its reset values gives the register's reset value (10_state.md R55). -/
theorem readReg_blockReset (s : State) (r : Reg) : s.blockReset.readReg r = State.reset.readReg r := by
  cases r <;> rfl

/-- While `rst` is asserted every step leaves the block at its reset values, and only a release ends that (R290). -/
theorem step_held {s t : State} (h : s.rstHeld = true) (hb : s = s.blockReset) (ht : step s = .next t) :
    t = t.blockReset ∧ (t.rstHeld = true ∨ ∃ ms, s.agenda = .host (.rst false) :: ms) := by
  cases ha : s.agenda with
  | nil =>
    rw [step_agenda_nil ha, sequencerStep_inert (.inr h)] at ht
    cases ht
    exact ⟨hb, .inl h⟩
  | cons m ms =>
    cases m with
    | sequencer =>
      rw [step_agenda_sequencer ha, sequencerStep_inert (s := { s with agenda := ms }) (.inr h)] at ht
      cases ht
      exact ⟨blockReset_of_parts hb rfl, .inl h⟩
    | host a =>
      rw [step_agenda_host ha] at ht
      obtain ⟨hbt, hrst⟩ := hostStep_held (s := { s with agenda := ms }) h (blockReset_of_parts hb rfl) ht
      exact ⟨hbt, hrst.imp_right fun hrel => ⟨ms, by rw [hrel]⟩⟩

/-- Settles O18: a reset draws how much it takes and puts out and resets the block, whose registers then read as at
reset, and while `rst` is asserted every move keeps it there. -/
theorem hardReset : Obligations.HardReset := by
  refine ⟨fun s => ?_, fun s hr => congrArg Host.Outcome.next (driveRst_released hr),
    fun s hr => ⟨fun off v hoff => ?_, sequencerStep_inert (.inr hr),
      fun hb => ⟨fun off hoff => ?_, ?_, fun t => step_held hr hb⟩⟩⟩
  · obtain ⟨n, m, d, hn, hm, hidle, hreset⟩ := hardReset_eq_blockReset s
    refine ⟨n, m, d, hn, hm, hidle, ?_⟩
    rw [hostStep, State.driveRst, Bool.true_or, if_pos rfl, hreset]
    rfl
  · exact (hostStep_write hoff s v).trans (congrArg Host.Outcome.next (hostWrite_held hr _ v))
  · have hs : s.seq = .idle := by rw [hb]; rfl
    exact readsAs_of_reg hs hoff (by rw [hb, readReg_blockReset])
  · exact congrArg Host.Outcome.next (driveRst_held hr hb false)

end Sys2Proof.Machine
end
